-- ==== Sys2Proof/Word.lean ====
section
/-! DEFINITION. The widths the manual gives (00, 5.2 to 5.4) and their plainest arithmetic. -/

namespace Sys2Proof

/-- One byte on the two-wire bus. -/
abbrev Byte := BitVec 8
/-- A management register (00, 5.4). -/
abbrev Half := BitVec 16
/-- A word of an in-memory structure, a stamp or a 32-bit counter (00, 5.3). -/
abbrev Word := BitVec 32
/-- A physical address (00, 5.2). -/
abbrev Addr := BitVec 40
/-- A block number: a block's address divided by 256 (00, section 4). -/
abbrev Block := BitVec 32
/-- A requester on the fabric, 0 to 15. -/
abbrev Initiator := BitVec 4
/-- A set of initiators, one member per initiator. -/
abbrev InitSet := BitVec 16
/-- One member per byte of a line (R46). -/
abbrev ByteMask := BitVec 64

/-- Sixteen bytes as four little-endian words, word 0 at the lowest address (00, 5.3). -/
structure Quad where
  w0 : Word
  w1 : Word
  w2 : Word
  w3 : Word
  deriving DecidableEq, Repr

/-- A 64-byte line as four quads, the one at the lowest address first. -/
structure Line where
  q0 : Quad
  q1 : Quad
  q2 : Quad
  q3 : Quad
  deriving DecidableEq, Repr

def Quad.zero : Quad := ⟨0, 0, 0, 0⟩

def Line.zero : Line := ⟨Quad.zero, Quad.zero, Quad.zero, Quad.zero⟩

/-- One more, staying at the greatest value (R54, R63, R112). -/
def satInc {n : Nat} (w : BitVec n) : BitVec n :=
  if w = BitVec.allOnes n then w else w + 1

end Sys2Proof
end

