-- ==== Sys2Proof/Syntax.lean ====
section
/-! DEFINITION. The commands: one constructor for each row of spec/opcode_table.json, in its order. -/

namespace Sys2Proof

/-- What the memory side answers (R132). -/
inductive Answer where
  | data (line : Line)
  | done
  | error
  deriving DecidableEq, Repr

/-- The registers of ALERT_THRESHOLD_WRITE (R165). -/
inductive AlertReg where
  | tableUpper | tableLower | poolUpper | poolLower | alertMode
  deriving DecidableEq, Repr

/-- The registers of DRAIN_THRESHOLD_WRITE (R140). -/
inductive DrainReg where
  | drainHigh | drainLow
  deriving DecidableEq, Repr

/-- The lifetime peaks (R169). -/
inductive Peak where
  | occ | pool | hold
  deriving DecidableEq, Repr

/-- The steps of the part. Answers carry the port's own tag (R132); a register write carries the
whole 16-bit value (log 4). -/
inductive Instr where
  | writeArrival (initiator : Initiator) (addr : Addr) (mask : ByteMask) (data : Line) (tag : Nat)
  | readArrival (initiator : Initiator) (addr : Addr) (tag : Nat)
  | releasedLeave
  | issue
  | passThroughAnswer (tag : Nat) (answer : Answer)
  | unmatchedAnswer (tag : Nat) (answer : Answer)
  | captureReadData (tag : Nat) (data : Line)
  | imageWriteDone (tag : Nat)
  | descWriteDone (tag : Nat)
  | descReadData (tag : Nat) (data : Line)
  | slotReadData (tag : Nat) (data : Line)
  | slotWriteDone (tag : Nat)
  | jcbReadData (tag : Nat) (data : Line)
  | errorAnswer (tag : Nat)
  | timeout (tag : Nat)
  | abandonedAnswer (tag : Nat) (answer : Answer)
  | abandonedTimeout (tag : Nat)
  | holdLimitExpiry
  | holdAlertReached
  | ageExpiry
  | firPollExpiry
  | ringPollExpiry
  | bufferGrant
  | prefetch
  | copyOutStart
  | retirement
  | closeRecordBuild
  | journalSlotReadStart
  | load
  | openEpoch
  | closeSwitch
  | closeEnd
  | kick
  | stop
  | invalidCommandCode (code : Half)
  | cmdStatusWrite (value : Half)
  | eventWrite (value : Half)
  | eventEnableWrite (value : Half)
  | alertThresholdWrite (reg : AlertReg) (value : Half)
  | holdLimitWrite (value : Half)
  | holdAlertWrite (value : Half)
  | pollWrite (value : Half)
  | drainThresholdWrite (reg : DrainReg) (value : Half)
  | inspectSlotWrite (value : Half)
  | peakReset (peak : Peak)
  | registerWrite (pointer : Byte) (value : Half)
  | pointerByte (byte : Byte)
  | busStopCondition
  | latchedRead
  | powerOnReset
  | resetRelease (addr1 addr0 : Bool)
  | heldLowByte (byte : Byte)
  deriving DecidableEq, Repr

end Sys2Proof
end

