-- ==== Sys2Proof/Config.lean ====
section
/-! DEFINITION. What the part fixes (its capacities) and the one value the manual leaves open. -/

namespace Sys2Proof.Config

/-- R16. -/
def tableSlots : Nat := 2048
/-- R48. -/
def holdPlaces : Nat := 16
/-- R131. -/
def passPlaces : Nat := 8
/-- R70. -/
def poolBuffers : Nat := 64
/-- R76. -/
def cachePlaces : Nat := 4
/-- R83. -/
def copyOutPlaces : Nat := 4
/-- R91, R97: BLOCK and CLOSE records join below this depth. -/
def recordLimit : Nat := 31
/-- R136. -/
def ownLimit : Nat := 16
/-- R141: microseconds. -/
def answerLimit : Nat := 64

/-- Which of several steps due together the part takes first (log 3): the manual lets either be
taken first, so no value of this choice is known. -/
opaque freeChoice : Nat → Nat

end Sys2Proof.Config
end

