-- ==== Sys2Proof/Machine/State.lean ====
section
/-! DEFINITION. All the state the manual gives the part, as plain data, and its values after
power-on reset. INVENTORY.md lists each piece with its rule. -/

namespace Sys2Proof.Machine

/-! ### Settings (R1, R10) -/

inductive WinMode where
  | off | trace | undo | exclude
  deriving DecidableEq, Repr

inductive PoolMode where
  | shared | quota
  deriving DecidableEq, Repr

inductive AlertMode where
  | sticky | auto
  deriving DecidableEq, Repr

inductive View where
  | staged | active
  deriving DecidableEq, Repr

/-- One window (R1). -/
structure Window where
  base  : BitVec 24
  limit : BitVec 24
  mask  : InitSet
  mode  : WinMode
  quota : BitVec 7
  deriving DecidableEq, Repr

structure Windows where
  w0 : Window
  w1 : Window
  w2 : Window
  w3 : Window
  deriving DecidableEq, Repr

/-- The staged settings, held once staged and once active (R10). -/
structure Settings where
  windows  : Windows
  poolMode : PoolMode
  ageLimit : BitVec 12
  deriving DecidableEq, Repr

/-- The immediate settings (R10). -/
structure Immediate where
  passWeight    : BitVec 4
  drainHigh     : BitVec 7
  drainLow      : BitVec 6
  holdLimit     : Half
  poll          : Byte
  holdAlert     : Half
  tableUpper    : BitVec 12
  tableLower    : BitVec 11
  poolUpper     : BitVec 7
  poolLower     : BitVec 6
  tableMode     : AlertMode
  poolAlertMode : AlertMode
  enables       : BitVec 11
  view          : View
  deriving DecidableEq, Repr

/-! ### Block Table (R16 to R18) -/

inductive TrackMode where
  | trace | undo
  deriving DecidableEq, Repr

inductive EntryState where
  | pending | capturing | imaged | copying | filing | logged
  deriving DecidableEq, Repr

inductive Cause where
  | close | age | pressure
  deriving DecidableEq, Repr

structure ImageBuf where
  firIndex : Nat
  addr     : Addr
  deriving DecidableEq, Repr

/-- A present entry (R17). `linesIn` counts the lines of its capture that have returned (R56). -/
structure Entry where
  slot        : Nat
  block       : Block
  epoch       : Half
  window      : BitVec 2
  mode        : TrackMode
  state       : EntryState
  count       : Byte
  saturated   : Bool
  firstWriter : Initiator
  lastWriter  : Initiator
  writers     : InitSet
  handoffs    : BitVec 4
  firstStamp  : Word
  lastStamp   : Word
  poolBuf     : Option Nat
  imageBuf    : Option ImageBuf
  cause       : Option Cause
  linesIn     : Nat
  deriving DecidableEq, Repr

/-! ### Hold Queue (R46, R48, R49) -/

inductive Op where
  | read
  | write (mask : ByteMask) (data : Line)
  deriving DecidableEq, Repr

/-- A fabric request as taken, with its place in arrival order (R46, R135). -/
structure Request where
  initiator : Initiator
  addr      : Addr
  op        : Op
  tag       : Nat
  place     : Nat
  deriving DecidableEq, Repr

/-- A tracked classification; the block number is the request's (R5). -/
structure Classification where
  window    : BitVec 2
  mode      : TrackMode
  initiator : Initiator
  time      : Word
  deriving DecidableEq, Repr

/-- A deferred update (R24). -/
structure Deferred where
  initiator : Initiator
  time      : Word
  deriving DecidableEq, Repr

/-- HELD with a reason and the items of that reason, or RELEASED (R48, R49). -/
inductive Hold where
  | entry (kept : Classification)
  | buffer (slot : Nat)
  | capture (slot : Nat)
  | order (deferred : Option Deferred) (classifyOnRelease trackingHere : Bool)
  | released
  deriving DecidableEq, Repr

structure HeldReq where
  req          : Request
  hold         : Hold
  start        : Word
  time         : Word
  reachedAlert : Bool
  deriving DecidableEq, Repr

/-! ### Copy-Out Engine (R75 to R83) -/

/-- Where a ring lies: its base and size code (R75, R98). -/
structure Ring where
  base : Addr
  code : BitVec 4
  deriving DecidableEq, Repr

/-- A copy-out in its place (R83); `linesDone` counts the image lines that have returned done. -/
structure CopyOutPlace where
  slot      : Nat
  buffer    : Nat
  image     : ImageBuf
  linesDone : Nat
  deriving DecidableEq, Repr

structure CopyOut where
  imaged        : List Nat
  places        : List CopyOutPlace
  cache         : List ImageBuf
  prefetchIndex : Nat
  fir           : Option Ring
  wait          : Bool
  timer         : Option Nat
  deriving DecidableEq, Repr

/-! ### Retire Engine, Record Queue and Journal Writer (R90 to R101) -/

structure RetireEngine where
  list            : List Nat
  currentCounter  : Word
  drainingCounter : Word
  closeBuilt      : Bool
  deriving DecidableEq, Repr

inductive CutCause where
  | command | switch
  deriving DecidableEq, Repr

inductive CloseCause where
  | switch | endEpoch
  deriving DecidableEq, Repr

/-- The closing summary of a closed epoch (R115). -/
structure Summary where
  epoch       : Half
  cause       : CloseCause
  overflow    : Bool
  untracked   : Word
  peakOcc     : Nat
  peakPool    : Nat
  longestHold : Word
  duration    : Word
  deriving DecidableEq, Repr

/-- A journal record (R93, R119, R124). A BLOCK record keeps the retired entry whole. -/
inductive Record where
  | opening (epoch : Half) (cause : CutCause) (windows : Windows) (poolMode : PoolMode)
      (partTime : Word)
  | block (seq : Word) (entry : Entry)
  | closing (summary : Summary) (blockCount : Word) (images : Word)
  deriving DecidableEq, Repr

inductive WriterState where
  | standby | reading | waiting | body | header
  deriving DecidableEq, Repr

structure Journal where
  queue  : List Record
  writer : WriterState
  index  : Nat
  ring   : Option Ring
  wait   : Bool
  timer  : Option Nat
  deriving DecidableEq, Repr

/-! ### Epoch Controller (R110 to R113, R115, R122, R125) -/

inductive DevState where
  | idle | loading | ready | tracking | finishing | halted
  deriving DecidableEq, Repr

structure EpochCtl where
  dev             : DevState
  number          : Half
  pendingFirst    : Option Half
  partTime        : Word
  epochTime       : Word
  draining        : Bool
  summary         : Option Summary
  overflow        : Bool
  untracked       : Word
  imagesCurrent   : Word
  imagesDraining  : Word
  deriving DecidableEq, Repr

/-! ### Memory Port (R131 to R144) -/

inductive OwnKind where
  | captureRead | imageWrite | descRead | descWrite | slotRead | slotWrite | jcbRead
  deriving DecidableEq, Repr

/-- The owner of an own request and what it needs to take the answer (R133). -/
inductive OwnRole where
  | captureRead (slot buffer line : Nat)
  | imageWrite (slot : Nat)
  | descRead
  | descWrite (slot : Nat)
  | slotRead
  | slotWrite
  | jcbRead (jcb : Addr)
  deriving DecidableEq, Repr

/-- An own request. `key` is its place in arrival order, see `Request.key` (R135). -/
structure OwnReq where
  role : OwnRole
  addr : Addr
  op   : Op
  key  : Nat
  deriving DecidableEq, Repr

/-- An issued own request: the port's tag, the microseconds since its issue, and whether it has
been abandoned (R132, R141, R142). -/
structure IssuedOwn where
  tag       : Nat
  req       : OwnReq
  age       : Nat
  abandoned : Bool
  deriving DecidableEq, Repr

structure IssuedPass where
  tag : Nat
  req : Request
  deriving DecidableEq, Repr

inductive ErrCause where
  | error | timeout
  deriving DecidableEq, Repr

/-- The record of the last memory error taken (R144). -/
structure ErrRecord where
  kind  : OwnKind
  cause : ErrCause
  addr  : Addr
  deriving DecidableEq, Repr

structure MemPort where
  passQ      : List Request
  classC     : List OwnReq
  classB     : List OwnReq
  issuedPass : List IssuedPass
  issuedOwn  : List IssuedOwn
  runCount   : Nat
  drainMode  : Bool
  err        : Option ErrRecord
  nextPlace  : Nat
  nextTag    : Nat
  deriving DecidableEq, Repr

/-! ### Management port and Command Unit (R147 to R157) -/

/-- The byte phase; HIGH keeps the held low byte of a write or the rest of a read's sample
(R148, R149). -/
inductive BytePhase where
  | low
  | highWrite (heldLow : Byte)
  | highRead (sampleHigh : Byte)
  deriving DecidableEq, Repr

/-- The quantities read with latching (R151). -/
inductive Wide where
  | untracked | recordsWritten | imagesWritten | peakHold | epochHold | errAddr
  | snapBlock | snapFirst | snapLast | snapImg
  deriving DecidableEq, Repr

structure Latches where
  untracked      : Half
  recordsWritten : Half
  imagesWritten  : Half
  peakHold       : Half
  epochHold      : Half
  errAddr        : Half
  snapBlock      : Half
  snapFirst      : Half
  snapLast       : Half
  snapImg        : Half
  deriving DecidableEq, Repr

/-- The port's registers. The snapshot is the entry latched, or none for a free slot (R42). -/
structure MgmtPort where
  resetAsserted : Bool
  slaveAddr     : BitVec 7
  pointer       : Byte
  endMarker     : Bool
  phase         : BytePhase
  latches       : Latches
  inspectSlot   : BitVec 11
  snapshot      : Option Entry
  deriving DecidableEq, Repr

inductive RejectReason where
  | noReason | badCode | busy | state
  deriving DecidableEq, Repr

inductive Command where
  | noCommand | load | openEpoch | closeSwitch | closeEnd | kick | stop
  deriving DecidableEq, Repr

inductive LoadResult where
  | noResult | done | format | overlap | memory
  deriving DecidableEq, Repr

structure CommandUnit where
  busy       : Bool
  reject     : Bool
  reason     : RejectReason
  last       : Command
  loadResult : LoadResult
  jcbAddr    : Addr
  deriving DecidableEq, Repr

/-! ### Alert Unit (R162 to R170) -/

/-- The event flags, in the positions of the EVENT register (10.5). -/
inductive EventFlag where
  | loadDone | loadFail | epochClosed | overflow | memErr | jringWait | iringWait | cmdRejected
  | tableHigh | poolHigh | holdLong
  deriving DecidableEq, Repr

/-- `occHanded` and `poolHanded` are the occupancy and pool use last handed to the part's
neighbours, against which a change is told (R70, R165; log 11). -/
structure Alert where
  flags          : BitVec 11
  peakOcc        : Nat
  peakPool       : Nat
  peakHold       : Word
  epochPeakOcc   : Nat
  epochPeakPool  : Nat
  epochHold      : Word
  recordsWritten : Word
  imagesWritten  : Word
  overflows      : Half
  occHanded      : Nat
  poolHanded     : Nat
  deriving DecidableEq, Repr

/-! ### What the part gives to the outside -/

structure FabricResponse where
  initiator : Initiator
  tag       : Nat
  answer    : Answer
  deriving DecidableEq, Repr

inductive BusOut where
  | ack
  | byte (b : Byte)
  deriving DecidableEq, Repr

structure Out where
  fabric : List FabricResponse
  bus    : List BusOut
  deriving DecidableEq, Repr

/-- The state. `table` is creation order: the present entries, oldest first, each with its slot
(R16, R20). `pool` holds the lines of the Capture Pool (R70), line `4 * buffer + position`. -/
structure State where
  staged  : Settings
  active  : Settings
  imm     : Immediate
  table   : List Entry
  hold    : List HeldReq
  pool    : List (Nat × Line)
  copyOut : CopyOut
  retire  : RetireEngine
  journal : Journal
  epoch   : EpochCtl
  mem     : MemPort
  port    : MgmtPort
  cmd     : CommandUnit
  alert   : Alert
  out     : Out
  choices : Nat
  pending : List Instr
  deriving DecidableEq, Repr

/-- No step of this part ends in a fault: the manual names none (log 19). -/
inductive Fault where
  deriving DecidableEq, Repr

/-- Why a command has no meaning. -/
inductive Refusal where
  /-- Raised by an arm of `exec` that has no meaning yet; no arm raises it. Safe: the model stops. -/
  | notModelled (mnemonic : String)
  deriving DecidableEq, Repr

/-! ### Values after power-on reset -/

/-- R14. -/
def Window.reset : Window := { base := 0, limit := 0, mask := 0xFFFF, mode := .off, quota := 16 }

/-- R14. -/
def Settings.reset : Settings :=
  { windows := ⟨Window.reset, Window.reset, Window.reset, Window.reset⟩
    poolMode := .shared
    ageLimit := 0 }

/-- R14. -/
def Immediate.reset : Immediate :=
  { passWeight := 4, drainHigh := 48, drainLow := 32, holdLimit := 1000, poll := 16
    holdAlert := 500, tableUpper := 1792, tableLower := 1536, poolUpper := 56, poolLower := 40
    tableMode := .sticky, poolAlertMode := .sticky, enables := 0, view := .staged }

/-- R89. -/
def CopyOut.reset : CopyOut :=
  { imaged := [], places := [], cache := [], prefetchIndex := 0, fir := none, wait := false
    timer := none }

/-- R108. -/
def RetireEngine.reset : RetireEngine :=
  { list := [], currentCounter := 0, drainingCounter := 0, closeBuilt := false }

/-- R108. -/
def Journal.reset : Journal :=
  { queue := [], writer := .standby, index := 0, ring := none, wait := false, timer := none }

/-- R130. -/
def EpochCtl.reset : EpochCtl :=
  { dev := .idle, number := 0, pendingFirst := none, partTime := 0, epochTime := 0
    draining := false, summary := none, overflow := false, untracked := 0
    imagesCurrent := 0, imagesDraining := 0 }

/-- R145. The next place and tag are the model's counters (DESIGN CHOICE, log 9). -/
def MemPort.reset : MemPort :=
  { passQ := [], classC := [], classB := [], issuedPass := [], issuedOwn := [], runCount := 0
    drainMode := false, err := none, nextPlace := 0, nextTag := 0 }

/-- R151. -/
def Latches.reset : Latches := ⟨0, 0, 0, 0, 0, 0, 0, 0, 0, 0⟩

/-- R44, R152. RESET_N released and slave address 0x58: DESIGN CHOICE, log 7. -/
def MgmtPort.reset : MgmtPort :=
  { resetAsserted := false, slaveAddr := 0x58, pointer := 0, endMarker := false, phase := .low
    latches := Latches.reset, inspectSlot := 0, snapshot := none }

/-- R155, R157. -/
def CommandUnit.reset : CommandUnit :=
  { busy := false, reject := false, reason := .noReason, last := .noCommand
    loadResult := .noResult, jcbAddr := 0 }

/-- R172. -/
def Alert.reset : Alert :=
  { flags := 0, peakOcc := 0, peakPool := 0, peakHold := 0, epochPeakOcc := 0, epochPeakPool := 0
    epochHold := 0, recordsWritten := 0, imagesWritten := 0, overflows := 0, occHanded := 0
    poolHanded := 0 }

/-- The part after power-on reset (R14, R44, R69, R89, R108, R130, R145, R151, R152, R172). -/
def State.reset : State :=
  { staged := Settings.reset, active := Settings.reset, imm := Immediate.reset, table := []
    hold := [], pool := [], copyOut := CopyOut.reset, retire := RetireEngine.reset
    journal := Journal.reset, epoch := EpochCtl.reset, mem := MemPort.reset
    port := MgmtPort.reset, cmd := CommandUnit.reset, alert := Alert.reset
    out := { fabric := [], bus := [] }, choices := 0, pending := [] }

end Sys2Proof.Machine
end

