-- ==== Sys2Proof/Machine/Operands.lean ====
section
/-! DEFINITION. Addresses, lines and the layouts of the in-memory structures (chapter 10, 10.1 to
10.4). -/

namespace Sys2Proof.Machine

/-! ### Addresses (00, 5.2) -/

/-- The block of a line: its address divided by 256 (R5, R133). -/
def blockOf (addr : Addr) : Block := addr.extractLsb' 8 32

/-- The line that holds an address. -/
def lineOf (addr : Addr) : Addr := addr.extractLsb' 6 34 ++ (0 : BitVec 6)

/-- Line `n` of a block. -/
def blockLine (block : Block) (n : Nat) : Addr := block ++ (BitVec.ofNat 2 n ++ (0 : BitVec 6))

/-- The byte offset of an address in its line. -/
def lineOffset (addr : Addr) : Nat := (addr.extractLsb' 0 6).toNat

/-- The window unit of a line: address bits 39 to 16 (R2). -/
def unitOf (addr : Addr) : BitVec 24 := addr.extractLsb' 16 24

/-- Element `i`, of `size` bytes, of a ring (R75, R98). -/
def Ring.element (ring : Ring) (size i : Nat) : Addr := ring.base + BitVec.ofNat 40 (size * i)

/-- The number of elements of a ring (R75, R98). -/
def Ring.length (ring : Ring) : Nat := 2 ^ ring.code.toNat

def Ring.next (ring : Ring) (i : Nat) : Nat := (i + 1) % ring.length

/-! ### Lines -/

def lineQuad (line : Line) : Nat → Quad
  | 0 => line.q0
  | 1 => line.q1
  | 2 => line.q2
  | _ => line.q3

/-- The 16 bytes at an address, from the line that holds it. -/
def quadAt (line : Line) (addr : Addr) : Quad := lineQuad line (addr.extractLsb' 4 2).toNat

/-- A line that carries two quads from an address on. Its other bytes are zero, and no write that
the part sends enables them: the spec gives such a write its mask alone (R75, R98). DESIGN CHOICE,
log 26. -/
def lineWith (addr : Addr) (first second : Quad) : Line :=
  match (addr.extractLsb' 4 2).toNat with
  | 0 => ⟨first, second, Quad.zero, Quad.zero⟩
  | 1 => ⟨Quad.zero, first, second, Quad.zero⟩
  | 2 => ⟨Quad.zero, Quad.zero, first, second⟩
  | _ => ⟨Quad.zero, Quad.zero, Quad.zero, first⟩

/-- The byte mask that enables `len` bytes from byte `off` of a line on. -/
def maskOf (off len : Nat) : ByteMask := (BitVec.ofNat 64 (2 ^ len - 1)) <<< off

/-! ### Owner codes (R173) -/

/-- Code 1 is PART; codes 0, 2 and 3 are not owned by the part. -/
def ownedByPart (word0 : Word) : Bool := word0.extractLsb' 0 2 == 1

/-! ### Codes of the register map (10.5) -/

def WinMode.code : WinMode → BitVec 2
  | .off => 0 | .trace => 1 | .undo => 2 | .exclude => 3

def WinMode.ofCode (c : BitVec 2) : WinMode :=
  if c = 0 then .off else if c = 1 then .trace else if c = 2 then .undo else .exclude

def PoolMode.code : PoolMode → BitVec 1
  | .shared => 0 | .quota => 1

def TrackMode.code : TrackMode → BitVec 1
  | .trace => 0 | .undo => 1

def EntryState.code : EntryState → BitVec 3
  | .pending => 1 | .capturing => 2 | .imaged => 3 | .copying => 4 | .filing => 5 | .logged => 6

/-- 0 is an absent cause. -/
def causeCode : Option Cause → BitVec 2
  | none => 0 | some .close => 1 | some .age => 2 | some .pressure => 3

def DevState.code : DevState → BitVec 3
  | .idle => 0 | .loading => 1 | .ready => 2 | .tracking => 3 | .finishing => 4 | .halted => 5

def RejectReason.code : RejectReason → BitVec 2
  | .noReason => 0 | .badCode => 1 | .busy => 2 | .state => 3

def Command.code : Command → BitVec 3
  | .noCommand => 0 | .load => 1 | .openEpoch => 2 | .closeSwitch => 3 | .closeEnd => 4
  | .kick => 5 | .stop => 6

def LoadResult.code : LoadResult → BitVec 3
  | .noResult => 0 | .done => 1 | .format => 2 | .overlap => 3 | .memory => 4

def OwnKind.code : OwnKind → BitVec 4
  | .captureRead => 1 | .imageWrite => 2 | .descRead => 3 | .descWrite => 4 | .slotRead => 5
  | .slotWrite => 6 | .jcbRead => 7

def ErrCause.code : ErrCause → BitVec 2
  | .error => 1 | .timeout => 2

def OwnRole.kind : OwnRole → OwnKind
  | .captureRead _ _ _ => .captureRead
  | .imageWrite _ => .imageWrite
  | .descRead => .descRead
  | .descWrite _ => .descWrite
  | .slotRead => .slotRead
  | .slotWrite => .slotWrite
  | .jcbRead _ => .jcbRead

def Windows.get (ws : Windows) (n : BitVec 2) : Window :=
  if n = 0 then ws.w0 else if n = 1 then ws.w1 else if n = 2 then ws.w2 else ws.w3

def Windows.set (ws : Windows) (n : BitVec 2) (w : Window) : Windows :=
  if n = 0 then { ws with w0 := w }
  else if n = 1 then { ws with w1 := w }
  else if n = 2 then { ws with w2 := w }
  else { ws with w3 := w }

/-! ### Journal records (10.2) -/

/-- Word 0: epoch, flags, zero, kind, owner SOFTWARE (R100). -/
def headerWord (epoch : Half) (flags : Byte) (kind : BitVec 2) : Word :=
  epoch ++ (flags ++ ((0 : BitVec 4) ++ (kind ++ (2 : BitVec 2))))

/-- The image buffer address as bits 39 to 8 and the FIR index; both 0 when absent (R93, R174). -/
def imageAddrWord : Option ImageBuf → Word
  | none => 0
  | some b => b.addr.extractLsb' 8 32

def imageIndex : Option ImageBuf → BitVec 12
  | none => 0
  | some b => BitVec.ofNat 12 b.firIndex

def boolBit (b : Bool) : BitVec 1 := BitVec.ofBool b

/-- The header word of a record. -/
def Record.header : Record → Word
  | .opening epoch _ _ _ _ => headerWord epoch 0 1
  | .block _ e => headerWord e.epoch ((0 : BitVec 7) ++ boolBit e.saturated) 2
  | .closing sum _ _ => headerWord sum.epoch 0 3

/-- OPEN word 1: pool mode, active window modes, cut cause. -/
def openWord1 (cause : CutCause) (ws : Windows) (pm : PoolMode) : Word :=
  let causeByte : Byte := match cause with
    | .command => 1
    | .switch => 2
  let modes : Byte := ws.w3.mode.code ++ (ws.w2.mode.code ++ (ws.w1.mode.code ++ ws.w0.mode.code))
  (0 : BitVec 15) ++ (pm.code ++ (modes ++ causeByte))

/-- BLOCK word 3: cause, mode, window, last writer, first writer, handoffs, write count. -/
def blockWord3 (e : Entry) : Word :=
  (0 : BitVec 6) ++ (causeCode e.cause ++ ((0 : BitVec 1) ++ (e.mode.code ++ (e.window ++
    (e.lastWriter ++ (e.firstWriter ++ (e.handoffs ++ e.count)))))))

/-- BLOCK word 4: FIR index and writer set. -/
def blockWord4 (e : Entry) : Word := (0 : BitVec 4) ++ (imageIndex e.imageBuf ++ e.writers)

/-- CLOSE word 6: peak pool use and peak occupancy. -/
def closeWord6 (sum : Summary) : Word :=
  (0 : BitVec 9) ++ (BitVec.ofNat 7 sum.peakPool ++ ((0 : BitVec 4) ++ BitVec.ofNat 12 sum.peakOcc))

/-- CLOSE word 7: overflow flag and cause. -/
def closeWord7 (sum : Summary) : Word :=
  let cause : BitVec 2 := match sum.cause with
    | .switch => 1
    | .endEpoch => 2
  (0 : BitVec 23) ++ (boolBit sum.overflow ++ ((0 : BitVec 6) ++ cause))

/-- The slot's words 1 to 7 of a record, word 0 left zero, as the two quads of the slot. -/
def Record.body : Record → Quad × Quad
  | .opening _ cause ws pm time => (⟨0, openWord1 cause ws pm, time, 0⟩, Quad.zero)
  | .block seq e =>
      (⟨0, seq, e.block, blockWord3 e⟩,
       ⟨blockWord4 e, e.firstStamp, e.lastStamp, imageAddrWord e.imageBuf⟩)
  | .closing sum blockCount images =>
      (⟨0, blockCount, sum.untracked, images⟩,
       ⟨sum.longestHold, sum.duration, closeWord6 sum, closeWord7 sum⟩)

/-- The body SLOT_WRITE: bytes 4 to 31 of the slot (R98, R100). The bytes its mask does not enable
are zero: DESIGN CHOICE, log 26. -/
def bodyWrite (slot : Addr) (r : Record) : Op :=
  .write (maskOf (lineOffset slot + 4) 28) (lineWith slot r.body.1 r.body.2)

/-- The header SLOT_WRITE: bytes 0 to 3 of the slot (R98, R100). The bytes its mask does not enable
are zero: DESIGN CHOICE, log 26. -/
def headerWrite (slot : Addr) (r : Record) : Op :=
  .write (maskOf (lineOffset slot) 4) (lineWith slot ⟨r.header, 0, 0, 0⟩ Quad.zero)

/-! ### Free Image Ring descriptors (10.3) -/

/-- The image buffer a descriptor lends (R77): word 1 holds address bits 39 to 8. -/
def descImage (index : Nat) (q : Quad) : ImageBuf :=
  { firIndex := index, addr := q.w1 ++ (0 : BitVec 8) }

/-- The descriptor write-back: owner SOFTWARE, status FILLED, the entry's epoch and block (R85). -/
def descQuad (e : Entry) (image : ImageBuf) : Quad :=
  ⟨e.epoch ++ ((0 : BitVec 12) ++ ((1 : BitVec 2) ++ (2 : BitVec 2))),
   image.addr.extractLsb' 8 32, e.block, 0⟩

/-- The DESC_WRITE: the descriptor's 16 bytes and no others (R75). The bytes its mask does not
enable are zero: DESIGN CHOICE, log 26. -/
def descWrite (desc : Addr) (e : Entry) (image : ImageBuf) : Op :=
  .write (maskOf (lineOffset desc) 16) (lineWith desc (descQuad e image) Quad.zero)

/-! ### The Journal Control Block (10.1, R158, R174) -/

def jcbJournalRing (q : Quad) : Ring :=
  { base := q.w1.extractLsb' 0 8 ++ q.w0, code := q.w1.extractLsb' 8 4 }

def jcbFreeImageRing (q : Quad) : Ring :=
  { base := q.w3.extractLsb' 0 8 ++ q.w2, code := q.w1.extractLsb' 12 4 }

def jcbFirstNumber (q : Quad) : Half := q.w1.extractLsb' 16 16

/-- One past the last byte of a ring of `size`-byte elements. -/
def Ring.limit (ring : Ring) (size : Nat) : Nat := ring.base.toNat + size * ring.length

/-- Size codes in range, must-be-zero fields zero, both areas within 40 bits. -/
def jcbFormatOk (q : Quad) : Bool :=
  let j := jcbJournalRing q
  let f := jcbFreeImageRing q
  decide (3 ≤ j.code.toNat) && decide (j.code.toNat ≤ 12) &&
  decide (2 ≤ f.code.toNat) && decide (f.code.toNat ≤ 12) &&
  q.w0.extractLsb' 0 8 == 0 && q.w2.extractLsb' 0 8 == 0 && q.w3.extractLsb' 8 24 == 0 &&
  decide (j.limit 32 ≤ 2 ^ 40) && decide (f.limit 16 ≤ 2 ^ 40)

/-- The two areas share a byte. -/
def jcbOverlap (q : Quad) : Bool :=
  let j := jcbJournalRing q
  let f := jcbFreeImageRing q
  decide (j.base.toNat < f.limit 16) && decide (f.base.toNat < j.limit 32)

end Sys2Proof.Machine
end

