-- ==== Sys2Proof/Machine/Flags.lean ====
section
/-! DEFINITION. Event flags, threshold alerts, ATTN_N and peaks (chapter 9), and the arbiter's drain
mode, which follows pool use in the same way (R140). -/

namespace Sys2Proof.Machine

/-- The flag's bit in the EVENT register (10.5). -/
def EventFlag.bit : EventFlag → BitVec 11
  | .loadDone => 0x001 | .loadFail => 0x002 | .epochClosed => 0x004 | .overflow => 0x008
  | .memErr => 0x010 | .jringWait => 0x020 | .iringWait => 0x040 | .cmdRejected => 0x080
  | .tableHigh => 0x100 | .poolHigh => 0x200 | .holdLong => 0x400

def Alert.isSet (a : Alert) (f : EventFlag) : Bool := a.flags &&& f.bit != 0

/-- R162: the event's flag is set. -/
def State.raise (s : State) (f : EventFlag) : State :=
  { s with alert.flags := s.alert.flags ||| f.bit }

/-- R163, R166: the flag is cleared. -/
def State.clearFlag (s : State) (f : EventFlag) : State :=
  { s with alert.flags := s.alert.flags &&& ~~~f.bit }

/-- ATTN_N is asserted while a flag is set whose enable is set; it is released while RESET_N is
asserted (R164). -/
def State.attnAsserted (s : State) : Bool :=
  !s.port.resetAsserted && s.alert.flags &&& s.imm.enables != 0

/-- What an evaluation of a threshold alert does to its flag (R165, R166). -/
inductive AlertVerdict where
  | set | clear | keep
  deriving DecidableEq, Repr

def alertVerdict (value upper lower : Nat) (mode : AlertMode) : AlertVerdict :=
  if upper ≤ value then .set
  else if mode = .auto ∧ value ≤ lower then .clear
  else .keep

def State.applyVerdict (s : State) (f : EventFlag) : AlertVerdict → State
  | .set => s.raise f
  | .clear => s.clearFlag f
  | .keep => s

/-- Occupancy: the number of present entries (R40). -/
def State.occupancy (s : State) : Nat := s.table.length

/-- Pool use: the number of held buffers (R70). -/
def State.poolUse (s : State) : Nat := (s.table.filter (·.poolBuf.isSome)).length

/-- Window use (R70). -/
def State.windowUse (s : State) (w : BitVec 2) : Nat :=
  (s.table.filter fun e => e.poolBuf.isSome && e.window == w).length

/-- An evaluation of TABLE_HIGH (R165). -/
def State.evalTableHigh (s : State) : State :=
  s.applyVerdict .tableHigh
    (alertVerdict s.occupancy s.imm.tableUpper.toNat s.imm.tableLower.toNat s.imm.tableMode)

/-- An evaluation of POOL_HIGH (R165). -/
def State.evalPoolHigh (s : State) : State :=
  s.applyVerdict .poolHigh
    (alertVerdict s.poolUse s.imm.poolUpper.toNat s.imm.poolLower.toNat s.imm.poolAlertMode)

/-- The arbiter's mode after a comparison of pool use with DRAIN_HIGH and DRAIN_LOW (R140). -/
def drainModeNext (mode : Bool) (use high low : Nat) : Bool :=
  if mode then
    if low < high then !decide (use ≤ low) else !decide (use < high)
  else decide (high ≤ use)

def State.evalDrainMode (s : State) : State :=
  { s with mem.drainMode :=
      drainModeNext s.mem.drainMode s.poolUse s.imm.drainHigh.toNat s.imm.drainLow.toNat }

/-- A change of occupancy is handed to the Alert Unit (R40, R126, R165, R169). -/
def State.handOccupancy (s : State) : State :=
  if s.occupancy = s.alert.occHanded then s
  else
    State.evalTableHigh
      { s with alert := { s.alert with
          occHanded := s.occupancy
          peakOcc := max s.alert.peakOcc s.occupancy
          epochPeakOcc := max s.alert.epochPeakOcc s.occupancy } }

/-- A change of pool use is handed to the Alert Unit and to the arbiter (R70, R126, R140, R165). -/
def State.handPoolUse (s : State) : State :=
  if s.poolUse = s.alert.poolHanded then s
  else
    State.evalDrainMode <| State.evalPoolHigh
      { s with alert := { s.alert with
          poolHanded := s.poolUse
          peakPool := max s.alert.peakPool s.poolUse
          epochPeakPool := max s.alert.epochPeakPool s.poolUse } }

/-- A hold time reported at the end of a hold (R54, R126, R169). -/
def Alert.noteHold (a : Alert) (t : Word) : Alert :=
  { a with
    peakHold := if a.peakHold.toNat < t.toNat then t else a.peakHold
    epochHold := if a.epochHold.toNat < t.toNat then t else a.epochHold }

/-- An overflow of an epoch is counted, saturating (R170). -/
def State.countOverflow (s : State) : State :=
  { s with alert.overflows := satInc s.alert.overflows }

end Sys2Proof.Machine
end

