-- ==== Sys2Proof/Machine/Ops.lean ====
section
/-! DEFINITION. The shared operations: classification, the Block Table, the Hold Queue, the Capture
Pool and the queues of the memory port. -/

namespace Sys2Proof.Machine

/-! ### Classification (R2 to R5, R8) -/

/-- R2. -/
def Window.claims (w : Window) (addr : Addr) (i : Initiator) : Bool :=
  w.mode != .off && decide (w.base.toNat ≤ (unitOf addr).toNat) &&
  decide ((unitOf addr).toNat < w.limit.toNat) && w.mask.getLsbD i.toNat

/-- The first window that claims the write, W0 first (R3). -/
def Windows.deciding (ws : Windows) (addr : Addr) (i : Initiator) : Option (BitVec 2) :=
  if ws.w0.claims addr i then some 0
  else if ws.w1.claims addr i then some 1
  else if ws.w2.claims addr i then some 2
  else if ws.w3.claims addr i then some 3
  else none

/-- The outcome of a classification (R3). -/
inductive Verdict where
  | untracked
  | excluded
  | tracked (c : Classification)
  deriving DecidableEq, Repr

/-- R3 to R5: outside TRACKING a write is untracked; in TRACKING the deciding window's mode. -/
def State.classify (s : State) (addr : Addr) (i : Initiator) : Verdict :=
  if s.epoch.dev = .tracking then
    match s.active.windows.deciding addr i with
    | none => .untracked
    | some w =>
      match (s.active.windows.get w).mode with
      | .off => .untracked
      | .exclude => .excluded
      | .trace => .tracked ⟨w, .trace, i, s.epoch.epochTime⟩
      | .undo => .tracked ⟨w, .undo, i, s.epoch.epochTime⟩
  else .untracked

/-! ### Entries (R16 to R21, R28 to R30) -/

/-- The set of one initiator. -/
def initBit (i : Initiator) : InitSet := (1 : InitSet) <<< i.toNat

/-- The entry a write learns, or an ENTRY waiter is granted (R21, R25). -/
def newEntry (slot : Nat) (block : Block) (epoch : Half) (c : Classification) : Entry :=
  { slot, block, epoch, window := c.window, mode := c.mode
    state := match c.mode with
      | .trace => .logged
      | .undo => .pending
    count := 1, saturated := false, firstWriter := c.initiator, lastWriter := c.initiator
    writers := initBit c.initiator, handoffs := 0, firstStamp := c.time, lastStamp := c.time
    poolBuf := none, imageBuf := none, cause := none, linesIn := 0 }

/-- An update of an entry's statistics (R28 to R30). -/
def Entry.update (e : Entry) (i : Initiator) (time : Word) : Entry :=
  { e with
    count := satInc e.count
    saturated := e.saturated || e.count == 255
    handoffs := if i = e.lastWriter then e.handoffs else satInc e.handoffs
    lastWriter := i
    writers := e.writers ||| initBit i
    lastStamp := time }

/-- The entry belongs to the current epoch (R113). -/
def State.isCurrent (s : State) (e : Entry) : Bool :=
  decide (s.epoch.dev = .tracking) && e.epoch == s.epoch.number

/-- The draining epoch's number while a drain is in progress (R115, R122). -/
def State.drainingNumber (s : State) : Option Half :=
  if s.epoch.draining then s.epoch.summary.map (·.epoch) else none

def State.isDraining (s : State) (e : Entry) : Bool := s.drainingNumber == some e.epoch

/-- R19: by block number and the current epoch number. -/
def State.lookup (s : State) (b : Block) : Option Entry :=
  s.table.find? fun e => e.block == b && e.epoch == s.epoch.number

/-- The entry in a slot (R16). -/
def State.entryAt (s : State) (slot : Nat) : Option Entry := s.table.find? (·.slot == slot)

/-- The least number from `n` on, within `fuel` of it, that is not used. -/
def leastFree (used : List Nat) : (fuel n : Nat) → Option Nat
  | 0, _ => none
  | fuel + 1, n => if used.contains n then leastFree used fuel (n + 1) else some n

/-- The lowest-numbered free slot (R21). -/
def State.freeSlot (s : State) : Option Nat :=
  leastFree (s.table.map (·.slot)) Config.tableSlots 0

/-- The lowest-numbered free buffer (R72). -/
def State.freeBuffer (s : State) : Option Nat :=
  leastFree (s.table.filterMap (·.poolBuf)) Config.poolBuffers 0

/-- The entry in a slot is changed. -/
def State.modifyEntry (s : State) (slot : Nat) (f : Entry → Entry) : State :=
  { s with table := s.table.map fun e => if e.slot = slot then f e else e }

/-- The entries of the slots leave the table, creation order and the Retire List (R38). -/
def State.removeEntries (s : State) (slots : List Nat) : State :=
  { s with
    table := s.table.filter fun e => !slots.contains e.slot
    retire.list := s.retire.list.filter fun n => !slots.contains n }

/-- An entry joins the tail of creation order (R20, R21). -/
def State.createEntry (s : State) (e : Entry) : State := { s with table := s.table ++ [e] }

/-- A cause is given to the entry of a slot, which joins the tail of the Retire List (R90). -/
def State.giveCause (s : State) (slot : Nat) (c : Cause) : State :=
  { s.modifyEntry slot (fun e => { e with cause := some c }) with
    retire.list := s.retire.list ++ [slot] }

/-- An AGE cause is withdrawn by a write (R35). -/
def Entry.withdrawAge (e : Entry) : Entry :=
  if e.cause = some .age then { e with cause := none } else e

/-- A hit: the entry is updated, and its AGE cause withdrawn (R28 to R30, R35). -/
def State.hitEntry (s : State) (e : Entry) (i : Initiator) (time : Word) : State :=
  { s.modifyEntry e.slot (fun e => (e.update i time).withdrawAge) with
    retire.list :=
      if e.cause = some .age then s.retire.list.filter (· != e.slot) else s.retire.list }

/-- A pressure victim candidate (R23). -/
def State.victimCandidate (s : State) (e : Entry) : Bool :=
  s.isCurrent e && decide (e.mode = .trace) && decide (e.state = .logged) && e.cause.isNone

/-- The entry with the earliest last-write stamp, the first of them in the list. -/
def earliestStamp : List Entry → Option Entry
  | [] => none
  | e :: rest =>
    match earliestStamp rest with
    | none => some e
    | some b => if b.lastStamp.toNat < e.lastStamp.toNat then some b else some e

/-- R23. -/
def State.victimChoice (s : State) : State :=
  match earliestStamp (s.table.filter s.victimCandidate) with
  | none => s
  | some e => s.giveCause e.slot .pressure

/-- The untracked count is raised by `n`, saturating (R63). -/
def State.countUntracked (s : State) (n : Nat) : State :=
  { s with epoch.untracked := BitVec.ofNat 32 (min (s.epoch.untracked.toNat + n) (2 ^ 32 - 1)) }

/-- What the table tells the Hold Queue of a tracked write (R31). -/
inductive Disposition where
  /-- Nothing more than the block's order; the mark says that a PENDING entry counts the write. -/
  | follow (trackingHere : Bool)
  | buffer (slot : Nat)
  | wait
  | defer
  deriving DecidableEq, Repr

/-- A tracked write reaches the table (R19, R21, R22, R24, R27). `waiting`: a request with reason
ENTRY is in the Hold Queue; `ahead`: one for this block stands ahead. -/
def State.tableTake (s : State) (b : Block) (c : Classification) (waiting ahead : Bool) :
    State × Disposition :=
  match s.lookup b with
  | some e => (s.hitEntry e c.initiator c.time, .follow (decide (e.state = .pending)))
  | none =>
    if s.epoch.overflow then (s.countUntracked 1, .follow false)
    else if ahead then (s, .defer)
    else
      match waiting, s.freeSlot with
      | false, some slot =>
        (s.createEntry (newEntry slot b s.epoch.number c),
         match c.mode with
         | .trace => .follow false
         | .undo => .buffer slot)
      | _, _ => (s.victimChoice, .wait)

/-! ### The Hold Queue (R48 to R54) -/

def HeldReq.block (h : HeldReq) : Block := blockOf h.req.addr

def HeldReq.isHeld (h : HeldReq) : Bool :=
  match h.hold with
  | .released => false
  | _ => true

def HeldReq.isEntry (h : HeldReq) : Bool :=
  match h.hold with
  | .entry _ => true
  | _ => false

/-- Reason ENTRY or BUFFER, the reasons the hold limit bounds (R61). -/
def HeldReq.isWaiter (h : HeldReq) : Bool :=
  match h.hold with
  | .entry _ | .buffer _ => true
  | _ => false

/-- The slot of the PENDING entry that a BUFFER waiter protects. -/
def HeldReq.bufferSlot (h : HeldReq) : Option Nat :=
  match h.hold with
  | .buffer slot => some slot
  | _ => none

def HeldReq.trackingHere (h : HeldReq) : Bool :=
  match h.hold with
  | .order _ _ here => here
  | _ => false

def HeldReq.setHold (h : HeldReq) (x : Hold) : HeldReq := { h with hold := x }

def HeldReq.release (h : HeldReq) : HeldReq := h.setHold .released

/-- A HELD request for the block is in the queue. -/
def heldFor (q : List HeldReq) (b : Block) : Bool := q.any fun h => h.isHeld && h.block == b

/-- A request for the block is in the queue, HELD or RELEASED. -/
def anyFor (q : List HeldReq) (b : Block) : Bool := q.any fun h => h.block == b

/-- A request with reason ENTRY for the block is in the queue. -/
def entryFor (q : List HeldReq) (b : Block) : Bool := q.any fun h => h.isEntry && h.block == b

/-- The hold times that end when the queue `old` becomes the queue `new` (R54). -/
def endedHolds : (old new : List HeldReq) → List Word
  | a :: as, b :: bs =>
    if a.isHeld && !b.isHeld then a.time :: endedHolds as bs else endedHolds as bs
  | _, _ => []

/-- The queue's requests change their holds in place; the hold times that end are reported (R54). -/
def State.setHold (s : State) (q : List HeldReq) : State :=
  { s with hold := q, alert := (endedHolds s.hold q).foldl Alert.noteHold s.alert }

/-- ORDER requests with no HELD request of their block ahead become RELEASED (R52). `held` lists
the blocks of the HELD requests already passed. -/
def releaseOrders (held : List Block) : List HeldReq → List HeldReq
  | [] => []
  | h :: rest =>
    match h.hold with
    | .released => h :: releaseOrders held rest
    | .order _ _ _ =>
      if held.contains h.block then h :: releaseOrders held rest
      else h.release :: releaseOrders held rest
    | .entry _ | .buffer _ | .capture _ => h :: releaseOrders (h.block :: held) rest

/-- What a disposition makes of the request; `blocked`: a HELD request of its block stands ahead
(R50, R57). -/
def Disposition.hold (c : Classification) (blocked : Bool) : Disposition → Hold
  | .follow here => if blocked then .order none false here else .released
  | .buffer slot => .buffer slot
  | .wait => .entry c
  | .defer => .order (some ⟨c.initiator, c.time⟩) false true

/-- The hold of a request that needs nothing but its block's order (R50). -/
def plainHold (blocked : Bool) : Hold := if blocked then .order none false false else .released

/-- A write is classified and handed on; the hold it gets, RELEASED when it need not wait (R5, R50,
R57, R116). -/
def State.classifyWrite (s : State) (r : Request) (waiting ahead blocked : Bool) : State × Hold :=
  match s.classify r.addr r.initiator with
  | .untracked | .excluded => (s, plainHold blocked)
  | .tracked c =>
    let t := s.tableTake (blockOf r.addr) c waiting ahead
    (t.1, t.2.hold c blocked)

/-- A request joins the tail of the Hold Queue (R48). -/
def State.joinHold (s : State) (r : Request) (x : Hold) : State :=
  { s with hold := s.hold ++
      [{ req := r, hold := x, start := s.epoch.partTime, time := 0, reachedAlert := false }] }

/-- A request joins the tail of the pass-through queue (R131). -/
def State.joinPass (s : State) (r : Request) : State :=
  { s with mem.passQ := s.mem.passQ ++ [r] }

/-- The route of a taken request (R50): HELD, or behind RELEASED requests of its block, or to the
pass-through queue. -/
def State.route (s : State) (r : Request) (x : Hold) : State :=
  if x = .released then
    if anyFor s.hold (blockOf r.addr) then s.joinHold r .released else s.joinPass r
  else s.joinHold r x

/-- The Fabric Port is ready (R47). -/
def State.ready (s : State) : Bool :=
  decide (s.hold.length < Config.holdPlaces) && decide (s.mem.passQ.length < Config.passPlaces)

/-- A request for the block waits for a draining epoch's capture (R58). -/
def State.behindOldCapture (s : State) (b : Block) : Bool :=
  s.hold.any fun h => h.block == b &&
    match h.hold with
    | .capture slot => (s.entryAt slot).any s.isDraining
    | _ => false

/-- Every HELD request is released untracked, and the hold times that end are handed to the Alert
Unit (R54, R67, R68). Which peaks take them is the caller's to say: `State.stopBlocks` keeps every
peak (R169), `State.halt` the per-epoch ones (R127), as log 24 reads the rules. -/
def State.releaseAll (s : State) : State := s.setHold (s.hold.map HeldReq.release)

/-! ### Entry grants (R24, R25) -/

/-- The deferred updates of the block's requests, in Hold Queue order, are applied (R24). -/
def applyDeferred (b : Block) : List HeldReq → Entry → Entry
  | [], e => e
  | h :: rest, e =>
    match h.hold with
    | .order (some d) _ _ =>
      if h.block = b then applyDeferred b rest (e.update d.initiator d.time)
      else applyDeferred b rest e
    | _ => applyDeferred b rest e

/-- The queue after the block's ENTRY waiter was granted the slot, before its followers are
released; a deferred update applied to a TRACE entry no longer marks its write (R25, R48). -/
def grantedQueue (b : Block) (slot : Nat) (mode : TrackMode) (q : List HeldReq) : List HeldReq :=
  q.map fun h =>
    if h.block = b then
      match h.hold with
      | .entry _ => h.setHold (match mode with
        | .trace => .released
        | .undo => .buffer slot)
      | .order (some _) mark here => h.setHold (.order none mark (match mode with
        | .trace => false
        | .undo => here))
      | _ => h
    else h

/-- The oldest request with reason ENTRY, with its kept classification. -/
def State.entryWaiter (s : State) : Option (HeldReq × Classification) :=
  s.hold.findSome? fun h =>
    match h.hold with
    | .entry c => some (h, c)
    | _ => none

/-- A freed slot is granted to the oldest ENTRY waiter (R25). -/
def State.grantEntry (s : State) (slot : Nat) : State :=
  match s.entryWaiter with
  | none => s
  | some (h, c) =>
    let e := applyDeferred h.block s.hold (newEntry slot h.block s.epoch.number c)
    (s.createEntry e).setHold (releaseOrders [] (grantedQueue h.block slot c.mode s.hold))

/-! ### The Capture Pool (R70 to R72) -/

/-- A line of the pool; a line nothing has written reads as zero (log 8). -/
def poolRead (pool : List (Nat × Line)) (n : Nat) : Line :=
  match pool.find? (·.1 == n) with
  | some c => c.2
  | none => Line.zero

/-- A line is placed in the pool; the list keeps its canonical form. -/
def poolWrite (n : Nat) (v : Line) : List (Nat × Line) → List (Nat × Line)
  | [] => if v = Line.zero then [] else [(n, v)]
  | c :: rest =>
    if n < c.1 then (if v = Line.zero then c :: rest else (n, v) :: c :: rest)
    else if n = c.1 then (if v = Line.zero then rest else (n, v) :: rest)
    else c :: poolWrite n v rest

/-- The canonical form: line numbers strictly rising, no zero line listed. -/
def poolWf : List (Nat × Line) → Bool
  | [] => true
  | c :: rest => decide (c.2 ≠ Line.zero) && rest.all (fun d => decide (c.1 < d.1)) && poolWf rest

/-- The line of a buffer at a position. -/
def poolLine (buffer position : Nat) : Nat := 4 * buffer + position

/-- A PENDING entry may take a free buffer (R71). -/
def State.mayTake (s : State) (e : Entry) : Bool :=
  decide (e.state = .pending) &&
  (decide (s.active.poolMode = .shared) ||
    decide (s.windowUse e.window < (s.active.windows.get e.window).quota.toNat))

/-- The oldest BUFFER waiter whose entry is eligible (R72). -/
def State.bufferWaiter (s : State) : Option (HeldReq × Entry) :=
  s.hold.findSome? fun h =>
    match h.hold with
    | .buffer slot =>
      match s.entryAt slot with
      | some e => if s.mayTake e then some (h, e) else none
      | none => none
    | _ => none

/-- The grant that is due: the waiter, its entry and the buffer (R72). -/
def State.dueGrant (s : State) : Option (HeldReq × Entry × Nat) :=
  if s.epoch.dev = .tracking then
    match s.bufferWaiter, s.freeBuffer with
    | some (h, e), some n => some (h, e, n)
    | _, _ => none
  else none

/-! ### The queues of the memory port (R131, R133 to R136, R142) -/

/-- The place of a fabric request in arrival order (R135). Keys count by two, so that a capture
read can stand just before the write it protects. -/
def Request.key (r : Request) : Nat := 2 * r.place + 1

/-- The place of the capture reads that protect a write (R56, R135). -/
def Request.captureKey (r : Request) : Nat := 2 * r.place

/-- An own request joins the tail of class B and takes its place in arrival order (R134, R135). -/
def State.queueB (s : State) (role : OwnRole) (addr : Addr) (op : Op) : State :=
  { s with
    mem.classB := s.mem.classB ++ [{ role, addr, op, key := 2 * s.mem.nextPlace + 1 }]
    mem.nextPlace := s.mem.nextPlace + 1 }

/-- A request of the kind is queued in class B, or issued and awaited (R77, R79, R102, R134). An
abandoned request is none, though it still counts in own outstanding (R136, R142): the spec does not
say whether the bound of R134 and the conditions of R77 and R79 count it. DESIGN CHOICE, log 27. -/
def State.ownPending (s : State) (k : OwnKind) : Bool :=
  s.mem.classB.any (fun r => decide (r.role.kind = k)) ||
  s.mem.issuedOwn.any (fun i => !i.abandoned && decide (i.req.role.kind = k))

/-- Own outstanding (R136). -/
def State.ownOutstanding (s : State) : Nat := s.mem.issuedOwn.length

def State.findOwn (s : State) (tag : Nat) : Option IssuedOwn :=
  s.mem.issuedOwn.find? (·.tag == tag)

/-- An issued own request ends: own outstanding falls by one (R136). -/
def State.endOwn (s : State) (tag : Nat) : State :=
  { s with mem.issuedOwn := s.mem.issuedOwn.eraseP (·.tag == tag) }

/-- Queued own requests are discarded and issued ones abandoned (R142, R143, R145). -/
def State.dropOwn (s : State) : State :=
  { s with
    mem.classC := []
    mem.classB := []
    mem.issuedOwn := s.mem.issuedOwn.map fun i => { i with abandoned := true } }

/-- An answer with a port tag is taken: it goes to the request's owner, ends an abandoned request
silently, and is discarded when nothing that takes such an answer waits on the tag (R132, R136,
R142; log 13). -/
def State.ownAnswer (s : State) (tag : Nat) (fits : OwnRole → Bool)
    (owner : OwnReq → State → State) : State :=
  match s.findOwn tag with
  | none => s
  | some i =>
    if i.abandoned then s.endOwn tag
    else if fits i.req.role then owner i.req (s.endOwn tag)
    else s

/-- The engines run in TRACKING and FINISHING (R110). -/
def State.running (s : State) : Bool :=
  decide (s.epoch.dev = .tracking) || decide (s.epoch.dev = .finishing)

/-- A DESC_READ of the descriptor at the prefetch index is queued (R75, R77). -/
def State.queueDescRead (s : State) : State :=
  match s.copyOut.fir with
  | none => s
  | some ring =>
    s.queueB .descRead (lineOf (ring.element 16 s.copyOut.prefetchIndex)) .read

/-- A SLOT_READ of the slot at the journal index is queued (R98, R99). -/
def State.queueSlotRead (s : State) : State :=
  match s.journal.ring with
  | none => s
  | some ring => s.queueB .slotRead (lineOf (ring.element 32 s.journal.index)) .read

/-- A FIR wait ends and its poll timer stops (R78, R80). -/
def State.endFirWait (s : State) : State :=
  { s with copyOut.wait := false, copyOut.timer := none }

/-- A ring wait ends and its poll timer stops (R101, R104). -/
def State.endRingWait (s : State) : State :=
  { s with journal.wait := false, journal.timer := none }

/-! ### Grants, and the end of an event (R55, R56, R70, R72, R165) -/

/-- A write whose tracking stands in the granted entry is recorded from now on (R48). -/
def clearTrackingHere (b : Block) (h : HeldReq) : HeldReq :=
  if h.block = b then
    match h.hold with
    | .order d mark _ => h.setHold (.order d mark false)
    | _ => h
  else h

/-- The BUFFER waiter for a slot takes reason CAPTURE (R55). -/
def bufferToCapture (slot : Nat) (h : HeldReq) : HeldReq :=
  if h.hold = .buffer slot then h.setHold (.capture slot) else h

/-- The four capture reads, in ascending line order, at the place of the write they protect
(R56, R135). -/
def captureReads (e : Entry) (buffer : Nat) (r : Request) : List OwnReq :=
  [0, 1, 2, 3].map fun line =>
    { role := .captureRead e.slot buffer line, addr := blockLine e.block line, op := .read
      key := r.captureKey }

/-- One grant (R55, R72). -/
def State.grantBuffer (s : State) (h : HeldReq) (e : Entry) (buffer : Nat) : State :=
  { s.modifyEntry e.slot
      (fun e => { e with state := .capturing, poolBuf := some buffer, linesIn := 0 }) with
    hold := s.hold.map fun g => clearTrackingHere h.block (bufferToCapture e.slot g)
    mem.classC := s.mem.classC ++ captureReads e buffer h.req }

/-- Grants are made until none is due, at most `fuel` of them (R72). -/
def grantLoop : (fuel : Nat) → State → State
  | 0, s => s
  | fuel + 1, s =>
    match s.dueGrant with
    | none => s
    | some (h, e, n) => grantLoop fuel (s.grantBuffer h e n)

/-- The grants that are due at an event (R72). Each ends the wait of a BUFFER waiter, so there are
no more of them than requests in the Hold Queue. -/
def State.grantBuffers (s : State) : State := grantLoop s.hold.length s

/-- The changes of occupancy and pool use are handed to their neighbours (R40, R70, R165). -/
def State.handChanges (s : State) : State := s.handOccupancy.handPoolUse

/-- The end of an event: the grants that it made due are made, and the changes of occupancy and
pool use that stand after them are handed over (R70, R72, R165; log 11). -/
def State.handOver (s : State) : State := s.grantBuffers.handChanges

end Sys2Proof.Machine
end

