-- ==== Sys2Proof/Machine/Arbiter.lean ====
section
/-! DEFINITION. ISSUE: the arbiter's choice among the classes C, P and B (R135 to R138). -/

namespace Sys2Proof.Machine

/-- The unissued requests as pairs of block and place in arrival order: Hold Queue, pass-through
queue, class C and class B (R135). -/
def State.unissued (s : State) : List (Block × Nat) :=
  s.hold.map (fun h => (h.block, h.req.key)) ++
  s.mem.passQ.map (fun r => (blockOf r.addr, r.key)) ++
  (s.mem.classC ++ s.mem.classB).map (fun r => (blockOf r.addr, r.key))

/-- No request for the block that stands earlier in arrival order is unissued (R135). -/
def State.eligible (s : State) (addr : Addr) (key : Nat) : Bool :=
  s.unissued.all fun u => !(u.1 == blockOf addr && decide (u.2 < key))

/-- The oldest eligible request of class C (R135). -/
def State.candidateC (s : State) : Option OwnReq :=
  s.mem.classC.find? fun r => s.eligible r.addr r.key

/-- The oldest eligible request of class B (R135). -/
def State.candidateB (s : State) : Option OwnReq :=
  s.mem.classB.find? fun r => s.eligible r.addr r.key

/-- The head of the pass-through queue, if eligible (R135). -/
def State.candidateP (s : State) : Option Request :=
  match s.mem.passQ with
  | [] => none
  | r :: _ => if s.eligible r.addr r.key then some r else none

/-- Own outstanding is below its limit (R136). -/
def State.ownRoom (s : State) : Bool := decide (s.ownOutstanding < Config.ownLimit)

/-- What the arbiter issues. -/
inductive Choice where
  | capture (r : OwnReq)
  | pass (r : Request)
  | background (r : OwnReq)
  | nothing
  deriving DecidableEq, Repr

/-- Class B goes before class P when both can be issued (R138). A PASS_WEIGHT of 0 leaves class P
ahead whatever the run count, as R138 says of that value; R139 would have any written value below the
run count, 0 among them, make the next choice fall to class B. That R138's table decides, from
PASS_WEIGHT and the run count as they stand, is DESIGN CHOICE, log 28. -/
def State.preferB (s : State) : Bool :=
  s.mem.drainMode ||
  (s.imm.passWeight != 0 && decide (s.imm.passWeight.toNat ≤ s.mem.runCount))

/-- The class B candidate, when own outstanding leaves room (R138). -/
def State.issuableB (s : State) : Option OwnReq := if s.ownRoom then s.candidateB else none

/-- The choice between class P and class B (R138). -/
def State.choosePB (s : State) : Choice :=
  match s.candidateP, s.issuableB with
  | some p, some b => if s.preferB then .background b else .pass p
  | some p, none => .pass p
  | none, some b => .background b
  | none, none => .nothing

/-- R137: class C first. -/
def State.choose (s : State) : Choice :=
  match s.candidateC with
  | some c => if s.ownRoom then .capture c else s.choosePB
  | none => s.choosePB

/-- An own request is issued: it is counted and watched from now on (R136, R141). -/
def State.issueOwn (s : State) (r : OwnReq) : State :=
  { s with
    mem.issuedOwn := s.mem.issuedOwn ++ [⟨s.mem.nextTag, r, 0, false⟩]
    mem.nextTag := s.mem.nextTag + 1 }

/-- ISSUE: the memory side accepts one request; the run count follows (R137, R138). -/
def execIssue (s : State) : Host.Outcome State Fault Refusal :=
  match s.choose with
  | .nothing => .next s
  | .capture r => .next ({ s with mem.classC := s.mem.classC.erase r }.issueOwn r)
  | .background r =>
    .next ({ s with mem.classB := s.mem.classB.erase r, mem.runCount := 0 }.issueOwn r)
  | .pass r =>
    .next { s with
      mem.passQ := s.mem.passQ.tail
      mem.issuedPass := s.mem.issuedPass ++ [⟨s.mem.nextTag, r⟩]
      mem.nextTag := s.mem.nextTag + 1
      mem.runCount := if s.issuableB.isSome then min (s.mem.runCount + 1) 15 else 0 }

end Sys2Proof.Machine
end

