-- ==== Sys2Proof/Machine/Engines.lean ====
section
/-! DEFINITION. The steps the part's engines take by themselves: BUFFER_GRANT, PREFETCH,
COPY_OUT_START, RETIREMENT, CLOSE_RECORD_BUILD and JOURNAL_SLOT_READ_START. A step that is not due
leaves the state as it was (log 1). -/

namespace Sys2Proof.Machine

/-! ### BUFFER_GRANT (R55, R56, R72) -/

/-- BUFFER_GRANT: a grant that is due, and any that stay due after it (R72). The events after which
R72 makes a grant make it themselves, so that the row finds none due behind them (log 11). -/
def execBufferGrant (s : State) : Host.Outcome State Fault Refusal :=
  match s.dueGrant with
  | none => .next s
  | some (h, e, n) => .next (s.grantBuffer h e n).handOver

/-! ### PREFETCH (R77) -/

/-- The descriptor at the prefetch index is in the cache or held by a copy-out place. -/
def CopyOut.holdsIndex (c : CopyOut) (i : Nat) : Bool :=
  c.cache.any (·.firIndex == i) || c.places.any (·.image.firIndex == i)

/-- R77. -/
def State.duePrefetch (s : State) : Bool :=
  s.running && decide (s.copyOut.cache.length < Config.cachePlaces) && !s.ownPending .descRead &&
  !s.copyOut.wait && !s.copyOut.holdsIndex s.copyOut.prefetchIndex && s.copyOut.fir.isSome

def execPrefetch (s : State) : Host.Outcome State Fault Refusal :=
  if s.duePrefetch then .next s.queueDescRead else .next s

/-! ### COPY_OUT_START (R83) -/

/-- The entry at the head of the Imaged List with its buffer, and the descriptor at the head of the
cache, when a copy-out can start (R83). -/
def State.dueCopyOut (s : State) : Option (Entry × Nat × ImageBuf) :=
  if s.running ∧ s.copyOut.places.length < Config.copyOutPlaces then
    match s.copyOut.imaged, s.copyOut.cache with
    | slot :: _, image :: _ =>
      match s.entryAt slot with
      | some e =>
        match e.state, e.poolBuf with
        | .imaged, some buffer => some (e, buffer, image)
        | _, _ => none
      | none => none
    | _, _ => none
  else none

/-- One IMAGE_WRITE: a line of the pool buffer to its place in the image buffer (R83). -/
def State.queueImageWrite (s : State) (slot buffer : Nat) (image : ImageBuf) (line : Nat) : State :=
  s.queueB (.imageWrite slot) (image.addr + BitVec.ofNat 40 (64 * line))
    (.write (BitVec.allOnes 64) (poolRead s.pool (poolLine buffer line)))

/-- A copy-out starts (R83). -/
def State.startCopyOut (s : State) (e : Entry) (buffer : Nat) (image : ImageBuf) : State :=
  let s' : State :=
    { s.modifyEntry e.slot (fun e => { e with state := .copying }) with
      copyOut.imaged := s.copyOut.imaged.tail
      copyOut.cache := s.copyOut.cache.tail
      copyOut.places := s.copyOut.places ++
        [{ slot := e.slot, buffer, image, linesDone := 0 }] }
  [0, 1, 2, 3].foldl (fun s line => s.queueImageWrite e.slot buffer image line) s'

def execCopyOutStart (s : State) : Host.Outcome State Fault Refusal :=
  match s.dueCopyOut with
  | none => .next s
  | some (e, buffer, image) => .next (s.startCopyOut e buffer image)

/-! ### RETIREMENT (R91 to R94) -/

/-- The first retire-ready entry of the Retire List, when a retirement can be made (R91). -/
def State.dueRetire (s : State) : Option Entry :=
  if s.running ∧ s.journal.queue.length < Config.recordLimit then
    s.retire.list.findSome? fun slot => (s.entryAt slot).filter fun e => decide (e.state = .logged)
  else none

/-- The next sequence number of an entry's epoch (R94). -/
def State.nextSeq (s : State) (e : Entry) : Word :=
  if s.isDraining e then s.retire.drainingCounter else s.retire.currentCounter

/-- The counter of the entry's epoch advances (R94). -/
def State.advanceSeq (s : State) (e : Entry) : State :=
  if s.isDraining e then { s with retire.drainingCounter := s.retire.drainingCounter + 1 }
  else { s with retire.currentCounter := s.retire.currentCounter + 1 }

/-- A record joins the tail of the Record Queue (R96). -/
def State.joinRecords (s : State) (r : Record) : State :=
  { s with journal.queue := s.journal.queue ++ [r] }

/-- One retirement; the freed slot is granted to the oldest ENTRY waiter (R92, R25). -/
def State.retireEntry (s : State) (e : Entry) : State :=
  (((s.joinRecords (.block (s.nextSeq e) e)).advanceSeq e).removeEntries [e.slot]).grantEntry e.slot

def execRetirement (s : State) : Host.Outcome State Fault Refusal :=
  match s.dueRetire with
  | none => .next s
  | some e => .next (s.retireEntry e).handOver

/-! ### CLOSE_RECORD_BUILD (R97, R124) -/

/-- The closing summary, when the CLOSE record is to be built (R97). -/
def State.dueClose (s : State) : Option Summary :=
  if s.running = true ∧ s.epoch.draining = true ∧ s.retire.closeBuilt = false ∧
      s.journal.queue.length < Config.recordLimit ∧ s.table.all (fun e => !s.isDraining e) = true
  then s.epoch.summary
  else none

def execCloseRecordBuild (s : State) : Host.Outcome State Fault Refusal :=
  match s.dueClose with
  | none => .next s
  | some sum =>
    .next { s.joinRecords (.closing sum s.retire.drainingCounter s.epoch.imagesDraining) with
      retire.closeBuilt := true }

/-! ### JOURNAL_SLOT_READ_START (R99) -/

/-- R99. -/
def State.dueSlotRead (s : State) : Bool :=
  s.running && decide (s.journal.writer = .standby) && !s.journal.queue.isEmpty &&
  s.journal.ring.isSome

def execJournalSlotReadStart (s : State) : Host.Outcome State Fault Refusal :=
  if s.dueSlotRead then .next { s.queueSlotRead with journal.writer := .reading } else .next s

end Sys2Proof.Machine
end

