-- ==== Sys2Proof/Machine/Fabric.lean ====
section
/-! DEFINITION. The fabric port and the pass-through path: WRITE_ARRIVAL, READ_ARRIVAL,
RELEASED_LEAVE and PASS_THROUGH_ANSWER (R5, R7, R46 to R53, R58, R131). -/

namespace Sys2Proof.Machine

/-- A request is taken: it gets the next place in arrival order (R135). -/
def State.takeRequest (s : State) (i : Initiator) (addr : Addr) (op : Op) (tag : Nat) :
    State × Request :=
  ({ s with mem.nextPlace := s.mem.nextPlace + 1 },
   { initiator := i, addr, op, tag, place := s.mem.nextPlace })

/-- A taken write is held unclassified behind an earlier epoch's capture, or classified and routed
(R5, R50, R58). -/
def State.arriveWrite (s : State) (r : Request) : State :=
  let b := blockOf r.addr
  if s.epoch.dev = .tracking ∧ s.behindOldCapture b = true then
    s.joinHold r (.order none true false)
  else
    let t := s.classifyWrite r (s.hold.any HeldReq.isEntry) (entryFor s.hold b) (heldFor s.hold b)
    t.1.route r t.2

/-- WRITE_ARRIVAL. A write offered while the port is not ready has not arrived (R47). -/
def execWriteArrival (i : Initiator) (addr : Addr) (mask : ByteMask) (data : Line) (tag : Nat)
    (s : State) : Host.Outcome State Fault Refusal :=
  if s.ready then
    let t := s.takeRequest i addr (.write mask data) tag
    .next (t.1.arriveWrite t.2).handOver
  else .next s

/-- READ_ARRIVAL: not classified, routed by what the Hold Queue holds for its block (R7, R50). -/
def execReadArrival (i : Initiator) (addr : Addr) (tag : Nat) (s : State) :
    Host.Outcome State Fault Refusal :=
  if s.ready then
    let t := s.takeRequest i addr .read tag
    .next (t.1.route t.2 (plainHold (heldFor s.hold (blockOf addr))))
  else .next s

/-- The RELEASED requests that leave when there is room for `room` of them, oldest first, and the
queue they leave (R53). -/
def leaveUpTo : (room : Nat) → List HeldReq → List Request × List HeldReq
  | _, [] => ([], [])
  | 0, q => ([], q)
  | room + 1, h :: rest =>
    if h.isHeld then
      let p := leaveUpTo (room + 1) rest
      (p.1, h :: p.2)
    else
      let p := leaveUpTo room rest
      (h.req :: p.1, p.2)

/-- The RELEASED requests that can leave and the queue behind them, when there is one (R53). -/
def State.dueLeave (s : State) : Option (List Request × List HeldReq) :=
  let p := leaveUpTo (Config.passPlaces - s.mem.passQ.length) s.hold
  if p.1.isEmpty then none else some p

/-- RELEASED_LEAVE: as many leave at the one event as the pass-through queue has room for (R53;
log 25). -/
def execReleasedLeave (s : State) : Host.Outcome State Fault Refusal :=
  match s.dueLeave with
  | none => .next s
  | some (leaving, rest) => .next { s with hold := rest, mem.passQ := s.mem.passQ ++ leaving }

/-- The answers the memory side may give to an operation (R132). -/
def Op.answeredBy : Op → Answer → Bool
  | .read, .data _ | .read, .error | .write _ _, .done | .write _ _, .error => true
  | .read, .done | .write _ _, .data _ => false

/-- PASS_THROUGH_ANSWER: relayed to the fabric with the request's tag; an ERROR changes nothing
else (R131). The row has no effect when its tag names no issued pass-through request, or one that
the answer does not fit: DESIGN CHOICE, log 13. -/
def execPassThroughAnswer (tag : Nat) (answer : Answer) (s : State) :
    Host.Outcome State Fault Refusal :=
  match s.mem.issuedPass.find? (·.tag == tag) with
  | none => .next s
  | some i =>
    if i.req.op.answeredBy answer then
      .next { s with
        mem.issuedPass := s.mem.issuedPass.eraseP (·.tag == tag)
        out.fabric := s.out.fabric ++ [⟨i.req.initiator, i.req.tag, answer⟩] }
    else .next s

end Sys2Proof.Machine
end

