-- ==== Sys2Proof/Machine/Answers.lean ====
section
/-! DEFINITION. The answers to the part's own requests, memory errors and the end of abandoned
requests (R56, R57, R77, R84, R85, R99, R100, R123, R127, R132, R141 to R143, R158, R159). -/

namespace Sys2Proof.Machine

/-! ### CAPTURE_READ_DATA (R56, R57) -/

/-- The release walk over a block's HELD requests, oldest first, from the request that protects
`slot`. `done`: the requests already passed; `blocked`: one of the walk is HELD again (R57). -/
def releaseWalk (b : Block) (slot : Nat) :
    List HeldReq → (done : List HeldReq) → (blocked : Bool) → State → State × List HeldReq
  | [], done, _, s => (s, done)
  | h :: rest, done, blocked, s =>
    if h.block = b then
      match h.hold with
      | .released => releaseWalk b slot rest (done ++ [h]) blocked s
      | .capture n =>
        if n = slot then releaseWalk b slot rest (done ++ [h.release]) blocked s
        else releaseWalk b slot rest (done ++ [h]) true s
      | .entry _ | .buffer _ => releaseWalk b slot rest (done ++ [h]) true s
      | .order _ false _ =>
        releaseWalk b slot rest (done ++ [if blocked then h else h.release]) blocked s
      | .order _ true _ =>
        let t := s.classifyWrite h.req ((done ++ rest).any HeldReq.isEntry) (entryFor done b) blocked
        releaseWalk b slot rest (done ++ [h.setHold t.2]) (blocked || decide (t.2 ≠ .released)) t.1
    else releaseWalk b slot rest (done ++ [h]) blocked s

/-- The capture completes: the entry passes to IMAGED and joins the Imaged List, and the block's
requests are walked (R57, R82). -/
def State.completeCapture (s : State) (e : Entry) : State :=
  let s' : State :=
    { s.modifyEntry e.slot (fun e => { e with state := .imaged, linesIn := 4 }) with
      copyOut.imaged := s.copyOut.imaged ++ [e.slot] }
  let t := releaseWalk e.block e.slot s'.hold [] false s'
  t.1.setHold t.2

/-- One line of a capture has returned (R56). -/
def State.captureLine (s : State) (slot buffer line : Nat) (data : Line) : State :=
  let s := { s with pool := poolWrite (poolLine buffer line) data s.pool }
  match s.entryAt slot with
  | none => s
  | some e =>
    if e.state = .capturing then
      if e.linesIn + 1 < 4 then
        s.modifyEntry slot (fun e => { e with linesIn := e.linesIn + 1 })
      else s.completeCapture e
    else s

def OwnRole.isCaptureRead : OwnRole → Bool
  | .captureRead _ _ _ => true
  | _ => false

def execCaptureReadData (tag : Nat) (data : Line) (s : State) : Host.Outcome State Fault Refusal :=
  .next (s.ownAnswer tag OwnRole.isCaptureRead fun r s =>
    match r.role with
    | .captureRead slot buffer line => (s.captureLine slot buffer line data).handOver
    | _ => s)

/-! ### IMAGE_WRITE_DONE and DESC_WRITE_DONE (R84, R85) -/

/-- The image write of a copy-out completes (R84). -/
def State.completeImage (s : State) (e : Entry) (p : CopyOutPlace) : State :=
  let s' := s.modifyEntry e.slot fun e =>
    { e with state := .filing, poolBuf := none, imageBuf := some p.image }
  match s.copyOut.fir with
  | none => s'
  | some ring =>
    let desc := ring.element 16 p.image.firIndex
    s'.queueB (.descWrite e.slot) (lineOf desc) (descWrite desc e p.image)

/-- A line of an image write has returned done (R84). -/
def State.imageLine (s : State) (slot : Nat) : State :=
  match s.copyOut.places.find? (·.slot == slot), s.entryAt slot with
  | some p, some e =>
    let s' := { s with
      copyOut.places := s.copyOut.places.map fun q =>
        if q.slot = slot then { q with linesDone := q.linesDone + 1 } else q }
    if p.linesDone + 1 = 4 ∧ e.state = .copying then s'.completeImage e p else s'
  | _, _ => s

def OwnRole.isImageWrite : OwnRole → Bool
  | .imageWrite _ => true
  | _ => false

def execImageWriteDone (tag : Nat) (s : State) : Host.Outcome State Fault Refusal :=
  .next (s.ownAnswer tag OwnRole.isImageWrite fun r s =>
    match r.role with
    | .imageWrite slot => (s.imageLine slot).handOver
    | _ => s)

/-- The image is counted, for its epoch and for the part's life (R85, R125, R170). -/
def State.countImage (s : State) (e : Entry) : State :=
  let s := { s with alert.imagesWritten := s.alert.imagesWritten + 1 }
  if s.isDraining e then { s with epoch.imagesDraining := s.epoch.imagesDraining + 1 }
  else { s with epoch.imagesCurrent := s.epoch.imagesCurrent + 1 }

/-- The write-back completes (R85). -/
def State.completeDesc (s : State) (slot : Nat) : State :=
  match s.entryAt slot with
  | none => s
  | some e =>
    if e.state = .filing then
      { (s.modifyEntry slot fun e => { e with state := .logged }).countImage e with
        copyOut.places := s.copyOut.places.filter (·.slot != slot) }
    else s

def OwnRole.isDescWrite : OwnRole → Bool
  | .descWrite _ => true
  | _ => false

def execDescWriteDone (tag : Nat) (s : State) : Host.Outcome State Fault Refusal :=
  .next (s.ownAnswer tag OwnRole.isDescWrite fun r s =>
    match r.role with
    | .descWrite slot => s.completeDesc slot
    | _ => s)

/-! ### DESC_READ_DATA (R77, R78, R173) -/

/-- The descriptor joins the cache, or a FIR wait begins or goes on. -/
def State.takeDescriptor (s : State) (data : Line) : State :=
  match s.copyOut.fir with
  | none => s
  | some ring =>
    let q := quadAt data (ring.element 16 s.copyOut.prefetchIndex)
    if ownedByPart q.w0 then
      { s.endFirWait with
        copyOut.cache := s.copyOut.cache ++ [descImage s.copyOut.prefetchIndex q]
        copyOut.prefetchIndex := ring.next s.copyOut.prefetchIndex }
    else
      { (if s.copyOut.wait then s else s.raise .iringWait) with
        copyOut.wait := true
        copyOut.timer := some 0 }

def execDescReadData (tag : Nat) (data : Line) (s : State) : Host.Outcome State Fault Refusal :=
  .next (s.ownAnswer tag (fun r => decide (r.kind = .descRead)) fun _ s => s.takeDescriptor data)

/-! ### SLOT_READ_DATA and SLOT_WRITE_DONE (R99, R100, R101, R123) -/

/-- A SLOT_WRITE of the head record is queued; `op` lays it out for its slot (R100). -/
def State.queueSlotWrite (s : State) (op : Addr → Record → Op) : State :=
  match s.journal.ring, s.journal.queue with
  | some ring, r :: _ =>
    let slot := ring.element 32 s.journal.index
    s.queueB .slotWrite (lineOf slot) (op slot r)
  | _, _ => s

/-- The body write is issued, or a ring wait begins or goes on (R99, R101, R173). -/
def State.takeSlot (s : State) (data : Line) : State :=
  match s.journal.ring with
  | none => s
  | some ring =>
    if ownedByPart (quadAt data (ring.element 32 s.journal.index)).w0 then
      { s.endRingWait.queueSlotWrite bodyWrite with journal.writer := .body }
    else
      { (if s.journal.wait then s else s.raise .jringWait) with
        journal.wait := true
        journal.timer := some 0
        journal.writer := .waiting }

def execSlotReadData (tag : Nat) (data : Line) (s : State) : Host.Outcome State Fault Refusal :=
  .next (s.ownAnswer tag (fun r => decide (r.kind = .slotRead)) fun _ s => s.takeSlot data)

/-- In FINISHING the drain's completion stops prefetch: a queued DESC_READ is discarded and an
issued one abandoned (R80, R134, R142). -/
def State.abandonDescRead (s : State) : State :=
  { s with
    mem.classB := s.mem.classB.filter fun r => decide (r.role.kind ≠ .descRead)
    mem.issuedOwn := s.mem.issuedOwn.map fun i =>
      if i.req.role.kind = .descRead then { i with abandoned := true } else i }

/-- The drain completes (R123). -/
def State.completeDrain (s : State) : State :=
  let s : State :=
    { s.raise .epochClosed with
      epoch.draining := false
      epoch.summary := none
      epoch.imagesDraining := 0
      retire.closeBuilt := false
      cmd.busy := false }
  if s.epoch.dev = .finishing then
    { s.endFirWait.abandonDescRead with epoch.dev := .ready }
  else s

def Record.isClosing : Record → Bool
  | .closing _ _ _ => true
  | _ => false

/-- The head record is written (R100). -/
def State.recordWritten (s : State) : State :=
  match s.journal.ring, s.journal.queue with
  | some ring, r :: rest =>
    let s' : State :=
      { s with
        journal.queue := rest
        journal.index := ring.next s.journal.index
        journal.writer := .standby
        alert.recordsWritten := s.alert.recordsWritten + 1 }
    if r.isClosing ∧ s.epoch.draining then s'.completeDrain else s'
  | _, _ => s

/-- A SLOT_WRITE has returned done: the header follows the body, and after the header the record is
written (R100). -/
def State.slotWritten (s : State) : State :=
  match s.journal.writer with
  | .body => { s.queueSlotWrite headerWrite with journal.writer := .header }
  | .header => s.recordWritten
  | .standby | .reading | .waiting => s

def execSlotWriteDone (tag : Nat) (s : State) : Host.Outcome State Fault Refusal :=
  .next (s.ownAnswer tag (fun r => decide (r.kind = .slotWrite)) fun _ s => s.slotWritten)

/-! ### JCB_READ_DATA (R158, R159) -/

/-- LOADING ends in IDLE with LOAD_FAIL (R111, R127, R159). -/
def State.failLoad (s : State) (result : LoadResult) : State :=
  { s.raise .loadFail with
    epoch.dev := .idle
    cmd.busy := false
    cmd.loadResult := result }

/-- The JCB has passed its checks (R159). -/
def State.passLoad (s : State) (q : Quad) : State :=
  { s.raise .loadDone with
    epoch.dev := .ready
    epoch.pendingFirst := some (jcbFirstNumber q)
    journal.ring := some (jcbJournalRing q)
    journal.index := 0
    copyOut.fir := some (jcbFreeImageRing q)
    copyOut.prefetchIndex := 0
    cmd.busy := false
    cmd.loadResult := .done }

/-- The JCB is checked, FORMAT before OVERLAP (R158). -/
def State.checkJcb (s : State) (q : Quad) : State :=
  if !jcbFormatOk q then s.failLoad .format
  else if jcbOverlap q then s.failLoad .overlap
  else s.passLoad q

def OwnRole.isJcbRead : OwnRole → Bool
  | .jcbRead _ => true
  | _ => false

def execJcbReadData (tag : Nat) (data : Line) (s : State) : Host.Outcome State Fault Refusal :=
  .next (s.ownAnswer tag OwnRole.isJcbRead fun r s =>
    match r.role with
    | .jcbRead jcb => if s.epoch.dev = .loading then s.checkJcb (quadAt data jcb) else s
    | _ => s)

/-! ### Memory errors (R127, R141 to R144) -/

/-- The device goes to HALTED (R68, R80, R104, R127). The hold times that end here are handed on
(R54, R68): PEAK_HOLD takes them (R169), and the per-epoch peaks keep their values (R127; log 24).
Occupancy and pool use do not change. -/
def State.halt (s : State) : State :=
  let t := ((s.raise .memErr).endFirWait.endRingWait).releaseAll
  { t with
    alert.epochHold := s.alert.epochHold
    epoch.dev := .halted
    epoch.draining := false
    cmd.busy := false }

/-- The Epoch Controller acts on the report by device state (R127). -/
def State.reportError (s : State) : State :=
  match s.epoch.dev with
  | .loading => s.failLoad .memory
  | .tracking | .finishing => s.halt
  | .idle | .ready | .halted => s

/-- A memory error of an own request that has ended: recorded, reported, and the other own requests
discarded or abandoned (R143). -/
def State.memoryError (s : State) (r : OwnReq) (cause : ErrCause) : State :=
  (State.reportError { s with mem.err := some ⟨r.role.kind, cause, r.addr⟩ }).dropOwn

/-- ERROR_ANSWER (R141). -/
def execErrorAnswer (tag : Nat) (s : State) : Host.Outcome State Fault Refusal :=
  .next (s.ownAnswer tag (fun _ => true) fun r s => s.memoryError r .error)

/-- The request with the tag has had no answer within the limit (R141, R142). -/
def State.overdue (s : State) (tag : Nat) : Bool :=
  (s.findOwn tag).any fun i => decide (Config.answerLimit ≤ i.age)

/-- TIMEOUT (R141). -/
def execTimeout (tag : Nat) (s : State) : Host.Outcome State Fault Refusal :=
  if s.overdue tag then
    .next (s.ownAnswer tag (fun _ => true) fun r s => s.memoryError r .timeout)
  else .next s

/-- An abandoned request ends silently (R142). -/
def State.endAbandoned (s : State) (tag : Nat) : State :=
  if (s.findOwn tag).any (·.abandoned) then s.endOwn tag else s

/-- ABANDONED_ANSWER: whatever its kind, the answer is discarded (R142). The row has no effect when
its tag names no abandoned request: DESIGN CHOICE, log 13. -/
def execAbandonedAnswer (tag : Nat) (_answer : Answer) (s : State) :
    Host.Outcome State Fault Refusal :=
  .next (s.endAbandoned tag)

/-- ABANDONED_TIMEOUT (R142). -/
def execAbandonedTimeout (tag : Nat) (s : State) : Host.Outcome State Fault Refusal :=
  if s.overdue tag then .next (s.endAbandoned tag) else .next s

/-- UNMATCHED_ANSWER: an answer that matches no request the port waits on is discarded (R132). The row
has no other effect whatever its tag names: DESIGN CHOICE, log 13. -/
def execUnmatchedAnswer (_tag : Nat) (_answer : Answer) (s : State) :
    Host.Outcome State Fault Refusal :=
  .next s

end Sys2Proof.Machine
end

