-- ==== Sys2Proof/Machine/Epoch.lean ====
section
/-! DEFINITION. The cut (R12, R36, R94, R113 to R119, R126). -/

namespace Sys2Proof.Machine

/-- R12: the whole staged copy, in one step. -/
def State.installStaged (s : State) : State := { s with active := s.staged }

/-- Every current-epoch entry receives cause CLOSE; those without a cause join the Retire List in
creation order (R36, R90). -/
def State.closeEntries (s : State) : State :=
  { s with
    table := s.table.map fun e => if s.isCurrent e then { e with cause := some .close } else e
    retire.list := s.retire.list ++
      (s.table.filter fun e => s.isCurrent e && e.cause.isNone).map (·.slot) }

/-- The closing summary as step 2 of the cut takes it, with the longest hold of that moment (R114,
R115). -/
def State.summaryNow (s : State) (cause : CloseCause) : Summary :=
  { epoch := s.epoch.number, cause, overflow := s.epoch.overflow, untracked := s.epoch.untracked
    peakOcc := s.alert.epochPeakOcc, peakPool := s.alert.epochPeakPool
    longestHold := s.alert.epochHold, duration := s.epoch.epochTime }

/-- The current epoch is closed (R94, R113, R115, R125). -/
def State.closeEpoch (s : State) (cause : CloseCause) : State :=
  { s.closeEntries with
    retire.drainingCounter := s.retire.currentCounter
    retire.currentCounter := 0
    retire.closeBuilt := false
    epoch.pendingFirst := none
    epoch.draining := true
    epoch.summary := some (s.summaryNow cause)
    epoch.imagesDraining := s.epoch.imagesCurrent
    epoch.imagesCurrent := 0 }

/-- The longest hold is copied into the summary, the holds ended by the cut included (R114,
R126). -/
def State.copyLongestHold (s : State) : State :=
  { s with
    epoch.summary := s.epoch.summary.map fun m => { m with longestHold := s.alert.epochHold } }

/-- The number an OPEN gives its epoch (R113). -/
def State.openNumber (s : State) : Half := s.epoch.pendingFirst.getD (s.epoch.number + 1)

/-- A new epoch begins; its OPEN record joins the Record Queue (R118, R119). -/
def State.beginEpoch (s : State) (number : Half) (cause : CutCause) : State :=
  { s with
    epoch.dev := .tracking
    epoch.number := number
    epoch.pendingFirst := none
    epoch.epochTime := 0
    epoch.overflow := false
    epoch.untracked := 0
    epoch.imagesCurrent := 0
    retire.currentCounter := 0
    journal.queue := s.journal.queue ++
      [.opening number cause s.active.windows s.active.poolMode s.epoch.partTime] }

/-- The per-epoch peaks are restarted at the end of the cut's steps (R126). -/
def State.restartPeaks (s : State) : State :=
  { s with
    alert.epochPeakOcc := s.occupancy
    alert.epochPeakPool := s.poolUse
    alert.epochHold := 0 }

/-- A cut drops deferred updates and tracking-held-here items (R24, R48, R65). -/
def dropDeferred (h : HeldReq) : HeldReq :=
  match h.hold with
  | .order _ mark _ => h.setHold (.order none mark false)
  | _ => h

/-- The ENTRY and BUFFER waiters are re-classified one by one in the new epoch, each in its place
(R116). `done`: the requests already passed. -/
def reclassify : List HeldReq → (done : List HeldReq) → State → State × List HeldReq
  | [], done, s => (s, done)
  | h :: rest, done, s =>
    if h.isWaiter then
      let t := s.classifyWrite h.req (done.any HeldReq.isEntry) (entryFor done h.block) false
      reclassify rest (done ++ [h.setHold t.2]) t.1
    else reclassify rest (done ++ [dropDeferred h]) s

/-- The PENDING entries of the BUFFER waiters are freed (R38, R116, R117). -/
def State.freePending (s : State) : State :=
  s.removeEntries (s.hold.filterMap HeldReq.bufferSlot)

/-- Step 4 of a cut that opens an epoch (R116). -/
def State.reclassifyWaiters (s : State) : State :=
  let t := reclassify s.hold [] s.freePending
  t.1.setHold (releaseOrders [] t.2)

/-- A waiter is released untracked at CLOSE_END; the others drop their deferred updates (R117). -/
def endWaiter (h : HeldReq) : HeldReq := if h.isWaiter then h.release else dropDeferred h

/-- Step 4 of a CLOSE_END cut (R117). -/
def State.releaseWaiters (s : State) : State :=
  s.freePending.setHold (releaseOrders [] (s.hold.map endWaiter))

/-- The last steps of a cut that opens an epoch: the grants it made due, the restart of the per-epoch
peaks, and the changes that are handed over (R72, R116, R126). -/
def State.endCut (s : State) : State := s.grantBuffers.restartPeaks.handChanges

/-- The cut of OPEN (R114). -/
def State.cutOpen (s : State) : State :=
  let s := s.installStaged
  (s.beginEpoch s.openNumber .command).reclassifyWaiters.endCut

/-- The cut of CLOSE_SWITCH (R114). -/
def State.cutSwitch (s : State) : State :=
  let s := s.installStaged.closeEpoch .switch
  (s.beginEpoch (s.epoch.number + 1) .switch).reclassifyWaiters.copyLongestHold.endCut

/-- The cut of CLOSE_END (R114). -/
def State.cutEnd (s : State) : State :=
  let s := s.installStaged.closeEpoch .endEpoch
  let s := s.releaseWaiters.copyLongestHold
  State.handOver { s with epoch.dev := .finishing }

end Sys2Proof.Machine
end

