-- ==== Sys2Proof/Machine/Expiries.lean ====
section
/-! DEFINITION. HOLD_LIMIT_EXPIRY, HOLD_ALERT_REACHED, AGE_EXPIRY, FIR_POLL_EXPIRY and
RING_POLL_EXPIRY (R34, R61, R62, R79, R102, R168). An expiry that is not due leaves the state as it
was (log 1). -/

namespace Sys2Proof.Machine

/-! ### HOLD_LIMIT_EXPIRY (R61 to R63) -/

/-- An ENTRY or BUFFER waiter's hold time has reached HOLD_LIMIT (R61). -/
def State.dueHoldLimit (s : State) : Bool :=
  s.imm.holdLimit != 0 &&
  s.hold.any fun h => h.isWaiter && decide (s.imm.holdLimit.toNat ≤ h.time.toNat)

/-- The writes whose tracking an overflow loses: released waiters, and released writes with the
tracking-held-here item (R63). -/
def lostWrites : (old new : List HeldReq) → Nat
  | a :: as, b :: bs =>
    (if a.isHeld && !b.isHeld && (a.isWaiter || a.trackingHere) then 1 else 0) + lostWrites as bs
  | _, _ => 0

def releaseWaiter (h : HeldReq) : HeldReq := if h.isWaiter then h.release else h

/-- The overflow flag is set, with its event and counter the first time (R62). -/
def State.setOverflow (s : State) : State :=
  let s' := if s.epoch.overflow then s else (s.raise .overflow).countOverflow
  { s' with epoch.overflow := true }

/-- The epoch overflows (R62). -/
def State.overflowEpoch (s : State) : State :=
  let q := releaseOrders [] (s.hold.map releaseWaiter)
  let lost := lostWrites s.hold q
  let slots := s.hold.filterMap HeldReq.bufferSlot
  ((s.setOverflow.removeEntries slots).setHold q).countUntracked lost

def execHoldLimitExpiry (s : State) : Host.Outcome State Fault Refusal :=
  if s.dueHoldLimit then .next s.overflowEpoch.handOver else .next s

/-! ### HOLD_ALERT_REACHED (R168) -/

/-- A HELD request's hold time is at or above HOLD_ALERT. -/
def State.overAlert (s : State) (h : HeldReq) : Bool :=
  h.isHeld && decide (s.imm.holdAlert.toNat ≤ h.time.toNat)

/-- The request reaches HOLD_ALERT now; each does so once in a hold. -/
def State.reachesAlert (s : State) (h : HeldReq) : Bool := s.overAlert h && !h.reachedAlert

def State.dueHoldAlert (s : State) : Bool :=
  s.imm.holdAlert != 0 && s.hold.any s.reachesAlert

/-- The first request that satisfies `p` is marked as having reached HOLD_ALERT. -/
def markFirst (p : HeldReq → Bool) : List HeldReq → List HeldReq
  | [] => []
  | h :: rest => if p h then { h with reachedAlert := true } :: rest else h :: markFirst p rest

def execHoldAlertReached (s : State) : Host.Outcome State Fault Refusal :=
  if s.dueHoldAlert then
    .next { s.raise .holdLong with hold := markFirst s.reachesAlert s.hold }
  else .next s

/-! ### AGE_EXPIRY (R34) -/

/-- The entry's age has reached AGE_LIMIT milliseconds. -/
def State.aged (s : State) (e : Entry) : Bool :=
  s.victimCandidate e &&
  decide (s.active.ageLimit.toNat * 1000 ≤ s.epoch.epochTime.toNat - e.lastStamp.toNat)

/-- The first entry in creation order whose expiry is due (R34). -/
def State.dueAge (s : State) : Option Entry :=
  if s.active.ageLimit = 0 then none else s.table.find? s.aged

def execAgeExpiry (s : State) : Host.Outcome State Fault Refusal :=
  match s.dueAge with
  | none => .next s
  | some e => .next (s.giveCause e.slot .age)

/-! ### FIR_POLL_EXPIRY and RING_POLL_EXPIRY (R79, R102) -/

/-- The poll interval has elapsed on a running timer. -/
def pollExpired (poll : Byte) (timer : Option Nat) : Bool :=
  poll != 0 && timer.any fun t => decide (poll.toNat * 16 ≤ t)

def State.dueFirPoll (s : State) : Bool :=
  s.running && s.copyOut.wait && pollExpired s.imm.poll s.copyOut.timer

def State.dueRingPoll (s : State) : Bool :=
  s.running && s.journal.wait && pollExpired s.imm.poll s.journal.timer

/-- The waiting descriptor is re-read and the timer stops (R79). -/
def State.rereadDesc (s : State) : State := { s.queueDescRead with copyOut.timer := none }

/-- The waiting slot is re-read and the timer stops (R102). -/
def State.rereadSlot (s : State) : State := { s.queueSlotRead with journal.timer := none }

def execFirPollExpiry (s : State) : Host.Outcome State Fault Refusal :=
  if s.dueFirPoll then .next s.rereadDesc else .next s

def execRingPollExpiry (s : State) : Host.Outcome State Fault Refusal :=
  if s.dueRingPoll then .next s.rereadSlot else .next s

end Sys2Proof.Machine
end

