-- ==== Sys2Proof/Machine/Commands.lean ====
section
/-! DEFINITION. What the Command Unit does with a register write to COMMAND (R153 to R161). The rows
LOAD, OPEN, CLOSE_SWITCH, CLOSE_END, KICK, STOP and INVALID_COMMAND_CODE stand in Management.lean. -/

namespace Sys2Proof.Machine

/-- R154. -/
def State.refuse (s : State) (reason : RejectReason) : State :=
  { s.raise .cmdRejected with
    cmd.reject := true
    cmd.reason := reason }

/-- The decision on an EXECUTE command, BUSY before STATE (R153). -/
def State.decideExecute (s : State) (legal : Bool) (accept : State → State) : State :=
  if s.cmd.busy then s.refuse .busy
  else if legal then accept s
  else s.refuse .state

/-- LOAD accepted (R157, R80, R105). -/
def State.acceptLoad (s : State) : State :=
  State.queueB
    { s with
      cmd.busy := true
      cmd.last := .load
      cmd.loadResult := .noResult
      epoch.dev := .loading
      epoch.pendingFirst := none
      copyOut.cache := []
      copyOut.prefetchIndex := 0
      copyOut.fir := none
      copyOut.wait := false
      copyOut.timer := none
      journal.index := 0
      journal.ring := none
      journal.writer := .standby }
    (.jcbRead s.cmd.jcbAddr) (lineOf s.cmd.jcbAddr) .read

/-- OPEN accepted: complete at its cut (R114, R156). -/
def State.acceptOpen (s : State) : State := { s.cutOpen with cmd.last := .openEpoch }

/-- CLOSE_SWITCH accepted: busy until its drain completes (R114, R156). -/
def State.acceptSwitch (s : State) : State :=
  { s.cutSwitch with
    cmd.busy := true
    cmd.last := .closeSwitch }

/-- CLOSE_END accepted: busy until its drain completes (R114, R156). -/
def State.acceptEnd (s : State) : State :=
  { s.cutEnd with
    cmd.busy := true
    cmd.last := .closeEnd }

def State.takeLoad (s : State) : State :=
  s.decideExecute (decide (s.epoch.dev = .idle) || decide (s.epoch.dev = .ready))
    State.acceptLoad

def State.takeOpen (s : State) : State :=
  s.decideExecute (decide (s.epoch.dev = .ready)) State.acceptOpen

def State.takeSwitch (s : State) : State :=
  s.decideExecute (decide (s.epoch.dev = .tracking)) State.acceptSwitch

def State.takeEnd (s : State) : State :=
  s.decideExecute (decide (s.epoch.dev = .tracking)) State.acceptEnd

/-- KICK on a FIR wait with no re-read queued or outstanding (R79). -/
def State.kickFir (s : State) : State :=
  if s.copyOut.wait && !s.ownPending .descRead then s.rereadDesc else s

/-- KICK on a ring wait with no re-read queued or outstanding (R102). -/
def State.kickRing (s : State) : State :=
  if s.journal.wait && !s.ownPending .slotRead then s.rereadSlot else s

/-- R160. -/
def State.takeKick (s : State) : State :=
  State.kickRing (State.kickFir { s with cmd.last := .kick })

/-- STOP on the windows: the active modes become OFF (R15). -/
def Windows.allOff (ws : Windows) : Windows :=
  { w0 := { ws.w0 with mode := .off }
    w1 := { ws.w1 with mode := .off }
    w2 := { ws.w2 with mode := .off }
    w3 := { ws.w3 with mode := .off } }

/-- STOP on the engines, the table and the queues (R15, R45, R67, R74, R89, R109, R125, R128,
R145). The hold times that end here are handed on (R67) and change no peak: STOP leaves every peak
as it was (R126, R128, R169, R172; log 24). -/
def State.stopBlocks (s : State) : State :=
  let t := s.releaseAll.dropOwn
  { t with
    active.windows := s.active.windows.allOff
    alert.peakHold := s.alert.peakHold
    alert.epochHold := s.alert.epochHold
    table := []
    copyOut := CopyOut.reset
    retire := RetireEngine.reset
    journal := Journal.reset
    mem.runCount := 0
    epoch.dev := .idle
    epoch.pendingFirst := none
    epoch.draining := false
    epoch.summary := none
    epoch.imagesCurrent := 0
    epoch.imagesDraining := 0 }

/-- R161. The arbiter's mode follows pool use, which is 0 (R140, R145). -/
def State.takeStop (s : State) : State :=
  { s.stopBlocks.handChanges.evalDrainMode with
    alert.flags := 0
    cmd.busy := false
    cmd.reject := false
    cmd.last := .stop }

/-- A register write to COMMAND is decided (R153); the codes are those of 10.5. -/
def State.commandWrite (s : State) (v : Half) : State :=
  if v = 0x00A5 then s.takeKick
  else if v = 0x005A then s.takeStop
  else if v = 0x0011 then s.takeLoad
  else if v = 0x0022 then s.takeOpen
  else if v = 0x0033 then s.takeSwitch
  else if v = 0x0034 then s.takeEnd
  else s.refuse .badCode

end Sys2Proof.Machine
end

