-- ==== Sys2Proof/Machine/Registers.lean ====
section
/-! DEFINITION. The register map (10.5): which register a pointer names, what a read of it samples
(R11, R42, R149, R151, R171) and what a register write does (R150). -/

namespace Sys2Proof.Machine

/-- The registers of 10.5. -/
inductive Reg where
  | command | cmdStatus | devStatus | mportStatus | view | event | eventEnable | alertMode
  | jcbAddr (part : BitVec 2)
  | poolMode | ageLimit | passWeight | drainHigh | drainLow | holdLimit | poll | holdAlert
  | tableUpper | tableLower | poolUpper | poolLower
  | winBaseL (n : BitVec 2) | winBaseH (n : BitVec 2) | winLimitL (n : BitVec 2)
  | winLimitH (n : BitVec 2) | winMask (n : BitVec 2) | winModeQuota (n : BitVec 2)
  | occupancy | poolUse | rqDepth | hqDepth | jringIndex | firIndex | epochNumber
  | wideLow (q : Wide) | wideHigh (q : Wide)
  | overflows | peakOcc | peakPool | epochPeakOcc | epochPeakPool | errInfo
  | inspectSlot | snapInfo | snapEpoch | snapCounts | snapWriters | snapWset | snapFir
  | undefined
  deriving DecidableEq, Repr

/-- The window registers from 0x20 on, six to a window. -/
def windowReg (offset : Nat) : Reg :=
  let n := BitVec.ofNat 2 (offset / 6)
  match offset % 6 with
  | 0 => .winBaseL n
  | 1 => .winBaseH n
  | 2 => .winLimitL n
  | 3 => .winLimitH n
  | 4 => .winMask n
  | _ => .winModeQuota n

/-- The register a pointer names. -/
def regAt (pointer : Byte) : Reg :=
  if 0x20 ≤ pointer.toNat ∧ pointer.toNat < 0x38 then windowReg (pointer.toNat - 0x20)
  else
    match pointer.toNat with
    | 0x00 => .command | 0x01 => .cmdStatus | 0x02 => .devStatus | 0x03 => .mportStatus
    | 0x04 => .view | 0x05 => .event | 0x06 => .eventEnable | 0x07 => .alertMode
    | 0x08 => .jcbAddr 0 | 0x09 => .jcbAddr 1 | 0x0A => .jcbAddr 2
    | 0x0B => .poolMode | 0x0C => .ageLimit | 0x0D => .passWeight | 0x0E => .drainHigh
    | 0x0F => .drainLow | 0x10 => .holdLimit | 0x11 => .poll | 0x12 => .holdAlert
    | 0x13 => .tableUpper | 0x14 => .tableLower | 0x15 => .poolUpper | 0x16 => .poolLower
    | 0x40 => .occupancy | 0x41 => .poolUse | 0x42 => .rqDepth | 0x43 => .hqDepth
    | 0x44 => .jringIndex | 0x45 => .firIndex | 0x46 => .epochNumber
    | 0x48 => .wideLow .untracked | 0x49 => .wideHigh .untracked
    | 0x4A => .wideLow .recordsWritten | 0x4B => .wideHigh .recordsWritten
    | 0x4C => .wideLow .imagesWritten | 0x4D => .wideHigh .imagesWritten
    | 0x4E => .overflows | 0x50 => .peakOcc | 0x51 => .peakPool
    | 0x52 => .wideLow .peakHold | 0x53 => .wideHigh .peakHold
    | 0x54 => .epochPeakOcc | 0x55 => .epochPeakPool
    | 0x56 => .wideLow .epochHold | 0x57 => .wideHigh .epochHold
    | 0x60 => .wideLow .errAddr | 0x61 => .wideHigh .errAddr | 0x62 => .errInfo
    | 0x70 => .inspectSlot | 0x71 => .snapInfo | 0x72 => .snapEpoch
    | 0x73 => .wideLow .snapBlock | 0x74 => .wideHigh .snapBlock
    | 0x75 => .snapCounts | 0x76 => .snapWriters | 0x77 => .snapWset
    | 0x78 => .wideLow .snapFirst | 0x79 => .wideHigh .snapFirst
    | 0x7A => .wideLow .snapLast | 0x7B => .wideHigh .snapLast
    | 0x7C => .snapFir | 0x7D => .wideLow .snapImg | 0x7E => .wideHigh .snapImg
    | _ => .undefined

/-! ### Reads -/

/-- The latch of a wide quantity (R151). -/
def Latches.get (l : Latches) : Wide → Half
  | .untracked => l.untracked | .recordsWritten => l.recordsWritten
  | .imagesWritten => l.imagesWritten | .peakHold => l.peakHold | .epochHold => l.epochHold
  | .errAddr => l.errAddr | .snapBlock => l.snapBlock | .snapFirst => l.snapFirst
  | .snapLast => l.snapLast | .snapImg => l.snapImg

def Latches.set (l : Latches) (q : Wide) (v : Half) : Latches :=
  match q with
  | .untracked => { l with untracked := v }
  | .recordsWritten => { l with recordsWritten := v }
  | .imagesWritten => { l with imagesWritten := v }
  | .peakHold => { l with peakHold := v }
  | .epochHold => { l with epochHold := v }
  | .errAddr => { l with errAddr := v }
  | .snapBlock => { l with snapBlock := v }
  | .snapFirst => { l with snapFirst := v }
  | .snapLast => { l with snapLast := v }
  | .snapImg => { l with snapImg := v }

/-- A field of the snapshot, 0 for a free slot (R42). -/
def State.snapField {n : Nat} (s : State) (f : Entry → BitVec n) : BitVec n :=
  match s.port.snapshot with
  | none => 0
  | some e => f e

/-- The live value of a wide quantity (R42, R63, R126, R144, R169, R170). -/
def State.wideValue (s : State) : Wide → Word
  | .untracked => s.epoch.untracked
  | .recordsWritten => s.alert.recordsWritten
  | .imagesWritten => s.alert.imagesWritten
  | .peakHold => s.alert.peakHold
  | .epochHold => s.alert.epochHold
  | .errAddr =>
    match s.mem.err with
    | none => 0
    | some r => r.addr.extractLsb' 8 32
  | .snapBlock => s.snapField (·.block)
  | .snapFirst => s.snapField (·.firstStamp)
  | .snapLast => s.snapField (·.lastStamp)
  | .snapImg => s.snapField fun e => imageAddrWord e.imageBuf

/-- The copy of the staged settings that VIEW selects (R11). -/
def State.viewed (s : State) : Settings :=
  match s.imm.view with
  | .staged => s.staged
  | .active => s.active

def alertModeBit : AlertMode → BitVec 1
  | .sticky => 0 | .auto => 1

def viewBit : View → BitVec 1
  | .staged => 0 | .active => 1

/-- CMD_STATUS (R155). -/
def CommandUnit.status (c : CommandUnit) : Half :=
  (0 : BitVec 5) ++ (c.loadResult.code ++ ((0 : BitVec 1) ++ (c.last.code ++ (c.reason.code ++
    (boolBit c.reject ++ boolBit c.busy)))))

/-- DEV_STATUS (R110, R122, R126). -/
def EpochCtl.status (e : EpochCtl) : Half :=
  (0 : BitVec 10) ++ (boolBit e.overflow ++ (boolBit e.draining ++ ((0 : BitVec 1) ++ e.dev.code)))

/-- EVENT: the flags and the LOAD_FAIL reason (R162). -/
def State.eventRegister (s : State) : Half :=
  (0 : BitVec 1) ++ (s.cmd.loadResult.code ++ ((0 : BitVec 1) ++ s.alert.flags))

/-- ERR_INFO (R144). -/
def errInfo : Option ErrRecord → Half
  | none => 0
  | some r => (0 : BitVec 6) ++ (r.addr.extractLsb' 6 2 ++ ((0 : BitVec 2) ++
      (r.cause.code ++ r.kind.code)))

/-- SNAP_INFO of an entry (R42). -/
def snapInfo (e : Entry) : Half :=
  (0 : BitVec 3) ++ (boolBit e.imageBuf.isSome ++ (boolBit e.poolBuf.isSome ++
    (boolBit e.saturated ++ (causeCode e.cause ++ ((0 : BitVec 1) ++ (e.mode.code ++
    (e.window ++ (e.state.code ++ (1 : BitVec 1)))))))))

/-- SNAP_COUNTS of an entry. -/
def snapCounts (e : Entry) : Half := (0 : BitVec 4) ++ (e.handoffs ++ e.count)

/-- SNAP_WRITERS of an entry; an absent pool buffer reads 0. -/
def snapWriters (e : Entry) : Half :=
  (0 : BitVec 2) ++ (BitVec.ofNat 6 (e.poolBuf.getD 0) ++ (e.lastWriter ++ e.firstWriter))

/-- MODE_QUOTA of a window. -/
def Window.modeQuota (w : Window) : Half :=
  (0 : BitVec 1) ++ (w.quota ++ ((0 : BitVec 6) ++ w.mode.code))

/-- What a read of a register samples (R149, R171). -/
def State.readReg (s : State) : Reg → Half
  | .command => 0
  | .cmdStatus => s.cmd.status
  | .devStatus => s.epoch.status
  | .mportStatus => (boolBit s.mem.drainMode).setWidth 16
  | .view => (viewBit s.imm.view).setWidth 16
  | .event => s.eventRegister
  | .eventEnable => s.imm.enables.setWidth 16
  | .alertMode => (alertModeBit s.imm.poolAlertMode ++ alertModeBit s.imm.tableMode).setWidth 16
  | .jcbAddr n =>
    if n = 0 then s.cmd.jcbAddr.extractLsb' 0 16
    else if n = 1 then s.cmd.jcbAddr.extractLsb' 16 16
    else (s.cmd.jcbAddr.extractLsb' 32 8).setWidth 16
  | .poolMode => s.viewed.poolMode.code.setWidth 16
  | .ageLimit => s.viewed.ageLimit.setWidth 16
  | .passWeight => s.imm.passWeight.setWidth 16
  | .drainHigh => s.imm.drainHigh.setWidth 16
  | .drainLow => s.imm.drainLow.setWidth 16
  | .holdLimit => s.imm.holdLimit
  | .poll => s.imm.poll.setWidth 16
  | .holdAlert => s.imm.holdAlert
  | .tableUpper => s.imm.tableUpper.setWidth 16
  | .tableLower => s.imm.tableLower.setWidth 16
  | .poolUpper => s.imm.poolUpper.setWidth 16
  | .poolLower => s.imm.poolLower.setWidth 16
  | .winBaseL n => (s.viewed.windows.get n).base.extractLsb' 0 16
  | .winBaseH n => ((s.viewed.windows.get n).base.extractLsb' 16 8).setWidth 16
  | .winLimitL n => (s.viewed.windows.get n).limit.extractLsb' 0 16
  | .winLimitH n => ((s.viewed.windows.get n).limit.extractLsb' 16 8).setWidth 16
  | .winMask n => (s.viewed.windows.get n).mask
  | .winModeQuota n => (s.viewed.windows.get n).modeQuota
  | .occupancy => BitVec.ofNat 16 s.occupancy
  | .poolUse => BitVec.ofNat 16 s.poolUse
  | .rqDepth => BitVec.ofNat 16 s.journal.queue.length
  | .hqDepth => BitVec.ofNat 16 s.hold.length
  | .jringIndex => BitVec.ofNat 16 s.journal.index
  | .firIndex => BitVec.ofNat 16 s.copyOut.prefetchIndex
  | .epochNumber => s.epoch.number
  | .wideLow q => (s.wideValue q).extractLsb' 0 16
  | .wideHigh q => s.port.latches.get q
  | .overflows => s.alert.overflows
  | .peakOcc => BitVec.ofNat 16 s.alert.peakOcc
  | .peakPool => BitVec.ofNat 16 s.alert.peakPool
  | .epochPeakOcc => BitVec.ofNat 16 s.alert.epochPeakOcc
  | .epochPeakPool => BitVec.ofNat 16 s.alert.epochPeakPool
  | .errInfo => errInfo s.mem.err
  | .inspectSlot => s.port.inspectSlot.setWidth 16
  | .snapInfo => s.snapField snapInfo
  | .snapEpoch => s.snapField (·.epoch)
  | .snapCounts => s.snapField snapCounts
  | .snapWriters => s.snapField snapWriters
  | .snapWset => s.snapField (·.writers)
  | .snapFir => (s.snapField fun e => imageIndex e.imageBuf).setWidth 16
  | .undefined => 0

/-- A sample of a wide quantity's lowest register fills its latch (R151). -/
def State.latch (s : State) : Reg → State
  | .wideLow q =>
    { s with port.latches := s.port.latches.set q ((s.wideValue q).extractLsb' 16 16) }
  | _ => s

/-! ### Writes (R150) -/

/-- A written value is brought into a setting's range (R150). -/
def clampTo (low high : Nat) (v : Half) : Nat := max low (min high v.toNat)

/-- R155. -/
def State.writeCmdStatus (s : State) : State := { s with cmd.reject := false }

/-- R163. -/
def State.writeEvent (s : State) (v : Half) : State :=
  { s with alert.flags := s.alert.flags &&& ~~~(v.extractLsb' 0 11) }

/-- R164. -/
def State.writeEventEnable (s : State) (v : Half) : State :=
  { s with imm.enables := v.extractLsb' 0 11 }

def alertModeOf (b : Bool) : AlertMode := if b then .auto else .sticky

/-- A threshold or a mode is written and the alert concerned evaluated (R165 to R167). A write of
ALERT_MODE writes both modes, so it evaluates both. -/
def State.writeAlert (s : State) (r : AlertReg) (v : Half) : State :=
  match r with
  | .tableUpper =>
    State.evalTableHigh { s with imm.tableUpper := BitVec.ofNat 12 (clampTo 1 2048 v) }
  | .tableLower =>
    State.evalTableHigh { s with imm.tableLower := BitVec.ofNat 11 (clampTo 0 2047 v) }
  | .poolUpper => State.evalPoolHigh { s with imm.poolUpper := BitVec.ofNat 7 (clampTo 1 64 v) }
  | .poolLower => State.evalPoolHigh { s with imm.poolLower := BitVec.ofNat 6 (clampTo 0 63 v) }
  | .alertMode =>
    State.evalPoolHigh <| State.evalTableHigh
      { s with
        imm.tableMode := alertModeOf (v.getLsbD 0)
        imm.poolAlertMode := alertModeOf (v.getLsbD 1) }

/-- R61. -/
def State.writeHoldLimit (s : State) (v : Half) : State := { s with imm.holdLimit := v }

/-- R168: HOLD_LONG is set if a HELD request's hold time is at or above the new value, and those
requests count as having reached it. -/
def State.writeHoldAlert (s : State) (v : Half) : State :=
  let s := { s with imm.holdAlert := v }
  if v != 0 && s.hold.any s.overAlert then
    { s.raise .holdLong with
      hold := s.hold.map fun h => if s.overAlert h then { h with reachedAlert := true } else h }
  else s

/-- R79, R102. -/
def State.writePoll (s : State) (v : Half) : State :=
  { s with imm.poll := BitVec.ofNat 8 (clampTo 0 255 v) }

/-- R140. -/
def State.writeDrain (s : State) (r : DrainReg) (v : Half) : State :=
  match r with
  | .drainHigh => State.evalDrainMode { s with imm.drainHigh := BitVec.ofNat 7 (clampTo 1 64 v) }
  | .drainLow => State.evalDrainMode { s with imm.drainLow := BitVec.ofNat 6 (clampTo 0 63 v) }

/-- R41: the slot is selected and its snapshot latched. -/
def State.writeInspectSlot (s : State) (v : Half) : State :=
  { s with
    port.inspectSlot := v.extractLsb' 0 11
    port.snapshot := s.entryAt (v.extractLsb' 0 11).toNat }

/-- A write of 0 to a lifetime peak (R169). -/
def State.resetPeak (s : State) : Peak → State
  | .occ => { s with alert.peakOcc := s.occupancy }
  | .pool => { s with alert.peakPool := s.poolUse }
  | .hold => { s with alert.peakHold := 0 }

/-- A write to a peak's lowest register; a non-zero value is ignored (R169). -/
def State.writePeak (s : State) (p : Peak) (v : Half) : State :=
  if v = 0 then s.resetPeak p else s

/-- A staged window is written (R10). -/
def State.writeWindow (s : State) (n : BitVec 2) (f : Window → Window) : State :=
  { s with staged.windows := s.staged.windows.set n (f (s.staged.windows.get n)) }

/-- JCB_ADDR is written register by register; bits 3 to 0 stay 0 (R157). -/
def jcbAddrWith (old : Addr) (part : BitVec 2) (v : Half) : Addr :=
  if part = 0 then old.extractLsb' 16 24 ++ (v.extractLsb' 4 12 ++ (0 : BitVec 4))
  else if part = 1 then old.extractLsb' 32 8 ++ (v ++ old.extractLsb' 0 16)
  else v.extractLsb' 0 8 ++ old.extractLsb' 0 32

/-- A completed register write (R150). A register with no meaning, or with read-only fields alone,
ignores it. -/
def State.writeReg (s : State) (v : Half) : Reg → State
  | .command => s.commandWrite v
  | .cmdStatus => s.writeCmdStatus
  | .view => { s with imm.view := if v.getLsbD 0 then .active else .staged }
  | .event => s.writeEvent v
  | .eventEnable => s.writeEventEnable v
  | .alertMode => s.writeAlert .alertMode v
  | .jcbAddr n => { s with cmd.jcbAddr := jcbAddrWith s.cmd.jcbAddr n v }
  | .poolMode => { s with staged.poolMode := if v = 1 then .quota else .shared }
  | .ageLimit => { s with staged.ageLimit := BitVec.ofNat 12 (clampTo 0 4095 v) }
  | .passWeight => { s with imm.passWeight := BitVec.ofNat 4 (clampTo 0 15 v) }
  | .drainHigh => s.writeDrain .drainHigh v
  | .drainLow => s.writeDrain .drainLow v
  | .holdLimit => s.writeHoldLimit v
  | .poll => s.writePoll v
  | .holdAlert => s.writeHoldAlert v
  | .tableUpper => s.writeAlert .tableUpper v
  | .tableLower => s.writeAlert .tableLower v
  | .poolUpper => s.writeAlert .poolUpper v
  | .poolLower => s.writeAlert .poolLower v
  | .winBaseL n => s.writeWindow n fun w => { w with base := w.base.extractLsb' 16 8 ++ v }
  | .winBaseH n => s.writeWindow n fun w =>
      { w with base := v.extractLsb' 0 8 ++ w.base.extractLsb' 0 16 }
  | .winLimitL n => s.writeWindow n fun w => { w with limit := w.limit.extractLsb' 16 8 ++ v }
  | .winLimitH n => s.writeWindow n fun w =>
      { w with limit := v.extractLsb' 0 8 ++ w.limit.extractLsb' 0 16 }
  | .winMask n => s.writeWindow n fun w => { w with mask := v }
  | .winModeQuota n => s.writeWindow n fun w =>
      { w with
        mode := WinMode.ofCode (v.extractLsb' 0 2)
        quota := BitVec.ofNat 7 (min 64 (v.extractLsb' 8 7).toNat) }
  | .peakOcc => s.writePeak .occ v
  | .peakPool => s.writePeak .pool v
  | .wideLow q =>
    match q with
    | .peakHold => s.writePeak .hold v
    | _ => s
  | .inspectSlot => s.writeInspectSlot v
  | .devStatus | .mportStatus | .occupancy | .poolUse | .rqDepth | .hqDepth | .jringIndex
  | .firIndex | .epochNumber | .wideHigh _ | .overflows | .epochPeakOcc | .epochPeakPool
  | .errInfo | .snapInfo | .snapEpoch | .snapCounts | .snapWriters | .snapWset | .snapFir
  | .undefined => s

end Sys2Proof.Machine
end

