-- ==== Sys2Proof/Machine/Management.lean ====
section
/-! DEFINITION. The rows of the two-wire port: bus bytes, reads, register writes, commands and
reset (R147 to R161). A row that names a register write stands for its whole event, the pointer
byte and the low byte before it included (log 4). -/

namespace Sys2Proof.Machine

/-- The pointer moves past the register it names (R148). -/
def MgmtPort.advance (p : MgmtPort) : MgmtPort :=
  if p.pointer = 0xFF then { p with endMarker := true, phase := .low }
  else { p with pointer := p.pointer + 1, phase := .low }

/-- A data byte of the master is acknowledged (R147). -/
def State.ack (s : State) : State := { s with out.bus := s.out.bus ++ [.ack] }

/-- A byte is sent to the master (R149). -/
def State.sendByte (s : State) (b : Byte) : State := { s with out.bus := s.out.bus ++ [.byte b] }

/-- The port after a register write to the register at `pointer` has completed (R148). -/
def State.afterWrite (s : State) (pointer : Byte) : State :=
  State.ack
    { s with port := MgmtPort.advance { s.port with pointer := pointer, endMarker := false } }

/-- While RESET_N is asserted the port does not respond (R147). -/
def State.onPort (s : State) (f : State → State) : Host.Outcome State Fault Refusal :=
  if s.port.resetAsserted then .next s else .next (f s)

/-! ### Bus bytes (R148, R149, R151) -/

/-- POINTER_BYTE (R148). -/
def execPointerByte (b : Byte) (s : State) : Host.Outcome State Fault Refusal :=
  s.onPort fun s =>
    State.ack
      { s with
        port.pointer := b
        port.endMarker := false
        port.phase := .low }

/-- The second byte of a register write; while the end marker is set the write is ignored (R148). -/
def State.highByte (s : State) (low high : Byte) : State :=
  if s.port.endMarker then State.ack { s with port.phase := .low }
  else (s.writeReg (high ++ low) (regAt s.port.pointer)).afterWrite s.port.pointer

/-- HELD_LOW_BYTE: a data byte of a write transaction. In phase LOW it becomes the held low byte; in
phase HIGH it completes the register write (R148; log 5). -/
def execHeldLowByte (b : Byte) (s : State) : Host.Outcome State Fault Refusal :=
  s.onPort fun s =>
    match s.port.phase with
    | .highWrite low => s.highByte low b
    | .low | .highRead _ => State.ack { s with port.phase := .highWrite b }

/-- BUS_STOP_CONDITION: a bus stop condition or a repeated start (R148). -/
def execBusStopCondition (s : State) : Host.Outcome State Fault Refusal :=
  s.onPort fun s => { s with port.phase := .low }

/-- The low byte of a read: the register is sampled whole, and a wide quantity's latch with it
(R149, R151). -/
def State.sampleByte (s : State) : State :=
  if s.port.endMarker then { s with port.phase := .highRead 0 }.sendByte 0
  else
    let v := s.readReg (regAt s.port.pointer)
    State.sendByte
      { s.latch (regAt s.port.pointer) with port.phase := .highRead (v.extractLsb' 8 8) }
      (v.extractLsb' 0 8)

/-- The port after the high byte of a read: past the end it stays where it is (R149). -/
def MgmtPort.afterRead (p : MgmtPort) : MgmtPort :=
  if p.endMarker then { p with phase := .low } else p.advance

/-- LATCHED_READ: the port sends the next byte of a read transaction (R149, R151; log 6). -/
def execLatchedRead (s : State) : Host.Outcome State Fault Refusal :=
  s.onPort fun s =>
    match s.port.phase with
    | .low | .highWrite _ => s.sampleByte
    | .highRead high => { s with port := s.port.afterRead }.sendByte high

/-! ### Commands (R153 to R161) -/

def execLoad (s : State) : Host.Outcome State Fault Refusal :=
  s.onPort fun s => s.takeLoad.afterWrite 0x00

def execOpenEpoch (s : State) : Host.Outcome State Fault Refusal :=
  s.onPort fun s => s.takeOpen.afterWrite 0x00

def execCloseSwitch (s : State) : Host.Outcome State Fault Refusal :=
  s.onPort fun s => s.takeSwitch.afterWrite 0x00

def execCloseEnd (s : State) : Host.Outcome State Fault Refusal :=
  s.onPort fun s => s.takeEnd.afterWrite 0x00

def execKick (s : State) : Host.Outcome State Fault Refusal :=
  s.onPort fun s => s.takeKick.afterWrite 0x00

def execStop (s : State) : Host.Outcome State Fault Refusal :=
  s.onPort fun s => s.takeStop.afterWrite 0x00

/-- INVALID_COMMAND_CODE: the written value is decided as every value is (R153). -/
def execInvalidCommandCode (code : Half) (s : State) : Host.Outcome State Fault Refusal :=
  s.onPort fun s => (s.commandWrite code).afterWrite 0x00

/-! ### Register writes (R150) -/

/-- CMD_STATUS_WRITE: the value does not matter (R155). -/
def execCmdStatusWrite (_v : Half) (s : State) : Host.Outcome State Fault Refusal :=
  s.onPort fun s => s.writeCmdStatus.afterWrite 0x01

def execEventWrite (v : Half) (s : State) : Host.Outcome State Fault Refusal :=
  s.onPort fun s => (s.writeEvent v).afterWrite 0x05

def execEventEnableWrite (v : Half) (s : State) : Host.Outcome State Fault Refusal :=
  s.onPort fun s => (s.writeEventEnable v).afterWrite 0x06

def AlertReg.pointer : AlertReg → Byte
  | .tableUpper => 0x13 | .tableLower => 0x14 | .poolUpper => 0x15 | .poolLower => 0x16
  | .alertMode => 0x07

def execAlertThresholdWrite (r : AlertReg) (v : Half) (s : State) :
    Host.Outcome State Fault Refusal :=
  s.onPort fun s => (s.writeAlert r v).afterWrite (AlertReg.pointer r)

def execHoldLimitWrite (v : Half) (s : State) : Host.Outcome State Fault Refusal :=
  s.onPort fun s => (s.writeHoldLimit v).afterWrite 0x10

def execHoldAlertWrite (v : Half) (s : State) : Host.Outcome State Fault Refusal :=
  s.onPort fun s => (s.writeHoldAlert v).afterWrite 0x12

def execPollWrite (v : Half) (s : State) : Host.Outcome State Fault Refusal :=
  s.onPort fun s => (s.writePoll v).afterWrite 0x11

def DrainReg.pointer : DrainReg → Byte
  | .drainHigh => 0x0E | .drainLow => 0x0F

def execDrainThresholdWrite (r : DrainReg) (v : Half) (s : State) :
    Host.Outcome State Fault Refusal :=
  s.onPort fun s => (s.writeDrain r v).afterWrite (DrainReg.pointer r)

def execInspectSlotWrite (v : Half) (s : State) : Host.Outcome State Fault Refusal :=
  s.onPort fun s => (s.writeInspectSlot v).afterWrite 0x70

def Peak.pointer : Peak → Byte
  | .occ => 0x50 | .pool => 0x51 | .hold => 0x52

def execPeakReset (p : Peak) (s : State) : Host.Outcome State Fault Refusal :=
  s.onPort fun s => (s.resetPeak p).afterWrite (Peak.pointer p)

/-- REGISTER_WRITE: a completed write of a value to the register a pointer names (R150). -/
def execRegisterWrite (pointer : Byte) (v : Half) (s : State) : Host.Outcome State Fault Refusal :=
  s.onPort fun s => (s.writeReg v (regAt pointer)).afterWrite pointer

/-! ### Reset (R14, R44, R69, R89, R108, R130, R145, R147, R151, R152, R172) -/

/-- POWER_ON_RESET: RESET_N is asserted. Only the model's own fields go on: the queue, the outputs,
the choice counter and the port's next tag (log 9, log 10). -/
def execPowerOnReset (s : State) : Host.Outcome State Fault Refusal :=
  .next { State.reset with
    port.resetAsserted := true
    mem.nextTag := s.mem.nextTag
    out := s.out
    choices := s.choices
    pending := s.pending }

/-- RESET_RELEASE: the pins are sampled and the port begins to respond (R147). -/
def execResetRelease (addr1 addr0 : Bool) (s : State) : Host.Outcome State Fault Refusal :=
  if s.port.resetAsserted then
    .next { s with
      port.resetAsserted := false
      port.slaveAddr := (0x16 : BitVec 5) ++ (boolBit addr1 ++ boolBit addr0) }
  else .next s

/-- The port acknowledges an address byte (R147). -/
def State.answersAddress (s : State) (a : BitVec 7) : Bool :=
  !s.port.resetAsserted && a == s.port.slaveAddr

end Sys2Proof.Machine
end

