-- ==== Sys2Proof/Machine/Dispatch.lean ====
section
/-! DEFINITION. One arm per command. -/

namespace Sys2Proof.Machine

def exec (i : Instr) (s : State) : Host.Outcome State Fault Refusal :=
  match i with
  | .writeArrival initiator addr mask data tag => Sys2Proof.Machine.execWriteArrival initiator addr mask data tag s
  | .readArrival initiator addr tag => Sys2Proof.Machine.execReadArrival initiator addr tag s
  | .releasedLeave => Sys2Proof.Machine.execReleasedLeave s
  | .issue => Sys2Proof.Machine.execIssue s
  | .passThroughAnswer tag answer => Sys2Proof.Machine.execPassThroughAnswer tag answer s
  | .unmatchedAnswer tag answer => Sys2Proof.Machine.execUnmatchedAnswer tag answer s
  | .captureReadData tag data => Sys2Proof.Machine.execCaptureReadData tag data s
  | .imageWriteDone tag => Sys2Proof.Machine.execImageWriteDone tag s
  | .descWriteDone tag => Sys2Proof.Machine.execDescWriteDone tag s
  | .descReadData tag data => Sys2Proof.Machine.execDescReadData tag data s
  | .slotReadData tag data => Sys2Proof.Machine.execSlotReadData tag data s
  | .slotWriteDone tag => Sys2Proof.Machine.execSlotWriteDone tag s
  | .jcbReadData tag data => Sys2Proof.Machine.execJcbReadData tag data s
  | .errorAnswer tag => Sys2Proof.Machine.execErrorAnswer tag s
  | .timeout tag => Sys2Proof.Machine.execTimeout tag s
  | .abandonedAnswer tag answer => Sys2Proof.Machine.execAbandonedAnswer tag answer s
  | .abandonedTimeout tag => Sys2Proof.Machine.execAbandonedTimeout tag s
  | .holdLimitExpiry => Sys2Proof.Machine.execHoldLimitExpiry s
  | .holdAlertReached => Sys2Proof.Machine.execHoldAlertReached s
  | .ageExpiry => Sys2Proof.Machine.execAgeExpiry s
  | .firPollExpiry => Sys2Proof.Machine.execFirPollExpiry s
  | .ringPollExpiry => Sys2Proof.Machine.execRingPollExpiry s
  | .bufferGrant => Sys2Proof.Machine.execBufferGrant s
  | .prefetch => Sys2Proof.Machine.execPrefetch s
  | .copyOutStart => Sys2Proof.Machine.execCopyOutStart s
  | .retirement => Sys2Proof.Machine.execRetirement s
  | .closeRecordBuild => Sys2Proof.Machine.execCloseRecordBuild s
  | .journalSlotReadStart => Sys2Proof.Machine.execJournalSlotReadStart s
  | .load => Sys2Proof.Machine.execLoad s
  | .openEpoch => Sys2Proof.Machine.execOpenEpoch s
  | .closeSwitch => Sys2Proof.Machine.execCloseSwitch s
  | .closeEnd => Sys2Proof.Machine.execCloseEnd s
  | .kick => Sys2Proof.Machine.execKick s
  | .stop => Sys2Proof.Machine.execStop s
  | .invalidCommandCode code => Sys2Proof.Machine.execInvalidCommandCode code s
  | .cmdStatusWrite value => Sys2Proof.Machine.execCmdStatusWrite value s
  | .eventWrite value => Sys2Proof.Machine.execEventWrite value s
  | .eventEnableWrite value => Sys2Proof.Machine.execEventEnableWrite value s
  | .alertThresholdWrite reg value => Sys2Proof.Machine.execAlertThresholdWrite reg value s
  | .holdLimitWrite value => Sys2Proof.Machine.execHoldLimitWrite value s
  | .holdAlertWrite value => Sys2Proof.Machine.execHoldAlertWrite value s
  | .pollWrite value => Sys2Proof.Machine.execPollWrite value s
  | .drainThresholdWrite reg value => Sys2Proof.Machine.execDrainThresholdWrite reg value s
  | .inspectSlotWrite value => Sys2Proof.Machine.execInspectSlotWrite value s
  | .peakReset peak => Sys2Proof.Machine.execPeakReset peak s
  | .registerWrite pointer value => Sys2Proof.Machine.execRegisterWrite pointer value s
  | .pointerByte byte => Sys2Proof.Machine.execPointerByte byte s
  | .busStopCondition => Sys2Proof.Machine.execBusStopCondition s
  | .latchedRead => Sys2Proof.Machine.execLatchedRead s
  | .powerOnReset => Sys2Proof.Machine.execPowerOnReset s
  | .resetRelease addr1 addr0 => Sys2Proof.Machine.execResetRelease addr1 addr0 s
  | .heldLowByte byte => Sys2Proof.Machine.execHeldLowByte byte s

end Sys2Proof.Machine
end

