-- ==== Sys2Proof/Machine/Idle.lean ====
section
/-! DEFINITION. What the part does when no command waits: it takes a step of its own that is due, and
when none is due one microsecond of part time passes (log 2, log 3). -/

namespace Sys2Proof.Machine

/-- The engines' steps that are due: their rules take them at the event that made them due (R53,
R72, R77, R83, R91, R97, R99). -/
def State.engineSteps (s : State) : List Instr :=
  (if s.dueLeave.isSome then [.releasedLeave] else []) ++
  (if s.dueGrant.isSome then [.bufferGrant] else []) ++
  (if s.duePrefetch then [.prefetch] else []) ++
  (if s.dueCopyOut.isSome then [.copyOutStart] else []) ++
  (if s.dueRetire.isSome then [.retirement] else []) ++
  (if s.dueClose.isSome then [.closeRecordBuild] else []) ++
  (if s.dueSlotRead then [.journalSlotReadStart] else [])

/-- An own request that has reached its limit fails, or ends silently if abandoned (R141, R142). -/
def IssuedOwn.limitStep (i : IssuedOwn) : Instr :=
  if i.abandoned then .abandonedTimeout i.tag else .timeout i.tag

/-- The expiries that are due at this part time (R34, R61, R79, R102, R141, R142, R168). -/
def State.expirySteps (s : State) : List Instr :=
  (if s.dueHoldLimit then [.holdLimitExpiry] else []) ++
  (if s.dueHoldAlert then [.holdAlertReached] else []) ++
  (if s.dueAge.isSome then [.ageExpiry] else []) ++
  (if s.dueFirPoll then [.firPollExpiry] else []) ++
  (if s.dueRingPoll then [.ringPollExpiry] else []) ++
  (s.mem.issuedOwn.filter fun i => decide (Config.answerLimit ≤ i.age)).map IssuedOwn.limitStep

/-- A HELD request's hold time runs (R54). -/
def HeldReq.tick (h : HeldReq) : HeldReq := if h.isHeld then { h with time := satInc h.time } else h

/-- One microsecond passes (R54, R79, R102, R112, R141). -/
def State.tick (s : State) : State :=
  { s with
    epoch.partTime := s.epoch.partTime + 1
    epoch.epochTime :=
      if s.epoch.dev = .tracking then satInc s.epoch.epochTime else s.epoch.epochTime
    hold := s.hold.map HeldReq.tick
    copyOut.timer := s.copyOut.timer.map (· + 1)
    journal.timer := s.journal.timer.map (· + 1)
    mem.issuedOwn := s.mem.issuedOwn.map fun i => { i with age := i.age + 1 } }

/-- One of several due steps is taken; which one is free (log 3). -/
def State.takeOne (s : State) (c : Instr) (cs : List Instr) : Host.Outcome State Fault Refusal :=
  match cs with
  | [] => exec c s
  | _ :: _ =>
    exec ((c :: cs).getD (Config.freeChoice s.choices % (cs.length + 1)) c)
      { s with choices := s.choices + 1 }

/-- An empty queue: a due step of the engines, then a due expiry, then the passing of time. -/
def idle (s : State) : Host.Outcome State Fault Refusal :=
  match s.engineSteps, s.expirySteps with
  | c :: cs, _ => s.takeOne c cs
  | [], c :: cs => s.takeOne c cs
  | [], [] => .next s.tick

end Sys2Proof.Machine
end

