-- ==== Sys2Proof/Safety.lean ====
section
/-! DEFINITION. What stays true of the part: the laws that every step keeps, and the words the
obligations use: a port after a register write, what is handed over at the end of an event, the
order of a block's requests, and a held write that is classified anew. -/

namespace Sys2Proof.Machine

/-! ### Words for statements -/

/-- The port after a register write to `pointer`: the pointer stands one further, or stays at 0xFF
with the end marker set, and the phase is LOW (R148). -/
def MgmtPort.written (p : MgmtPort) (pointer : Byte) : MgmtPort :=
  { p with
    pointer := if pointer = 0xFF then 0xFF else pointer + 1
    endMarker := decide (pointer = 0xFF)
    phase := .low }

/-- What an evaluation makes of a threshold alert's flag (R165, R166). -/
def AlertRule (value upper lower : Nat) (mode : AlertMode) (before after : Bool) : Prop :=
  (upper ≤ value → after = true) ∧
  (value < upper → mode = .auto → value ≤ lower → after = false) ∧
  (value < upper → mode = .sticky ∨ lower < value → after = before)

/-- What the end of the event that leads from `s` to `t` hands over of occupancy and pool use (R40,
R70, R140, R165, R166, R169), with the counters and every other flag as they were. -/
def State.HandsOver (s t : State) : Prop :=
  (t.occupancy = s.alert.occHanded →
    t.alert.isSet .tableHigh = s.alert.isSet .tableHigh ∧ t.alert.peakOcc = s.alert.peakOcc) ∧
  (t.occupancy ≠ s.alert.occHanded →
    AlertRule t.occupancy s.imm.tableUpper.toNat s.imm.tableLower.toNat s.imm.tableMode
      (s.alert.isSet .tableHigh) (t.alert.isSet .tableHigh) ∧
    t.alert.peakOcc = max s.alert.peakOcc t.occupancy) ∧
  (t.poolUse = s.alert.poolHanded →
    t.alert.isSet .poolHigh = s.alert.isSet .poolHigh ∧ t.alert.peakPool = s.alert.peakPool ∧
    t.mem.drainMode = s.mem.drainMode) ∧
  (t.poolUse ≠ s.alert.poolHanded →
    AlertRule t.poolUse s.imm.poolUpper.toNat s.imm.poolLower.toNat s.imm.poolAlertMode
      (s.alert.isSet .poolHigh) (t.alert.isSet .poolHigh) ∧
    t.alert.peakPool = max s.alert.peakPool t.poolUse ∧
    t.mem.drainMode =
      drainModeNext s.mem.drainMode t.poolUse s.imm.drainHigh.toNat s.imm.drainLow.toNat) ∧
  t.alert.occHanded = t.occupancy ∧ t.alert.poolHanded = t.poolUse ∧
  (∀ f, f ≠ .tableHigh → f ≠ .poolHigh → t.alert.isSet f = s.alert.isSet f) ∧
  t.alert.recordsWritten = s.alert.recordsWritten ∧
  t.alert.imagesWritten = s.alert.imagesWritten ∧ t.alert.overflows = s.alert.overflows

/-- The greater of a hold-time peak and the hold times that end when the queue `q` becomes `t` (R54,
R126, R169). -/
def peakWith (peak : Word) (q t : List HeldReq) : Word :=
  (endedHolds q t).foldl (fun m x => if m.toNat < x.toNat then x else m) peak

/-- The queue `t` is the queue `q` with every ORDER request RELEASED that has no HELD request of its
block ahead of it in `t` (R52). -/
def OrdersFollow (q t : List HeldReq) : Prop :=
  t.length = q.length ∧
  ∀ (ahead behind : List HeldReq) (h : HeldReq), q = ahead ++ h :: behind →
    let follows := (∃ deferred mark here, h.hold = .order deferred mark here) ∧
      ∀ g ∈ t.take ahead.length, g.block = h.block → g.isHeld = false
    (follows → t[ahead.length]? = some { h with hold := .released }) ∧
    (¬follows → t[ahead.length]? = some h)

/-- The held write `r` is classified anew and the table takes it: the state becomes `t` and its hold
`x` (R3, R5, R8, R19, R21 to R24, R27 to R31, R57, R63, R116). `waiting`: a request with reason ENTRY
stands in the queue; `ahead`: one for its block stands ahead; `blocked`: a HELD request for its block
that does not wait with it stands ahead. -/
def State.Retakes (s : State) (r : Request) (waiting ahead blocked : Bool) (t : State)
    (x : Hold) : Prop :=
  let plain (here : Bool) : Hold := if blocked then .order none false here else .released
  let candidate (e : Entry) : Prop :=
    e.epoch = s.epoch.number ∧ e.mode = .trace ∧ e.state = .logged ∧ e.cause = none
  let v := s.classify r.addr r.initiator
  (v = .untracked ∨ v = .excluded → t = s ∧ x = plain false) ∧
  (∀ c e, v = .tracked c → s.lookup (blockOf r.addr) = some e →
    x = plain (decide (e.state = .pending)) ∧
    t = { s with
      table := s.table.map fun y =>
        if y.slot = e.slot then
          { y.update c.initiator c.time with
            cause := if y.cause = some .age then none else y.cause }
        else y
      retire.list :=
        if e.cause = some .age then s.retire.list.filter (· != e.slot) else s.retire.list }) ∧
  (∀ c, v = .tracked c → s.lookup (blockOf r.addr) = none → s.epoch.overflow = true →
    x = plain false ∧
    t = { s with
      epoch.untracked :=
        if s.epoch.untracked = 0xFFFFFFFF then s.epoch.untracked else s.epoch.untracked + 1 }) ∧
  (∀ c, v = .tracked c → s.lookup (blockOf r.addr) = none → s.epoch.overflow = false →
    (ahead = true → t = s ∧ x = .order (some ⟨c.initiator, c.time⟩) false true) ∧
    (∀ slot, ahead = false → waiting = false → s.freeSlot = some slot →
      x = (match c.mode with
        | .trace => plain false
        | .undo => .buffer slot) ∧
      t = { s with
        table := s.table ++ [newEntry slot (blockOf r.addr) s.epoch.number c] }) ∧
    (ahead = false → waiting = true ∨ s.freeSlot = none →
      x = .entry c ∧
      ((∀ e ∈ s.table, ¬candidate e) → t = s) ∧
      ∀ (older newer : List Entry) (e : Entry), s.table = older ++ e :: newer → candidate e →
        (∀ y ∈ older, candidate y → e.lastStamp.toNat < y.lastStamp.toNat) →
        (∀ y ∈ newer, candidate y → e.lastStamp.toNat ≤ y.lastStamp.toNat) →
        t = { s with
          table := s.table.map fun y =>
            if y.slot = e.slot then { y with cause := some .pressure } else y
          retire.list := s.retire.list ++ [e.slot] }))

/-- A request that joins the Hold Queue now (R48). -/
def State.newHeld (s : State) (r : Request) (x : Hold) : HeldReq :=
  { req := r, hold := x, start := s.epoch.partTime, time := 0, reachedAlert := false }

/-- Where a request goes that needs nothing but its block's order (R50): HELD with reason ORDER
behind a HELD request for its block, RELEASED behind RELEASED ones, else to the pass-through
queue. -/
def State.plainRoute (s : State) (r : Request) (trackingHere : Bool) : State :=
  if s.hold.any (fun h => h.isHeld && h.block == blockOf r.addr) then
    { s with hold := s.hold ++ [s.newHeld r (.order none false trackingHere)] }
  else if s.hold.any (fun h => h.block == blockOf r.addr) then
    { s with hold := s.hold ++ [s.newHeld r .released] }
  else { s with mem.passQ := s.mem.passQ ++ [r] }

/-- The write of a WRITE_ARRIVAL, with the next place in arrival order (R46, R135). -/
def State.writeRequest (s : State) (i : Initiator) (addr : Addr) (mask : ByteMask) (data : Line)
    (tag : Nat) : Request :=
  { initiator := i, addr, op := .write mask data, tag, place := s.mem.nextPlace }

/-- The commands that come through the two-wire port. -/
def usesPort : Instr → Bool
  | .load | .openEpoch | .closeSwitch | .closeEnd | .kick | .stop | .invalidCommandCode _
  | .cmdStatusWrite _ | .eventWrite _ | .eventEnableWrite _ | .alertThresholdWrite _ _
  | .holdLimitWrite _ | .holdAlertWrite _ | .pollWrite _ | .drainThresholdWrite _ _
  | .inspectSlotWrite _ | .peakReset _ | .registerWrite _ _ | .pointerByte _
  | .busStopCondition | .latchedRead | .heldLowByte _ => true
  | .writeArrival _ _ _ _ _ | .readArrival _ _ _ | .releasedLeave | .issue
  | .passThroughAnswer _ _ | .unmatchedAnswer _ _ | .captureReadData _ _ | .imageWriteDone _
  | .descWriteDone _ | .descReadData _ _ | .slotReadData _ _ | .slotWriteDone _
  | .jcbReadData _ _ | .errorAnswer _ | .timeout _ | .abandonedAnswer _ _ | .abandonedTimeout _
  | .holdLimitExpiry | .holdAlertReached | .ageExpiry | .firPollExpiry | .ringPollExpiry
  | .bufferGrant | .prefetch | .copyOutStart | .retirement | .closeRecordBuild
  | .journalSlotReadStart | .powerOnReset | .resetRelease _ _ => false

/-- An issued own request with this tag is awaited. -/
def State.awaits (s : State) (tag : Nat) (r : OwnReq) : Prop :=
  ∃ i, s.findOwn tag = some i ∧ i.abandoned = false ∧ i.req = r

/-- The answer ends the request: own outstanding falls by one (R136). -/
def State.ownLeft (s : State) (tag : Nat) : List IssuedOwn := s.mem.issuedOwn.eraseP (·.tag == tag)

/-! ### The laws -/

/-- The states in which an entry holds a pool buffer (R70). -/
def EntryState.holdsBuffer : EntryState → Bool
  | .capturing | .imaged | .copying => true
  | .pending | .filing | .logged => false

/-- The states in which an UNDO entry names an image buffer (R17). -/
def EntryState.namesImage : EntryState → Bool
  | .filing | .logged => true
  | .pending | .capturing | .imaged | .copying => false

/-- What R17, R18, R29 and R32 say of one entry. -/
def Entry.lawful (e : Entry) : Prop :=
  e.poolBuf.isSome = e.state.holdsBuffer ∧
  e.imageBuf.isSome = (decide (e.mode = .undo) && e.state.namesImage) ∧
  (e.mode = .trace → e.state = .logged) ∧
  (e.cause = some .age ∨ e.cause = some .pressure → e.mode = .trace) ∧
  e.count ≠ 0 ∧
  e.writers.getLsbD e.firstWriter.toNat = true ∧
  e.writers.getLsbD e.lastWriter.toNat = true

/-- The Block Table and the Capture Pool (R16, R17, R70): each entry has a slot of its own, every
entry is lawful, and each held buffer has one holder. -/
def TableLaw (s : State) : Prop :=
  (s.table.map (·.slot)).Nodup ∧
  (∀ e ∈ s.table, e.slot < Config.tableSlots ∧ e.lawful) ∧
  (s.table.filterMap (·.poolBuf)).Nodup ∧
  (∀ e ∈ s.table, ∀ n, e.poolBuf = some n → n < Config.poolBuffers)

/-- The Retire List holds each entry that carries a cause, once, and no other (R90). -/
def RetireLaw (s : State) : Prop :=
  s.retire.list.Nodup ∧
  ∀ n, n ∈ s.retire.list ↔ ∃ e ∈ s.table, e.slot = n ∧ e.cause.isSome = true

/-- The queues stay within their places (R48, R131, R136, R83, R138). -/
def CapacityLaw (s : State) : Prop :=
  s.hold.length ≤ Config.holdPlaces ∧ s.mem.passQ.length ≤ Config.passPlaces ∧
  s.mem.issuedOwn.length ≤ Config.ownLimit ∧ s.copyOut.places.length ≤ Config.copyOutPlaces ∧
  s.mem.runCount ≤ 15

/-- No two entries have one block number and one epoch number (R16). -/
def BlockLaw (s : State) : Prop := (s.table.map fun e => (e.block, e.epoch)).Nodup

/-- The slot of the entry whose capture a request waits for (R49). -/
def HeldReq.captureSlot (h : HeldReq) : Option Nat :=
  match h.hold with
  | .capture slot => some slot
  | _ => none

/-- The request carries the classify-on-release mark (R48, R58). -/
def HeldReq.isMarked (h : HeldReq) : Bool :=
  match h.hold with
  | .order _ mark _ => mark
  | _ => false

/-- The request waits for the capture of a draining epoch's entry (R58). -/
def State.waitsForOldCapture (s : State) (g : HeldReq) : Prop :=
  ∃ e ∈ s.table, g.captureSlot = some e.slot ∧ s.isDraining e = true

/-- What the requests of the Hold Queue stand for in the table: only TRACKING has ENTRY and BUFFER
waiters (R67, R68, R117); a BUFFER waiter protects a PENDING entry of its block and the current epoch
(R21, R38), a CAPTURE waiter a CAPTURING entry of its block (R55), and while the engines run every
CAPTURING entry has one (R57); a classify-on-release mark stands behind a draining epoch's capture of
its block (R58), beside which no waiter and no other capture of the block stands; and an ENTRY
waiter's block has no current entry and no second ENTRY waiter (R22, R24). -/
def HoldLaw (s : State) : Prop :=
  (s.epoch.dev ≠ .tracking → ∀ h ∈ s.hold, h.isWaiter = false) ∧
  (∀ h ∈ s.hold, ∀ n ∈ h.bufferSlot, ∃ e ∈ s.table,
    e.slot = n ∧ e.block = h.block ∧ e.epoch = s.epoch.number ∧ e.state = .pending) ∧
  (∀ h ∈ s.hold, ∀ n ∈ h.captureSlot, ∃ e ∈ s.table,
    e.slot = n ∧ e.block = h.block ∧ e.state = .capturing) ∧
  (s.running = true → ∀ e ∈ s.table, e.state = .capturing →
    ∃ h ∈ s.hold, h.captureSlot = some e.slot) ∧
  (∀ h ∈ s.hold, h.isMarked = true → ∃ g ∈ s.hold, g.block = h.block ∧ s.waitsForOldCapture g) ∧
  (∀ g ∈ s.hold, s.waitsForOldCapture g → ∀ h ∈ s.hold, h.block = g.block →
    h.isWaiter = false ∧ (h.captureSlot = none ∨ h.captureSlot = g.captureSlot)) ∧
  (∀ h ∈ s.hold, h.isEntry = true → ∀ e ∈ s.table, e.block = h.block →
    e.epoch ≠ s.epoch.number) ∧
  ((s.hold.filter HeldReq.isEntry).map HeldReq.block).Nodup

/-- The epochs of the entries and the Record Queue, by device state: it holds up to 32 records, and
up to 31 where a cut may still add one (R96, R97, R113, R115, R118, R122, R123, R127). -/
def EpochLaw (s : State) : Prop :=
  (s.epoch.dev = .idle ∨ s.epoch.dev = .loading ∨ s.epoch.dev = .ready →
    s.table = [] ∧ s.journal.queue = [] ∧ s.epoch.draining = false) ∧
  (s.epoch.dev = .tracking → s.epoch.draining = false →
    (∀ e ∈ s.table, e.epoch = s.epoch.number) ∧ s.journal.queue.length ≤ 31) ∧
  (s.epoch.dev = .tracking → s.epoch.draining = true →
    s.cmd.busy = true ∧ s.journal.queue.length ≤ 32 ∧
    ∃ m ∈ s.epoch.summary, m.epoch ≠ s.epoch.number ∧
      ∀ e ∈ s.table, e.epoch = s.epoch.number ∨ e.epoch = m.epoch) ∧
  (s.epoch.dev = .finishing →
    s.epoch.draining = true ∧ s.cmd.busy = true ∧ s.journal.queue.length ≤ 31 ∧
    ∃ m ∈ s.epoch.summary, m.epoch = s.epoch.number ∧
      ∀ e ∈ s.table, e.epoch = s.epoch.number) ∧
  (s.epoch.dev = .halted → s.epoch.draining = false ∧ s.journal.queue.length ≤ 32) ∧
  (s.epoch.draining = true → s.retire.closeBuilt = true → ∀ m ∈ s.epoch.summary,
    ∀ e ∈ s.table, e.epoch ≠ m.epoch) ∧
  (s.running = true →
    (s.journal.queue.any Record.isClosing = true →
      s.epoch.draining = true ∧ s.retire.closeBuilt = true) ∧
    s.journal.queue.countP Record.isClosing ≤ 1) ∧
  (s.epoch.dev = .finishing → s.retire.closeBuilt = true →
    s.journal.queue.getLast?.any Record.isClosing = true)

/-- The own requests that are queued, or issued and not abandoned: those the bounds of R134 count.
That abandoned ones in flight (R142) are left out is DESIGN CHOICE, log 27. -/
def State.live (s : State) : List OwnReq :=
  s.mem.classC ++ s.mem.classB ++
    (s.mem.issuedOwn.filter fun i => !i.abandoned).map (·.req)

/-- How many of them have a role of a kind. -/
def State.liveCount (s : State) (p : OwnRole → Bool) : Nat := s.live.countP fun r => p r.role

/-- The Image Buffer Cache and the one DESC_READ there may be, abandoned ones aside (log 27), which
stands in class B until its issue, fill at most 4 places, and a FIR wait leaves one for its re-read;
the poll timer runs in a FIR wait with no re-read on its way (R76 to R79, R134). -/
def CacheLaw (s : State) : Prop :=
  let reads := s.liveCount fun r => decide (r.kind = .descRead)
  reads ≤ 1 ∧ s.copyOut.cache.length + reads ≤ 4 ∧
  (s.copyOut.wait = true → s.copyOut.cache.length + 1 ≤ 4) ∧
  (s.copyOut.timer.isSome = true → s.copyOut.wait = true ∧ reads = 0) ∧
  ∀ r ∈ s.mem.classC, r.role.kind = .captureRead

/-- The slot a capture read fills its buffer for. -/
def OwnRole.captureSlot : OwnRole → Option Nat
  | .captureRead slot _ _ => some slot
  | _ => none

/-- The slot of the copy-out a write belongs to. -/
def OwnRole.placeSlot : OwnRole → Option Nat
  | .imageWrite slot | .descWrite slot => some slot
  | _ => none

/-- The Journal Writer's requests. -/
def OwnRole.isSlot : OwnRole → Bool
  | .slotRead | .slotWrite => true
  | _ => false

/-- Which own requests are queued or outstanding (R134), abandoned ones aside (log 27): class C holds capture reads and class B the
other kinds; a CAPTURING entry has at most four capture reads, returned lines counted; a copy-out
place has at most four IMAGE_WRITE requests while its entry is COPYING and at most one DESC_WRITE
while it is FILING; the Journal Writer has at most one SLOT_READ or SLOT_WRITE, and none in STANDBY or
while its poll timer runs; a wait stands only while the engines run (R80, R104); and a JCB_READ stands
in LOADING alone, the others only while the engines run. -/
def OwnLaw (s : State) : Prop :=
  (∀ r ∈ s.mem.classC, r.role.kind = .captureRead) ∧
  (∀ r ∈ s.mem.classB, r.role.kind ≠ .captureRead) ∧
  (∀ r ∈ s.live, ∀ n ∈ r.role.captureSlot, ∃ e ∈ s.table, e.slot = n ∧ e.state = .capturing) ∧
  (∀ e ∈ s.table, e.state = .capturing →
    s.liveCount (fun r => r.captureSlot == some e.slot) + e.linesIn ≤ 4) ∧
  (s.copyOut.places.map (·.slot)).Nodup ∧
  (∀ r ∈ s.live, ∀ n ∈ r.role.placeSlot, ∃ p ∈ s.copyOut.places, p.slot = n) ∧
  (∀ p ∈ s.copyOut.places, ∃ e ∈ s.table, e.slot = p.slot ∧
    (e.state = .copying ∧
        s.liveCount (fun r => r == .imageWrite p.slot) + p.linesDone ≤ 4 ∧
        s.liveCount (fun r => r == .descWrite p.slot) = 0 ∨
      e.state = .filing ∧ s.liveCount (fun r => r == .imageWrite p.slot) = 0 ∧
        s.liveCount (fun r => r == .descWrite p.slot) ≤ 1)) ∧
  s.liveCount OwnRole.isSlot ≤ 1 ∧
  (s.journal.writer = .standby → s.liveCount OwnRole.isSlot = 0) ∧
  (s.journal.timer.isSome = true →
    s.journal.wait = true ∧ s.liveCount OwnRole.isSlot = 0) ∧
  (s.journal.wait = true → s.running = true ∧ s.journal.writer = .waiting ∧
    s.liveCount (fun r => r == .slotWrite) = 0) ∧
  (s.copyOut.wait = true → s.running = true) ∧
  s.liveCount (fun r => decide (r.kind = .jcbRead)) ≤ 1 ∧
  (∀ r ∈ s.live, (r.role.kind = .jcbRead ∧ s.epoch.dev = .loading) ∨
    (r.role.kind ≠ .jcbRead ∧ s.running = true))

/-- The untracked count is non-zero only when the overflow flag is set (R63). -/
def CountLaw (s : State) : Prop := s.epoch.untracked ≠ 0 → s.epoch.overflow = true

/-- A window's QUOTA is 0 to 64 (R1). -/
def Windows.quotasInRange (ws : Windows) : Prop :=
  ws.w0.quota.toNat ≤ 64 ∧ ws.w1.quota.toNat ≤ 64 ∧ ws.w2.quota.toNat ≤ 64 ∧ ws.w3.quota.toNat ≤ 64

/-- The settings stay in the ranges of R1, R140 and R167, and JCB_ADDR stays 16-byte aligned
(R157). -/
def SettingsLaw (s : State) : Prop :=
  s.staged.windows.quotasInRange ∧ s.active.windows.quotasInRange ∧
  1 ≤ s.imm.drainHigh.toNat ∧ s.imm.drainHigh.toNat ≤ 64 ∧
  1 ≤ s.imm.tableUpper.toNat ∧ s.imm.tableUpper.toNat ≤ 2048 ∧
  1 ≤ s.imm.poolUpper.toNat ∧ s.imm.poolUpper.toNat ≤ 64 ∧
  s.cmd.jcbAddr.extractLsb' 0 4 = 0

/-- The pool's contents keep their canonical form (log 8). -/
def PoolFormLaw (s : State) : Prop := poolWf s.pool = true

end Sys2Proof.Machine
end

