-- ==== Sys2Proof/Certificates/Slice0/Obligations.lean ====
section
/-! DEFINITION. The statements for the provers, from the numbered rules of spec/. -/

open Sys2Proof Sys2Proof.Machine

/-! ### Steps and the queue -/

def Obligations.StepRunsFrontCommand : Prop :=
  ∀ (s : State) (c : Instr) (cs : List Instr),
    step { s with pending := c :: cs } = exec c { s with pending := cs }

/-- The model's own: that no command stops in any state is read from the rules (log 19), and a command
whose event is not due goes on with no effect (log 1). -/
def Obligations.EveryCommandGoesOnAndKeepsTheQueue : Prop :=
  ∀ (c : Instr) (s : State), ∃ t, exec c s = .next t ∧ t.pending = s.pending

/-- The model's choice (log 2, log 3): what an empty queue lets happen. When each step is due is stated
with the steps that are not (`StepsThatAreNotDueChangeNothing`). -/
def Obligations.EmptyQueueTakesADueStepOrLetsTimePass : Prop :=
  (∀ s : State, s.pending = [] → s.engineSteps = [] → s.expirySteps = [] →
    step s = .next { s with
      epoch.partTime := s.epoch.partTime + 1
      epoch.epochTime :=
        if s.epoch.dev = .tracking ∧ s.epoch.epochTime ≠ 0xFFFFFFFF then s.epoch.epochTime + 1
        else s.epoch.epochTime
      hold := s.hold.map fun h =>
        if h.isHeld = true ∧ h.time ≠ 0xFFFFFFFF then { h with time := h.time + 1 } else h
      copyOut.timer := s.copyOut.timer.map (· + 1)
      journal.timer := s.journal.timer.map (· + 1)
      mem.issuedOwn := s.mem.issuedOwn.map fun i => { i with age := i.age + 1 } }) ∧
  (∀ (s : State) (c : Instr), s.pending = [] → s.engineSteps = [c] → step s = exec c s) ∧
  (∀ (s : State) (c : Instr), s.pending = [] → s.engineSteps = [] → s.expirySteps = [c] →
    step s = exec c s) ∧
  (∀ (s : State) (c d : Instr) (cs : List Instr), s.pending = [] →
    s.engineSteps = c :: d :: cs →
    ∃ x ∈ c :: d :: cs, step s = exec x { s with choices := s.choices + 1 }) ∧
  (∀ (s : State) (c d : Instr) (cs : List Instr), s.pending = [] → s.engineSteps = [] →
    s.expirySteps = c :: d :: cs →
    ∃ x ∈ c :: d :: cs, step s = exec x { s with choices := s.choices + 1 }) ∧
  (∀ (s : State) (c : Instr), c ∈ s.engineSteps ↔
    (c = .releasedLeave ∧ s.dueLeave ≠ none) ∨ (c = .bufferGrant ∧ s.dueGrant ≠ none) ∨
    (c = .prefetch ∧ s.duePrefetch = true) ∨ (c = .copyOutStart ∧ s.dueCopyOut ≠ none) ∨
    (c = .retirement ∧ s.dueRetire ≠ none) ∨ (c = .closeRecordBuild ∧ s.dueClose ≠ none) ∨
    (c = .journalSlotReadStart ∧ s.dueSlotRead = true)) ∧
  (∀ (s : State) (c : Instr), c ∈ s.expirySteps ↔
    (c = .holdLimitExpiry ∧ s.dueHoldLimit = true) ∨
    (c = .holdAlertReached ∧ s.dueHoldAlert = true) ∨ (c = .ageExpiry ∧ s.dueAge ≠ none) ∨
    (c = .firPollExpiry ∧ s.dueFirPoll = true) ∨ (c = .ringPollExpiry ∧ s.dueRingPoll = true) ∨
    ∃ i ∈ s.mem.issuedOwn, 64 ≤ i.age ∧
      c = if i.abandoned then .abandonedTimeout i.tag else .timeout i.tag)

/-- The model's choice (log 1): a command whose event is not due changes nothing. When each is not due
is the rules' own: R34, R53, R61, R71, R72, R77, R79, R83, R91, R97, R99, R102, R135 to R137, R141,
R168; but that an abandoned DESC_READ in flight keeps no PREFETCH back is the model's choice
(log 27). -/
def Obligations.StepsThatAreNotDueChangeNothing : Prop :=
  (∀ s : State, s.dueLeave = none → exec .releasedLeave s = .next s) ∧
  (∀ s : State, s.choose = .nothing → exec .issue s = .next s) ∧
  (∀ s : State, s.dueHoldLimit = false → exec .holdLimitExpiry s = .next s) ∧
  (∀ s : State, s.dueHoldAlert = false → exec .holdAlertReached s = .next s) ∧
  (∀ s : State, s.dueAge = none → exec .ageExpiry s = .next s) ∧
  (∀ s : State, s.dueFirPoll = false → exec .firPollExpiry s = .next s) ∧
  (∀ s : State, s.dueRingPoll = false → exec .ringPollExpiry s = .next s) ∧
  (∀ s : State, s.dueGrant = none → exec .bufferGrant s = .next s) ∧
  (∀ s : State, s.duePrefetch = false → exec .prefetch s = .next s) ∧
  (∀ s : State, s.dueCopyOut = none → exec .copyOutStart s = .next s) ∧
  (∀ s : State, s.dueRetire = none → exec .retirement s = .next s) ∧
  (∀ s : State, s.dueClose = none → exec .closeRecordBuild s = .next s) ∧
  (∀ s : State, s.dueSlotRead = false → exec .journalSlotReadStart s = .next s) ∧
  (∀ (s : State) (tag : Nat), (∀ i, s.findOwn tag = some i → i.age < 64) →
    exec (.timeout tag) s = .next s ∧ exec (.abandonedTimeout tag) s = .next s) ∧
  ∀ s : State,
    let stands := s.epoch.dev ≠ .tracking ∧ s.epoch.dev ≠ .finishing
    let eligible (addr : Addr) (key : Nat) : Prop :=
      ∀ u ∈ s.unissued, u.1 = blockOf addr → key ≤ u.2
    (s.dueLeave = none ↔ 8 ≤ s.mem.passQ.length ∨ ∀ h ∈ s.hold, h.isHeld = true) ∧
    (s.choose = .nothing ↔
      (16 ≤ s.mem.issuedOwn.length ∨
        ((∀ r ∈ s.mem.classC, ¬eligible r.addr r.key) ∧
          ∀ r ∈ s.mem.classB, ¬eligible r.addr r.key)) ∧
      ∀ p ps, s.mem.passQ = p :: ps → ¬eligible p.addr p.key) ∧
    (s.dueHoldLimit = false ↔ s.imm.holdLimit = 0 ∨
      ∀ h ∈ s.hold, h.isWaiter = true → h.time.toNat < s.imm.holdLimit.toNat) ∧
    (s.dueHoldAlert = false ↔ s.imm.holdAlert = 0 ∨
      ∀ h ∈ s.hold, h.isHeld = true →
        h.time.toNat < s.imm.holdAlert.toNat ∨ h.reachedAlert = true) ∧
    (s.dueAge = none ↔ s.active.ageLimit = 0 ∨ s.epoch.dev ≠ .tracking ∨
      ∀ e ∈ s.table, e.epoch = s.epoch.number → e.mode = .trace → e.state = .logged →
        e.cause = none →
        s.epoch.epochTime.toNat - e.lastStamp.toNat < s.active.ageLimit.toNat * 1000) ∧
    (s.dueFirPoll = false ↔ stands ∨ s.copyOut.wait = false ∨ s.imm.poll = 0 ∨
      ∀ elapsed, s.copyOut.timer = some elapsed → elapsed < s.imm.poll.toNat * 16) ∧
    (s.dueRingPoll = false ↔ stands ∨ s.journal.wait = false ∨ s.imm.poll = 0 ∨
      ∀ elapsed, s.journal.timer = some elapsed → elapsed < s.imm.poll.toNat * 16) ∧
    (s.dueGrant = none ↔ s.epoch.dev ≠ .tracking ∨
      (∀ n < 64, ∃ e ∈ s.table, e.poolBuf = some n) ∨
      ∀ h ∈ s.hold, ∀ slot e, h.hold = .buffer slot → s.entryAt slot = some e →
        e.state ≠ .pending ∨
        (s.active.poolMode = .quota ∧ (s.active.windows.get e.window).quota.toNat ≤
          (s.table.filter fun y => y.poolBuf.isSome && y.window == e.window).length)) ∧
    (s.duePrefetch = false ↔ stands ∨ 4 ≤ s.copyOut.cache.length ∨
      (∃ r ∈ s.mem.classB, r.role = .descRead) ∨
      (∃ i ∈ s.mem.issuedOwn, i.abandoned = false ∧ i.req.role = .descRead) ∨
      s.copyOut.wait = true ∨
      (∃ b ∈ s.copyOut.cache, b.firIndex = s.copyOut.prefetchIndex) ∨
      (∃ p ∈ s.copyOut.places, p.image.firIndex = s.copyOut.prefetchIndex) ∨
      s.copyOut.fir = none) ∧
    (s.dueCopyOut = none ↔ stands ∨ 4 ≤ s.copyOut.places.length ∨ s.copyOut.cache = [] ∨
      ∀ slot rest e, s.copyOut.imaged = slot :: rest → s.entryAt slot = some e →
        e.state ≠ .imaged ∨ e.poolBuf = none) ∧
    (s.dueRetire = none ↔ stands ∨ 31 ≤ s.journal.queue.length ∨
      ∀ n ∈ s.retire.list, ∀ e, s.entryAt n = some e → e.state ≠ .logged) ∧
    (s.dueClose = none ↔ stands ∨ s.epoch.draining = false ∨ s.retire.closeBuilt = true ∨
      31 ≤ s.journal.queue.length ∨
      ∀ m, s.epoch.summary = some m → ∃ e ∈ s.table, e.epoch = m.epoch) ∧
    (s.dueSlotRead = false ↔ stands ∨ s.journal.writer ≠ .standby ∨ s.journal.queue = [] ∨
      s.journal.ring = none)

/-! ### Reset -/

/-- R14. -/
def Obligations.PowerOnResetGivesTheSettingsTheirValues : Prop :=
  ∀ s : State, ∃ t, exec .powerOnReset s = .next t ∧
    (∀ n : BitVec 2,
      t.staged.windows.get n = { base := 0, limit := 0, mask := 0xFFFF, mode := .off, quota := 16 } ∧
      t.active.windows.get n =
        { base := 0, limit := 0, mask := 0xFFFF, mode := .off, quota := 16 }) ∧
    t.staged.poolMode = .shared ∧ t.active.poolMode = .shared ∧
    t.staged.ageLimit = 0 ∧ t.active.ageLimit = 0 ∧
    t.imm =
      { passWeight := 4, drainHigh := 48, drainLow := 32, holdLimit := 1000, poll := 16
        holdAlert := 500, tableUpper := 1792, tableLower := 1536, poolUpper := 56
        poolLower := 40, tableMode := .sticky, poolAlertMode := .sticky, enables := 0
        view := .staged } ∧
    (∀ (n : BitVec 2) (a : Addr) (i : Initiator), (t.active.windows.get n).claims a i = false) ∧
    t.epoch.dev = .idle ∧ ∀ (a : Addr) (i : Initiator), t.classify a i = .untracked

/-- R44, R69, R89, R108, R130, R145, R151, R152, R155, R172. What goes on over a reset is the
model's own (log 9, log 10). -/
def Obligations.PowerOnResetEmptiesEveryBlock : Prop :=
  ∀ s : State, ∃ t, exec .powerOnReset s = .next t ∧
    t.table = [] ∧ t.occupancy = 0 ∧ t.freeSlot = some 0 ∧ t.poolUse = 0 ∧
    t.hold = [] ∧ t.ready = true ∧
    t.copyOut =
      { imaged := [], places := [], cache := [], prefetchIndex := 0, fir := none, wait := false
        timer := none } ∧
    t.retire = { list := [], currentCounter := 0, drainingCounter := 0, closeBuilt := false } ∧
    t.journal =
      { queue := [], writer := .standby, index := 0, ring := none, wait := false
        timer := none } ∧
    t.epoch =
      { dev := .idle, number := 0, pendingFirst := none, partTime := 0, epochTime := 0
        draining := false, summary := none, overflow := false, untracked := 0
        imagesCurrent := 0, imagesDraining := 0 } ∧
    t.mem =
      { passQ := [], classC := [], classB := [], issuedPass := [], issuedOwn := []
        runCount := 0, drainMode := false, err := none, nextPlace := 0
        nextTag := s.mem.nextTag } ∧
    t.port.resetAsserted = true ∧ t.port.pointer = 0 ∧ t.port.endMarker = false ∧
    t.port.phase = .low ∧ t.port.inspectSlot = 0 ∧ t.port.snapshot = none ∧
    (∀ q : Wide, t.port.latches.get q = 0) ∧
    (∀ p : Byte, 0x70 ≤ p.toNat → p.toNat ≤ 0x7E → t.readReg (regAt p) = 0) ∧
    t.cmd =
      { busy := false, reject := false, reason := .noReason, last := .noCommand
        loadResult := .noResult, jcbAddr := 0 } ∧
    t.alert =
      { flags := 0, peakOcc := 0, peakPool := 0, peakHold := 0, epochPeakOcc := 0
        epochPeakPool := 0, epochHold := 0, recordsWritten := 0, imagesWritten := 0
        overflows := 0, occHanded := 0, poolHanded := 0 } ∧
    t.out = s.out ∧ t.choices = s.choices ∧ t.pending = s.pending

/-- R147; that the rows of the port leave the state as it was while RESET_N is asserted is log 7. -/
def Obligations.ResetReleaseSamplesTheAddressPins : Prop :=
  (∀ (s : State) (addr1 addr0 : Bool), s.port.resetAsserted = true →
    exec (.resetRelease addr1 addr0) s = .next { s with
      port.resetAsserted := false
      port.slaveAddr := BitVec.ofNat 7 (0x58 + 2 * addr1.toNat + addr0.toNat) }) ∧
  (∀ (s : State) (addr1 addr0 : Bool), s.port.resetAsserted = false →
    exec (.resetRelease addr1 addr0) s = .next s) ∧
  (∀ (s : State) (c : Instr), s.port.resetAsserted = true → usesPort c = true →
    exec c s = .next s) ∧
  (∀ (s : State) (a : BitVec 7), s.port.resetAsserted = true → s.answersAddress a = false) ∧
  (∀ (s : State) (a : BitVec 7), s.port.resetAsserted = false →
    (s.answersAddress a = true ↔ a = s.port.slaveAddr))

/-! ### Bus bytes -/

/-- R148. That a data byte in phase HIGH is the register write it completes, and that one after a
read's low byte begins a write afresh, is log 5. -/
def Obligations.BusBytesSetThePointerAndCompleteWrites : Prop :=
  (∀ (s : State) (b : Byte), s.port.resetAsserted = false →
    exec (.pointerByte b) s = .next { s with
      port := { s.port with pointer := b, endMarker := false, phase := .low }
      out.bus := s.out.bus ++ [.ack] }) ∧
  (∀ (s : State) (b : Byte), s.port.resetAsserted = false →
    (∀ low, s.port.phase ≠ .highWrite low) →
    exec (.heldLowByte b) s = .next { s with
      port.phase := .highWrite b
      out.bus := s.out.bus ++ [.ack] }) ∧
  (∀ (s : State) (high low : Byte), s.port.resetAsserted = false →
    s.port.phase = .highWrite low → s.port.endMarker = false →
    exec (.heldLowByte high) s = exec (.registerWrite s.port.pointer (high ++ low)) s) ∧
  (∀ (s : State) (b low : Byte), s.port.resetAsserted = false →
    s.port.phase = .highWrite low → s.port.endMarker = true →
    exec (.heldLowByte b) s = .next { s with
      port.phase := .low
      out.bus := s.out.bus ++ [.ack] }) ∧
  (∀ s : State, s.port.resetAsserted = false →
    exec .busStopCondition s = .next { s with port.phase := .low })

/-- R11, R41, R42, R63, R110, R126, R144, R149, R151, R155, R162, R169 to R171, with the codes and
places of 10.5; one row is one byte of a read (log 6). The snapshot registers have a statement of their
own (`SnapshotRegistersShowTheLatchedEntry`). -/
def Obligations.ReadSendsTheLowByteThenTheHighByteOfOneSample : Prop :=
  (∀ s : State, s.port.resetAsserted = false → (∀ h, s.port.phase ≠ .highRead h) →
    s.port.endMarker = false →
    ∃ t, exec .latchedRead s = .next t ∧
      t.out.bus =
        s.out.bus ++ [.byte ((s.readReg (regAt s.port.pointer)).extractLsb' 0 8)] ∧
      t.port.phase = .highRead ((s.readReg (regAt s.port.pointer)).extractLsb' 8 8) ∧
      (∀ q, regAt s.port.pointer = .wideLow q →
        t.port.latches.get q = (s.wideValue q).extractLsb' 16 16) ∧
      (∀ q, regAt s.port.pointer ≠ .wideLow q → t.port.latches.get q = s.port.latches.get q) ∧
      t = { s with
        port.phase := t.port.phase
        port.latches := t.port.latches
        out.bus := t.out.bus }) ∧
  (∀ (s : State) (h : Byte), s.port.resetAsserted = false → s.port.phase = .highRead h →
    s.port.endMarker = false →
    exec .latchedRead s = .next { s with
      port := s.port.written s.port.pointer
      out.bus := s.out.bus ++ [.byte h] }) ∧
  (∀ s : State, s.port.resetAsserted = false → (∀ h, s.port.phase ≠ .highRead h) →
    s.port.endMarker = true →
    exec .latchedRead s = .next { s with
      port.phase := .highRead 0
      out.bus := s.out.bus ++ [.byte 0] }) ∧
  (∀ (s : State) (h : Byte), s.port.resetAsserted = false → s.port.phase = .highRead h →
    s.port.endMarker = true →
    exec .latchedRead s = .next { s with
      port.phase := .low
      out.bus := s.out.bus ++ [.byte h] }) ∧
  (∀ (s : State) (q : Wide), s.readReg (.wideHigh q) = s.port.latches.get q ∧
    s.readReg (.wideLow q) = (s.wideValue q).extractLsb' 0 16) ∧
  ∀ s : State,
    let read (pointer : Byte) : Half := s.readReg (regAt pointer)
    let viewed : Settings := match s.imm.view with | .staged => s.staged | .active => s.active
    let result : Half := match s.cmd.loadResult with
      | .noResult => 0 | .done => 1 | .format => 2 | .overlap => 3 | .memory => 4
    let pair (pointer : Byte) (value : Word) (latch : Half) : Prop :=
      read pointer = value.extractLsb' 0 16 ∧ read (pointer + 1) = latch ∧
      ∃ q, regAt pointer = .wideLow q ∧ s.wideValue q = value ∧ s.port.latches.get q = latch
    (read 0x00 = 0 ∧
      (read 0x01).extractLsb' 0 1 = BitVec.ofBool s.cmd.busy ∧
      (read 0x01).extractLsb' 1 1 = BitVec.ofBool s.cmd.reject ∧
      (read 0x01).extractLsb' 2 2 = (match s.cmd.reason with
        | .noReason => 0 | .badCode => 1 | .busy => 2 | .state => 3) ∧
      (read 0x01).extractLsb' 4 4 = (match s.cmd.last with
        | .noCommand => 0 | .load => 1 | .openEpoch => 2 | .closeSwitch => 3 | .closeEnd => 4
        | .kick => 5 | .stop => 6) ∧
      (read 0x01).extractLsb' 8 8 = result.extractLsb' 0 8 ∧
      (read 0x02).extractLsb' 0 4 = (match s.epoch.dev with
        | .idle => 0 | .loading => 1 | .ready => 2 | .tracking => 3 | .finishing => 4
        | .halted => 5) ∧
      (read 0x02).extractLsb' 4 1 = BitVec.ofBool s.epoch.draining ∧
      (read 0x02).extractLsb' 5 1 = BitVec.ofBool s.epoch.overflow ∧
      (read 0x02).extractLsb' 6 10 = 0 ∧
      read 0x03 = (if s.mem.drainMode then 1 else 0) ∧
      read 0x04 = (match s.imm.view with | .staged => 0 | .active => 1) ∧
      (read 0x05).extractLsb' 0 11 = s.alert.flags ∧ (read 0x05).extractLsb' 11 1 = 0 ∧
      (read 0x05).extractLsb' 12 4 = result.extractLsb' 0 4 ∧
      (read 0x06).toNat = s.imm.enables.toNat ∧
      read 0x07 = (match s.imm.tableMode with | .sticky => 0 | .auto => 1) +
        (match s.imm.poolAlertMode with | .sticky => 0 | .auto => 2)) ∧
    (read 0x08 = s.cmd.jcbAddr.extractLsb' 0 16 ∧ read 0x09 = s.cmd.jcbAddr.extractLsb' 16 16 ∧
      (read 0x0A).toNat = (s.cmd.jcbAddr.extractLsb' 32 8).toNat ∧
      read 0x0B = (match viewed.poolMode with | .shared => 0 | .quota => 1) ∧
      (read 0x0C).toNat = viewed.ageLimit.toNat ∧
      (read 0x0D).toNat = s.imm.passWeight.toNat ∧ (read 0x0E).toNat = s.imm.drainHigh.toNat ∧
      (read 0x0F).toNat = s.imm.drainLow.toNat ∧ read 0x10 = s.imm.holdLimit ∧
      (read 0x11).toNat = s.imm.poll.toNat ∧ read 0x12 = s.imm.holdAlert ∧
      (read 0x13).toNat = s.imm.tableUpper.toNat ∧ (read 0x14).toNat = s.imm.tableLower.toNat ∧
      (read 0x15).toNat = s.imm.poolUpper.toNat ∧ (read 0x16).toNat = s.imm.poolLower.toNat) ∧
    (∀ n : Fin 4,
      let w := viewed.windows.get (BitVec.ofFin n)
      let at' (k : Nat) : Half := read (BitVec.ofNat 8 (0x20 + 6 * n.val + k))
      at' 0 = w.base.extractLsb' 0 16 ∧ (at' 1).toNat = (w.base.extractLsb' 16 8).toNat ∧
      at' 2 = w.limit.extractLsb' 0 16 ∧ (at' 3).toNat = (w.limit.extractLsb' 16 8).toNat ∧
      at' 4 = w.mask ∧
      (at' 5).extractLsb' 0 8 = (match w.mode with
        | .off => 0 | .trace => 1 | .undo => 2 | .exclude => 3) ∧
      (at' 5).extractLsb' 8 7 = w.quota ∧ (at' 5).extractLsb' 15 1 = 0) ∧
    (read 0x40 = BitVec.ofNat 16 s.table.length ∧
      read 0x41 = BitVec.ofNat 16 (s.table.filter fun e => e.poolBuf.isSome).length ∧
      read 0x42 = BitVec.ofNat 16 s.journal.queue.length ∧
      read 0x43 = BitVec.ofNat 16 s.hold.length ∧ read 0x44 = BitVec.ofNat 16 s.journal.index ∧
      read 0x45 = BitVec.ofNat 16 s.copyOut.prefetchIndex ∧ read 0x46 = s.epoch.number ∧
      read 0x4E = s.alert.overflows ∧ read 0x50 = BitVec.ofNat 16 s.alert.peakOcc ∧
      read 0x51 = BitVec.ofNat 16 s.alert.peakPool ∧
      read 0x54 = BitVec.ofNat 16 s.alert.epochPeakOcc ∧
      read 0x55 = BitVec.ofNat 16 s.alert.epochPeakPool) ∧
    (pair 0x48 s.epoch.untracked s.port.latches.untracked ∧
      pair 0x4A s.alert.recordsWritten s.port.latches.recordsWritten ∧
      pair 0x4C s.alert.imagesWritten s.port.latches.imagesWritten ∧
      pair 0x52 s.alert.peakHold s.port.latches.peakHold ∧
      pair 0x56 s.alert.epochHold s.port.latches.epochHold) ∧
    (s.mem.err = none → pair 0x60 0 s.port.latches.errAddr ∧ read 0x62 = 0) ∧
    (∀ err, s.mem.err = some err →
      pair 0x60 (err.addr.extractLsb' 8 32) s.port.latches.errAddr ∧
      (read 0x62).extractLsb' 0 4 = (match err.kind with
        | .captureRead => 1 | .imageWrite => 2 | .descRead => 3 | .descWrite => 4 | .slotRead => 5
        | .slotWrite => 6 | .jcbRead => 7) ∧
      (read 0x62).extractLsb' 4 4 = (match err.cause with | .error => 1 | .timeout => 2) ∧
      (read 0x62).extractLsb' 8 2 = err.addr.extractLsb' 6 2 ∧
      (read 0x62).extractLsb' 10 6 = 0) ∧
    (read 0x70).toNat = s.port.inspectSlot.toNat ∧
    ∀ pointer : Byte, (0x17 ≤ pointer.toNat ∧ pointer.toNat ≤ 0x1F) ∨
        (0x38 ≤ pointer.toNat ∧ pointer.toNat ≤ 0x3F) ∨ pointer = 0x47 ∨ pointer = 0x4F ∨
        (0x58 ≤ pointer.toNat ∧ pointer.toNat ≤ 0x5F) ∨
        (0x63 ≤ pointer.toNat ∧ pointer.toNat ≤ 0x6F) ∨ 0x7F ≤ pointer.toNat →
      read pointer = 0

/-! ### Register writes -/

/-- R61, R79, R102, R155, R163, R164, R169, with R148 for the port. -/
def Obligations.ImmediateWritesAndPeakResetsTakeHoldAtOnce : Prop :=
  ∀ (s : State) (v : Half), s.port.resetAsserted = false →
    exec (.holdLimitWrite v) s = .next { s with
      imm.holdLimit := v
      port := s.port.written 0x10, out.bus := s.out.bus ++ [.ack] } ∧
    exec (.pollWrite v) s = .next { s with
      imm.poll := BitVec.ofNat 8 (min 255 v.toNat)
      port := s.port.written 0x11, out.bus := s.out.bus ++ [.ack] } ∧
    exec (.eventEnableWrite v) s = .next { s with
      imm.enables := v.extractLsb' 0 11
      port := s.port.written 0x06, out.bus := s.out.bus ++ [.ack] } ∧
    exec (.eventWrite v) s = .next { s with
      alert.flags := s.alert.flags &&& ~~~(v.extractLsb' 0 11)
      port := s.port.written 0x05, out.bus := s.out.bus ++ [.ack] } ∧
    exec (.cmdStatusWrite v) s = .next { s with
      cmd.reject := false
      port := s.port.written 0x01, out.bus := s.out.bus ++ [.ack] } ∧
    exec (.peakReset .occ) s = .next { s with
      alert.peakOcc := s.table.length
      port := s.port.written 0x50, out.bus := s.out.bus ++ [.ack] } ∧
    exec (.peakReset .pool) s = .next { s with
      alert.peakPool := (s.table.filter fun e => e.poolBuf.isSome).length
      port := s.port.written 0x51, out.bus := s.out.bus ++ [.ack] } ∧
    exec (.peakReset .hold) s = .next { s with
      alert.peakHold := 0
      port := s.port.written 0x52, out.bus := s.out.bus ++ [.ack] }

/-- R41. That the two data bytes of a write to 0x70 are the row INSPECT_SLOT_WRITE rests on log 4 and
log 5. Where the pointer stands and what the port sends are stated with the register writes. -/
def Obligations.InspectSlotWriteLatchesASnapshot : Prop :=
  (∀ (s : State) (v : Half), s.port.resetAsserted = false →
    ∃ t, exec (.inspectSlotWrite v) s = .next t ∧
      t = { s with
        port := { s.port with
          inspectSlot := v.extractLsb' 0 11
          snapshot := s.table.find? fun e => e.slot == v.toNat % 2048
          pointer := t.port.pointer, endMarker := t.port.endMarker, phase := t.port.phase }
        out := t.out }) ∧
  (∀ (s : State) (high low : Byte), s.port.resetAsserted = false → s.port.pointer = 0x70 →
    s.port.endMarker = false → s.port.phase = .highWrite low →
    exec (.heldLowByte high) s = exec (.inspectSlotWrite (high ++ low)) s) ∧
  (∀ s : State, (s.readReg (regAt 0x70)).extractLsb' 0 11 = s.port.inspectSlot ∧
    (s.readReg (regAt 0x70)).extractLsb' 11 5 = 0) ∧
  (∀ (s : State) (b : Byte), s.port.resetAsserted = false → s.port.phase = .low →
    ∃ t, exec (.heldLowByte b) s = .next t ∧
      exec .busStopCondition t = .next { s with out := t.out })

/-- R42, with the codes and places of 10.5. The high half of a wide quantity is read from the latch
that its low half filled (R151). -/
def Obligations.SnapshotRegistersShowTheLatchedEntry : Prop :=
  (∀ (s : State) (p : Byte), s.port.snapshot = none →
    p = 0x71 ∨ p = 0x72 ∨ p = 0x73 ∨ p = 0x75 ∨ p = 0x76 ∨ p = 0x77 ∨ p = 0x78 ∨ p = 0x7A ∨
      p = 0x7C ∨ p = 0x7D →
    s.readReg (regAt p) = 0) ∧
  (∀ s : State, s.port.snapshot = none →
    s.wideValue .snapBlock = 0 ∧ s.wideValue .snapFirst = 0 ∧ s.wideValue .snapLast = 0 ∧
    s.wideValue .snapImg = 0) ∧
  (∀ s : State,
    s.readReg (regAt 0x74) = s.port.latches.snapBlock ∧
    s.readReg (regAt 0x79) = s.port.latches.snapFirst ∧
    s.readReg (regAt 0x7B) = s.port.latches.snapLast ∧
    s.readReg (regAt 0x7E) = s.port.latches.snapImg ∧
    regAt 0x73 = .wideLow .snapBlock ∧ regAt 0x78 = .wideLow .snapFirst ∧
    regAt 0x7A = .wideLow .snapLast ∧ regAt 0x7D = .wideLow .snapImg) ∧
  (∀ (s : State) (e : Entry), s.port.snapshot = some e →
    let info := s.readReg (regAt 0x71)
    info.extractLsb' 0 1 = 1 ∧
    info.extractLsb' 1 3 = (match e.state with
      | .pending => 1 | .capturing => 2 | .imaged => 3 | .copying => 4 | .filing => 5
      | .logged => 6) ∧
    info.extractLsb' 4 2 = e.window ∧
    info.extractLsb' 6 1 = (match e.mode with | .trace => 0 | .undo => 1) ∧
    info.extractLsb' 8 2 = (match e.cause with
      | none => 0 | some .close => 1 | some .age => 2 | some .pressure => 3) ∧
    info.extractLsb' 10 1 = BitVec.ofBool e.saturated ∧
    info.extractLsb' 11 1 = BitVec.ofBool e.poolBuf.isSome ∧
    info.extractLsb' 12 1 = BitVec.ofBool e.imageBuf.isSome ∧
    s.readReg (regAt 0x72) = e.epoch ∧
    s.readReg (regAt 0x73) = e.block.extractLsb' 0 16 ∧
    (s.readReg (regAt 0x75)).extractLsb' 0 8 = e.count ∧
    (s.readReg (regAt 0x75)).extractLsb' 8 4 = e.handoffs ∧
    (s.readReg (regAt 0x76)).extractLsb' 0 4 = e.firstWriter ∧
    (s.readReg (regAt 0x76)).extractLsb' 4 4 = e.lastWriter ∧
    (s.readReg (regAt 0x76)).extractLsb' 8 6 = BitVec.ofNat 6 (e.poolBuf.getD 0) ∧
    s.readReg (regAt 0x77) = e.writers ∧
    s.readReg (regAt 0x78) = e.firstStamp.extractLsb' 0 16 ∧
    s.readReg (regAt 0x7A) = e.lastStamp.extractLsb' 0 16 ∧
    (s.readReg (regAt 0x7C)).extractLsb' 0 12 =
      (match e.imageBuf with | none => 0 | some b => BitVec.ofNat 12 b.firIndex) ∧
    s.readReg (regAt 0x7D) =
      (match e.imageBuf with | none => 0 | some b => b.addr.extractLsb' 8 16) ∧
    s.wideValue .snapBlock = e.block ∧ s.wideValue .snapFirst = e.firstStamp ∧
    s.wideValue .snapLast = e.lastStamp ∧
    s.wideValue .snapImg =
      (match e.imageBuf with | none => 0 | some b => b.addr.extractLsb' 8 32))

/-- R1, R10, R11, R139, R150, R157, with R148 for the port. -/
def Obligations.RegisterWriteStoresEachSettingInItsRange : Prop :=
  ∀ (s : State) (v : Half), s.port.resetAsserted = false →
    exec (.registerWrite 0x04 v) s = .next { s with
      imm.view := if v.getLsbD 0 then .active else .staged
      port := s.port.written 0x04, out.bus := s.out.bus ++ [.ack] } ∧
    exec (.registerWrite 0x08 v) s = .next { s with
      cmd.jcbAddr := s.cmd.jcbAddr.extractLsb' 16 24 ++ (v.extractLsb' 4 12 ++ (0 : BitVec 4))
      port := s.port.written 0x08, out.bus := s.out.bus ++ [.ack] } ∧
    exec (.registerWrite 0x09 v) s = .next { s with
      cmd.jcbAddr := s.cmd.jcbAddr.extractLsb' 32 8 ++ (v ++ s.cmd.jcbAddr.extractLsb' 0 16)
      port := s.port.written 0x09, out.bus := s.out.bus ++ [.ack] } ∧
    exec (.registerWrite 0x0A v) s = .next { s with
      cmd.jcbAddr := v.extractLsb' 0 8 ++ s.cmd.jcbAddr.extractLsb' 0 32
      port := s.port.written 0x0A, out.bus := s.out.bus ++ [.ack] } ∧
    exec (.registerWrite 0x0B v) s = .next { s with
      staged.poolMode := if v = 1 then .quota else .shared
      port := s.port.written 0x0B, out.bus := s.out.bus ++ [.ack] } ∧
    exec (.registerWrite 0x0C v) s = .next { s with
      staged.ageLimit := BitVec.ofNat 12 (min 4095 v.toNat)
      port := s.port.written 0x0C, out.bus := s.out.bus ++ [.ack] } ∧
    exec (.registerWrite 0x0D v) s = .next { s with
      imm.passWeight := BitVec.ofNat 4 (min 15 v.toNat)
      port := s.port.written 0x0D, out.bus := s.out.bus ++ [.ack] } ∧
    ∀ n : Fin 4,
      let w := s.staged.windows.get (BitVec.ofFin n)
      let put (k : Nat) (w' : Window) : State :=
        { s with
          staged.windows := s.staged.windows.set (BitVec.ofFin n) w'
          port := s.port.written (BitVec.ofNat 8 (0x20 + 6 * n.val + k))
          out.bus := s.out.bus ++ [.ack] }
      exec (.registerWrite (BitVec.ofNat 8 (0x20 + 6 * n.val)) v) s =
        .next (put 0 { w with base := w.base.extractLsb' 16 8 ++ v }) ∧
      exec (.registerWrite (BitVec.ofNat 8 (0x21 + 6 * n.val)) v) s =
        .next (put 1 { w with base := v.extractLsb' 0 8 ++ w.base.extractLsb' 0 16 }) ∧
      exec (.registerWrite (BitVec.ofNat 8 (0x22 + 6 * n.val)) v) s =
        .next (put 2 { w with limit := w.limit.extractLsb' 16 8 ++ v }) ∧
      exec (.registerWrite (BitVec.ofNat 8 (0x23 + 6 * n.val)) v) s =
        .next (put 3 { w with limit := v.extractLsb' 0 8 ++ w.limit.extractLsb' 0 16 }) ∧
      exec (.registerWrite (BitVec.ofNat 8 (0x24 + 6 * n.val)) v) s =
        .next (put 4 { w with mask := v }) ∧
      exec (.registerWrite (BitVec.ofNat 8 (0x25 + 6 * n.val)) v) s =
        .next (put 5 { w with
          mode := (match v.toNat % 4 with | 0 => .off | 1 => .trace | 2 => .undo | _ => .exclude)
          quota := BitVec.ofNat 7 (min 64 (v.toNat / 256 % 128)) })

/-- R148 to R150, R169, R171: a write to a read-only or undefined register, or of a non-zero value to
a peak, is ignored; a write to a register with a row of its own is that row (log 4); and every write
moves the port alike, acknowledged once (log 10). -/
def Obligations.RegisterWriteElsewhereIsIgnoredOrIsItsOwnRow : Prop :=
  (∀ (s : State) (p : Byte) (v : Half), s.port.resetAsserted = false →
    ∃ t, exec (.registerWrite p v) s = .next t ∧
      t.out = { s.out with bus := s.out.bus ++ [.ack] } ∧
      t.port = { s.port.written p with
        inspectSlot := t.port.inspectSlot, snapshot := t.port.snapshot }) ∧
  (∀ (s : State) (p : Byte) (v : Half), s.port.resetAsserted = false →
    p = 0x02 ∨ p = 0x03 ∨ (0x17 ≤ p.toNat ∧ p.toNat ≤ 0x1F) ∨
      (0x38 ≤ p.toNat ∧ p.toNat ≤ 0x4F) ∨ (0x53 ≤ p.toNat ∧ p.toNat ≤ 0x6F) ∨
      0x71 ≤ p.toNat ∨ (0x50 ≤ p.toNat ∧ p.toNat ≤ 0x52 ∧ v ≠ 0) →
    exec (.registerWrite p v) s = .next { s with
      port := s.port.written p, out.bus := s.out.bus ++ [.ack] }) ∧
  (∀ (s : State) (v : Half),
    exec (.registerWrite 0x00 0x0011) s = exec .load s ∧
    exec (.registerWrite 0x00 0x0022) s = exec .openEpoch s ∧
    exec (.registerWrite 0x00 0x0033) s = exec .closeSwitch s ∧
    exec (.registerWrite 0x00 0x0034) s = exec .closeEnd s ∧
    exec (.registerWrite 0x00 0x00A5) s = exec .kick s ∧
    exec (.registerWrite 0x00 0x005A) s = exec .stop s ∧
    exec (.registerWrite 0x00 v) s = exec (.invalidCommandCode v) s ∧
    exec (.registerWrite 0x01 v) s = exec (.cmdStatusWrite v) s ∧
    exec (.registerWrite 0x05 v) s = exec (.eventWrite v) s ∧
    exec (.registerWrite 0x06 v) s = exec (.eventEnableWrite v) s ∧
    exec (.registerWrite 0x07 v) s = exec (.alertThresholdWrite .alertMode v) s ∧
    exec (.registerWrite 0x0E v) s = exec (.drainThresholdWrite .drainHigh v) s ∧
    exec (.registerWrite 0x0F v) s = exec (.drainThresholdWrite .drainLow v) s ∧
    exec (.registerWrite 0x10 v) s = exec (.holdLimitWrite v) s ∧
    exec (.registerWrite 0x11 v) s = exec (.pollWrite v) s ∧
    exec (.registerWrite 0x12 v) s = exec (.holdAlertWrite v) s ∧
    exec (.registerWrite 0x13 v) s = exec (.alertThresholdWrite .tableUpper v) s ∧
    exec (.registerWrite 0x14 v) s = exec (.alertThresholdWrite .tableLower v) s ∧
    exec (.registerWrite 0x15 v) s = exec (.alertThresholdWrite .poolUpper v) s ∧
    exec (.registerWrite 0x16 v) s = exec (.alertThresholdWrite .poolLower v) s ∧
    exec (.registerWrite 0x50 0) s = exec (.peakReset .occ) s ∧
    exec (.registerWrite 0x51 0) s = exec (.peakReset .pool) s ∧
    exec (.registerWrite 0x52 0) s = exec (.peakReset .hold) s ∧
    exec (.registerWrite 0x70 v) s = exec (.inspectSlotWrite v) s)

/-- R165, R166, R167; ALERT_MODE evaluates both alerts (log 12). -/
def Obligations.AlertThresholdWriteEvaluatesItsAlert : Prop :=
  ∀ (s : State) (v : Half), s.port.resetAsserted = false →
    (∀ (r : AlertReg) (upper : BitVec 12) (lower : BitVec 11),
      (r = .tableUpper ∧ upper = BitVec.ofNat 12 (max 1 (min 2048 v.toNat)) ∧
          lower = s.imm.tableLower) ∨
        (r = .tableLower ∧ upper = s.imm.tableUpper ∧
          lower = BitVec.ofNat 11 (min 2047 v.toNat)) →
      ∃ t, exec (.alertThresholdWrite r v) s = .next t ∧
        AlertRule s.occupancy upper.toNat lower.toNat s.imm.tableMode
          (s.alert.isSet .tableHigh) (t.alert.isSet .tableHigh) ∧
        (∀ f, f ≠ .tableHigh → t.alert.isSet f = s.alert.isSet f) ∧
        t = { s with
          imm.tableUpper := upper, imm.tableLower := lower, alert.flags := t.alert.flags
          port := s.port.written (if r = .tableUpper then 0x13 else 0x14)
          out.bus := s.out.bus ++ [.ack] }) ∧
    (∀ (r : AlertReg) (upper : BitVec 7) (lower : BitVec 6),
      (r = .poolUpper ∧ upper = BitVec.ofNat 7 (max 1 (min 64 v.toNat)) ∧
          lower = s.imm.poolLower) ∨
        (r = .poolLower ∧ upper = s.imm.poolUpper ∧
          lower = BitVec.ofNat 6 (min 63 v.toNat)) →
      ∃ t, exec (.alertThresholdWrite r v) s = .next t ∧
        AlertRule s.poolUse upper.toNat lower.toNat s.imm.poolAlertMode
          (s.alert.isSet .poolHigh) (t.alert.isSet .poolHigh) ∧
        (∀ f, f ≠ .poolHigh → t.alert.isSet f = s.alert.isSet f) ∧
        t = { s with
          imm.poolUpper := upper, imm.poolLower := lower, alert.flags := t.alert.flags
          port := s.port.written (if r = .poolUpper then 0x15 else 0x16)
          out.bus := s.out.bus ++ [.ack] }) ∧
    ∃ t, exec (.alertThresholdWrite .alertMode v) s = .next t ∧
      AlertRule s.occupancy s.imm.tableUpper.toNat s.imm.tableLower.toNat t.imm.tableMode
        (s.alert.isSet .tableHigh) (t.alert.isSet .tableHigh) ∧
      AlertRule s.poolUse s.imm.poolUpper.toNat s.imm.poolLower.toNat t.imm.poolAlertMode
        (s.alert.isSet .poolHigh) (t.alert.isSet .poolHigh) ∧
      (∀ f, f ≠ .tableHigh → f ≠ .poolHigh → t.alert.isSet f = s.alert.isSet f) ∧
      t = { s with
        imm.tableMode := if v.getLsbD 0 then .auto else .sticky
        imm.poolAlertMode := if v.getLsbD 1 then .auto else .sticky
        alert.flags := t.alert.flags
        port := s.port.written 0x07
        out.bus := s.out.bus ++ [.ack] }

/-- R140. -/
def Obligations.DrainThresholdWriteComparesPoolUse : Prop :=
  ∀ (s : State) (r : DrainReg) (v : Half) (high : BitVec 7) (low : BitVec 6),
    s.port.resetAsserted = false →
    (r = .drainHigh ∧ high = BitVec.ofNat 7 (max 1 (min 64 v.toNat)) ∧ low = s.imm.drainLow) ∨
      (r = .drainLow ∧ high = s.imm.drainHigh ∧ low = BitVec.ofNat 6 (min 63 v.toNat)) →
    ∃ t, exec (.drainThresholdWrite r v) s = .next t ∧
      (s.mem.drainMode = false → (t.mem.drainMode = true ↔ high.toNat ≤ s.poolUse)) ∧
      (s.mem.drainMode = true → low.toNat < high.toNat →
        (t.mem.drainMode = false ↔ s.poolUse ≤ low.toNat)) ∧
      (s.mem.drainMode = true → high.toNat ≤ low.toNat →
        (t.mem.drainMode = false ↔ s.poolUse < high.toNat)) ∧
      t = { s with
        imm.drainHigh := high, imm.drainLow := low, mem.drainMode := t.mem.drainMode
        port := s.port.written (if r = .drainHigh then 0x0E else 0x0F)
        out.bus := s.out.bus ++ [.ack] }

/-- R168. -/
def Obligations.HoldAlertWriteSetsHoldLongForOverdueHolds : Prop :=
  ∀ (s : State) (v : Half), s.port.resetAsserted = false →
    (v ≠ 0 → (∃ h ∈ s.hold, h.isHeld = true ∧ v.toNat ≤ h.time.toNat) →
      exec (.holdAlertWrite v) s = .next { s with
        imm.holdAlert := v
        alert.flags := s.alert.flags ||| 0x400
        hold := s.hold.map fun h =>
          if h.isHeld = true ∧ v.toNat ≤ h.time.toNat then { h with reachedAlert := true } else h
        port := s.port.written 0x12, out.bus := s.out.bus ++ [.ack] }) ∧
    (v = 0 ∨ (∀ h ∈ s.hold, h.isHeld = true → h.time.toNat < v.toNat) →
      exec (.holdAlertWrite v) s = .next { s with
        imm.holdAlert := v
        port := s.port.written 0x12, out.bus := s.out.bus ++ [.ack] })

/-- R164. -/
def Obligations.AttnIsAssertedWhileAnEnabledFlagIsSet : Prop :=
  ∀ s : State, s.attnAsserted = true ↔
    s.port.resetAsserted = false ∧
      ∃ f : EventFlag, s.alert.isSet f = true ∧ s.imm.enables &&& f.bit ≠ 0

/-- R72, R140, R165, R166, R169: what the part hands on at the end of an event when occupancy or pool
use has changed. That the grants an event makes due are made within the event, before pool use is
handed on, is log 11. -/
def Obligations.ChangesOfOccupancyAndPoolUseAreEvaluated : Prop :=
  ∀ s : State,
    (s.dueGrant = none →
      let t := s.handOver
      (s.occupancy = s.alert.occHanded → t.alert.isSet .tableHigh = s.alert.isSet .tableHigh ∧
        t.alert.peakOcc = s.alert.peakOcc ∧ t.alert.epochPeakOcc = s.alert.epochPeakOcc) ∧
      (s.occupancy ≠ s.alert.occHanded →
        AlertRule s.occupancy s.imm.tableUpper.toNat s.imm.tableLower.toNat s.imm.tableMode
          (s.alert.isSet .tableHigh) (t.alert.isSet .tableHigh) ∧
        t.alert.peakOcc = max s.alert.peakOcc s.occupancy ∧
        t.alert.epochPeakOcc = max s.alert.epochPeakOcc s.occupancy) ∧
      t.alert.occHanded = s.occupancy ∧
      (s.poolUse = s.alert.poolHanded →
        t.alert.isSet .poolHigh = s.alert.isSet .poolHigh ∧ t.alert.peakPool = s.alert.peakPool ∧
        t.alert.epochPeakPool = s.alert.epochPeakPool ∧ t.mem.drainMode = s.mem.drainMode) ∧
      (s.poolUse ≠ s.alert.poolHanded →
        AlertRule s.poolUse s.imm.poolUpper.toNat s.imm.poolLower.toNat s.imm.poolAlertMode
          (s.alert.isSet .poolHigh) (t.alert.isSet .poolHigh) ∧
        t.alert.peakPool = max s.alert.peakPool s.poolUse ∧
        t.alert.epochPeakPool = max s.alert.epochPeakPool s.poolUse ∧
        t.mem.drainMode =
          drainModeNext s.mem.drainMode s.poolUse s.imm.drainHigh.toNat s.imm.drainLow.toNat) ∧
      t.alert.poolHanded = s.poolUse ∧
      (∀ f, f ≠ .tableHigh → f ≠ .poolHigh → t.alert.isSet f = s.alert.isSet f) ∧
      t = { s with
        alert := { s.alert with
          flags := t.alert.flags, peakOcc := t.alert.peakOcc, peakPool := t.alert.peakPool
          epochPeakOcc := t.alert.epochPeakOcc, epochPeakPool := t.alert.epochPeakPool
          occHanded := t.alert.occHanded, poolHanded := t.alert.poolHanded }
        mem.drainMode := t.mem.drainMode }) ∧
    (s.dueGrant ≠ none → exec .bufferGrant s = .next s.handOver) ∧
    s.handOver.dueGrant = none

/-! ### Commands -/

/-- R153, R154. Where the pointer stands and what the port sends are stated with the register
writes. -/
def Obligations.RefusedCommandsChangeNothingButTheRefusal : Prop :=
  ∀ (s : State) (c : Instr) (reason : RejectReason), s.port.resetAsserted = false →
    (∃ code : Half, c = .invalidCommandCode code ∧ reason = .badCode ∧
        code ≠ 0x0011 ∧ code ≠ 0x0022 ∧ code ≠ 0x0033 ∧ code ≠ 0x0034 ∧ code ≠ 0x00A5 ∧
        code ≠ 0x005A) ∨
      ((c = .load ∨ c = .openEpoch ∨ c = .closeSwitch ∨ c = .closeEnd) ∧
        s.cmd.busy = true ∧ reason = .busy) ∨
      (s.cmd.busy = false ∧ reason = .state ∧
        ((c = .load ∧ s.epoch.dev ≠ .idle ∧ s.epoch.dev ≠ .ready) ∨
          (c = .openEpoch ∧ s.epoch.dev ≠ .ready) ∨
          ((c = .closeSwitch ∨ c = .closeEnd) ∧ s.epoch.dev ≠ .tracking))) →
    ∃ t, exec c s = .next t ∧
      t = { s with
        cmd.reject := true
        cmd.reason := reason
        alert.flags := s.alert.flags ||| 0x080
        port := { s.port with
          pointer := t.port.pointer, endMarker := t.port.endMarker, phase := t.port.phase }
        out := t.out }

/-- R157, R133, R135. That the request keeps the JCB address of the acceptance is log 14. -/
def Obligations.AcceptedLoadQueuesTheJcbRead : Prop :=
  ∀ s : State, s.port.resetAsserted = false → s.cmd.busy = false →
    s.epoch.dev = .idle ∨ s.epoch.dev = .ready →
    exec .load s = .next { s with
      cmd.busy := true
      cmd.last := .load
      cmd.loadResult := .noResult
      epoch.dev := .loading
      epoch.pendingFirst := none
      copyOut.cache := []
      copyOut.prefetchIndex := 0
      copyOut.fir := none
      copyOut.wait := false
      copyOut.timer := none
      journal.index := 0
      journal.ring := none
      journal.writer := .standby
      mem.classB := s.mem.classB ++
        [{ role := .jcbRead s.cmd.jcbAddr
           addr := s.cmd.jcbAddr.extractLsb' 6 34 ++ (0 : BitVec 6)
           op := .read
           key := 2 * s.mem.nextPlace + 1 }]
      mem.nextPlace := s.mem.nextPlace + 1
      port := s.port.written 0x00, out.bus := s.out.bus ++ [.ack] }

/-- R12, R113, R114, R116, R118, R119, R126. -/
def Obligations.AcceptedOpenBeginsAnEpoch : Prop :=
  ∀ s : State, s.port.resetAsserted = false → s.cmd.busy = false → s.epoch.dev = .ready →
    let number : Half := match s.epoch.pendingFirst with
      | some n => n
      | none => s.epoch.number + 1
    ∃ t, exec .openEpoch s = .next t ∧
      t.active = s.staged ∧
      t.epoch = { s.epoch with
        dev := .tracking, number := number, pendingFirst := none, epochTime := 0
        overflow := false, untracked := 0, imagesCurrent := 0 } ∧
      t.journal.queue = s.journal.queue ++
        [.opening number .command s.staged.windows s.staged.poolMode s.epoch.partTime] ∧
      t.retire.currentCounter = 0 ∧
      t.cmd.last = .openEpoch ∧
      t.alert.epochHold = 0 ∧ t.alert.epochPeakOcc = t.occupancy ∧
      t.alert.epochPeakPool = t.poolUse ∧
      t.alert.peakHold = peakWith s.alert.peakHold s.hold t.hold ∧ s.HandsOver t ∧
      t.hold.map (·.req) = s.hold.map (·.req) ∧
      ((∀ h ∈ s.hold, h.isHeld = false) →
        t.table = s.table ∧ t.hold = s.hold ∧ t.retire.list = s.retire.list ∧
        t.mem.classC = s.mem.classC) ∧
      t = { s with
        active := t.active, epoch := t.epoch, journal.queue := t.journal.queue
        retire.list := t.retire.list, retire.currentCounter := t.retire.currentCounter
        table := t.table, hold := t.hold, alert := t.alert
        mem.drainMode := t.mem.drainMode, mem.classC := t.mem.classC
        cmd.last := t.cmd.last
        port := s.port.written 0x00, out.bus := s.out.bus ++ [.ack] }

/-- R12, R36, R52, R54, R65, R72, R90, R94, R113 to R116, R118, R119, R125, R126, R156. The walk of
R116, `reclassify`, is stated request by request at the end. -/
def Obligations.AcceptedCloseSwitchClosesAndOpens : Prop :=
  (∀ s : State, s.port.resetAsserted = false → s.cmd.busy = false → s.epoch.dev = .tracking →
    TableLaw s →
    ∃ t, exec .closeSwitch s = .next t ∧
      let closed (longest : Word) : EpochCtl := { s.epoch with
        number := s.epoch.number + 1, pendingFirst := none, epochTime := 0
        draining := true
        summary := some
          { epoch := s.epoch.number, cause := .switch, overflow := s.epoch.overflow
            untracked := s.epoch.untracked, peakOcc := s.alert.epochPeakOcc
            peakPool := s.alert.epochPeakPool, longestHold := longest
            duration := s.epoch.epochTime }
        overflow := false, untracked := 0, imagesCurrent := 0
        imagesDraining := s.epoch.imagesCurrent }
      let buffered (slot : Nat) : Bool := s.hold.any fun h => h.hold == .buffer slot
      let table := s.table.map fun e =>
        if e.epoch = s.epoch.number then { e with cause := some .close } else e
      let list := s.retire.list ++ (s.table.filter fun e =>
        e.epoch == s.epoch.number && e.cause.isNone).map (·.slot)
      let opened : State := { s with
        active := s.staged
        epoch := closed s.alert.epochHold
        journal.queue := t.journal.queue
        retire := { t.retire with list := list.filter fun n => !buffered n }
        table := table.filter fun e => !buffered e.slot }
      t.active = s.staged ∧
      t.epoch = closed (peakWith s.alert.epochHold s.hold t.hold) ∧
      t.journal.queue = s.journal.queue ++
        [.opening (s.epoch.number + 1) .switch s.staged.windows s.staged.poolMode
          s.epoch.partTime] ∧
      t.retire.drainingCounter = s.retire.currentCounter ∧ t.retire.currentCounter = 0 ∧
      t.retire.closeBuilt = false ∧
      t.cmd.busy = true ∧ t.cmd.last = .closeSwitch ∧
      t.alert.epochHold = 0 ∧ t.alert.epochPeakOcc = t.occupancy ∧
      t.alert.epochPeakPool = t.poolUse ∧
      t.alert.peakHold = peakWith s.alert.peakHold s.hold t.hold ∧ s.HandsOver t ∧
      t.hold.map (·.req) = s.hold.map (·.req) ∧
      (∀ e ∈ t.table, e.epoch = s.epoch.number → e.cause = some .close) ∧
      (∀ e ∈ t.table, (∃ h ∈ s.hold, h.hold = .buffer e.slot) → e.epoch = s.epoch.number + 1) ∧
      ((∀ h ∈ s.hold, h.isWaiter = false) →
        t.table = table ∧ t.retire.list = list ∧ t.mem.classC = s.mem.classC ∧
        OrdersFollow (s.hold.map fun h =>
          match h.hold with
          | .order _ mark _ => { h with hold := .order none mark false }
          | _ => h) t.hold) ∧
      (∃ q, OrdersFollow (reclassify s.hold [] opened).2 q ∧
        let u := State.handOver { (reclassify s.hold [] opened).1 with hold := q }
        t.table = u.table ∧ t.hold = u.hold ∧ t.mem.classC = u.mem.classC ∧
        t.retire.list = u.retire.list) ∧
      t = { s with
        active := t.active, epoch := t.epoch, journal.queue := t.journal.queue
        retire := t.retire, table := t.table, hold := t.hold, alert := t.alert
        mem.drainMode := t.mem.drainMode, mem.classC := t.mem.classC
        cmd.busy := true, cmd.last := .closeSwitch
        port := s.port.written 0x00, out.bus := s.out.bus ++ [.ack] }) ∧
  (∀ (done : List HeldReq) (s : State), reclassify [] done s = (s, done)) ∧
  ∀ (h : HeldReq) (rest done : List HeldReq) (s : State),
    (h.hold = .released ∨ (∃ slot, h.hold = .capture slot) →
      reclassify (h :: rest) done s = reclassify rest (done ++ [h]) s) ∧
    (∀ deferred mark here, h.hold = .order deferred mark here →
      reclassify (h :: rest) done s =
        reclassify rest (done ++ [{ h with hold := .order none mark false }]) s) ∧
    (h.isWaiter = true → ∃ t x,
      s.Retakes h.req (done.any fun g => g.isEntry)
        (done.any fun g => g.isEntry && g.block == h.block) false t x ∧
      reclassify (h :: rest) done s = reclassify rest (done ++ [{ h with hold := x }]) t)

/-- R12, R36, R52, R54, R65, R90, R94, R113 to R115, R117, R125, R126, R156. That the count of the
current epoch's images and its sequence counter are 0 after it is log 16. -/
def Obligations.AcceptedCloseEndReleasesTheWaiters : Prop :=
  ∀ s : State, s.port.resetAsserted = false → s.cmd.busy = false → s.epoch.dev = .tracking →
    ∃ t, exec .closeEnd s = .next t ∧
      t.active = s.staged ∧
      t.epoch = { s.epoch with
        dev := .finishing
        pendingFirst := none
        draining := true
        summary := some
          { epoch := s.epoch.number, cause := .endEpoch, overflow := s.epoch.overflow
            untracked := s.epoch.untracked, peakOcc := s.alert.epochPeakOcc
            peakPool := s.alert.epochPeakPool
            longestHold := peakWith s.alert.epochHold s.hold t.hold
            duration := s.epoch.epochTime }
        imagesCurrent := 0, imagesDraining := s.epoch.imagesCurrent } ∧
      t.retire.drainingCounter = s.retire.currentCounter ∧ t.retire.currentCounter = 0 ∧
      t.retire.closeBuilt = false ∧ t.cmd.busy = true ∧ t.cmd.last = .closeEnd ∧
      t.hold.map (·.req) = s.hold.map (·.req) ∧
      (∀ h ∈ t.hold, h.isWaiter = false) ∧
      OrdersFollow (s.hold.map fun h =>
        match h.hold with
        | .entry _ | .buffer _ => { h with hold := .released }
        | .order _ mark _ => { h with hold := .order none mark false }
        | .capture _ | .released => h) t.hold ∧
      t.alert.peakHold = peakWith s.alert.peakHold s.hold t.hold ∧
      t.alert.epochHold = peakWith s.alert.epochHold s.hold t.hold ∧
      t.alert.epochPeakOcc = (if t.occupancy = s.alert.occHanded then s.alert.epochPeakOcc
        else max s.alert.epochPeakOcc t.occupancy) ∧
      t.alert.epochPeakPool = (if t.poolUse = s.alert.poolHanded then s.alert.epochPeakPool
        else max s.alert.epochPeakPool t.poolUse) ∧
      s.HandsOver t ∧
      t.table = (s.table.map (fun e =>
        if e.epoch = s.epoch.number then { e with cause := some .close } else e)).filter
          (fun e => !(s.hold.any fun h => h.hold == .buffer e.slot)) ∧
      t.retire.list = (s.retire.list ++ (s.table.filter fun e =>
        e.epoch == s.epoch.number && e.cause.isNone).map (·.slot)).filter
          (fun n => !(s.hold.any fun h => h.hold == .buffer n)) ∧
      t = { s with
        active := t.active, epoch := t.epoch
        retire := t.retire, table := t.table, hold := t.hold, alert := t.alert
        mem.drainMode := t.mem.drainMode, cmd.busy := true, cmd.last := .closeEnd
        port := s.port.written 0x00, out.bus := s.out.bus ++ [.ack] }

/-- R160, R79, R102. That the descriptor is queued before the slot is log 18; that an abandoned own
request in flight keeps no re-read back is the model's choice (log 27). -/
def Obligations.KickRereadsWhatEachEngineWaitsFor : Prop :=
  ∀ s : State, s.port.resetAsserted = false →
    let descRead (place : Nat) (r : Ring) : OwnReq :=
      { role := .descRead, addr := lineOf (r.base + BitVec.ofNat 40 (16 * s.copyOut.prefetchIndex))
        op := .read, key := 2 * place + 1 }
    let slotRead (place : Nat) (r : Ring) : OwnReq :=
      { role := .slotRead, addr := lineOf (r.base + BitVec.ofNat 40 (32 * s.journal.index))
        op := .read, key := 2 * place + 1 }
    let fir := s.copyOut.wait = true ∧ s.ownPending .descRead = false
    let jring := s.journal.wait = true ∧ s.ownPending .slotRead = false
    (¬fir → ¬jring → exec .kick s = .next { s with
      cmd.last := .kick
      port := s.port.written 0x00, out.bus := s.out.bus ++ [.ack] }) ∧
    (∀ r, fir → ¬jring → s.copyOut.fir = some r → exec .kick s = .next { s with
      cmd.last := .kick
      mem.classB := s.mem.classB ++ [descRead s.mem.nextPlace r]
      mem.nextPlace := s.mem.nextPlace + 1
      copyOut.timer := none
      port := s.port.written 0x00, out.bus := s.out.bus ++ [.ack] }) ∧
    (∀ r, ¬fir → jring → s.journal.ring = some r → exec .kick s = .next { s with
      cmd.last := .kick
      mem.classB := s.mem.classB ++ [slotRead s.mem.nextPlace r]
      mem.nextPlace := s.mem.nextPlace + 1
      journal.timer := none
      port := s.port.written 0x00, out.bus := s.out.bus ++ [.ack] }) ∧
    (∀ r q, fir → jring → s.copyOut.fir = some r → s.journal.ring = some q →
      exec .kick s = .next { s with
        cmd.last := .kick
        mem.classB := s.mem.classB ++
          [descRead s.mem.nextPlace r, slotRead (s.mem.nextPlace + 1) q]
        mem.nextPlace := s.mem.nextPlace + 2
        copyOut.timer := none
        journal.timer := none
        port := s.port.written 0x00, out.bus := s.out.bus ++ [.ack] })

/-- R15, R45, R67, R74, R89, R109, R125, R128, R145, R161. Every peak stays as it was (R126, R169,
R172), although hold times end here: so the model reads the rules (log 24). -/
def Obligations.StopEndsEveryBlocksWork : Prop :=
  ∀ s : State, s.port.resetAsserted = false → SettingsLaw s →
    ∃ t, exec .stop s = .next t ∧
      (∀ n : BitVec 2, t.active.windows.get n = { s.active.windows.get n with mode := .off }) ∧
      t.hold = s.hold.map (fun h => { h with hold := .released }) ∧
      t.alert.flags = 0 ∧
      t = { s with
        active.windows := t.active.windows
        table := []
        hold := t.hold
        copyOut :=
          { imaged := [], places := [], cache := [], prefetchIndex := 0, fir := none
            wait := false, timer := none }
        retire := { list := [], currentCounter := 0, drainingCounter := 0, closeBuilt := false }
        journal :=
          { queue := [], writer := .standby, index := 0, ring := none, wait := false
            timer := none }
        epoch.dev := .idle
        epoch.pendingFirst := none
        epoch.draining := false
        epoch.summary := none
        epoch.imagesCurrent := 0
        epoch.imagesDraining := 0
        mem.classC := []
        mem.classB := []
        mem.issuedOwn := s.mem.issuedOwn.map fun i => { i with abandoned := true }
        mem.runCount := 0
        mem.drainMode := false
        cmd.busy := false
        cmd.reject := false
        cmd.last := .stop
        alert.flags := 0
        alert.occHanded := 0
        alert.poolHanded := 0
        port := s.port.written 0x00, out.bus := s.out.bus ++ [.ack] }

/-! ### Classification and the fabric -/

/-- R2. -/
def Obligations.WindowClaimsByModeRangeAndMask : Prop :=
  (∀ (w : Window) (a : Addr) (i : Initiator),
    (w.claims a i = true ↔
      w.mode ≠ .off ∧ w.base.toNat ≤ a.toNat / 65536 ∧ a.toNat / 65536 < w.limit.toNat ∧
        w.mask.getLsbD i.toNat = true) ∧
    (∀ b : Addr, b.toNat / 65536 = a.toNat / 65536 → w.claims b i = w.claims a i) ∧
    (w.limit.toNat ≤ w.base.toNat → w.claims a i = false) ∧
    (w.mask = 0 → w.claims a i = false) ∧
    (0xFFFFFF0000 ≤ a.toNat → w.claims a i = false)) ∧
  (∀ (s : State) (a : Addr) (i : Initiator), 0xFFFFFF0000 ≤ a.toNat →
    s.classify a i = .untracked) ∧
  (∀ (s t t' : State) (i : Initiator) (a : Addr) (m m' : ByteMask) (d d' : Line) (g : Nat),
    exec (.writeArrival i a m d g) s = .next t → exec (.writeArrival i a m' d' g) s = .next t' →
    t.table = t'.table ∧ t.epoch = t'.epoch ∧ t.hold.map (·.hold) = t'.hold.map (·.hold) ∧
    t.mem.passQ.length = t'.mem.passQ.length)

/-- R3, R4, R5. -/
def Obligations.TheFirstClaimingWindowDecides : Prop :=
  (∀ (s : State) (a : Addr) (i : Initiator), s.epoch.dev ≠ .tracking →
    s.classify a i = .untracked) ∧
  (∀ (s : State) (a : Addr) (i : Initiator), s.epoch.dev = .tracking →
    (∀ n, (s.active.windows.get n).claims a i = false) → s.classify a i = .untracked) ∧
  (∀ (s : State) (a : Addr) (i : Initiator) (n : BitVec 2), s.epoch.dev = .tracking →
    (s.active.windows.get n).claims a i = true →
    (∀ m : BitVec 2, m.toNat < n.toNat → (s.active.windows.get m).claims a i = false) →
    s.classify a i =
      match (s.active.windows.get n).mode with
      | .trace => .tracked ⟨n, .trace, i, s.epoch.epochTime⟩
      | .undo => .tracked ⟨n, .undo, i, s.epoch.epochTime⟩
      | .exclude => .excluded
      | .off => .untracked)

/-- R4, R6, R7, R47, R50, R58. -/
def Obligations.RequestsThatAreNotTrackedKeepTheirBlocksOrder : Prop :=
  (∀ s : State, s.ready = true ↔ s.hold.length < 16 ∧ s.mem.passQ.length < 8) ∧
  (∀ (s : State) (b : Block), s.behindOldCapture b = true ↔
    ∃ h ∈ s.hold, h.block = b ∧ ∃ slot e sum, h.hold = .capture slot ∧
      s.entryAt slot = some e ∧ s.epoch.draining = true ∧ s.epoch.summary = some sum ∧
      sum.epoch = e.epoch) ∧
  (∀ (s : State) (i : Initiator) (a : Addr) (m : ByteMask) (d : Line) (g : Nat),
    s.ready = false →
    exec (.writeArrival i a m d g) s = .next s ∧ exec (.readArrival i a g) s = .next s) ∧
  (∀ (s : State) (i : Initiator) (a : Addr) (g : Nat), s.ready = true →
    exec (.readArrival i a g) s = .next (State.plainRoute
      { s with mem.nextPlace := s.mem.nextPlace + 1 }
      { initiator := i, addr := a, op := .read, tag := g, place := s.mem.nextPlace } false)) ∧
  (∀ (s : State) (i : Initiator) (a : Addr) (m : ByteMask) (d : Line) (g : Nat),
    s.ready = true → s.classify a i = .untracked ∨ s.classify a i = .excluded →
    s.epoch.dev ≠ .tracking ∨ s.behindOldCapture (blockOf a) = false →
    exec (.writeArrival i a m d g) s = .next (State.plainRoute
      { s with mem.nextPlace := s.mem.nextPlace + 1 }
      (s.writeRequest i a m d g) false).handOver) ∧
  (∀ (s : State) (i : Initiator) (a : Addr) (m : ByteMask) (d : Line) (g : Nat),
    s.ready = true → s.epoch.dev = .tracking → s.behindOldCapture (blockOf a) = true →
    exec (.writeArrival i a m d g) s = .next (State.handOver { s with
      mem.nextPlace := s.mem.nextPlace + 1
      hold := s.hold ++ [s.newHeld (s.writeRequest i a m d g) (.order none true false)] }))

/-- R21, R30, R50. -/
def Obligations.TrackedMissLearnsAnEntry : Prop :=
  ∀ (s : State) (i : Initiator) (a : Addr) (m : ByteMask) (d : Line) (g slot : Nat)
    (c : Classification), s.ready = true → s.behindOldCapture (blockOf a) = false →
    s.classify a i = .tracked c → s.lookup (blockOf a) = none → s.epoch.overflow = false →
    (∀ h ∈ s.hold, h.isEntry = false) → s.freeSlot = some slot →
    let e : Entry :=
      { slot := slot, block := blockOf a, epoch := s.epoch.number, window := c.window
        mode := c.mode
        state := if c.mode = .trace then .logged else .pending
        count := 1, saturated := false, firstWriter := i, lastWriter := i
        writers := (1 : InitSet) <<< i.toNat, handoffs := 0
        firstStamp := s.epoch.epochTime, lastStamp := s.epoch.epochTime
        poolBuf := none, imageBuf := none, cause := none, linesIn := 0 }
    let s' : State :=
      { s with mem.nextPlace := s.mem.nextPlace + 1, table := s.table ++ [e] }
    (c.mode = .trace →
      exec (.writeArrival i a m d g) s =
        .next (s'.plainRoute (s.writeRequest i a m d g) false).handOver) ∧
    (c.mode = .undo →
      exec (.writeArrival i a m d g) s = .next (State.handOver { s' with
        hold := s.hold ++ [s.newHeld (s.writeRequest i a m d g) (.buffer slot)] }))

/-- R6, R19, R28, R29, R30, R31, R33, R35. -/
def Obligations.TrackedHitUpdatesTheEntry : Prop :=
  ∀ (s : State) (i : Initiator) (a : Addr) (m : ByteMask) (d : Line) (g : Nat)
    (c : Classification) (e : Entry), s.ready = true → s.behindOldCapture (blockOf a) = false →
    s.classify a i = .tracked c → s.lookup (blockOf a) = some e →
    (e.block = blockOf a ∧ e.epoch = s.epoch.number) ∧
    exec (.writeArrival i a m d g) s = .next (State.plainRoute
      { s with
        mem.nextPlace := s.mem.nextPlace + 1
        table := s.table.map fun x =>
          if x.slot = e.slot then
            { x with
              count := if x.count = 255 then 255 else x.count + 1
              saturated := x.saturated || x.count == 255
              handoffs :=
                if i = x.lastWriter ∨ x.handoffs = 15 then x.handoffs else x.handoffs + 1
              lastWriter := i
              writers := x.writers ||| (1 : InitSet) <<< i.toNat
              lastStamp := s.epoch.epochTime
              cause := if x.cause = some .age then none else x.cause }
          else x
        retire.list :=
          if e.cause = some .age then s.retire.list.filter (· != e.slot) else s.retire.list }
      (s.writeRequest i a m d g) (decide (e.state = .pending))).handOver

/-- R22, R23, R24. -/
def Obligations.TrackedMissWaitsBehindAFullTable : Prop :=
  ∀ (s : State) (i : Initiator) (a : Addr) (m : ByteMask) (d : Line) (g : Nat)
    (c : Classification), s.ready = true → s.behindOldCapture (blockOf a) = false →
    s.classify a i = .tracked c → s.lookup (blockOf a) = none → s.epoch.overflow = false →
    let candidate (e : Entry) : Prop :=
      e.epoch = s.epoch.number ∧ e.mode = .trace ∧ e.state = .logged ∧ e.cause = none
    let s' : State := { s with mem.nextPlace := s.mem.nextPlace + 1 }
    let r := s.writeRequest i a m d g
    ((∃ h ∈ s.hold, h.isEntry = true ∧ h.block = blockOf a) →
      exec (.writeArrival i a m d g) s = .next (State.handOver { s' with
        hold := s.hold ++
          [s.newHeld r (.order (some ⟨i, s.epoch.epochTime⟩) false true)] })) ∧
    ((∀ h ∈ s.hold, h.isEntry = true → h.block ≠ blockOf a) →
      s.freeSlot = none ∨ (∃ h ∈ s.hold, h.isEntry = true) →
      ((∀ e ∈ s.table, ¬candidate e) →
        exec (.writeArrival i a m d g) s = .next (State.handOver { s' with
          hold := s.hold ++ [s.newHeld r (.entry c)] })) ∧
      ∀ (older newer : List Entry) (v : Entry), s.table = older ++ v :: newer → candidate v →
        (∀ e ∈ older, candidate e → v.lastStamp.toNat < e.lastStamp.toNat) →
        (∀ e ∈ newer, candidate e → v.lastStamp.toNat ≤ e.lastStamp.toNat) →
        exec (.writeArrival i a m d g) s = .next (State.handOver { s' with
          table := s.table.map fun e =>
            if e.slot = v.slot then { e with cause := some .pressure } else e
          retire.list := s.retire.list ++ [v.slot]
          hold := s.hold ++ [s.newHeld r (.entry c)] }))

/-- R27, R63. -/
def Obligations.MissInAnOverflowedEpochPassesCounted : Prop :=
  ∀ (s : State) (i : Initiator) (a : Addr) (m : ByteMask) (d : Line) (g : Nat)
    (c : Classification), s.ready = true → s.behindOldCapture (blockOf a) = false →
    s.classify a i = .tracked c → s.lookup (blockOf a) = none → s.epoch.overflow = true →
    exec (.writeArrival i a m d g) s = .next (State.plainRoute
      { s with
        mem.nextPlace := s.mem.nextPlace + 1
        epoch.untracked :=
          if s.epoch.untracked = 0xFFFFFFFF then s.epoch.untracked else s.epoch.untracked + 1 }
      (s.writeRequest i a m d g) false).handOver

/-- R46, R53, R131, R132. An answer goes to the fabric with its request's tag and changes nothing
else. That the leaving is one row of its own, which moves all there is room for, is log 25; that the
row has no effect at 8 is log 1; that UNMATCHED_ANSWER changes nothing though its tag names a request
is log 13. -/
def Obligations.ReleasedRequestsLeaveInOrderAndAnswersReturn : Prop :=
  (∀ (s : State) (ahead behind : List HeldReq), s.hold = ahead ++ behind →
    let leaving := ahead.filter fun h => !h.isHeld
    s.mem.passQ.length + leaving.length ≤ 8 →
    (∀ h ∈ behind, h.isHeld = true) ∨ s.mem.passQ.length + leaving.length = 8 →
    exec .releasedLeave s = .next { s with
      hold := (ahead.filter fun h => h.isHeld) ++ behind
      mem.passQ := s.mem.passQ ++ leaving.map (·.req) }) ∧
  (∀ s : State, 8 ≤ s.mem.passQ.length → exec .releasedLeave s = .next s) ∧
  (∀ (s : State) (tag : Nat) (answer : Answer) (p : IssuedPass),
    s.mem.issuedPass.find? (·.tag == tag) = some p →
    (p.req.op = .read ∧ (∃ d, answer = .data d)) ∨ (p.req.op ≠ .read ∧ answer = .done) ∨
      answer = .error →
    exec (.passThroughAnswer tag answer) s = .next { s with
      mem.issuedPass := s.mem.issuedPass.eraseP (·.tag == tag)
      out.fabric := s.out.fabric ++
        [{ initiator := p.req.initiator, tag := p.req.tag, answer := answer }] }) ∧
  (∀ (s : State) (tag : Nat) (answer : Answer),
    exec (.unmatchedAnswer tag answer) s = .next s)

/-! ### The Block Table and the pool -/

/-- R28. -/
def Obligations.TheWriteCountCountsWritesTo255 : Prop :=
  (∀ (e : Entry) (i : Initiator) (time : Word),
    (e.count.toNat < 255 → (e.update i time).count.toNat = e.count.toNat + 1 ∧
      (e.update i time).saturated = e.saturated) ∧
    (e.count.toNat = 255 → (e.update i time).count.toNat = 255 ∧
      (e.update i time).saturated = true) ∧
    (e.saturated = true → (e.update i time).saturated = true)) ∧
  (∀ (slot : Nat) (b : Block) (epoch : Half) (c : Classification),
    (newEntry slot b epoch c).count = 1 ∧ (newEntry slot b epoch c).saturated = false) ∧
  (∀ (slot : Nat) (b : Block) (epoch : Half) (c : Classification)
      (writes : List (Initiator × Word)),
    let e := writes.foldl (fun e w => e.update w.1 w.2) (newEntry slot b epoch c)
    e.count.toNat = min 255 (writes.length + 1) ∧
    (e.saturated = true ↔ 256 ≤ writes.length + 1)) ∧
  (∀ (s t t' : State) (i : Initiator) (a : Addr) (m m' : ByteMask) (d d' : Line) (g : Nat),
    exec (.writeArrival i a m d g) s = .next t → exec (.writeArrival i a m' d' g) s = .next t' →
    t.table = t'.table)

/-- R21, R72: the lowest-numbered free slot and the lowest-numbered free buffer. -/
def Obligations.FreeSlotsAndBuffersAreTakenLowestFirst : Prop :=
  (∀ (s : State) (n : Nat), s.freeSlot = some n ↔
    n < 2048 ∧ (∀ e ∈ s.table, e.slot ≠ n) ∧ ∀ k < n, ∃ e ∈ s.table, e.slot = k) ∧
  (∀ (s : State) (n : Nat), s.freeBuffer = some n ↔
    n < 64 ∧ (∀ e ∈ s.table, e.poolBuf ≠ some n) ∧ ∀ k < n, ∃ e ∈ s.table, e.poolBuf = some k)

/-- R56, with the model's canonical form of the pool's contents (log 8): a line reads as it was last
placed, every other line as before. -/
def Obligations.PoolLinesReadAsTheyWerePlaced : Prop :=
  ∀ (pool : List (Nat × Line)) (n : Nat) (v : Line), poolWf pool = true →
    poolWf (poolWrite n v pool) = true ∧ poolRead (poolWrite n v pool) n = v ∧
    ∀ k, k ≠ n → poolRead (poolWrite n v pool) k = poolRead pool k

/-! ### The engines -/

/-- R18, R55, R56, R71, R72. -/
def Obligations.AGrantGoesToTheOldestEligibleWaiter : Prop :=
  ∀ (s : State) (older younger : List HeldReq) (h : HeldReq) (e : Entry) (n : Nat),
    let eligible (x : Entry) : Prop := x.state = .pending ∧
      (s.active.poolMode = .shared ∨
        (s.table.filter fun y => y.poolBuf.isSome && y.window == x.window).length <
          (s.active.windows.get x.window).quota.toNat)
    s.epoch.dev = .tracking → s.hold = older ++ h :: younger → h.hold = .buffer e.slot →
    s.entryAt e.slot = some e → eligible e →
    (∀ g ∈ older, ∀ slot x, g.hold = .buffer slot → s.entryAt slot = some x → ¬eligible x) →
    s.freeBuffer = some n →
    let read (line : Nat) : OwnReq :=
      { role := .captureRead e.slot n line
        addr := e.block ++ (BitVec.ofNat 2 line ++ (0 : BitVec 6))
        op := .read
        key := 2 * h.req.place }
    exec .bufferGrant s = .next (State.handOver { s with
      table := s.table.map fun x =>
        if x.slot = e.slot then { x with state := .capturing, poolBuf := some n, linesIn := 0 }
        else x
      hold := s.hold.map fun g =>
        let g' := if g.hold = .buffer e.slot then { g with hold := .capture e.slot } else g
        if g.block = h.block then
          match g'.hold with
          | .order d mark _ => { g' with hold := .order d mark false }
          | _ => g'
        else g'
      mem.classC := s.mem.classC ++ [read 0, read 1, read 2, read 3] })

/-- R75, R77, R83, R133, R135. That an abandoned DESC_READ in flight keeps no PREFETCH back is the
model's choice (log 27). -/
def Obligations.CopyOutReadsDescriptorsAndWritesImages : Prop :=
  (∀ (s : State) (ring : Ring), s.epoch.dev = .tracking ∨ s.epoch.dev = .finishing →
    s.copyOut.cache.length < 4 → s.ownPending .descRead = false → s.copyOut.wait = false →
    (∀ b ∈ s.copyOut.cache, b.firIndex ≠ s.copyOut.prefetchIndex) →
    (∀ p ∈ s.copyOut.places, p.image.firIndex ≠ s.copyOut.prefetchIndex) →
    s.copyOut.fir = some ring →
    exec .prefetch s = .next { s with
      mem.classB := s.mem.classB ++
        [{ role := .descRead
           addr := lineOf (ring.base + BitVec.ofNat 40 (16 * s.copyOut.prefetchIndex))
           op := .read
           key := 2 * s.mem.nextPlace + 1 }]
      mem.nextPlace := s.mem.nextPlace + 1 }) ∧
  (∀ (s : State) (e : Entry) (buffer : Nat) (image : ImageBuf) (entries : List Nat)
      (images : List ImageBuf), s.epoch.dev = .tracking ∨ s.epoch.dev = .finishing →
    s.copyOut.places.length < 4 → s.copyOut.imaged = e.slot :: entries →
    s.copyOut.cache = image :: images → s.entryAt e.slot = some e → e.state = .imaged →
    e.poolBuf = some buffer →
    let write (line : Nat) : OwnReq :=
      { role := .imageWrite e.slot
        addr := image.addr + BitVec.ofNat 40 (64 * line)
        op := .write (BitVec.allOnes 64) (poolRead s.pool (4 * buffer + line))
        key := 2 * (s.mem.nextPlace + line) + 1 }
    exec .copyOutStart s = .next { s with
      table := s.table.map fun x => if x.slot = e.slot then { x with state := .copying } else x
      copyOut.imaged := entries
      copyOut.cache := images
      copyOut.places := s.copyOut.places ++
        [{ slot := e.slot, buffer := buffer, image := image, linesDone := 0 }]
      mem.classB := s.mem.classB ++ [write 0, write 1, write 2, write 3]
      mem.nextPlace := s.mem.nextPlace + 4 })

/-- R24, R25, R52, R54, R91, R92, R94. -/
def Obligations.RetirementMovesTheFirstReadyEntryToTheRecordQueue : Prop :=
  ∀ (s : State) (before after : List Nat) (e : Entry),
    s.epoch.dev = .tracking ∨ s.epoch.dev = .finishing → s.journal.queue.length < 31 →
    s.retire.list = before ++ e.slot :: after →
    (∀ n ∈ before, ∀ x, s.entryAt n = some x → x.state ≠ .logged) →
    s.entryAt e.slot = some e → e.state = .logged →
    let drains := s.epoch.draining = true ∧ ∃ m, s.epoch.summary = some m ∧ m.epoch = e.epoch
    ∃ t : State, exec .retirement s = .next t.handOver ∧
      (drains → t.journal.queue =
          s.journal.queue ++ [.block s.retire.drainingCounter e] ∧
        t.retire.drainingCounter = s.retire.drainingCounter + 1 ∧
        t.retire.currentCounter = s.retire.currentCounter) ∧
      (¬drains → t.journal.queue =
          s.journal.queue ++ [.block s.retire.currentCounter e] ∧
        t.retire.currentCounter = s.retire.currentCounter + 1 ∧
        t.retire.drainingCounter = s.retire.drainingCounter) ∧
      t.retire.list = s.retire.list.filter (· != e.slot) ∧
      ((∀ h ∈ s.hold, h.isEntry = false) →
        t.table = s.table.filter (·.slot != e.slot) ∧ t.hold = s.hold ∧ t.alert = s.alert) ∧
      (∀ (older younger : List HeldReq) (h : HeldReq) (c : Classification),
        s.hold = older ++ h :: younger → (∀ g ∈ older, g.isEntry = false) →
        h.hold = .entry c →
        let deferred := s.hold.filterMap fun g =>
          match g.hold with
          | .order (some d) _ _ => if g.block = h.block then some d else none
          | _ => none
        t.table = s.table.filter (·.slot != e.slot) ++
          [deferred.foldl (fun x d => x.update d.initiator d.time)
            (newEntry e.slot h.block s.epoch.number c)] ∧
        t.hold.map (·.req) = s.hold.map (·.req) ∧
        t.hold[older.length]? = some { h with
          hold := match c.mode with
            | .trace => .released
            | .undo => .buffer e.slot } ∧
        OrdersFollow (s.hold.map fun g =>
          if g.block = h.block then
            match g.hold, c.mode with
            | .entry _, .trace => { g with hold := .released }
            | .entry _, .undo => { g with hold := .buffer e.slot }
            | .order (some _) mark _, .trace => { g with hold := .order none mark false }
            | .order (some _) mark here, .undo => { g with hold := .order none mark here }
            | _, _ => g
          else g) t.hold) ∧
      t.alert = { s.alert with
        peakHold := peakWith s.alert.peakHold s.hold t.hold
        epochHold := peakWith s.alert.epochHold s.hold t.hold } ∧
      t = { s with
        table := t.table, hold := t.hold, alert := t.alert
        retire := { t.retire with closeBuilt := s.retire.closeBuilt }
        journal.queue := t.journal.queue }

/-- R97, R99, R124, R133, R135. -/
def Obligations.TheCloseRecordIsBuiltAndTheHeadRecordsSlotIsRead : Prop :=
  (∀ (s : State) (sum : Summary), s.epoch.dev = .tracking ∨ s.epoch.dev = .finishing →
    s.epoch.draining = true → s.epoch.summary = some sum → s.retire.closeBuilt = false →
    (∀ e ∈ s.table, e.epoch ≠ sum.epoch) → s.journal.queue.length < 31 →
    exec .closeRecordBuild s = .next { s with
      journal.queue := s.journal.queue ++
        [.closing sum s.retire.drainingCounter s.epoch.imagesDraining]
      retire.closeBuilt := true }) ∧
  (∀ (s : State) (ring : Ring), s.epoch.dev = .tracking ∨ s.epoch.dev = .finishing →
    s.journal.writer = .standby → s.journal.queue ≠ [] → s.journal.ring = some ring →
    exec .journalSlotReadStart s = .next { s with
      mem.classB := s.mem.classB ++
        [{ role := .slotRead
           addr := lineOf (ring.base + BitVec.ofNat 40 (32 * s.journal.index))
           op := .read
           key := 2 * s.mem.nextPlace + 1 }]
      mem.nextPlace := s.mem.nextPlace + 1
      journal.writer := .reading })

/-! ### The memory port -/

/-- R135 to R138. That a PASS_WEIGHT of 0 never gives class B the lead, also where R139 speaks of a
written value below the run count, is the model's choice (log 28). -/
def Obligations.IssueTakesClassCThenWeighsPAndB : Prop :=
  ∀ s : State,
    let eligible (addr : Addr) (key : Nat) : Prop :=
      ∀ u ∈ s.unissued, u.1 = blockOf addr → key ≤ u.2
    let room := s.mem.issuedOwn.length < 16
    let noC := (∀ r ∈ s.mem.classC, ¬eligible r.addr r.key) ∨ ¬room
    let noP := ∀ p ps, s.mem.passQ = p :: ps → ¬eligible p.addr p.key
    let noB := (∀ r ∈ s.mem.classB, ¬eligible r.addr r.key) ∨ ¬room
    let lead := s.mem.drainMode = true ∨
      (s.imm.passWeight ≠ 0 ∧ s.imm.passWeight.toNat ≤ s.mem.runCount)
    let own (r : OwnReq) : IssuedOwn :=
      { tag := s.mem.nextTag, req := r, age := 0, abandoned := false }
    (∀ (older younger : List OwnReq) (r : OwnReq), s.mem.classC = older ++ r :: younger →
      (∀ x ∈ older, ¬eligible x.addr x.key) → eligible r.addr r.key → room →
      exec .issue s = .next { s with
        mem.classC := older ++ younger
        mem.issuedOwn := s.mem.issuedOwn ++ [own r]
        mem.nextTag := s.mem.nextTag + 1 }) ∧
    (∀ (older younger : List OwnReq) (r : OwnReq), noC → s.mem.classB = older ++ r :: younger →
      (∀ x ∈ older, ¬eligible x.addr x.key) → eligible r.addr r.key → room → noP ∨ lead →
      exec .issue s = .next { s with
        mem.classB := older ++ younger
        mem.issuedOwn := s.mem.issuedOwn ++ [own r]
        mem.nextTag := s.mem.nextTag + 1
        mem.runCount := 0 }) ∧
    (∀ (p : Request) (ps : List Request), noC → s.mem.passQ = p :: ps → eligible p.addr p.key →
      noB ∨ ¬lead →
      ∃ t, exec .issue s = .next t ∧
        (noB → t.mem.runCount = 0) ∧ (¬noB → t.mem.runCount = min 15 (s.mem.runCount + 1)) ∧
        t = { s with
          mem.passQ := ps
          mem.issuedPass := s.mem.issuedPass ++ [{ tag := s.mem.nextTag, req := p }]
          mem.nextTag := s.mem.nextTag + 1
          mem.runCount := t.mem.runCount }) ∧
    (noC → noP → noB → exec .issue s = .next s)

/-- R8, R52, R54, R56, R57, R82. The walk of R57, `releaseWalk`, is stated request by request at the
end. -/
def Obligations.CaptureDataFillsTheBufferAndTheLastLineReleasesTheBlock : Prop :=
  (∀ (s : State) (tag slot buffer line key : Nat) (addr : Addr) (op : Op) (data : Line) (e : Entry),
    s.awaits tag { role := .captureRead slot buffer line, addr, op, key } →
    s.entryAt slot = some e → e.state = .capturing →
    let s' : State := { s with
      mem.issuedOwn := s.ownLeft tag
      pool := poolWrite (4 * buffer + line) data s.pool }
    (e.linesIn + 1 < 4 →
      exec (.captureReadData tag data) s = .next (State.handOver { s' with
        table := s.table.map fun x =>
          if x.slot = slot then { x with linesIn := x.linesIn + 1 } else x })) ∧
    (e.linesIn = 3 →
      (∀ h ∈ s.hold, h.block = e.block → h.hold = .released ∨ h.hold = .capture slot ∨
        ∃ d here, h.hold = .order d false here) →
      ∃ t, exec (.captureReadData tag data) s = .next (State.handOver t) ∧
        t = { s' with
          table := s.table.map fun x =>
            if x.slot = slot then { x with state := .imaged, linesIn := 4 } else x
          copyOut.imaged := s.copyOut.imaged ++ [slot]
          hold := s.hold.map fun h =>
            if h.block = e.block then { h with hold := .released } else h
          alert := t.alert } ∧
        t.alert = { s.alert with
          peakHold := (endedHolds s.hold t.hold).foldl
            (fun m x => if m.toNat < x.toNat then x else m) s.alert.peakHold
          epochHold := (endedHolds s.hold t.hold).foldl
            (fun m x => if m.toNat < x.toNat then x else m) s.alert.epochHold }) ∧
    (e.linesIn = 3 → TableLaw s →
      ∃ t, exec (.captureReadData tag data) s = .next (State.handOver t) ∧
        (∃ x ∈ t.table, x.slot = slot ∧ x.block = e.block ∧ x.epoch = e.epoch ∧
          x.state = .imaged ∧ x.poolBuf = e.poolBuf) ∧
        t.copyOut.imaged = s.copyOut.imaged ++ [slot] ∧ t.pool = s'.pool ∧
        t.hold.map (·.req) = s.hold.map (·.req) ∧
        (∀ h ∈ t.hold, h.block = e.block → h.hold ≠ .capture slot) ∧
        (∀ h ∈ s.hold, h.block ≠ e.block → h ∈ t.hold)) ∧
    (e.linesIn = 3 →
      let r := releaseWalk e.block slot s.hold [] false { s' with
        table := s.table.map fun x =>
          if x.slot = slot then { x with state := .imaged, linesIn := 4 } else x
        copyOut.imaged := s.copyOut.imaged ++ [slot] }
      exec (.captureReadData tag data) s = .next (State.handOver { r.1 with
        hold := r.2
        alert := { s.alert with
          peakHold := peakWith s.alert.peakHold s.hold r.2
          epochHold := peakWith s.alert.epochHold s.hold r.2 } }))) ∧
  (∀ (b : Block) (slot : Nat) (done : List HeldReq) (blocked : Bool) (s : State),
    releaseWalk b slot [] done blocked s = (s, done)) ∧
  ∀ (b : Block) (slot : Nat) (h : HeldReq) (rest done : List HeldReq) (blocked : Bool)
      (s : State),
    let walk (h' : HeldReq) (blocked : Bool) (t : State) : State × List HeldReq :=
      releaseWalk b slot rest (done ++ [h']) blocked t
    (h.block ≠ b ∨ h.hold = .released →
      releaseWalk b slot (h :: rest) done blocked s = walk h blocked s) ∧
    (h.block = b → h.hold = .capture slot →
      releaseWalk b slot (h :: rest) done blocked s =
        walk { h with hold := .released } blocked s) ∧
    (h.block = b → h.isWaiter = true ∨ (∃ n, n ≠ slot ∧ h.hold = .capture n) →
      releaseWalk b slot (h :: rest) done blocked s = walk h true s) ∧
    (∀ deferred here, h.block = b → h.hold = .order deferred false here →
      releaseWalk b slot (h :: rest) done blocked s =
        walk (if blocked then h else { h with hold := .released }) blocked s) ∧
    (∀ deferred here, h.block = b → h.hold = .order deferred true here → ∃ t x,
      s.Retakes h.req ((done ++ rest).any fun g => g.isEntry)
        (done.any fun g => g.isEntry && g.block == b) blocked t x ∧
      releaseWalk b slot (h :: rest) done blocked s =
        walk { h with hold := x } (blocked || decide (x ≠ .released)) t)

/-- R84, R85, R125, R170. The data of the DESC_WRITE's bytes that its mask does not enable is the
model's choice (log 26). -/
def Obligations.ImageAndDescriptorWritesFileTheEntry : Prop :=
  (∀ (s : State) (tag slot key : Nat) (addr : Addr) (op : Op) (p : CopyOutPlace) (e : Entry),
    s.awaits tag { role := .imageWrite slot, addr, op, key } →
    s.copyOut.places.find? (·.slot == slot) = some p → s.entryAt slot = some e →
    let s' : State := { s with
      mem.issuedOwn := s.ownLeft tag
      copyOut.places := s.copyOut.places.map fun q =>
        if q.slot = slot then { q with linesDone := q.linesDone + 1 } else q }
    (p.linesDone + 1 < 4 → exec (.imageWriteDone tag) s = .next s'.handOver) ∧
    (∀ ring, p.linesDone = 3 → e.state = .copying → s.copyOut.fir = some ring →
      let desc := ring.base + BitVec.ofNat 40 (16 * p.image.firIndex)
      exec (.imageWriteDone tag) s = .next (State.handOver { s' with
        table := s.table.map fun x =>
          if x.slot = slot then
            { x with state := .filing, poolBuf := none, imageBuf := some p.image }
          else x
        mem.classB := s.mem.classB ++
          [{ role := .descWrite slot, addr := lineOf desc, op := descWrite desc e p.image
             key := 2 * s.mem.nextPlace + 1 }]
        mem.nextPlace := s.mem.nextPlace + 1 }))) ∧
  (∀ (s : State) (tag slot key : Nat) (addr : Addr) (op : Op) (e : Entry),
    s.awaits tag { role := .descWrite slot, addr, op, key } →
    s.entryAt slot = some e → e.state = .filing →
    let drains := s.epoch.draining = true ∧ ∃ m, s.epoch.summary = some m ∧ m.epoch = e.epoch
    ∃ t, exec (.descWriteDone tag) s = .next t ∧
      (drains → t.epoch.imagesDraining = s.epoch.imagesDraining + 1 ∧
        t.epoch.imagesCurrent = s.epoch.imagesCurrent) ∧
      (¬drains → t.epoch.imagesCurrent = s.epoch.imagesCurrent + 1 ∧
        t.epoch.imagesDraining = s.epoch.imagesDraining) ∧
      t = { s with
        mem.issuedOwn := s.ownLeft tag
        table := s.table.map fun x => if x.slot = slot then { x with state := .logged } else x
        copyOut.places := s.copyOut.places.filter (·.slot != slot)
        alert.imagesWritten := s.alert.imagesWritten + 1
        epoch.imagesCurrent := t.epoch.imagesCurrent
        epoch.imagesDraining := t.epoch.imagesDraining })

/-- R77, R78, R99, R101, R173. The data of the SLOT_WRITE's bytes that its mask does not enable is the
model's choice (log 26). -/
def Obligations.OwnersReadFromTheRingsDecideTheWaits : Prop :=
  (∀ (s : State) (tag key : Nat) (addr : Addr) (op : Op) (data : Line) (ring : Ring),
    s.awaits tag { role := .descRead, addr, op, key } → s.copyOut.fir = some ring →
    let q := quadAt data (ring.base + BitVec.ofNat 40 (16 * s.copyOut.prefetchIndex))
    (q.w0.toNat % 4 = 1 → exec (.descReadData tag data) s = .next { s with
      mem.issuedOwn := s.ownLeft tag
      copyOut.cache := s.copyOut.cache ++
        [{ firIndex := s.copyOut.prefetchIndex, addr := q.w1 ++ (0 : BitVec 8) }]
      copyOut.prefetchIndex := (s.copyOut.prefetchIndex + 1) % 2 ^ ring.code.toNat
      copyOut.wait := false
      copyOut.timer := none }) ∧
    (q.w0.toNat % 4 ≠ 1 → exec (.descReadData tag data) s = .next { s with
      mem.issuedOwn := s.ownLeft tag
      alert.flags := if s.copyOut.wait then s.alert.flags else s.alert.flags ||| 0x040
      copyOut.wait := true
      copyOut.timer := some 0 })) ∧
  (∀ (s : State) (tag key : Nat) (addr : Addr) (op : Op) (data : Line) (ring : Ring) (r : Record)
      (rs : List Record), s.awaits tag { role := .slotRead, addr, op, key } →
    s.journal.ring = some ring → s.journal.queue = r :: rs →
    let slot := ring.base + BitVec.ofNat 40 (32 * s.journal.index)
    let q := quadAt data slot
    (q.w0.toNat % 4 = 1 → exec (.slotReadData tag data) s = .next { s with
      mem.issuedOwn := s.ownLeft tag
      mem.classB := s.mem.classB ++
        [{ role := .slotWrite, addr := lineOf slot, op := bodyWrite slot r
           key := 2 * s.mem.nextPlace + 1 }]
      mem.nextPlace := s.mem.nextPlace + 1
      journal.wait := false
      journal.timer := none
      journal.writer := .body }) ∧
    (q.w0.toNat % 4 ≠ 1 → exec (.slotReadData tag data) s = .next { s with
      mem.issuedOwn := s.ownLeft tag
      alert.flags := if s.journal.wait then s.alert.flags else s.alert.flags ||| 0x020
      journal.wait := true
      journal.timer := some 0
      journal.writer := .waiting }))

/-- R80, R100, R123, R170. The counts a completed drain releases become 0 (log 16). The data of the
SLOT_WRITE's bytes that its mask does not enable is the model's choice (log 26). -/
def Obligations.TheHeaderFollowsTheBodyAndEndsTheRecord : Prop :=
  ∀ (s : State) (tag key : Nat) (addr : Addr) (op : Op) (ring : Ring) (r : Record)
    (rs : List Record), s.awaits tag { role := .slotWrite, addr, op, key } →
    s.journal.ring = some ring → s.journal.queue = r :: rs →
    let slot := ring.base + BitVec.ofNat 40 (32 * s.journal.index)
    let written : State := { s with
      mem.issuedOwn := s.ownLeft tag
      journal.queue := rs
      journal.index := (s.journal.index + 1) % 2 ^ ring.code.toNat
      journal.writer := .standby
      alert.recordsWritten := s.alert.recordsWritten + 1 }
    let drained : State := { written with
      alert.flags := s.alert.flags ||| 0x004
      epoch.draining := false
      epoch.summary := none
      epoch.imagesDraining := 0
      retire.closeBuilt := false
      cmd.busy := false }
    let closes := s.epoch.draining = true ∧ ∃ sum n m, r = .closing sum n m
    (s.journal.writer = .body → exec (.slotWriteDone tag) s = .next { s with
      mem.issuedOwn := s.ownLeft tag
      mem.classB := s.mem.classB ++
        [{ role := .slotWrite, addr := lineOf slot, op := headerWrite slot r
           key := 2 * s.mem.nextPlace + 1 }]
      mem.nextPlace := s.mem.nextPlace + 1
      journal.writer := .header }) ∧
    (s.journal.writer = .header → ¬closes → exec (.slotWriteDone tag) s = .next written) ∧
    (s.journal.writer = .header → closes → s.epoch.dev ≠ .finishing →
      exec (.slotWriteDone tag) s = .next drained) ∧
    (s.journal.writer = .header → closes → s.epoch.dev = .finishing →
      exec (.slotWriteDone tag) s = .next { drained with
        epoch.dev := .ready
        copyOut.wait := false
        copyOut.timer := none
        mem.classB := s.mem.classB.filter fun x => decide (x.role ≠ .descRead)
        mem.issuedOwn := (s.ownLeft tag).map fun i =>
          if i.req.role = .descRead then { i with abandoned := true } else i })

/-- R158, R159, R174, with the layout of 10.1. -/
def Obligations.TheJcbIsCheckedForFormatThenOverlap : Prop :=
  ∀ (s : State) (tag key : Nat) (addr jcb : Addr) (op : Op) (data : Line),
    s.awaits tag { role := .jcbRead jcb, addr, op, key } → s.epoch.dev = .loading →
    let q := quadAt data jcb
    let jBase := q.w0.toNat + 2 ^ 32 * (q.w1.toNat % 256)
    let fBase := q.w2.toNat + 2 ^ 32 * (q.w3.toNat % 256)
    let jCode := q.w1.toNat / 256 % 16
    let fCode := q.w1.toNat / 4096 % 16
    let jEnd := jBase + 32 * 2 ^ jCode
    let fEnd := fBase + 16 * 2 ^ fCode
    let format := 3 ≤ jCode ∧ jCode ≤ 12 ∧ 2 ≤ fCode ∧ fCode ≤ 12 ∧ q.w0.toNat % 256 = 0 ∧
      q.w2.toNat % 256 = 0 ∧ q.w3.toNat / 256 = 0 ∧ jEnd ≤ 2 ^ 40 ∧ fEnd ≤ 2 ^ 40
    let overlap := jBase < fEnd ∧ fBase < jEnd
    let failed (result : LoadResult) : State := { s with
      mem.issuedOwn := s.ownLeft tag
      alert.flags := s.alert.flags ||| 0x002
      epoch.dev := .idle
      cmd.busy := false
      cmd.loadResult := result }
    (¬format → exec (.jcbReadData tag data) s = .next (failed .format)) ∧
    (format → overlap → exec (.jcbReadData tag data) s = .next (failed .overlap)) ∧
    (format → ¬overlap → exec (.jcbReadData tag data) s = .next { s with
      mem.issuedOwn := s.ownLeft tag
      alert.flags := s.alert.flags ||| 0x001
      epoch.dev := .ready
      epoch.pendingFirst := some (BitVec.ofNat 16 (q.w1.toNat / 65536))
      journal.ring := some { base := BitVec.ofNat 40 jBase, code := BitVec.ofNat 4 jCode }
      journal.index := 0
      copyOut.fir := some { base := BitVec.ofNat 40 fBase, code := BitVec.ofNat 4 fCode }
      copyOut.prefetchIndex := 0
      cmd.busy := false
      cmd.loadResult := .done })

/-- R39, R68, R104, R127, R141 to R144, R169, R170. The writer keeps the name of its state (log 17).
At the entry to HALTED the per-epoch peaks keep their values and PEAK_HOLD takes the hold times that
end: so the model reads R127 beside R54 and R169 (log 24). -/
def Obligations.AMemoryErrorHaltsTheDeviceOrFailsTheLoad : Prop :=
  ∀ (s : State) (tag key : Nat) (addr : Addr) (op : Op) (role : OwnRole) (c : Instr)
    (cause : ErrCause),
    s.awaits tag { role, addr, op, key } →
    (c = .errorAnswer tag ∧ cause = .error) ∨
      (c = .timeout tag ∧ cause = .timeout ∧ ∃ i, s.findOwn tag = some i ∧ 64 ≤ i.age) →
    let dropped : State := { s with
      mem.err := some { kind := role.kind, cause := cause, addr := addr }
      mem.classC := []
      mem.classB := []
      mem.issuedOwn := (s.ownLeft tag).map fun i => { i with abandoned := true } }
    (s.epoch.dev = .loading → exec c s = .next { dropped with
      alert.flags := s.alert.flags ||| 0x002
      epoch.dev := .idle
      cmd.busy := false
      cmd.loadResult := .memory }) ∧
    (s.epoch.dev = .tracking ∨ s.epoch.dev = .finishing →
      let released := s.hold.map fun h => { h with hold := .released }
      let halted : State := { dropped with
        hold := released
        alert.flags := s.alert.flags ||| 0x010
        alert.peakHold := peakWith s.alert.peakHold s.hold released
        epoch.dev := .halted
        epoch.draining := false
        cmd.busy := false
        copyOut.wait := false
        copyOut.timer := none
        journal.wait := false
        journal.timer := none }
      exec c s = .next halted ∧ halted.alert.isSet .memErr = true ∧
        ∀ f, f ≠ .memErr → halted.alert.isSet f = s.alert.isSet f) ∧
    (s.epoch.dev = .idle ∨ s.epoch.dev = .ready ∨ s.epoch.dev = .halted →
      exec c s = .next dropped)

/-- R136, R142: the end of an abandoned request is silent, whatever ends it. An answer that fits no
awaited request is discarded (log 13). -/
def Obligations.AbandonedRequestsEndSilently : Prop :=
  (∀ (s : State) (tag : Nat) (answer : Answer) (data : Line) (i : IssuedOwn),
    s.findOwn tag = some i → i.abandoned = true →
    let t : Host.Outcome State Fault Refusal := .next { s with mem.issuedOwn := s.ownLeft tag }
    exec (.abandonedAnswer tag answer) s = t ∧ exec (.errorAnswer tag) s = t ∧
    exec (.captureReadData tag data) s = t ∧ exec (.imageWriteDone tag) s = t ∧
    exec (.descWriteDone tag) s = t ∧ exec (.descReadData tag data) s = t ∧
    exec (.slotReadData tag data) s = t ∧ exec (.slotWriteDone tag) s = t ∧
    exec (.jcbReadData tag data) s = t ∧
    (64 ≤ i.age → exec (.abandonedTimeout tag) s = t ∧ exec (.timeout tag) s = t)) ∧
  (∀ (s : State) (tag : Nat) (answer : Answer) (data : Line), s.findOwn tag = none →
    exec (.abandonedAnswer tag answer) s = .next s ∧ exec (.errorAnswer tag) s = .next s ∧
    exec (.captureReadData tag data) s = .next s ∧ exec (.imageWriteDone tag) s = .next s ∧
    exec (.descWriteDone tag) s = .next s ∧ exec (.descReadData tag data) s = .next s ∧
    exec (.slotReadData tag data) s = .next s ∧ exec (.slotWriteDone tag) s = .next s ∧
    exec (.jcbReadData tag data) s = .next s ∧ exec (.timeout tag) s = .next s ∧
    exec (.abandonedTimeout tag) s = .next s)

/-! ### Expiries -/

/-- R38, R52, R54, R61 to R63. -/
def Obligations.AHoldLimitExpiryOverflowsTheEpoch : Prop :=
  ∀ s : State, s.imm.holdLimit ≠ 0 →
    (∃ h ∈ s.hold, h.isWaiter = true ∧ s.imm.holdLimit.toNat ≤ h.time.toNat) →
    ∃ t : State, exec .holdLimitExpiry s = .next t.handOver ∧
      t.epoch.overflow = true ∧
      (s.epoch.overflow = false → t.alert.flags = s.alert.flags ||| 0x008 ∧
        t.alert.overflows =
          if s.alert.overflows = 0xFFFF then s.alert.overflows else s.alert.overflows + 1) ∧
      (s.epoch.overflow = true → t.alert.flags = s.alert.flags ∧
        t.alert.overflows = s.alert.overflows) ∧
      t.hold.map (·.req) = s.hold.map (·.req) ∧
      (∀ p ∈ s.hold.zip t.hold,
        (p.1.isWaiter = true → p.2 = { p.1 with hold := .released }) ∧
        ((∃ slot, p.1.hold = .capture slot) → p.2 = p.1) ∧
        (p.1.isHeld = false → p.2 = p.1) ∧
        (p.2 = p.1 ∨ p.2 = { p.1 with hold := .released })) ∧
      OrdersFollow (s.hold.map fun h => if h.isWaiter then { h with hold := .released } else h)
        t.hold ∧
      t.alert.peakHold = peakWith s.alert.peakHold s.hold t.hold ∧
      t.alert.epochHold = peakWith s.alert.epochHold s.hold t.hold ∧
      t.table = s.table.filter (fun e => !(s.hold.any fun h => h.hold == .buffer e.slot)) ∧
      t.retire.list = s.retire.list.filter
        (fun n => !(s.hold.any fun h => h.hold == .buffer n)) ∧
      t.epoch.untracked.toNat = min (2 ^ 32 - 1) (s.epoch.untracked.toNat +
        ((s.hold.zip t.hold).filter fun p =>
          p.1.isHeld && !p.2.isHeld && (p.1.isWaiter || p.1.trackingHere)).length) ∧
      t = { s with
        epoch.overflow := true, epoch.untracked := t.epoch.untracked
        hold := t.hold, table := t.table, retire.list := t.retire.list
        alert := { s.alert with
          flags := t.alert.flags, overflows := t.alert.overflows
          peakHold := t.alert.peakHold, epochHold := t.alert.epochHold } }

/-- R34, R79, R90, R102, R168. That a row takes one item is log 15. -/
def Obligations.ExpiriesTakeTheFirstItemThatIsDue : Prop :=
  (∀ (s : State) (before after : List HeldReq) (h : HeldReq), s.imm.holdAlert ≠ 0 →
    s.hold = before ++ h :: after →
    (∀ x ∈ before, x.isHeld = false ∨ x.time.toNat < s.imm.holdAlert.toNat ∨
      x.reachedAlert = true) →
    h.isHeld = true → s.imm.holdAlert.toNat ≤ h.time.toNat → h.reachedAlert = false →
    exec .holdAlertReached s = .next { s with
      alert.flags := s.alert.flags ||| 0x400
      hold := before ++ { h with reachedAlert := true } :: after }) ∧
  (∀ (s : State) (older newer : List Entry) (e : Entry),
    let ages (x : Entry) : Prop := x.epoch = s.epoch.number ∧ x.mode = .trace ∧
      x.state = .logged ∧ x.cause = none ∧
      s.active.ageLimit.toNat * 1000 ≤ s.epoch.epochTime.toNat - x.lastStamp.toNat
    s.epoch.dev = .tracking → s.active.ageLimit ≠ 0 → s.table = older ++ e :: newer →
    (∀ x ∈ older, ¬ages x) → ages e →
    exec .ageExpiry s = .next { s with
      table := s.table.map fun x => if x.slot = e.slot then { x with cause := some .age } else x
      retire.list := s.retire.list ++ [e.slot] }) ∧
  (∀ (s : State) (ring : Ring) (elapsed : Nat),
    s.epoch.dev = .tracking ∨ s.epoch.dev = .finishing → s.copyOut.wait = true →
    s.imm.poll ≠ 0 → s.copyOut.timer = some elapsed → s.imm.poll.toNat * 16 ≤ elapsed →
    s.copyOut.fir = some ring →
    exec .firPollExpiry s = .next { s with
      mem.classB := s.mem.classB ++
        [{ role := .descRead
           addr := lineOf (ring.base + BitVec.ofNat 40 (16 * s.copyOut.prefetchIndex))
           op := .read
           key := 2 * s.mem.nextPlace + 1 }]
      mem.nextPlace := s.mem.nextPlace + 1
      copyOut.timer := none }) ∧
  (∀ (s : State) (ring : Ring) (elapsed : Nat),
    s.epoch.dev = .tracking ∨ s.epoch.dev = .finishing → s.journal.wait = true →
    s.imm.poll ≠ 0 → s.journal.timer = some elapsed → s.imm.poll.toNat * 16 ≤ elapsed →
    s.journal.ring = some ring →
    exec .ringPollExpiry s = .next { s with
      mem.classB := s.mem.classB ++
        [{ role := .slotRead
           addr := lineOf (ring.base + BitVec.ofNat 40 (32 * s.journal.index))
           op := .read
           key := 2 * s.mem.nextPlace + 1 }]
      mem.nextPlace := s.mem.nextPlace + 1
      journal.timer := none })

/-! ### Layouts in memory -/

/-- R75, R85, R93, R98, R100, R119, R124, R173, R174, with the layouts and codes of 10.2, 10.3 and
10.5. -/
def Obligations.RecordsAndDescriptorsAreLaidOutAsInChapter10 : Prop :=
  (∀ (seq : Word) (e : Entry),
    let r : Record := .block seq e
    let h := r.header
    let w3 := r.body.1.w3
    let w4 := r.body.2.w0
    h.extractLsb' 0 2 = 2 ∧ h.extractLsb' 2 2 = 2 ∧ h.extractLsb' 4 4 = 0 ∧
    h.extractLsb' 8 1 = BitVec.ofBool e.saturated ∧ h.extractLsb' 9 7 = 0 ∧
    h.extractLsb' 16 16 = e.epoch ∧
    r.body.1.w1 = seq ∧ r.body.1.w2 = e.block ∧
    w3.extractLsb' 0 8 = e.count ∧ w3.extractLsb' 8 4 = e.handoffs ∧
    w3.extractLsb' 12 4 = e.firstWriter ∧ w3.extractLsb' 16 4 = e.lastWriter ∧
    w3.extractLsb' 20 2 = e.window ∧
    w3.extractLsb' 22 1 = (match e.mode with | .trace => 0 | .undo => 1) ∧
    w3.extractLsb' 23 1 = 0 ∧
    w3.extractLsb' 24 2 = (match e.cause with
      | none => 0 | some .close => 1 | some .age => 2 | some .pressure => 3) ∧
    w3.extractLsb' 26 6 = 0 ∧
    w4.extractLsb' 0 16 = e.writers ∧
    w4.extractLsb' 16 12 =
      (match e.imageBuf with | none => 0 | some b => BitVec.ofNat 12 b.firIndex) ∧
    w4.extractLsb' 28 4 = 0 ∧
    r.body.2.w1 = e.firstStamp ∧ r.body.2.w2 = e.lastStamp ∧
    r.body.2.w3 = (match e.imageBuf with | none => 0 | some b => b.addr.extractLsb' 8 32)) ∧
  (∀ (n : Half) (cause : CutCause) (ws : Windows) (pm : PoolMode) (time : Word),
    let r : Record := .opening n cause ws pm time
    let mode (w : Window) : Nat := match w.mode with
      | .off => 0 | .trace => 1 | .undo => 2 | .exclude => 3
    r.header = n ++ (0x0006 : Half) ∧
    r.body.1.w1.toNat = (match cause with | .command => 1 | .switch => 2) +
      256 * mode ws.w0 + 1024 * mode ws.w1 + 4096 * mode ws.w2 + 16384 * mode ws.w3 +
      65536 * (match pm with | .shared => 0 | .quota => 1) ∧
    r.body.1.w2 = time ∧ r.body.1.w3 = 0 ∧ r.body.2 = ⟨0, 0, 0, 0⟩) ∧
  (∀ (sum : Summary) (blocks images : Word), sum.peakOcc ≤ 2048 → sum.peakPool ≤ 64 →
    let r : Record := .closing sum blocks images
    r.header = sum.epoch ++ (0x000E : Half) ∧
    r.body.1.w1 = blocks ∧ r.body.1.w2 = sum.untracked ∧ r.body.1.w3 = images ∧
    r.body.2.w0 = sum.longestHold ∧ r.body.2.w1 = sum.duration ∧
    r.body.2.w2.toNat = sum.peakOcc + 65536 * sum.peakPool ∧
    r.body.2.w3.toNat = (match sum.cause with | .switch => 1 | .endEpoch => 2) +
      256 * sum.overflow.toNat) ∧
  (∀ (e : Entry) (image : ImageBuf),
    descQuad e image =
      ⟨e.epoch ++ (0x0006 : Half), image.addr.extractLsb' 8 32, e.block, 0⟩) ∧
  (∀ a : Addr, (lineOf a).toNat = 64 * (a.toNat / 64)) ∧
  (∀ (line : Line) (a : Addr), quadAt line a = (match a.toNat % 64 / 16 with
    | 0 => line.q0 | 1 => line.q1 | 2 => line.q2 | _ => line.q3)) ∧
  (∀ (slot : Addr) (r : Record), slot.toNat % 32 = 0 →
    ∃ body header : ByteMask, ∃ bodyLine headerLine : Line,
      bodyWrite slot r = .write body bodyLine ∧ headerWrite slot r = .write header headerLine ∧
      (∀ k < 64, body.getLsbD k = true ↔
        slot.toNat % 64 + 4 ≤ k ∧ k < slot.toNat % 64 + 32) ∧
      (∀ k < 64, header.getLsbD k = true ↔ slot.toNat % 64 ≤ k ∧ k < slot.toNat % 64 + 4) ∧
      (slot.toNat % 64 = 0 →
        bodyLine.q0 = { r.body.1 with w0 := bodyLine.q0.w0 } ∧ bodyLine.q1 = r.body.2 ∧
        headerLine.q0.w0 = r.header) ∧
      (slot.toNat % 64 = 32 →
        bodyLine.q2 = { r.body.1 with w0 := bodyLine.q2.w0 } ∧ bodyLine.q3 = r.body.2 ∧
        headerLine.q2.w0 = r.header)) ∧
  (∀ (desc : Addr) (e : Entry) (image : ImageBuf), desc.toNat % 16 = 0 →
    ∃ (mask : ByteMask) (line : Line), descWrite desc e image = .write mask line ∧
      (∀ k < 64, mask.getLsbD k = true ↔ desc.toNat % 64 ≤ k ∧ k < desc.toNat % 64 + 16) ∧
      quadAt line desc = descQuad e image)

/-! ### What every step keeps -/

/-- R16, R17, R18, R29, R32, R70. -/
def Obligations.EveryStepKeepsTheTableLaw : Prop :=
  ∀ s t : State, TableLaw s → step s = .next t → TableLaw t

/-- R90. -/
def Obligations.EveryStepKeepsTheRetireListLaw : Prop :=
  ∀ s t : State, TableLaw s → RetireLaw s → step s = .next t → RetireLaw t

/-- R48, R76, R83, R96, R131, R136, R138. The one DESC_READ there may be is one that is not abandoned:
the model's choice (log 27). -/
def Obligations.EveryStepKeepsTheQueuesWithinTheirPlaces : Prop :=
  (∀ s t : State, CapacityLaw s → step s = .next t → CapacityLaw t) ∧
  (∀ s t : State, CacheLaw s → step s = .next t → CacheLaw t) ∧
  (∀ s t : State, EpochLaw s → step s = .next t → EpochLaw t)

/-- R63: the untracked count is non-zero only when the overflow flag is set. -/
def Obligations.EveryStepKeepsTheUntrackedCountLaw : Prop :=
  ∀ s t : State, CountLaw s → step s = .next t → CountLaw t

/-- R1, R140, R157, R167; the pool's form is the model's own (log 8). -/
def Obligations.EveryStepKeepsSettingsInRangeAndThePoolsForm : Prop :=
  ∀ s t : State, SettingsLaw s → PoolFormLaw s → step s = .next t →
    SettingsLaw t ∧ PoolFormLaw t

/-- The laws hold right after reset. -/
def Obligations.ResetMeetsEveryLaw : Prop :=
  TableLaw State.reset ∧ RetireLaw State.reset ∧ CapacityLaw State.reset ∧ CountLaw State.reset ∧
  SettingsLaw State.reset ∧ PoolFormLaw State.reset ∧ BlockLaw State.reset ∧
  HoldLaw State.reset ∧ CacheLaw State.reset ∧ EpochLaw State.reset ∧ OwnLaw State.reset

/-- R16, with what the requests of the Hold Queue stand for in the table (R22, R24, R38, R55, R57,
R58). -/
def Obligations.EveryStepKeepsTheBlockLawAndTheHoldLaw : Prop :=
  ∀ s t : State, TableLaw s → EpochLaw s → BlockLaw s → HoldLaw s → step s = .next t →
    BlockLaw t ∧ HoldLaw t

/-- R134: who may have how many own requests queued or outstanding; and with the other laws class C
holds at most 256 requests and class B at most 18. Abandoned requests in flight are left out of the
count: the model's choice (log 27). -/
def Obligations.EveryStepKeepsTheClassListsWithinTheirBounds : Prop :=
  (∀ s t : State, TableLaw s → EpochLaw s → HoldLaw s → OwnLaw s → step s = .next t → OwnLaw t) ∧
  ∀ s : State, TableLaw s → CapacityLaw s → CacheLaw s → OwnLaw s →
    s.mem.classC.length ≤ 256 ∧ s.mem.classB.length ≤ 18
end

