-- ==== Sys2Proof/Laws/State.lean ====
section
/-! SUPPORT. The fields of State after each named update: one lemma for each field, true by rfl, so
that no proof unfolds an update. -/

namespace Sys2Proof.Machine

/-! ### raise -/

@[simp] theorem State.raise_staged (s : State) (f : EventFlag) :
    (s.raise f).staged = s.staged := rfl
@[simp] theorem State.raise_active (s : State) (f : EventFlag) :
    (s.raise f).active = s.active := rfl
@[simp] theorem State.raise_imm (s : State) (f : EventFlag) : (s.raise f).imm = s.imm := rfl
@[simp] theorem State.raise_table (s : State) (f : EventFlag) : (s.raise f).table = s.table := rfl
@[simp] theorem State.raise_hold (s : State) (f : EventFlag) : (s.raise f).hold = s.hold := rfl
@[simp] theorem State.raise_pool (s : State) (f : EventFlag) : (s.raise f).pool = s.pool := rfl
@[simp] theorem State.raise_copyOut (s : State) (f : EventFlag) :
    (s.raise f).copyOut = s.copyOut := rfl
@[simp] theorem State.raise_retire (s : State) (f : EventFlag) :
    (s.raise f).retire = s.retire := rfl
@[simp] theorem State.raise_journal (s : State) (f : EventFlag) :
    (s.raise f).journal = s.journal := rfl
@[simp] theorem State.raise_epoch (s : State) (f : EventFlag) : (s.raise f).epoch = s.epoch := rfl
@[simp] theorem State.raise_mem (s : State) (f : EventFlag) : (s.raise f).mem = s.mem := rfl
@[simp] theorem State.raise_port (s : State) (f : EventFlag) : (s.raise f).port = s.port := rfl
@[simp] theorem State.raise_cmd (s : State) (f : EventFlag) : (s.raise f).cmd = s.cmd := rfl
@[simp] theorem State.raise_alert (s : State) (f : EventFlag) :
    (s.raise f).alert = { s.alert with flags := s.alert.flags ||| f.bit } := rfl
@[simp] theorem State.raise_out (s : State) (f : EventFlag) : (s.raise f).out = s.out := rfl
@[simp] theorem State.raise_choices (s : State) (f : EventFlag) :
    (s.raise f).choices = s.choices := rfl
@[simp] theorem State.raise_pending (s : State) (f : EventFlag) :
    (s.raise f).pending = s.pending := rfl

/-! ### clearFlag -/

@[simp] theorem State.clearFlag_staged (s : State) (f : EventFlag) :
    (s.clearFlag f).staged = s.staged := rfl
@[simp] theorem State.clearFlag_active (s : State) (f : EventFlag) :
    (s.clearFlag f).active = s.active := rfl
@[simp] theorem State.clearFlag_imm (s : State) (f : EventFlag) : (s.clearFlag f).imm = s.imm := rfl
@[simp] theorem State.clearFlag_table (s : State) (f : EventFlag) :
    (s.clearFlag f).table = s.table := rfl
@[simp] theorem State.clearFlag_hold (s : State) (f : EventFlag) :
    (s.clearFlag f).hold = s.hold := rfl
@[simp] theorem State.clearFlag_pool (s : State) (f : EventFlag) :
    (s.clearFlag f).pool = s.pool := rfl
@[simp] theorem State.clearFlag_copyOut (s : State) (f : EventFlag) :
    (s.clearFlag f).copyOut = s.copyOut := rfl
@[simp] theorem State.clearFlag_retire (s : State) (f : EventFlag) :
    (s.clearFlag f).retire = s.retire := rfl
@[simp] theorem State.clearFlag_journal (s : State) (f : EventFlag) :
    (s.clearFlag f).journal = s.journal := rfl
@[simp] theorem State.clearFlag_epoch (s : State) (f : EventFlag) :
    (s.clearFlag f).epoch = s.epoch := rfl
@[simp] theorem State.clearFlag_mem (s : State) (f : EventFlag) : (s.clearFlag f).mem = s.mem := rfl
@[simp] theorem State.clearFlag_port (s : State) (f : EventFlag) :
    (s.clearFlag f).port = s.port := rfl
@[simp] theorem State.clearFlag_cmd (s : State) (f : EventFlag) : (s.clearFlag f).cmd = s.cmd := rfl
@[simp] theorem State.clearFlag_alert (s : State) (f : EventFlag) :
    (s.clearFlag f).alert = { s.alert with flags := s.alert.flags &&& ~~~f.bit } := rfl
@[simp] theorem State.clearFlag_out (s : State) (f : EventFlag) : (s.clearFlag f).out = s.out := rfl
@[simp] theorem State.clearFlag_choices (s : State) (f : EventFlag) :
    (s.clearFlag f).choices = s.choices := rfl
@[simp] theorem State.clearFlag_pending (s : State) (f : EventFlag) :
    (s.clearFlag f).pending = s.pending := rfl

/-! ### evalDrainMode -/

@[simp] theorem State.evalDrainMode_staged (s : State) : (s.evalDrainMode).staged = s.staged := rfl
@[simp] theorem State.evalDrainMode_active (s : State) : (s.evalDrainMode).active = s.active := rfl
@[simp] theorem State.evalDrainMode_imm (s : State) : (s.evalDrainMode).imm = s.imm := rfl
@[simp] theorem State.evalDrainMode_table (s : State) : (s.evalDrainMode).table = s.table := rfl
@[simp] theorem State.evalDrainMode_hold (s : State) : (s.evalDrainMode).hold = s.hold := rfl
@[simp] theorem State.evalDrainMode_pool (s : State) : (s.evalDrainMode).pool = s.pool := rfl
@[simp] theorem State.evalDrainMode_copyOut (s : State) :
    (s.evalDrainMode).copyOut = s.copyOut := rfl
@[simp] theorem State.evalDrainMode_retire (s : State) : (s.evalDrainMode).retire = s.retire := rfl
@[simp] theorem State.evalDrainMode_journal (s : State) :
    (s.evalDrainMode).journal = s.journal := rfl
@[simp] theorem State.evalDrainMode_epoch (s : State) : (s.evalDrainMode).epoch = s.epoch := rfl
@[simp] theorem State.evalDrainMode_mem (s : State) :
    (s.evalDrainMode).mem = { s.mem with
      drainMode := drainModeNext s.mem.drainMode s.poolUse s.imm.drainHigh.toNat s.imm.drainLow.toNat } := rfl
@[simp] theorem State.evalDrainMode_port (s : State) : (s.evalDrainMode).port = s.port := rfl
@[simp] theorem State.evalDrainMode_cmd (s : State) : (s.evalDrainMode).cmd = s.cmd := rfl
@[simp] theorem State.evalDrainMode_alert (s : State) : (s.evalDrainMode).alert = s.alert := rfl
@[simp] theorem State.evalDrainMode_out (s : State) : (s.evalDrainMode).out = s.out := rfl
@[simp] theorem State.evalDrainMode_choices (s : State) :
    (s.evalDrainMode).choices = s.choices := rfl
@[simp] theorem State.evalDrainMode_pending (s : State) :
    (s.evalDrainMode).pending = s.pending := rfl

/-! ### countOverflow -/

@[simp] theorem State.countOverflow_staged (s : State) : (s.countOverflow).staged = s.staged := rfl
@[simp] theorem State.countOverflow_active (s : State) : (s.countOverflow).active = s.active := rfl
@[simp] theorem State.countOverflow_imm (s : State) : (s.countOverflow).imm = s.imm := rfl
@[simp] theorem State.countOverflow_table (s : State) : (s.countOverflow).table = s.table := rfl
@[simp] theorem State.countOverflow_hold (s : State) : (s.countOverflow).hold = s.hold := rfl
@[simp] theorem State.countOverflow_pool (s : State) : (s.countOverflow).pool = s.pool := rfl
@[simp] theorem State.countOverflow_copyOut (s : State) :
    (s.countOverflow).copyOut = s.copyOut := rfl
@[simp] theorem State.countOverflow_retire (s : State) : (s.countOverflow).retire = s.retire := rfl
@[simp] theorem State.countOverflow_journal (s : State) :
    (s.countOverflow).journal = s.journal := rfl
@[simp] theorem State.countOverflow_epoch (s : State) : (s.countOverflow).epoch = s.epoch := rfl
@[simp] theorem State.countOverflow_mem (s : State) : (s.countOverflow).mem = s.mem := rfl
@[simp] theorem State.countOverflow_port (s : State) : (s.countOverflow).port = s.port := rfl
@[simp] theorem State.countOverflow_cmd (s : State) : (s.countOverflow).cmd = s.cmd := rfl
@[simp] theorem State.countOverflow_alert (s : State) :
    (s.countOverflow).alert = { s.alert with overflows := satInc s.alert.overflows } := rfl
@[simp] theorem State.countOverflow_out (s : State) : (s.countOverflow).out = s.out := rfl
@[simp] theorem State.countOverflow_choices (s : State) :
    (s.countOverflow).choices = s.choices := rfl
@[simp] theorem State.countOverflow_pending (s : State) :
    (s.countOverflow).pending = s.pending := rfl

/-! ### modifyEntry -/

@[simp] theorem State.modifyEntry_staged (s : State) (slot : Nat) (f : Entry → Entry) :
    (s.modifyEntry slot f).staged = s.staged := rfl
@[simp] theorem State.modifyEntry_active (s : State) (slot : Nat) (f : Entry → Entry) :
    (s.modifyEntry slot f).active = s.active := rfl
@[simp] theorem State.modifyEntry_imm (s : State) (slot : Nat) (f : Entry → Entry) :
    (s.modifyEntry slot f).imm = s.imm := rfl
@[simp] theorem State.modifyEntry_table (s : State) (slot : Nat) (f : Entry → Entry) :
    (s.modifyEntry slot f).table = s.table.map fun e => if e.slot = slot then f e else e := rfl
@[simp] theorem State.modifyEntry_hold (s : State) (slot : Nat) (f : Entry → Entry) :
    (s.modifyEntry slot f).hold = s.hold := rfl
@[simp] theorem State.modifyEntry_pool (s : State) (slot : Nat) (f : Entry → Entry) :
    (s.modifyEntry slot f).pool = s.pool := rfl
@[simp] theorem State.modifyEntry_copyOut (s : State) (slot : Nat) (f : Entry → Entry) :
    (s.modifyEntry slot f).copyOut = s.copyOut := rfl
@[simp] theorem State.modifyEntry_retire (s : State) (slot : Nat) (f : Entry → Entry) :
    (s.modifyEntry slot f).retire = s.retire := rfl
@[simp] theorem State.modifyEntry_journal (s : State) (slot : Nat) (f : Entry → Entry) :
    (s.modifyEntry slot f).journal = s.journal := rfl
@[simp] theorem State.modifyEntry_epoch (s : State) (slot : Nat) (f : Entry → Entry) :
    (s.modifyEntry slot f).epoch = s.epoch := rfl
@[simp] theorem State.modifyEntry_mem (s : State) (slot : Nat) (f : Entry → Entry) :
    (s.modifyEntry slot f).mem = s.mem := rfl
@[simp] theorem State.modifyEntry_port (s : State) (slot : Nat) (f : Entry → Entry) :
    (s.modifyEntry slot f).port = s.port := rfl
@[simp] theorem State.modifyEntry_cmd (s : State) (slot : Nat) (f : Entry → Entry) :
    (s.modifyEntry slot f).cmd = s.cmd := rfl
@[simp] theorem State.modifyEntry_alert (s : State) (slot : Nat) (f : Entry → Entry) :
    (s.modifyEntry slot f).alert = s.alert := rfl
@[simp] theorem State.modifyEntry_out (s : State) (slot : Nat) (f : Entry → Entry) :
    (s.modifyEntry slot f).out = s.out := rfl
@[simp] theorem State.modifyEntry_choices (s : State) (slot : Nat) (f : Entry → Entry) :
    (s.modifyEntry slot f).choices = s.choices := rfl
@[simp] theorem State.modifyEntry_pending (s : State) (slot : Nat) (f : Entry → Entry) :
    (s.modifyEntry slot f).pending = s.pending := rfl

/-! ### removeEntries -/

@[simp] theorem State.removeEntries_staged (s : State) (slots : List Nat) :
    (s.removeEntries slots).staged = s.staged := rfl
@[simp] theorem State.removeEntries_active (s : State) (slots : List Nat) :
    (s.removeEntries slots).active = s.active := rfl
@[simp] theorem State.removeEntries_imm (s : State) (slots : List Nat) :
    (s.removeEntries slots).imm = s.imm := rfl
@[simp] theorem State.removeEntries_table (s : State) (slots : List Nat) :
    (s.removeEntries slots).table = s.table.filter fun e => !slots.contains e.slot := rfl
@[simp] theorem State.removeEntries_hold (s : State) (slots : List Nat) :
    (s.removeEntries slots).hold = s.hold := rfl
@[simp] theorem State.removeEntries_pool (s : State) (slots : List Nat) :
    (s.removeEntries slots).pool = s.pool := rfl
@[simp] theorem State.removeEntries_copyOut (s : State) (slots : List Nat) :
    (s.removeEntries slots).copyOut = s.copyOut := rfl
@[simp] theorem State.removeEntries_retire (s : State) (slots : List Nat) :
    (s.removeEntries slots).retire = { s.retire with list := s.retire.list.filter fun n => !slots.contains n } := rfl
@[simp] theorem State.removeEntries_journal (s : State) (slots : List Nat) :
    (s.removeEntries slots).journal = s.journal := rfl
@[simp] theorem State.removeEntries_epoch (s : State) (slots : List Nat) :
    (s.removeEntries slots).epoch = s.epoch := rfl
@[simp] theorem State.removeEntries_mem (s : State) (slots : List Nat) :
    (s.removeEntries slots).mem = s.mem := rfl
@[simp] theorem State.removeEntries_port (s : State) (slots : List Nat) :
    (s.removeEntries slots).port = s.port := rfl
@[simp] theorem State.removeEntries_cmd (s : State) (slots : List Nat) :
    (s.removeEntries slots).cmd = s.cmd := rfl
@[simp] theorem State.removeEntries_alert (s : State) (slots : List Nat) :
    (s.removeEntries slots).alert = s.alert := rfl
@[simp] theorem State.removeEntries_out (s : State) (slots : List Nat) :
    (s.removeEntries slots).out = s.out := rfl
@[simp] theorem State.removeEntries_choices (s : State) (slots : List Nat) :
    (s.removeEntries slots).choices = s.choices := rfl
@[simp] theorem State.removeEntries_pending (s : State) (slots : List Nat) :
    (s.removeEntries slots).pending = s.pending := rfl

/-! ### createEntry -/

@[simp] theorem State.createEntry_staged (s : State) (e : Entry) :
    (s.createEntry e).staged = s.staged := rfl
@[simp] theorem State.createEntry_active (s : State) (e : Entry) :
    (s.createEntry e).active = s.active := rfl
@[simp] theorem State.createEntry_imm (s : State) (e : Entry) : (s.createEntry e).imm = s.imm := rfl
@[simp] theorem State.createEntry_table (s : State) (e : Entry) :
    (s.createEntry e).table = s.table ++ [e] := rfl
@[simp] theorem State.createEntry_hold (s : State) (e : Entry) :
    (s.createEntry e).hold = s.hold := rfl
@[simp] theorem State.createEntry_pool (s : State) (e : Entry) :
    (s.createEntry e).pool = s.pool := rfl
@[simp] theorem State.createEntry_copyOut (s : State) (e : Entry) :
    (s.createEntry e).copyOut = s.copyOut := rfl
@[simp] theorem State.createEntry_retire (s : State) (e : Entry) :
    (s.createEntry e).retire = s.retire := rfl
@[simp] theorem State.createEntry_journal (s : State) (e : Entry) :
    (s.createEntry e).journal = s.journal := rfl
@[simp] theorem State.createEntry_epoch (s : State) (e : Entry) :
    (s.createEntry e).epoch = s.epoch := rfl
@[simp] theorem State.createEntry_mem (s : State) (e : Entry) : (s.createEntry e).mem = s.mem := rfl
@[simp] theorem State.createEntry_port (s : State) (e : Entry) :
    (s.createEntry e).port = s.port := rfl
@[simp] theorem State.createEntry_cmd (s : State) (e : Entry) : (s.createEntry e).cmd = s.cmd := rfl
@[simp] theorem State.createEntry_alert (s : State) (e : Entry) :
    (s.createEntry e).alert = s.alert := rfl
@[simp] theorem State.createEntry_out (s : State) (e : Entry) : (s.createEntry e).out = s.out := rfl
@[simp] theorem State.createEntry_choices (s : State) (e : Entry) :
    (s.createEntry e).choices = s.choices := rfl
@[simp] theorem State.createEntry_pending (s : State) (e : Entry) :
    (s.createEntry e).pending = s.pending := rfl

/-! ### giveCause -/

@[simp] theorem State.giveCause_staged (s : State) (slot : Nat) (c : Cause) :
    (s.giveCause slot c).staged = s.staged := rfl
@[simp] theorem State.giveCause_active (s : State) (slot : Nat) (c : Cause) :
    (s.giveCause slot c).active = s.active := rfl
@[simp] theorem State.giveCause_imm (s : State) (slot : Nat) (c : Cause) :
    (s.giveCause slot c).imm = s.imm := rfl
@[simp] theorem State.giveCause_table (s : State) (slot : Nat) (c : Cause) :
    (s.giveCause slot c).table = s.table.map fun e => if e.slot = slot then { e with cause := some c } else e := rfl
@[simp] theorem State.giveCause_hold (s : State) (slot : Nat) (c : Cause) :
    (s.giveCause slot c).hold = s.hold := rfl
@[simp] theorem State.giveCause_pool (s : State) (slot : Nat) (c : Cause) :
    (s.giveCause slot c).pool = s.pool := rfl
@[simp] theorem State.giveCause_copyOut (s : State) (slot : Nat) (c : Cause) :
    (s.giveCause slot c).copyOut = s.copyOut := rfl
@[simp] theorem State.giveCause_retire (s : State) (slot : Nat) (c : Cause) :
    (s.giveCause slot c).retire = { s.retire with list := s.retire.list ++ [slot] } := rfl
@[simp] theorem State.giveCause_journal (s : State) (slot : Nat) (c : Cause) :
    (s.giveCause slot c).journal = s.journal := rfl
@[simp] theorem State.giveCause_epoch (s : State) (slot : Nat) (c : Cause) :
    (s.giveCause slot c).epoch = s.epoch := rfl
@[simp] theorem State.giveCause_mem (s : State) (slot : Nat) (c : Cause) :
    (s.giveCause slot c).mem = s.mem := rfl
@[simp] theorem State.giveCause_port (s : State) (slot : Nat) (c : Cause) :
    (s.giveCause slot c).port = s.port := rfl
@[simp] theorem State.giveCause_cmd (s : State) (slot : Nat) (c : Cause) :
    (s.giveCause slot c).cmd = s.cmd := rfl
@[simp] theorem State.giveCause_alert (s : State) (slot : Nat) (c : Cause) :
    (s.giveCause slot c).alert = s.alert := rfl
@[simp] theorem State.giveCause_out (s : State) (slot : Nat) (c : Cause) :
    (s.giveCause slot c).out = s.out := rfl
@[simp] theorem State.giveCause_choices (s : State) (slot : Nat) (c : Cause) :
    (s.giveCause slot c).choices = s.choices := rfl
@[simp] theorem State.giveCause_pending (s : State) (slot : Nat) (c : Cause) :
    (s.giveCause slot c).pending = s.pending := rfl

/-! ### hitEntry -/

@[simp] theorem State.hitEntry_staged (s : State) (e : Entry) (i : Initiator) (time : Word) :
    (s.hitEntry e i time).staged = s.staged := rfl
@[simp] theorem State.hitEntry_active (s : State) (e : Entry) (i : Initiator) (time : Word) :
    (s.hitEntry e i time).active = s.active := rfl
@[simp] theorem State.hitEntry_imm (s : State) (e : Entry) (i : Initiator) (time : Word) :
    (s.hitEntry e i time).imm = s.imm := rfl
@[simp] theorem State.hitEntry_table (s : State) (e : Entry) (i : Initiator) (time : Word) :
    (s.hitEntry e i time).table = s.table.map fun x => if x.slot = e.slot then (x.update i time).withdrawAge else x := rfl
@[simp] theorem State.hitEntry_hold (s : State) (e : Entry) (i : Initiator) (time : Word) :
    (s.hitEntry e i time).hold = s.hold := rfl
@[simp] theorem State.hitEntry_pool (s : State) (e : Entry) (i : Initiator) (time : Word) :
    (s.hitEntry e i time).pool = s.pool := rfl
@[simp] theorem State.hitEntry_copyOut (s : State) (e : Entry) (i : Initiator) (time : Word) :
    (s.hitEntry e i time).copyOut = s.copyOut := rfl
@[simp] theorem State.hitEntry_retire (s : State) (e : Entry) (i : Initiator) (time : Word) :
    (s.hitEntry e i time).retire = { s.retire with
      list := if e.cause = some .age then s.retire.list.filter (· != e.slot) else s.retire.list } := rfl
@[simp] theorem State.hitEntry_journal (s : State) (e : Entry) (i : Initiator) (time : Word) :
    (s.hitEntry e i time).journal = s.journal := rfl
@[simp] theorem State.hitEntry_epoch (s : State) (e : Entry) (i : Initiator) (time : Word) :
    (s.hitEntry e i time).epoch = s.epoch := rfl
@[simp] theorem State.hitEntry_mem (s : State) (e : Entry) (i : Initiator) (time : Word) :
    (s.hitEntry e i time).mem = s.mem := rfl
@[simp] theorem State.hitEntry_port (s : State) (e : Entry) (i : Initiator) (time : Word) :
    (s.hitEntry e i time).port = s.port := rfl
@[simp] theorem State.hitEntry_cmd (s : State) (e : Entry) (i : Initiator) (time : Word) :
    (s.hitEntry e i time).cmd = s.cmd := rfl
@[simp] theorem State.hitEntry_alert (s : State) (e : Entry) (i : Initiator) (time : Word) :
    (s.hitEntry e i time).alert = s.alert := rfl
@[simp] theorem State.hitEntry_out (s : State) (e : Entry) (i : Initiator) (time : Word) :
    (s.hitEntry e i time).out = s.out := rfl
@[simp] theorem State.hitEntry_choices (s : State) (e : Entry) (i : Initiator) (time : Word) :
    (s.hitEntry e i time).choices = s.choices := rfl
@[simp] theorem State.hitEntry_pending (s : State) (e : Entry) (i : Initiator) (time : Word) :
    (s.hitEntry e i time).pending = s.pending := rfl

/-! ### countUntracked -/

@[simp] theorem State.countUntracked_staged (s : State) (n : Nat) :
    (s.countUntracked n).staged = s.staged := rfl
@[simp] theorem State.countUntracked_active (s : State) (n : Nat) :
    (s.countUntracked n).active = s.active := rfl
@[simp] theorem State.countUntracked_imm (s : State) (n : Nat) :
    (s.countUntracked n).imm = s.imm := rfl
@[simp] theorem State.countUntracked_table (s : State) (n : Nat) :
    (s.countUntracked n).table = s.table := rfl
@[simp] theorem State.countUntracked_hold (s : State) (n : Nat) :
    (s.countUntracked n).hold = s.hold := rfl
@[simp] theorem State.countUntracked_pool (s : State) (n : Nat) :
    (s.countUntracked n).pool = s.pool := rfl
@[simp] theorem State.countUntracked_copyOut (s : State) (n : Nat) :
    (s.countUntracked n).copyOut = s.copyOut := rfl
@[simp] theorem State.countUntracked_retire (s : State) (n : Nat) :
    (s.countUntracked n).retire = s.retire := rfl
@[simp] theorem State.countUntracked_journal (s : State) (n : Nat) :
    (s.countUntracked n).journal = s.journal := rfl
@[simp] theorem State.countUntracked_epoch (s : State) (n : Nat) :
    (s.countUntracked n).epoch = { s.epoch with untracked := BitVec.ofNat 32 (min (s.epoch.untracked.toNat + n) (2 ^ 32 - 1)) } := rfl
@[simp] theorem State.countUntracked_mem (s : State) (n : Nat) :
    (s.countUntracked n).mem = s.mem := rfl
@[simp] theorem State.countUntracked_port (s : State) (n : Nat) :
    (s.countUntracked n).port = s.port := rfl
@[simp] theorem State.countUntracked_cmd (s : State) (n : Nat) :
    (s.countUntracked n).cmd = s.cmd := rfl
@[simp] theorem State.countUntracked_alert (s : State) (n : Nat) :
    (s.countUntracked n).alert = s.alert := rfl
@[simp] theorem State.countUntracked_out (s : State) (n : Nat) :
    (s.countUntracked n).out = s.out := rfl
@[simp] theorem State.countUntracked_choices (s : State) (n : Nat) :
    (s.countUntracked n).choices = s.choices := rfl
@[simp] theorem State.countUntracked_pending (s : State) (n : Nat) :
    (s.countUntracked n).pending = s.pending := rfl

/-! ### setHold -/

@[simp] theorem State.setHold_staged (s : State) (q : List HeldReq) :
    (s.setHold q).staged = s.staged := rfl
@[simp] theorem State.setHold_active (s : State) (q : List HeldReq) :
    (s.setHold q).active = s.active := rfl
@[simp] theorem State.setHold_imm (s : State) (q : List HeldReq) : (s.setHold q).imm = s.imm := rfl
@[simp] theorem State.setHold_table (s : State) (q : List HeldReq) :
    (s.setHold q).table = s.table := rfl
@[simp] theorem State.setHold_hold (s : State) (q : List HeldReq) : (s.setHold q).hold = q := rfl
@[simp] theorem State.setHold_pool (s : State) (q : List HeldReq) :
    (s.setHold q).pool = s.pool := rfl
@[simp] theorem State.setHold_copyOut (s : State) (q : List HeldReq) :
    (s.setHold q).copyOut = s.copyOut := rfl
@[simp] theorem State.setHold_retire (s : State) (q : List HeldReq) :
    (s.setHold q).retire = s.retire := rfl
@[simp] theorem State.setHold_journal (s : State) (q : List HeldReq) :
    (s.setHold q).journal = s.journal := rfl
@[simp] theorem State.setHold_epoch (s : State) (q : List HeldReq) :
    (s.setHold q).epoch = s.epoch := rfl
@[simp] theorem State.setHold_mem (s : State) (q : List HeldReq) : (s.setHold q).mem = s.mem := rfl
@[simp] theorem State.setHold_port (s : State) (q : List HeldReq) :
    (s.setHold q).port = s.port := rfl
@[simp] theorem State.setHold_cmd (s : State) (q : List HeldReq) : (s.setHold q).cmd = s.cmd := rfl
@[simp] theorem State.setHold_alert (s : State) (q : List HeldReq) :
    (s.setHold q).alert = (endedHolds s.hold q).foldl Alert.noteHold s.alert := rfl
@[simp] theorem State.setHold_out (s : State) (q : List HeldReq) : (s.setHold q).out = s.out := rfl
@[simp] theorem State.setHold_choices (s : State) (q : List HeldReq) :
    (s.setHold q).choices = s.choices := rfl
@[simp] theorem State.setHold_pending (s : State) (q : List HeldReq) :
    (s.setHold q).pending = s.pending := rfl

/-! ### joinHold -/

@[simp] theorem State.joinHold_staged (s : State) (r : Request) (x : Hold) :
    (s.joinHold r x).staged = s.staged := rfl
@[simp] theorem State.joinHold_active (s : State) (r : Request) (x : Hold) :
    (s.joinHold r x).active = s.active := rfl
@[simp] theorem State.joinHold_imm (s : State) (r : Request) (x : Hold) :
    (s.joinHold r x).imm = s.imm := rfl
@[simp] theorem State.joinHold_table (s : State) (r : Request) (x : Hold) :
    (s.joinHold r x).table = s.table := rfl
@[simp] theorem State.joinHold_hold (s : State) (r : Request) (x : Hold) :
    (s.joinHold r x).hold = s.hold ++
      [{ req := r, hold := x, start := s.epoch.partTime, time := 0, reachedAlert := false }] := rfl
@[simp] theorem State.joinHold_pool (s : State) (r : Request) (x : Hold) :
    (s.joinHold r x).pool = s.pool := rfl
@[simp] theorem State.joinHold_copyOut (s : State) (r : Request) (x : Hold) :
    (s.joinHold r x).copyOut = s.copyOut := rfl
@[simp] theorem State.joinHold_retire (s : State) (r : Request) (x : Hold) :
    (s.joinHold r x).retire = s.retire := rfl
@[simp] theorem State.joinHold_journal (s : State) (r : Request) (x : Hold) :
    (s.joinHold r x).journal = s.journal := rfl
@[simp] theorem State.joinHold_epoch (s : State) (r : Request) (x : Hold) :
    (s.joinHold r x).epoch = s.epoch := rfl
@[simp] theorem State.joinHold_mem (s : State) (r : Request) (x : Hold) :
    (s.joinHold r x).mem = s.mem := rfl
@[simp] theorem State.joinHold_port (s : State) (r : Request) (x : Hold) :
    (s.joinHold r x).port = s.port := rfl
@[simp] theorem State.joinHold_cmd (s : State) (r : Request) (x : Hold) :
    (s.joinHold r x).cmd = s.cmd := rfl
@[simp] theorem State.joinHold_alert (s : State) (r : Request) (x : Hold) :
    (s.joinHold r x).alert = s.alert := rfl
@[simp] theorem State.joinHold_out (s : State) (r : Request) (x : Hold) :
    (s.joinHold r x).out = s.out := rfl
@[simp] theorem State.joinHold_choices (s : State) (r : Request) (x : Hold) :
    (s.joinHold r x).choices = s.choices := rfl
@[simp] theorem State.joinHold_pending (s : State) (r : Request) (x : Hold) :
    (s.joinHold r x).pending = s.pending := rfl

/-! ### joinPass -/

@[simp] theorem State.joinPass_staged (s : State) (r : Request) :
    (s.joinPass r).staged = s.staged := rfl
@[simp] theorem State.joinPass_active (s : State) (r : Request) :
    (s.joinPass r).active = s.active := rfl
@[simp] theorem State.joinPass_imm (s : State) (r : Request) : (s.joinPass r).imm = s.imm := rfl
@[simp] theorem State.joinPass_table (s : State) (r : Request) :
    (s.joinPass r).table = s.table := rfl
@[simp] theorem State.joinPass_hold (s : State) (r : Request) : (s.joinPass r).hold = s.hold := rfl
@[simp] theorem State.joinPass_pool (s : State) (r : Request) : (s.joinPass r).pool = s.pool := rfl
@[simp] theorem State.joinPass_copyOut (s : State) (r : Request) :
    (s.joinPass r).copyOut = s.copyOut := rfl
@[simp] theorem State.joinPass_retire (s : State) (r : Request) :
    (s.joinPass r).retire = s.retire := rfl
@[simp] theorem State.joinPass_journal (s : State) (r : Request) :
    (s.joinPass r).journal = s.journal := rfl
@[simp] theorem State.joinPass_epoch (s : State) (r : Request) :
    (s.joinPass r).epoch = s.epoch := rfl
@[simp] theorem State.joinPass_mem (s : State) (r : Request) :
    (s.joinPass r).mem = { s.mem with passQ := s.mem.passQ ++ [r] } := rfl
@[simp] theorem State.joinPass_port (s : State) (r : Request) : (s.joinPass r).port = s.port := rfl
@[simp] theorem State.joinPass_cmd (s : State) (r : Request) : (s.joinPass r).cmd = s.cmd := rfl
@[simp] theorem State.joinPass_alert (s : State) (r : Request) :
    (s.joinPass r).alert = s.alert := rfl
@[simp] theorem State.joinPass_out (s : State) (r : Request) : (s.joinPass r).out = s.out := rfl
@[simp] theorem State.joinPass_choices (s : State) (r : Request) :
    (s.joinPass r).choices = s.choices := rfl
@[simp] theorem State.joinPass_pending (s : State) (r : Request) :
    (s.joinPass r).pending = s.pending := rfl

/-! ### queueB -/

@[simp] theorem State.queueB_staged (s : State) (role : OwnRole) (addr : Addr) (op : Op) :
    (s.queueB role addr op).staged = s.staged := rfl
@[simp] theorem State.queueB_active (s : State) (role : OwnRole) (addr : Addr) (op : Op) :
    (s.queueB role addr op).active = s.active := rfl
@[simp] theorem State.queueB_imm (s : State) (role : OwnRole) (addr : Addr) (op : Op) :
    (s.queueB role addr op).imm = s.imm := rfl
@[simp] theorem State.queueB_table (s : State) (role : OwnRole) (addr : Addr) (op : Op) :
    (s.queueB role addr op).table = s.table := rfl
@[simp] theorem State.queueB_hold (s : State) (role : OwnRole) (addr : Addr) (op : Op) :
    (s.queueB role addr op).hold = s.hold := rfl
@[simp] theorem State.queueB_pool (s : State) (role : OwnRole) (addr : Addr) (op : Op) :
    (s.queueB role addr op).pool = s.pool := rfl
@[simp] theorem State.queueB_copyOut (s : State) (role : OwnRole) (addr : Addr) (op : Op) :
    (s.queueB role addr op).copyOut = s.copyOut := rfl
@[simp] theorem State.queueB_retire (s : State) (role : OwnRole) (addr : Addr) (op : Op) :
    (s.queueB role addr op).retire = s.retire := rfl
@[simp] theorem State.queueB_journal (s : State) (role : OwnRole) (addr : Addr) (op : Op) :
    (s.queueB role addr op).journal = s.journal := rfl
@[simp] theorem State.queueB_epoch (s : State) (role : OwnRole) (addr : Addr) (op : Op) :
    (s.queueB role addr op).epoch = s.epoch := rfl
@[simp] theorem State.queueB_mem (s : State) (role : OwnRole) (addr : Addr) (op : Op) :
    (s.queueB role addr op).mem = { s.mem with
      classB := s.mem.classB ++ [{ role, addr, op, key := 2 * s.mem.nextPlace + 1 }]
      nextPlace := s.mem.nextPlace + 1 } := rfl
@[simp] theorem State.queueB_port (s : State) (role : OwnRole) (addr : Addr) (op : Op) :
    (s.queueB role addr op).port = s.port := rfl
@[simp] theorem State.queueB_cmd (s : State) (role : OwnRole) (addr : Addr) (op : Op) :
    (s.queueB role addr op).cmd = s.cmd := rfl
@[simp] theorem State.queueB_alert (s : State) (role : OwnRole) (addr : Addr) (op : Op) :
    (s.queueB role addr op).alert = s.alert := rfl
@[simp] theorem State.queueB_out (s : State) (role : OwnRole) (addr : Addr) (op : Op) :
    (s.queueB role addr op).out = s.out := rfl
@[simp] theorem State.queueB_choices (s : State) (role : OwnRole) (addr : Addr) (op : Op) :
    (s.queueB role addr op).choices = s.choices := rfl
@[simp] theorem State.queueB_pending (s : State) (role : OwnRole) (addr : Addr) (op : Op) :
    (s.queueB role addr op).pending = s.pending := rfl

/-! ### endOwn -/

@[simp] theorem State.endOwn_staged (s : State) (tag : Nat) :
    (s.endOwn tag).staged = s.staged := rfl
@[simp] theorem State.endOwn_active (s : State) (tag : Nat) :
    (s.endOwn tag).active = s.active := rfl
@[simp] theorem State.endOwn_imm (s : State) (tag : Nat) : (s.endOwn tag).imm = s.imm := rfl
@[simp] theorem State.endOwn_table (s : State) (tag : Nat) : (s.endOwn tag).table = s.table := rfl
@[simp] theorem State.endOwn_hold (s : State) (tag : Nat) : (s.endOwn tag).hold = s.hold := rfl
@[simp] theorem State.endOwn_pool (s : State) (tag : Nat) : (s.endOwn tag).pool = s.pool := rfl
@[simp] theorem State.endOwn_copyOut (s : State) (tag : Nat) :
    (s.endOwn tag).copyOut = s.copyOut := rfl
@[simp] theorem State.endOwn_retire (s : State) (tag : Nat) :
    (s.endOwn tag).retire = s.retire := rfl
@[simp] theorem State.endOwn_journal (s : State) (tag : Nat) :
    (s.endOwn tag).journal = s.journal := rfl
@[simp] theorem State.endOwn_epoch (s : State) (tag : Nat) : (s.endOwn tag).epoch = s.epoch := rfl
@[simp] theorem State.endOwn_mem (s : State) (tag : Nat) :
    (s.endOwn tag).mem = { s.mem with issuedOwn := s.mem.issuedOwn.eraseP (·.tag == tag) } := rfl
@[simp] theorem State.endOwn_port (s : State) (tag : Nat) : (s.endOwn tag).port = s.port := rfl
@[simp] theorem State.endOwn_cmd (s : State) (tag : Nat) : (s.endOwn tag).cmd = s.cmd := rfl
@[simp] theorem State.endOwn_alert (s : State) (tag : Nat) : (s.endOwn tag).alert = s.alert := rfl
@[simp] theorem State.endOwn_out (s : State) (tag : Nat) : (s.endOwn tag).out = s.out := rfl
@[simp] theorem State.endOwn_choices (s : State) (tag : Nat) :
    (s.endOwn tag).choices = s.choices := rfl
@[simp] theorem State.endOwn_pending (s : State) (tag : Nat) :
    (s.endOwn tag).pending = s.pending := rfl

/-! ### dropOwn -/

@[simp] theorem State.dropOwn_staged (s : State) : (s.dropOwn).staged = s.staged := rfl
@[simp] theorem State.dropOwn_active (s : State) : (s.dropOwn).active = s.active := rfl
@[simp] theorem State.dropOwn_imm (s : State) : (s.dropOwn).imm = s.imm := rfl
@[simp] theorem State.dropOwn_table (s : State) : (s.dropOwn).table = s.table := rfl
@[simp] theorem State.dropOwn_hold (s : State) : (s.dropOwn).hold = s.hold := rfl
@[simp] theorem State.dropOwn_pool (s : State) : (s.dropOwn).pool = s.pool := rfl
@[simp] theorem State.dropOwn_copyOut (s : State) : (s.dropOwn).copyOut = s.copyOut := rfl
@[simp] theorem State.dropOwn_retire (s : State) : (s.dropOwn).retire = s.retire := rfl
@[simp] theorem State.dropOwn_journal (s : State) : (s.dropOwn).journal = s.journal := rfl
@[simp] theorem State.dropOwn_epoch (s : State) : (s.dropOwn).epoch = s.epoch := rfl
@[simp] theorem State.dropOwn_mem (s : State) :
    (s.dropOwn).mem = { s.mem with
      classC := [], classB := []
      issuedOwn := s.mem.issuedOwn.map fun i => { i with abandoned := true } } := rfl
@[simp] theorem State.dropOwn_port (s : State) : (s.dropOwn).port = s.port := rfl
@[simp] theorem State.dropOwn_cmd (s : State) : (s.dropOwn).cmd = s.cmd := rfl
@[simp] theorem State.dropOwn_alert (s : State) : (s.dropOwn).alert = s.alert := rfl
@[simp] theorem State.dropOwn_out (s : State) : (s.dropOwn).out = s.out := rfl
@[simp] theorem State.dropOwn_choices (s : State) : (s.dropOwn).choices = s.choices := rfl
@[simp] theorem State.dropOwn_pending (s : State) : (s.dropOwn).pending = s.pending := rfl

/-! ### endFirWait -/

@[simp] theorem State.endFirWait_staged (s : State) : (s.endFirWait).staged = s.staged := rfl
@[simp] theorem State.endFirWait_active (s : State) : (s.endFirWait).active = s.active := rfl
@[simp] theorem State.endFirWait_imm (s : State) : (s.endFirWait).imm = s.imm := rfl
@[simp] theorem State.endFirWait_table (s : State) : (s.endFirWait).table = s.table := rfl
@[simp] theorem State.endFirWait_hold (s : State) : (s.endFirWait).hold = s.hold := rfl
@[simp] theorem State.endFirWait_pool (s : State) : (s.endFirWait).pool = s.pool := rfl
@[simp] theorem State.endFirWait_copyOut (s : State) :
    (s.endFirWait).copyOut = { s.copyOut with wait := false, timer := none } := rfl
@[simp] theorem State.endFirWait_retire (s : State) : (s.endFirWait).retire = s.retire := rfl
@[simp] theorem State.endFirWait_journal (s : State) : (s.endFirWait).journal = s.journal := rfl
@[simp] theorem State.endFirWait_epoch (s : State) : (s.endFirWait).epoch = s.epoch := rfl
@[simp] theorem State.endFirWait_mem (s : State) : (s.endFirWait).mem = s.mem := rfl
@[simp] theorem State.endFirWait_port (s : State) : (s.endFirWait).port = s.port := rfl
@[simp] theorem State.endFirWait_cmd (s : State) : (s.endFirWait).cmd = s.cmd := rfl
@[simp] theorem State.endFirWait_alert (s : State) : (s.endFirWait).alert = s.alert := rfl
@[simp] theorem State.endFirWait_out (s : State) : (s.endFirWait).out = s.out := rfl
@[simp] theorem State.endFirWait_choices (s : State) : (s.endFirWait).choices = s.choices := rfl
@[simp] theorem State.endFirWait_pending (s : State) : (s.endFirWait).pending = s.pending := rfl

/-! ### endRingWait -/

@[simp] theorem State.endRingWait_staged (s : State) : (s.endRingWait).staged = s.staged := rfl
@[simp] theorem State.endRingWait_active (s : State) : (s.endRingWait).active = s.active := rfl
@[simp] theorem State.endRingWait_imm (s : State) : (s.endRingWait).imm = s.imm := rfl
@[simp] theorem State.endRingWait_table (s : State) : (s.endRingWait).table = s.table := rfl
@[simp] theorem State.endRingWait_hold (s : State) : (s.endRingWait).hold = s.hold := rfl
@[simp] theorem State.endRingWait_pool (s : State) : (s.endRingWait).pool = s.pool := rfl
@[simp] theorem State.endRingWait_copyOut (s : State) : (s.endRingWait).copyOut = s.copyOut := rfl
@[simp] theorem State.endRingWait_retire (s : State) : (s.endRingWait).retire = s.retire := rfl
@[simp] theorem State.endRingWait_journal (s : State) :
    (s.endRingWait).journal = { s.journal with wait := false, timer := none } := rfl
@[simp] theorem State.endRingWait_epoch (s : State) : (s.endRingWait).epoch = s.epoch := rfl
@[simp] theorem State.endRingWait_mem (s : State) : (s.endRingWait).mem = s.mem := rfl
@[simp] theorem State.endRingWait_port (s : State) : (s.endRingWait).port = s.port := rfl
@[simp] theorem State.endRingWait_cmd (s : State) : (s.endRingWait).cmd = s.cmd := rfl
@[simp] theorem State.endRingWait_alert (s : State) : (s.endRingWait).alert = s.alert := rfl
@[simp] theorem State.endRingWait_out (s : State) : (s.endRingWait).out = s.out := rfl
@[simp] theorem State.endRingWait_choices (s : State) : (s.endRingWait).choices = s.choices := rfl
@[simp] theorem State.endRingWait_pending (s : State) : (s.endRingWait).pending = s.pending := rfl

/-! ### joinRecords -/

@[simp] theorem State.joinRecords_staged (s : State) (r : Record) :
    (s.joinRecords r).staged = s.staged := rfl
@[simp] theorem State.joinRecords_active (s : State) (r : Record) :
    (s.joinRecords r).active = s.active := rfl
@[simp] theorem State.joinRecords_imm (s : State) (r : Record) :
    (s.joinRecords r).imm = s.imm := rfl
@[simp] theorem State.joinRecords_table (s : State) (r : Record) :
    (s.joinRecords r).table = s.table := rfl
@[simp] theorem State.joinRecords_hold (s : State) (r : Record) :
    (s.joinRecords r).hold = s.hold := rfl
@[simp] theorem State.joinRecords_pool (s : State) (r : Record) :
    (s.joinRecords r).pool = s.pool := rfl
@[simp] theorem State.joinRecords_copyOut (s : State) (r : Record) :
    (s.joinRecords r).copyOut = s.copyOut := rfl
@[simp] theorem State.joinRecords_retire (s : State) (r : Record) :
    (s.joinRecords r).retire = s.retire := rfl
@[simp] theorem State.joinRecords_journal (s : State) (r : Record) :
    (s.joinRecords r).journal = { s.journal with queue := s.journal.queue ++ [r] } := rfl
@[simp] theorem State.joinRecords_epoch (s : State) (r : Record) :
    (s.joinRecords r).epoch = s.epoch := rfl
@[simp] theorem State.joinRecords_mem (s : State) (r : Record) :
    (s.joinRecords r).mem = s.mem := rfl
@[simp] theorem State.joinRecords_port (s : State) (r : Record) :
    (s.joinRecords r).port = s.port := rfl
@[simp] theorem State.joinRecords_cmd (s : State) (r : Record) :
    (s.joinRecords r).cmd = s.cmd := rfl
@[simp] theorem State.joinRecords_alert (s : State) (r : Record) :
    (s.joinRecords r).alert = s.alert := rfl
@[simp] theorem State.joinRecords_out (s : State) (r : Record) :
    (s.joinRecords r).out = s.out := rfl
@[simp] theorem State.joinRecords_choices (s : State) (r : Record) :
    (s.joinRecords r).choices = s.choices := rfl
@[simp] theorem State.joinRecords_pending (s : State) (r : Record) :
    (s.joinRecords r).pending = s.pending := rfl

/-! ### issueOwn -/

@[simp] theorem State.issueOwn_staged (s : State) (r : OwnReq) :
    (s.issueOwn r).staged = s.staged := rfl
@[simp] theorem State.issueOwn_active (s : State) (r : OwnReq) :
    (s.issueOwn r).active = s.active := rfl
@[simp] theorem State.issueOwn_imm (s : State) (r : OwnReq) : (s.issueOwn r).imm = s.imm := rfl
@[simp] theorem State.issueOwn_table (s : State) (r : OwnReq) :
    (s.issueOwn r).table = s.table := rfl
@[simp] theorem State.issueOwn_hold (s : State) (r : OwnReq) : (s.issueOwn r).hold = s.hold := rfl
@[simp] theorem State.issueOwn_pool (s : State) (r : OwnReq) : (s.issueOwn r).pool = s.pool := rfl
@[simp] theorem State.issueOwn_copyOut (s : State) (r : OwnReq) :
    (s.issueOwn r).copyOut = s.copyOut := rfl
@[simp] theorem State.issueOwn_retire (s : State) (r : OwnReq) :
    (s.issueOwn r).retire = s.retire := rfl
@[simp] theorem State.issueOwn_journal (s : State) (r : OwnReq) :
    (s.issueOwn r).journal = s.journal := rfl
@[simp] theorem State.issueOwn_epoch (s : State) (r : OwnReq) :
    (s.issueOwn r).epoch = s.epoch := rfl
@[simp] theorem State.issueOwn_mem (s : State) (r : OwnReq) :
    (s.issueOwn r).mem = { s.mem with
      issuedOwn := s.mem.issuedOwn ++ [⟨s.mem.nextTag, r, 0, false⟩]
      nextTag := s.mem.nextTag + 1 } := rfl
@[simp] theorem State.issueOwn_port (s : State) (r : OwnReq) : (s.issueOwn r).port = s.port := rfl
@[simp] theorem State.issueOwn_cmd (s : State) (r : OwnReq) : (s.issueOwn r).cmd = s.cmd := rfl
@[simp] theorem State.issueOwn_alert (s : State) (r : OwnReq) :
    (s.issueOwn r).alert = s.alert := rfl
@[simp] theorem State.issueOwn_out (s : State) (r : OwnReq) : (s.issueOwn r).out = s.out := rfl
@[simp] theorem State.issueOwn_choices (s : State) (r : OwnReq) :
    (s.issueOwn r).choices = s.choices := rfl
@[simp] theorem State.issueOwn_pending (s : State) (r : OwnReq) :
    (s.issueOwn r).pending = s.pending := rfl

/-! ### ack -/

@[simp] theorem State.ack_staged (s : State) : (s.ack).staged = s.staged := rfl
@[simp] theorem State.ack_active (s : State) : (s.ack).active = s.active := rfl
@[simp] theorem State.ack_imm (s : State) : (s.ack).imm = s.imm := rfl
@[simp] theorem State.ack_table (s : State) : (s.ack).table = s.table := rfl
@[simp] theorem State.ack_hold (s : State) : (s.ack).hold = s.hold := rfl
@[simp] theorem State.ack_pool (s : State) : (s.ack).pool = s.pool := rfl
@[simp] theorem State.ack_copyOut (s : State) : (s.ack).copyOut = s.copyOut := rfl
@[simp] theorem State.ack_retire (s : State) : (s.ack).retire = s.retire := rfl
@[simp] theorem State.ack_journal (s : State) : (s.ack).journal = s.journal := rfl
@[simp] theorem State.ack_epoch (s : State) : (s.ack).epoch = s.epoch := rfl
@[simp] theorem State.ack_mem (s : State) : (s.ack).mem = s.mem := rfl
@[simp] theorem State.ack_port (s : State) : (s.ack).port = s.port := rfl
@[simp] theorem State.ack_cmd (s : State) : (s.ack).cmd = s.cmd := rfl
@[simp] theorem State.ack_alert (s : State) : (s.ack).alert = s.alert := rfl
@[simp] theorem State.ack_out (s : State) :
    (s.ack).out = { s.out with bus := s.out.bus ++ [.ack] } := rfl
@[simp] theorem State.ack_choices (s : State) : (s.ack).choices = s.choices := rfl
@[simp] theorem State.ack_pending (s : State) : (s.ack).pending = s.pending := rfl

/-! ### sendByte -/

@[simp] theorem State.sendByte_staged (s : State) (b : Byte) :
    (s.sendByte b).staged = s.staged := rfl
@[simp] theorem State.sendByte_active (s : State) (b : Byte) :
    (s.sendByte b).active = s.active := rfl
@[simp] theorem State.sendByte_imm (s : State) (b : Byte) : (s.sendByte b).imm = s.imm := rfl
@[simp] theorem State.sendByte_table (s : State) (b : Byte) : (s.sendByte b).table = s.table := rfl
@[simp] theorem State.sendByte_hold (s : State) (b : Byte) : (s.sendByte b).hold = s.hold := rfl
@[simp] theorem State.sendByte_pool (s : State) (b : Byte) : (s.sendByte b).pool = s.pool := rfl
@[simp] theorem State.sendByte_copyOut (s : State) (b : Byte) :
    (s.sendByte b).copyOut = s.copyOut := rfl
@[simp] theorem State.sendByte_retire (s : State) (b : Byte) :
    (s.sendByte b).retire = s.retire := rfl
@[simp] theorem State.sendByte_journal (s : State) (b : Byte) :
    (s.sendByte b).journal = s.journal := rfl
@[simp] theorem State.sendByte_epoch (s : State) (b : Byte) : (s.sendByte b).epoch = s.epoch := rfl
@[simp] theorem State.sendByte_mem (s : State) (b : Byte) : (s.sendByte b).mem = s.mem := rfl
@[simp] theorem State.sendByte_port (s : State) (b : Byte) : (s.sendByte b).port = s.port := rfl
@[simp] theorem State.sendByte_cmd (s : State) (b : Byte) : (s.sendByte b).cmd = s.cmd := rfl
@[simp] theorem State.sendByte_alert (s : State) (b : Byte) : (s.sendByte b).alert = s.alert := rfl
@[simp] theorem State.sendByte_out (s : State) (b : Byte) :
    (s.sendByte b).out = { s.out with bus := s.out.bus ++ [.byte b] } := rfl
@[simp] theorem State.sendByte_choices (s : State) (b : Byte) :
    (s.sendByte b).choices = s.choices := rfl
@[simp] theorem State.sendByte_pending (s : State) (b : Byte) :
    (s.sendByte b).pending = s.pending := rfl

end Sys2Proof.Machine
end

