-- ==== Sys2Proof/Laws/Ops.lean ====
section
/-! SUPPORT. What each shared operation can do, said once: the Hold Queue's operations, the alerts,
the numbering of free slots and buffers, the pool's contents, and which parts of State the larger
operations leave as they were. -/

namespace Sys2Proof.Machine

/-! ### The port -/

theorem MgmtPort.advance_eq_written (p : MgmtPort) (x : Byte) :
    MgmtPort.advance { p with pointer := x, endMarker := false } = p.written x := by
  unfold MgmtPort.advance MgmtPort.written
  by_cases h : x = 0xFF
  · subst h; simp
  · have h' : ¬x = 255#8 := h
    simp [h']

/-- A completed register write leaves a moved pointer and one acknowledge. -/
theorem State.afterWrite_eq (s : State) (x : Byte) :
    s.afterWrite x =
      { s with port := s.port.written x, out.bus := s.out.bus ++ [.ack] } := by
  simp [State.afterWrite, State.ack, MgmtPort.advance_eq_written]

theorem State.onPort_of_released (s : State) (f : State → State)
    (h : s.port.resetAsserted = false) : s.onPort f = .next (f s) := by
  simp [State.onPort, h]

theorem State.onPort_of_asserted (s : State) (f : State → State)
    (h : s.port.resetAsserted = true) : s.onPort f = .next s := by
  simp [State.onPort, h]

theorem Latches.get_set_self (l : Latches) (q : Wide) (v : Half) : (l.set q v).get q = v := by
  cases q <;> rfl

theorem Latches.get_set_other (l : Latches) (q q' : Wide) (v : Half) (h : q ≠ q') :
    (l.set q v).get q' = l.get q' := by
  cases q <;> cases q' <;> first | rfl | exact absurd rfl h

/-! ### Event flags and alerts -/

theorem EventFlag.bit_disjoint : ∀ f g : EventFlag, f ≠ g → f.bit &&& g.bit = 0 := by
  intro f g h
  cases f <;> cases g <;> first | rfl | exact absurd rfl h

theorem EventFlag.bit_ne_zero : ∀ f : EventFlag, f.bit ≠ 0 := by
  intro f; cases f <;> decide

theorem Alert.isSet_raise (a : Alert) (f g : EventFlag) :
    Alert.isSet { a with flags := a.flags ||| g.bit } f = (a.isSet f || decide (f = g)) := by
  have hb : (a.flags ||| g.bit) &&& f.bit = (a.flags &&& f.bit) ||| (g.bit &&& f.bit) := by
    ext i hi; simp; cases a.flags[i] <;> cases g.bit[i] <;> cases f.bit[i] <;> simp
  simp only [Alert.isSet, hb]
  by_cases h : f = g
  · subst h
    have hz : (a.flags &&& f.bit ||| f.bit) = f.bit := by
      ext i hi; simp only [BitVec.getElem_or, BitVec.getElem_and]
      cases a.flags[i] <;> cases f.bit[i] <;> rfl
    simpa [hz] using EventFlag.bit_ne_zero f
  · simp [h, EventFlag.bit_disjoint g f (Ne.symm h)]

theorem Alert.isSet_clear (a : Alert) (f g : EventFlag) :
    Alert.isSet { a with flags := a.flags &&& ~~~g.bit } f = (a.isSet f && !decide (f = g)) := by
  simp only [Alert.isSet]
  by_cases h : f = g
  · subst h
    have hz : (a.flags &&& ~~~f.bit) &&& f.bit = 0 := by
      ext i hi; simp only [BitVec.getElem_and, BitVec.getElem_not]
      cases a.flags[i] <;> cases f.bit[i] <;> simp
    simp [hz]
  · have hb : (a.flags &&& ~~~g.bit) &&& f.bit = (a.flags &&& f.bit) &&& ~~~(g.bit &&& f.bit) := by
      ext i hi; simp only [BitVec.getElem_and, BitVec.getElem_not]
      cases a.flags[i] <;> cases g.bit[i] <;> cases f.bit[i] <;> rfl
    rw [hb, EventFlag.bit_disjoint g f (Ne.symm h)]
    have hz : ∀ x : BitVec 11, x &&& ~~~0 = x := fun x => by
      ext i hi; simp only [BitVec.getElem_and, BitVec.getElem_not]; simp
    simp only [hz, h, decide_false, Bool.not_false, Bool.and_true]

theorem State.applyVerdict_eq (s : State) (f : EventFlag) (v : AlertVerdict) :
    s.applyVerdict f v =
      { s with alert := { s.alert with flags := (s.applyVerdict f v).alert.flags } } := by
  cases v <;> rfl

/-- An evaluation follows the alert's rule and touches no other flag. -/
theorem State.applyVerdict_rule (s : State) (f : EventFlag) (value upper lower : Nat)
    (mode : AlertMode) :
    AlertRule value upper lower mode (s.alert.isSet f)
        ((s.applyVerdict f (alertVerdict value upper lower mode)).alert.isSet f) ∧
      ∀ g, g ≠ f →
        (s.applyVerdict f (alertVerdict value upper lower mode)).alert.isSet g =
          s.alert.isSet g := by
  unfold alertVerdict AlertRule
  split_ifs with h1 h2
  · constructor
    · simp only [State.applyVerdict, State.raise, Alert.isSet_raise]
      refine ⟨fun _ => by simp, fun h => absurd h1 (by omega), fun h => absurd h1 (by omega)⟩
    · intro g hg
      simp [State.applyVerdict, State.raise, Alert.isSet_raise, hg]
  · constructor
    · simp only [State.applyVerdict, State.clearFlag, Alert.isSet_clear]
      refine ⟨fun h => absurd h h1, fun _ _ _ => by simp, ?_⟩
      rintro _ (h | h)
      · simp [h2.1] at h
      · omega
    · intro g hg
      simp [State.applyVerdict, State.clearFlag, Alert.isSet_clear, hg]
  · refine ⟨⟨fun h => absurd h h1, fun _ hm hl => absurd ⟨hm, hl⟩ h2, fun _ _ => rfl⟩, ?_⟩
    intro g _; rfl

theorem State.evalTableHigh_eq (s : State) :
    s.evalTableHigh = { s with alert.flags := s.evalTableHigh.alert.flags } :=
  s.applyVerdict_eq _ _

theorem State.evalPoolHigh_eq (s : State) :
    s.evalPoolHigh = { s with alert.flags := s.evalPoolHigh.alert.flags } :=
  s.applyVerdict_eq _ _

/-- Handing on occupancy touches the alerts alone. -/
theorem State.handOccupancy_eq (s : State) :
    s.handOccupancy = { s with alert := s.handOccupancy.alert } := by
  unfold State.handOccupancy
  split_ifs
  · rfl
  · rw [State.evalTableHigh_eq]

/-- Handing on pool use touches the alerts and the arbiter's mode alone. -/
theorem State.handPoolUse_eq (s : State) :
    s.handPoolUse =
      { s with alert := s.handPoolUse.alert, mem.drainMode := s.handPoolUse.mem.drainMode } := by
  unfold State.handPoolUse
  split_ifs
  · rfl
  · unfold State.evalDrainMode
    rw [State.evalPoolHigh_eq]

/-- Handing on changes touches the alerts and the arbiter's mode alone. -/
theorem State.handChanges_eq (s : State) :
    s.handChanges =
      { s with alert := s.handChanges.alert, mem.drainMode := s.handChanges.mem.drainMode } := by
  unfold State.handChanges
  rw [State.handPoolUse_eq s.handOccupancy, State.handOccupancy_eq]

/-- An evaluation gives the flags a value that follows the alert's rule. -/
theorem State.applyVerdict_flags (s : State) (f : EventFlag) (value upper lower : Nat)
    (mode : AlertMode) :
    ∃ fl, s.applyVerdict f (alertVerdict value upper lower mode) = { s with alert.flags := fl } ∧
      AlertRule value upper lower mode (s.alert.isSet f)
        (Alert.isSet { s.alert with flags := fl } f) ∧
      ∀ g, g ≠ f → Alert.isSet { s.alert with flags := fl } g = s.alert.isSet g := by
  obtain ⟨h1, h2⟩ := s.applyVerdict_rule f value upper lower mode
  refine ⟨_, s.applyVerdict_eq f _, ?_⟩
  rw [s.applyVerdict_eq] at h1 h2
  exact ⟨h1, h2⟩

/-- The state after occupancy is handed on, by what it makes of the flags and the peaks. -/
def State.occHandedAs (s : State) (fl : BitVec 11) (peak epochPeak : Nat) : State :=
  { s with alert := { s.alert with
      flags := fl, occHanded := s.occupancy, peakOcc := peak, epochPeakOcc := epochPeak } }

theorem State.handOccupancy_spec (s : State) : ∃ fl p q,
    s.handOccupancy = s.occHandedAs fl p q ∧
    (s.occupancy = s.alert.occHanded →
      fl = s.alert.flags ∧ p = s.alert.peakOcc ∧ q = s.alert.epochPeakOcc) ∧
    (s.occupancy ≠ s.alert.occHanded →
      AlertRule s.occupancy s.imm.tableUpper.toNat s.imm.tableLower.toNat s.imm.tableMode
        (s.alert.isSet .tableHigh) (Alert.isSet { s.alert with flags := fl } .tableHigh) ∧
      p = max s.alert.peakOcc s.occupancy ∧ q = max s.alert.epochPeakOcc s.occupancy) ∧
    ∀ f, f ≠ .tableHigh → Alert.isSet { s.alert with flags := fl } f = s.alert.isSet f := by
  by_cases h : s.occupancy = s.alert.occHanded
  · have hs : s.handOccupancy = s := by simp [State.handOccupancy, h]
    refine ⟨s.alert.flags, s.alert.peakOcc, s.alert.epochPeakOcc, ?_, fun _ => ⟨rfl, rfl, rfl⟩,
      fun h' => absurd h h', fun _ _ => rfl⟩
    rw [hs, State.occHandedAs, h]
  · obtain ⟨fl, h1, h2, h3⟩ := State.applyVerdict_flags
      { s with alert := { s.alert with
          occHanded := s.occupancy
          peakOcc := max s.alert.peakOcc s.occupancy
          epochPeakOcc := max s.alert.epochPeakOcc s.occupancy } } .tableHigh s.occupancy
      s.imm.tableUpper.toNat s.imm.tableLower.toNat s.imm.tableMode
    refine ⟨fl, _, _, ?_, fun h' => absurd h' h, fun _ => ⟨h2, rfl, rfl⟩, h3⟩
    rw [State.handOccupancy, if_neg h]
    exact h1

/-- The state after pool use is handed on, by what it makes of the flags, the peaks and the
arbiter's mode. -/
def State.poolHandedAs (s : State) (fl : BitVec 11) (peak epochPeak : Nat) (drain : Bool) : State :=
  { s with
    alert := { s.alert with
      flags := fl, poolHanded := s.poolUse, peakPool := peak, epochPeakPool := epochPeak }
    mem.drainMode := drain }

theorem State.handPoolUse_spec (s : State) : ∃ fl p q d,
    s.handPoolUse = s.poolHandedAs fl p q d ∧
    (s.poolUse = s.alert.poolHanded →
      fl = s.alert.flags ∧ p = s.alert.peakPool ∧ q = s.alert.epochPeakPool ∧
        d = s.mem.drainMode) ∧
    (s.poolUse ≠ s.alert.poolHanded →
      AlertRule s.poolUse s.imm.poolUpper.toNat s.imm.poolLower.toNat s.imm.poolAlertMode
        (s.alert.isSet .poolHigh) (Alert.isSet { s.alert with flags := fl } .poolHigh) ∧
      p = max s.alert.peakPool s.poolUse ∧ q = max s.alert.epochPeakPool s.poolUse ∧
      d = drainModeNext s.mem.drainMode s.poolUse s.imm.drainHigh.toNat s.imm.drainLow.toNat) ∧
    ∀ f, f ≠ .poolHigh → Alert.isSet { s.alert with flags := fl } f = s.alert.isSet f := by
  by_cases h : s.poolUse = s.alert.poolHanded
  · have hs : s.handPoolUse = s := by simp [State.handPoolUse, h]
    refine ⟨s.alert.flags, s.alert.peakPool, s.alert.epochPeakPool, s.mem.drainMode, ?_,
      fun _ => ⟨rfl, rfl, rfl, rfl⟩, fun h' => absurd h h', fun _ _ => rfl⟩
    rw [hs, State.poolHandedAs, h]
  · obtain ⟨fl, h1, h2, h3⟩ := State.applyVerdict_flags
      { s with alert := { s.alert with
          poolHanded := s.poolUse
          peakPool := max s.alert.peakPool s.poolUse
          epochPeakPool := max s.alert.epochPeakPool s.poolUse } } .poolHigh s.poolUse
      s.imm.poolUpper.toNat s.imm.poolLower.toNat s.imm.poolAlertMode
    have h1' : State.evalPoolHigh
        { s with alert := { s.alert with
            poolHanded := s.poolUse
            peakPool := max s.alert.peakPool s.poolUse
            epochPeakPool := max s.alert.epochPeakPool s.poolUse } } = _ := h1
    refine ⟨fl, _, _, _, ?_, fun h' => absurd h' h, fun _ => ⟨h2, rfl, rfl, rfl⟩, h3⟩
    rw [State.handPoolUse, if_neg h, h1']
    rfl

/-- What the handing on of changes does, quantity by quantity (R40, R70, R140, R165, R166, R169). -/
theorem State.handChanges_spec (s : State) :
      let t := s.handChanges
      (s.occupancy = s.alert.occHanded → t.alert.isSet .tableHigh = s.alert.isSet .tableHigh ∧
        t.alert.peakOcc = s.alert.peakOcc ∧ t.alert.epochPeakOcc = s.alert.epochPeakOcc) ∧
      (s.occupancy ≠ s.alert.occHanded →
        AlertRule s.occupancy s.imm.tableUpper.toNat s.imm.tableLower.toNat s.imm.tableMode
          (s.alert.isSet .tableHigh) (t.alert.isSet .tableHigh) ∧
        t.alert.peakOcc = max s.alert.peakOcc s.occupancy ∧
        t.alert.epochPeakOcc = max s.alert.epochPeakOcc s.occupancy) ∧
      t.alert.occHanded = s.occupancy ∧
      (s.poolUse = s.alert.poolHanded →
        t.alert.isSet .poolHigh = s.alert.isSet .poolHigh ∧ t.alert.peakPool = s.alert.peakPool ∧
        t.alert.epochPeakPool = s.alert.epochPeakPool ∧ t.mem.drainMode = s.mem.drainMode) ∧
      (s.poolUse ≠ s.alert.poolHanded →
        AlertRule s.poolUse s.imm.poolUpper.toNat s.imm.poolLower.toNat s.imm.poolAlertMode
          (s.alert.isSet .poolHigh) (t.alert.isSet .poolHigh) ∧
        t.alert.peakPool = max s.alert.peakPool s.poolUse ∧
        t.alert.epochPeakPool = max s.alert.epochPeakPool s.poolUse ∧
        t.mem.drainMode =
          drainModeNext s.mem.drainMode s.poolUse s.imm.drainHigh.toNat s.imm.drainLow.toNat) ∧
      t.alert.poolHanded = s.poolUse ∧
      (∀ f, f ≠ .tableHigh → f ≠ .poolHigh → t.alert.isSet f = s.alert.isSet f) ∧
      t = { s with
        alert := { s.alert with
          flags := t.alert.flags, peakOcc := t.alert.peakOcc, peakPool := t.alert.peakPool
          epochPeakOcc := t.alert.epochPeakOcc, epochPeakPool := t.alert.epochPeakPool
          occHanded := t.alert.occHanded, poolHanded := t.alert.poolHanded }
        mem.drainMode := t.mem.drainMode } := by
  obtain ⟨f1, p1, q1, h1, h2, h3, h4⟩ := State.handOccupancy_spec s
  dsimp only
  obtain ⟨f2, p2, q2, d2, g1, g2, g3, g4⟩ := State.handPoolUse_spec (s.occHandedAs f1 p1 q1)
  have e : s.handChanges = (s.occHandedAs f1 p1 q1).poolHandedAs f2 p2 q2 d2 := by
    unfold State.handChanges
    rw [h1, g1]
  have k : ∀ f, f ≠ .poolHigh →
      ((s.occHandedAs f1 p1 q1).poolHandedAs f2 p2 q2 d2).alert.isSet f =
        Alert.isSet { s.alert with flags := f1 } f := fun f hf => g4 f hf
  have k2 : (s.occHandedAs f1 p1 q1).alert.isSet .poolHigh = s.alert.isSet .poolHigh :=
    h4 .poolHigh (by decide)
  rw [e]
  refine ⟨?_, ?_, rfl, ?_, ?_, rfl, ?_, rfl⟩
  · intro h; obtain ⟨rfl, rfl, rfl⟩ := h2 h; exact ⟨k _ (by decide), rfl, rfl⟩
  · intro h; rw [k _ (by decide)]; exact h3 h
  · intro h
    obtain ⟨rfl, rfl, rfl, rfl⟩ := g2 h
    exact ⟨k2, rfl, rfl, rfl⟩
  · intro h
    obtain ⟨a1, a2, a3, a4⟩ := g3 h
    rw [k2] at a1
    exact ⟨a1, a2, a3, a4⟩
  · intro f ha hb; rw [k f hb]; exact h4 f ha

theorem State.handChanges_table (s : State) : s.handChanges.table = s.table := by
  rw [State.handChanges_eq]

theorem State.handChanges_retire (s : State) : s.handChanges.retire = s.retire := by
  rw [State.handChanges_eq]

theorem State.handChanges_epoch (s : State) : s.handChanges.epoch = s.epoch := by
  rw [State.handChanges_eq]

theorem State.handChanges_hold (s : State) : s.handChanges.hold = s.hold := by
  rw [State.handChanges_eq]

/-! ### Grants and the end of an event -/

/-- A grant that is due is one the rule of R72 gives. -/
theorem State.dueGrant_spec {s : State} {h : HeldReq} {e : Entry} {n : Nat}
    (hd : s.dueGrant = some (h, e, n)) :
    s.epoch.dev = .tracking ∧ (∃ slot, h ∈ s.hold ∧ h.hold = .buffer slot ∧
      s.entryAt slot = some e) ∧ s.mayTake e = true ∧ s.freeBuffer = some n := by
  unfold State.dueGrant at hd
  split_ifs at hd with h1
  split at hd
  · rename_i h' e' n' hw hf
    obtain ⟨rfl, rfl, rfl⟩ := by simpa using hd
    unfold State.bufferWaiter at hw
    obtain ⟨g, hg, hg2⟩ := List.exists_of_findSome?_eq_some hw
    split at hg2
    · rename_i slot hslot
      split at hg2
      · rename_i e2 he2
        split_ifs at hg2 with hm
        simp at hg2
        obtain ⟨rfl, rfl⟩ := hg2
        exact ⟨h1, ⟨slot, hg, hslot, he2⟩, hm, hf⟩
      · cases hg2
    · cases hg2
  · cases hd

/-- What every due grant keeps, all grants keep. -/
theorem grantLoop_induct {P : State → Prop}
    (step : ∀ s h e n, P s → s.dueGrant = some (h, e, n) → P (s.grantBuffer h e n)) (fuel : Nat)
    (s : State) (hs : P s) : P (grantLoop fuel s) := by
  induction fuel generalizing s with
  | zero => exact hs
  | succ k ih =>
    unfold grantLoop
    split
    · exact hs
    · rename_i h e n hd; exact ih _ (step s h e n hs hd)

theorem grantLoop_eq (fuel : Nat) (s : State) :
    grantLoop fuel s =
      { s with
        table := (grantLoop fuel s).table
        hold := (grantLoop fuel s).hold
        mem.classC := (grantLoop fuel s).mem.classC } := by
  induction fuel generalizing s with
  | zero => rfl
  | succ k ih =>
    unfold grantLoop
    split
    · rfl
    · rw [ih]; rfl

/-- With no grant due, none is made. -/
theorem State.grantBuffers_of_none (s : State) (h : s.dueGrant = none) : s.grantBuffers = s := by
  unfold State.grantBuffers
  cases s.hold.length with
  | zero => rfl
  | succ k => unfold grantLoop; rw [h]

/-- Grants touch the table, the holds and class C alone. -/
theorem State.grantBuffers_eq (s : State) :
    s.grantBuffers =
      { s with
        table := s.grantBuffers.table
        hold := s.grantBuffers.hold
        mem.classC := s.grantBuffers.mem.classC } :=
  grantLoop_eq _ _

/-- How many requests have reason BUFFER. -/
def State.bufferWaiters (s : State) : Nat := s.hold.countP fun h => h.bufferSlot.isSome

/-- Each grant that is due ends one wait. -/
theorem State.bufferWaiters_grant {s : State} {h : HeldReq} {e : Entry} {n : Nat}
    (hd : s.dueGrant = some (h, e, n)) : (s.grantBuffer h e n).bufferWaiters < s.bufferWaiters := by
  obtain ⟨_, ⟨slot, hm, hh, he⟩, _, _⟩ := State.dueGrant_spec hd
  have hs : e.slot = slot := by simpa using List.find?_some he
  let f : HeldReq → HeldReq := fun g => clearTrackingHere h.block (bufferToCapture e.slot g)
  let waits : HeldReq → Bool := fun g => g.bufferSlot.isSome
  have keeps : ∀ g, waits (f g) = true → waits g = true := by
    intro g
    simp only [waits, f, bufferToCapture]
    split_ifs with h1
    · unfold clearTrackingHere HeldReq.setHold HeldReq.bufferSlot
      split_ifs <;> simp
    · unfold clearTrackingHere
      split_ifs
      · split
        · simp [HeldReq.setHold, HeldReq.bufferSlot]
        · exact id
      · exact id
  have ends : waits (f h) = false := by
    simp only [waits, f, bufferToCapture, hh, hs, if_true, clearTrackingHere, HeldReq.setHold,
      HeldReq.bufferSlot]
    simp
  have began : waits h = true := by simp [waits, HeldReq.bufferSlot, hh]
  have le : ∀ l : List HeldReq, l.countP (waits ∘ f) ≤ l.countP waits := fun l =>
    List.countP_mono_left fun x _ hx => keeps x hx
  show (s.hold.map f).countP waits < s.hold.countP waits
  obtain ⟨l1, l2, hl⟩ := List.append_of_mem hm
  have h1 := le l1
  have h2 := le l2
  rw [List.countP_map, hl]
  simp only [List.countP_append, List.countP_cons, Function.comp, ends, began] at *
  simp only [Bool.false_eq_true, if_false, if_true]
  omega

/-- With as much fuel as BUFFER waiters, no grant is left due, and more fuel makes none more. -/
theorem grantLoop_settles (k : Nat) (s : State) (h : s.bufferWaiters ≤ k) :
    (grantLoop k s).dueGrant = none ∧ grantLoop (k + 1) s = grantLoop k s := by
  induction k generalizing s with
  | zero =>
    have : s.dueGrant = none := by
      cases hd : s.dueGrant with
      | none => rfl
      | some p => obtain ⟨a, b, c⟩ := p; have := State.bufferWaiters_grant hd; omega
    refine ⟨this, ?_⟩
    unfold grantLoop; rw [this]
  | succ k ih =>
    cases hd : s.dueGrant with
    | none =>
      have : ∀ m, grantLoop m s = s := by
        intro m; cases m with
        | zero => rfl
        | succ m => unfold grantLoop; rw [hd]
      rw [this, this]; exact ⟨hd, rfl⟩
    | some p =>
      obtain ⟨a, b, c⟩ := p
      have h1 := ih (s.grantBuffer a b c) (by have := State.bufferWaiters_grant hd; omega)
      have h2 : ∀ m, grantLoop (m + 1) s = grantLoop m (s.grantBuffer a b c) := by
        intro m; conv_lhs => unfold grantLoop
        rw [hd]
      rw [h2, h2]; exact h1

/-- Behind the grants of an event no grant is due. -/
theorem State.grantBuffers_dueGrant (s : State) : s.grantBuffers.dueGrant = none :=
  (grantLoop_settles _ s List.countP_le_length).1

/-- With a grant due, the grants are that grant and those due behind it. -/
theorem State.grantBuffers_of_due (s : State) {h : HeldReq} {e : Entry} {n : Nat}
    (hd : s.dueGrant = some (h, e, n)) : s.grantBuffers = (s.grantBuffer h e n).grantBuffers := by
  unfold State.grantBuffers
  have hl : (s.grantBuffer h e n).hold.length = s.hold.length := by simp [State.grantBuffer]
  rw [hl]
  have h1 := State.bufferWaiters_grant hd
  have h2 := (List.countP_le_length : s.bufferWaiters ≤ s.hold.length)
  have h3 : grantLoop (s.hold.length + 1) s = grantLoop s.hold.length (s.grantBuffer h e n) := by
    conv_lhs => unfold grantLoop
    rw [hd]
  rw [← h3]
  exact (grantLoop_settles _ s h2).2.symm

theorem State.handOver_dueGrant (s : State) : s.handOver.dueGrant = none := by
  unfold State.handOver
  rw [State.handChanges_eq]
  exact s.grantBuffers_dueGrant

/-- A grant turns BUFFER into CAPTURE and clears marks: no request is released, none moves. -/
theorem State.grantBuffers_hold (s : State) :
    s.grantBuffers.hold.map (fun h => (h.req, h.isHeld, h.isEntry, h.time)) =
      s.hold.map fun h => (h.req, h.isHeld, h.isEntry, h.time) := by
  refine grantLoop_induct
    (P := fun t => t.hold.map (fun h => (h.req, h.isHeld, h.isEntry, h.time)) =
      s.hold.map fun h => (h.req, h.isHeld, h.isEntry, h.time)) ?_ _ s rfl
  intro t h e n ht _
  rw [← ht]
  show (t.hold.map _).map _ = _
  rw [List.map_map]
  apply List.map_congr_left
  rintro ⟨r, x, st, tm, ra⟩ _
  simp only [Function.comp, clearTrackingHere, bufferToCapture]
  by_cases hb : x = .buffer e.slot
  · simp only [hb, if_true]
    split_ifs <;> rfl
  · simp only [hb, if_false]
    split_ifs <;> cases x <;> rfl

/-- The end of an event touches what grants and the handing on of changes touch. -/
theorem State.handOver_eq (s : State) :
    s.handOver =
      { s with
        table := s.grantBuffers.table
        hold := s.grantBuffers.hold
        alert := s.handOver.alert
        mem.classC := s.grantBuffers.mem.classC
        mem.drainMode := s.handOver.mem.drainMode } := by
  unfold State.handOver
  rw [State.handChanges_eq, State.grantBuffers_eq]

theorem State.handOver_table (s : State) : s.handOver.table = s.grantBuffers.table := by
  rw [State.handOver_eq]

theorem State.handOver_hold (s : State) : s.handOver.hold = s.grantBuffers.hold := by
  rw [State.handOver_eq]

theorem State.handOver_retire (s : State) : s.handOver.retire = s.retire := by
  rw [State.handOver_eq]

theorem State.handOver_epoch (s : State) : s.handOver.epoch = s.epoch := by
  rw [State.handOver_eq]

theorem State.handOver_pending (s : State) : s.handOver.pending = s.pending := by
  rw [State.handOver_eq]

/-! ### Reported hold times -/

/-- The greater of a peak and a reported time (R169). -/
theorem Alert.noteHold_foldl (ts : List Word) (a : Alert) :
    ts.foldl Alert.noteHold a =
      { a with
        peakHold := ts.foldl (fun m x => if m.toNat < x.toNat then x else m) a.peakHold
        epochHold := ts.foldl (fun m x => if m.toNat < x.toNat then x else m) a.epochHold } := by
  induction ts generalizing a with
  | nil => rfl
  | cons t ts ih => simp only [List.foldl_cons, ih]; rfl

/-! ### The Hold Queue -/

theorem releaseOrders_length (held : List Block) (q : List HeldReq) :
    (releaseOrders held q).length = q.length := by
  induction q generalizing held with
  | nil => rfl
  | cons h rest ih =>
    unfold releaseOrders
    split <;> (try split) <;> simp [ih]

/-- Releasing ORDER requests changes holds alone: every request keeps its place. -/
theorem releaseOrders_req (held : List Block) (q : List HeldReq) :
    (releaseOrders held q).map (·.req) = q.map (·.req) := by
  induction q generalizing held with
  | nil => rfl
  | cons h rest ih =>
    unfold releaseOrders
    split <;> (try split) <;> simp [ih, HeldReq.release, HeldReq.setHold]

/-- What a release of ORDER requests makes of one request; `held`: the blocks that are HELD ahead of
the queue. -/
theorem releaseOrders_spec (q : List HeldReq) (held : List Block) (ahead behind : List HeldReq)
    (h : HeldReq) (e : q = ahead ++ h :: behind) :
    let t := releaseOrders held q
    let follows := (∃ deferred mark here, h.hold = .order deferred mark here) ∧ h.block ∉ held ∧
      ∀ g ∈ t.take ahead.length, g.block = h.block → g.isHeld = false
    (follows → t[ahead.length]? = some { h with hold := .released }) ∧
    (¬follows → t[ahead.length]? = some h) := by
  induction q generalizing held ahead with
  | nil => simp at e
  | cons a r ih =>
    cases ahead with
    | nil =>
      simp only [List.nil_append, List.cons.injEq] at e
      obtain ⟨rfl, rfl⟩ := e
      dsimp only [List.length_nil, List.take_zero]
      simp only [List.not_mem_nil, false_implies, implies_true, and_true]
      unfold releaseOrders
      cases hh : a.hold with
      | order d m t =>
        dsimp only
        by_cases hc : held.contains a.block = true
        · rw [if_pos hc]
          exact ⟨fun hf => absurd (by simpa using hc) hf.2, fun _ => rfl⟩
        · rw [if_neg hc]
          exact ⟨fun _ => rfl, fun hf => absurd ⟨⟨d, m, t, rfl⟩, by simpa using hc⟩ hf⟩
      | _ =>
        refine ⟨fun hf => ?_, fun _ => rfl⟩
        obtain ⟨⟨_, _, _, h⟩, _⟩ := hf
        cases h
    | cons b ahead =>
      simp only [List.cons_append, List.cons.injEq] at e
      obtain ⟨rfl, e⟩ := e
      have goOn : ∀ (held' : List Block) (a' : HeldReq),
          releaseOrders held (a :: r) = a' :: releaseOrders held' r →
          (h.block ∉ held' ↔ h.block ∉ held ∧ (a'.block = h.block → a'.isHeld = false)) →
          let t := releaseOrders held (a :: r)
          let follows := (∃ deferred mark here, h.hold = .order deferred mark here) ∧
            h.block ∉ held ∧
            ∀ g ∈ t.take (a :: ahead).length, g.block = h.block → g.isHeld = false
          (follows → t[(a :: ahead).length]? = some { h with hold := .released }) ∧
          (¬follows → t[(a :: ahead).length]? = some h) := by
        intro held' a' h1 h2
        have := ih held' ahead e
        rw [h1]
        dsimp only [List.length_cons] at this ⊢
        simp only [List.take_succ_cons, List.mem_cons, forall_eq_or_imp, List.getElem?_cons_succ]
        rw [h2] at this
        simpa only [and_assoc] using this
      cases hh : a.hold with
      | released =>
        apply goOn held a
        · conv_lhs => unfold releaseOrders
          rw [hh]
        · simp [HeldReq.isHeld, hh]
      | order d m t =>
        by_cases hc : held.contains a.block = true
        · apply goOn held a
          · conv_lhs => unfold releaseOrders
            rw [hh]; dsimp only; rw [if_pos hc]
          · refine ⟨fun hn => ⟨hn, fun he => ?_⟩, And.left⟩
            rw [he] at hc
            exact absurd (by simpa using hc) hn
        · apply goOn held a.release
          · conv_lhs => unfold releaseOrders
            rw [hh]; dsimp only; rw [if_neg hc]
          · simp [HeldReq.isHeld, HeldReq.release, HeldReq.setHold]
      | entry c =>
        apply goOn (a.block :: held) a
        · conv_lhs => unfold releaseOrders
          rw [hh]
        · simp [HeldReq.isHeld, hh, eq_comm]; tauto
      | buffer c =>
        apply goOn (a.block :: held) a
        · conv_lhs => unfold releaseOrders
          rw [hh]
        · simp [HeldReq.isHeld, hh, eq_comm]; tauto
      | capture c =>
        apply goOn (a.block :: held) a
        · conv_lhs => unfold releaseOrders
          rw [hh]
        · simp [HeldReq.isHeld, hh, eq_comm]; tauto

/-- The release of ORDER requests is the one R52 describes. -/
theorem releaseOrders_follow (q : List HeldReq) : OrdersFollow q (releaseOrders [] q) := by
  refine ⟨releaseOrders_length _ _, ?_⟩
  intro ahead behind h e
  have := releaseOrders_spec q [] ahead behind h e
  simpa using this

/-- One queue alone follows from a queue. -/
theorem ordersFollow_unique (q t t' : List HeldReq) (h : OrdersFollow q t)
    (h' : OrdersFollow q t') : t = t' := by
  obtain ⟨hl, hf⟩ := h
  obtain ⟨hl', hf'⟩ := h'
  have key : ∀ n, n ≤ q.length → t.take n = t'.take n := by
    intro n
    induction n with
    | zero => intro _; rfl
    | succ n ih =>
      intro hn
      have ih := ih (by omega)
      have e : q = q.take n ++ q[n] :: q.drop (n + 1) := by simp
      have l : (q.take n).length = n := by simp; omega
      have a := hf _ _ _ e
      have b := hf' _ _ _ e
      dsimp only at a b
      rw [l] at a b
      rw [← ih] at b
      have : t[n]? = t'[n]? := by
        by_cases hc : (∃ deferred mark here, q[n].hold = .order deferred mark here) ∧
            ∀ g ∈ t.take n, g.block = q[n].block → g.isHeld = false
        · rw [a.1 hc, b.1 hc]
        · rw [a.2 hc, b.2 hc]
      rw [List.take_add_one, List.take_add_one, ih, this]
  have := key q.length le_rfl
  rwa [List.take_of_length_le (by omega), List.take_of_length_le (by omega)] at this

theorem grantedQueue_req (b : Block) (slot : Nat) (m : TrackMode) (q : List HeldReq) :
    (grantedQueue b slot m q).map (·.req) = q.map (·.req) := by
  unfold grantedQueue
  rw [List.map_map]
  apply List.map_congr_left
  intro h _
  simp only [Function.comp]
  split <;> (try split) <;> rfl

theorem applyDeferred_eq_foldl (b : Block) (q : List HeldReq) (e : Entry) :
    applyDeferred b q e =
      (q.filterMap fun g =>
        match g.hold with
        | .order (some d) _ _ => if g.block = b then some d else none
        | _ => none).foldl (fun x d => x.update d.initiator d.time) e := by
  induction q generalizing e with
  | nil => rfl
  | cons h rest ih =>
    unfold applyDeferred
    rw [List.filterMap_cons]
    split
    · split_ifs with hb <;> simp_all
    · rename_i hn
      refine (ih _).trans ?_
      cases hh : h.hold with
      | order d mark here =>
        cases d with
        | none => rfl
        | some d => exact absurd hh (hn d mark here)
      | entry c => rfl
      | buffer n => rfl
      | capture n => rfl
      | released => rfl

/-! ### Leaving for the pass-through queue -/

/-- With no room, or with every request HELD, none leaves; else one does. -/
theorem leaveUpTo_eq_nil (room : Nat) (q : List HeldReq) :
    (leaveUpTo room q).1 = [] ↔ room = 0 ∨ ∀ h ∈ q, h.isHeld = true := by
  induction q generalizing room with
  | nil => simp [leaveUpTo]
  | cons h rest ih =>
    cases room with
    | zero => simp [leaveUpTo]
    | succ room =>
      unfold leaveUpTo
      cases hh : h.isHeld <;> simp [hh, ih]

/-- No more leave than there is room for. -/
theorem leaveUpTo_length_le (room : Nat) (q : List HeldReq) :
    (leaveUpTo room q).1.length ≤ room := by
  induction q generalizing room with
  | nil => simp [leaveUpTo]
  | cons h rest ih =>
    cases room with
    | zero => simp [leaveUpTo]
    | succ room =>
      unfold leaveUpTo
      cases hh : h.isHeld
      · simpa [hh] using ih room
      · simpa [hh] using ih (room + 1)

/-- What stays keeps its order. -/
theorem leaveUpTo_sublist (room : Nat) (q : List HeldReq) : (leaveUpTo room q).2.Sublist q := by
  induction q generalizing room with
  | nil => simp [leaveUpTo]
  | cons h rest ih =>
    cases room with
    | zero => simp [leaveUpTo]
    | succ room =>
      unfold leaveUpTo
      cases hh : h.isHeld
      · simpa [hh] using (ih room).cons h
      · simpa [hh] using ih (room + 1)

/-- Every HELD request stays. -/
theorem leaveUpTo_held (room : Nat) (q : List HeldReq) :
    ((leaveUpTo room q).2.filter fun h => h.isHeld) = q.filter fun h => h.isHeld := by
  induction q generalizing room with
  | nil => simp [leaveUpTo]
  | cons h rest ih =>
    cases room with
    | zero => simp [leaveUpTo]
    | succ room =>
      unfold leaveUpTo
      cases hh : h.isHeld
      · simpa [hh] using ih room
      · simpa [hh] using ih (room + 1)

/-- Where every request stays HELD behind `ahead`, or `ahead` fills the room, the RELEASED requests
of `ahead` leave in their order and nothing else changes. -/
theorem leaveUpTo_append (room : Nat) (ahead behind : List HeldReq)
    (hr : (ahead.filter fun h => !h.isHeld).length ≤ room)
    (he : (∀ h ∈ behind, h.isHeld = true) ∨ (ahead.filter fun h => !h.isHeld).length = room) :
    leaveUpTo room (ahead ++ behind) =
      ((ahead.filter fun h => !h.isHeld).map (·.req),
        (ahead.filter fun h => h.isHeld) ++ behind) := by
  induction ahead generalizing room with
  | nil =>
    simp only [List.nil_append, List.filter_nil, List.map_nil]
    rcases he with he | rfl
    · induction behind generalizing room with
      | nil => rfl
      | cons h rest ih =>
        cases room with
        | zero => rfl
        | succ room =>
          unfold leaveUpTo
          have := ih room.succ (by simp) fun x hx => he x (by simp [hx])
          simp [he h (by simp), this]
    · cases behind <;> rfl
  | cons h rest ih =>
    cases hh : h.isHeld with
    | true =>
      simp only [List.filter_cons, hh, Bool.not_true, Bool.false_eq_true, if_false,
        if_true] at hr he ⊢
      cases room with
      | zero =>
        have hn : rest.filter (fun h => !h.isHeld) = [] := by simpa using hr
        have hf : rest.filter (fun h => h.isHeld) = rest := by
          rw [List.filter_eq_self]
          intro x hx
          simpa using List.filter_eq_nil_iff.1 hn x hx
        simp [leaveUpTo, hn, hf]
      | succ room =>
        simp [leaveUpTo, hh, ih (room + 1) hr he]
    | false =>
      simp only [List.filter_cons, hh, Bool.not_false, Bool.false_eq_true, if_false, if_true,
        List.length_cons] at hr he ⊢
      cases room with
      | zero => omega
      | succ room =>
        simp [leaveUpTo, hh, ih room (by omega) (he.imp id (by omega))]

/-! ### Free slots and buffers -/

/-- The least number found is unused, and every number before it is used. -/
theorem leastFree_eq_some (used : List Nat) (fuel n k : Nat) :
    leastFree used fuel n = some k ↔
      n ≤ k ∧ k < n + fuel ∧ k ∉ used ∧ ∀ j, n ≤ j → j < k → j ∈ used := by
  induction fuel generalizing n with
  | zero => simp [leastFree]; omega
  | succ fuel ih =>
    unfold leastFree
    split_ifs with h
    · rw [ih]
      rw [List.contains_iff_mem] at h
      constructor
      · rintro ⟨h1, h2, h3, h4⟩
        refine ⟨by omega, by omega, h3, fun j hj hk => ?_⟩
        by_cases hjn : j = n
        · exact hjn ▸ h
        · exact h4 j (by omega) hk
      · rintro ⟨h1, h2, h3, h4⟩
        have hne : n ≠ k := fun hh => h3 (hh ▸ h)
        exact ⟨by omega, by omega, h3, fun j hj hk => h4 j (by omega) hk⟩
    · rw [List.contains_iff_mem] at h
      simp only [Option.some.injEq]
      constructor
      · rintro rfl
        exact ⟨by omega, by omega, h, fun j hj hk => by omega⟩
      · rintro ⟨h1, h2, h3, h4⟩
        by_contra hne
        exact h (h4 n (by omega) (by omega))

theorem State.freeSlot_eq_some (s : State) (n : Nat) :
    s.freeSlot = some n ↔
      n < Config.tableSlots ∧ (∀ e ∈ s.table, e.slot ≠ n) ∧
        ∀ k < n, ∃ e ∈ s.table, e.slot = k := by
  simp [State.freeSlot, leastFree_eq_some]

theorem State.freeBuffer_eq_some (s : State) (n : Nat) :
    s.freeBuffer = some n ↔
      n < Config.poolBuffers ∧ (∀ e ∈ s.table, e.poolBuf ≠ some n) ∧
        ∀ k < n, ∃ e ∈ s.table, e.poolBuf = some k := by
  simp [State.freeBuffer, leastFree_eq_some]

/-! ### The contents of the pool -/

theorem poolWrite_above (n k : Nat) (v : Line) (pool : List (Nat × Line)) (hk : k < n)
    (h : ∀ d ∈ pool, k < d.1) : ∀ d ∈ poolWrite n v pool, k < d.1 := by
  induction pool with
  | nil => unfold poolWrite; split_ifs <;> simp [hk]
  | cons c rest ih =>
    have hc := h c (by simp)
    have hr : ∀ d ∈ rest, k < d.1 := fun d hd => h d (by simp [hd])
    unfold poolWrite
    split_ifs <;> intro d hd
    · exact h d hd
    · rcases List.mem_cons.1 hd with rfl | hd
      · exact hk
      · exact h d hd
    · exact hr d hd
    · rcases List.mem_cons.1 hd with rfl | hd
      · exact hk
      · exact hr _ hd
    · rcases List.mem_cons.1 hd with rfl | hd
      · exact hc
      · exact ih hr _ hd

theorem poolWf_cons (c : Nat × Line) (rest : List (Nat × Line)) :
    poolWf (c :: rest) = true ↔
      c.2 ≠ Line.zero ∧ (∀ d ∈ rest, c.1 < d.1) ∧ poolWf rest = true := by
  simp [poolWf, and_assoc]

/-- Writing a line keeps the pool's canonical form. -/
theorem poolWf_poolWrite (n : Nat) (v : Line) (pool : List (Nat × Line))
    (h : poolWf pool = true) : poolWf (poolWrite n v pool) = true := by
  induction pool with
  | nil => unfold poolWrite; split_ifs with hv <;> simp [poolWf, hv]
  | cons c rest ih =>
    obtain ⟨h1, h2, h3⟩ := (poolWf_cons c rest).1 h
    unfold poolWrite
    split_ifs with hn hv hn' hv
    · exact h
    · refine (poolWf_cons _ _).2 ⟨hv, ?_, h⟩
      intro d hd
      rcases List.mem_cons.1 hd with rfl | hd
      · exact hn
      · exact lt_trans hn (h2 d hd)
    · exact h3
    · refine (poolWf_cons _ _).2 ⟨hv, ?_, h3⟩
      intro d hd; subst hn'; exact h2 d hd
    · refine (poolWf_cons _ _).2 ⟨h1, poolWrite_above n c.1 v rest (by omega) h2, ih h3⟩

theorem poolRead_nil (n : Nat) : poolRead [] n = Line.zero := rfl

theorem poolRead_cons (c : Nat × Line) (rest : List (Nat × Line)) (n : Nat) :
    poolRead (c :: rest) n = if c.1 = n then c.2 else poolRead rest n := by
  unfold poolRead
  by_cases h : c.1 = n <;> simp [h]

theorem poolRead_of_above (pool : List (Nat × Line)) (n : Nat) (h : ∀ d ∈ pool, n < d.1) :
    poolRead pool n = Line.zero := by
  induction pool with
  | nil => rfl
  | cons c rest ih =>
    rw [poolRead_cons, if_neg (by have := h c (by simp); omega)]
    exact ih fun d hd => h d (by simp [hd])

/-- A line reads as it was last written; every other line reads as before. -/
theorem poolRead_poolWrite (n k : Nat) (v : Line) (pool : List (Nat × Line))
    (h : poolWf pool = true) :
    poolRead (poolWrite n v pool) k = if k = n then v else poolRead pool k := by
  induction pool with
  | nil =>
    unfold poolWrite
    split_ifs with hv hk hk
    · rw [hv, poolRead_nil]
    · rfl
    · rw [poolRead_cons, if_pos hk.symm]
    · rw [poolRead_cons, if_neg (Ne.symm hk)]
  | cons c rest ih =>
    obtain ⟨_, h2, h3⟩ := (poolWf_cons c rest).1 h
    have hz : ∀ m, m ≤ c.1 → (∀ d ∈ rest, m < d.1) := fun m hm d hd => by
      have := h2 d hd; omega
    unfold poolWrite
    by_cases hlt : n < c.1
    · have hall : ∀ d ∈ c :: rest, n < d.1 := by
        intro d hd
        rcases List.mem_cons.1 hd with rfl | hd
        · exact hlt
        · exact hz n (by omega) d hd
      by_cases hv : v = Line.zero
      · rw [if_pos hlt, if_pos hv]
        split_ifs with hk
        · rw [hk, hv, poolRead_of_above _ _ hall]
        · rfl
      · rw [if_pos hlt, if_neg hv, poolRead_cons]
        by_cases hk : k = n
        · rw [if_pos hk.symm, if_pos hk]
        · rw [if_neg (Ne.symm hk), if_neg hk]
    · rw [if_neg hlt]
      by_cases heq : n = c.1
      · by_cases hv : v = Line.zero
        · rw [if_pos heq, if_pos hv]
          by_cases hk : k = n
          · rw [if_pos hk, hk, hv, poolRead_of_above _ _ (hz n (by omega))]
          · rw [if_neg hk, poolRead_cons, if_neg (by omega)]
        · rw [if_pos heq, if_neg hv, poolRead_cons, poolRead_cons]
          by_cases hk : k = n
          · rw [if_pos hk.symm, if_pos hk]
          · rw [if_neg (Ne.symm hk), if_neg hk, if_neg (by omega)]
      · rw [if_neg heq, poolRead_cons, poolRead_cons, ih h3]
        by_cases hk : c.1 = k
        · rw [if_pos hk, if_neg (by omega), if_pos hk]
        · rw [if_neg hk, if_neg hk]

/-! ### Classification and the table: what they can change -/

theorem State.victimChoice_eq (s : State) :
    s.victimChoice =
      { s with
        table := s.victimChoice.table
        retire := { s.retire with list := s.victimChoice.retire.list } } := by
  unfold State.victimChoice
  split <;> rfl

/-- A tracked write changes the table, the Retire List and the untracked count, nothing else. -/
theorem State.tableTake_eq (s : State) (b : Block) (c : Classification) (waiting ahead : Bool) :
    (s.tableTake b c waiting ahead).1 =
      { s with
        table := (s.tableTake b c waiting ahead).1.table
        retire := { s.retire with list := (s.tableTake b c waiting ahead).1.retire.list }
        epoch := { s.epoch with
          untracked := (s.tableTake b c waiting ahead).1.epoch.untracked } } := by
  unfold State.tableTake
  split
  · rfl
  · split_ifs
    · rfl
    · rfl
    · split
      · rfl
      · dsimp only; rw [State.victimChoice_eq]

theorem State.classifyWrite_eq (s : State) (r : Request) (waiting ahead blocked : Bool) :
    (s.classifyWrite r waiting ahead blocked).1 =
      { s with
        table := (s.classifyWrite r waiting ahead blocked).1.table
        retire := { s.retire with
          list := (s.classifyWrite r waiting ahead blocked).1.retire.list }
        epoch := { s.epoch with
          untracked := (s.classifyWrite r waiting ahead blocked).1.epoch.untracked } } := by
  unfold State.classifyWrite
  split
  · rfl
  · rfl
  · dsimp only; rw [State.tableTake_eq]

/-- A route changes the Hold Queue or the pass-through queue, nothing else. -/
theorem State.route_eq (s : State) (r : Request) (x : Hold) :
    s.route r x =
      { s with
        hold := (s.route r x).hold
        mem := { s.mem with passQ := (s.route r x).mem.passQ } } := by
  unfold State.route
  split_ifs <;> rfl

/-- A release walk keeps every request in its place and touches what a classification touches. -/
theorem releaseWalk_req (b : Block) (slot : Nat) (q done : List HeldReq) (blocked : Bool)
    (s : State) :
    (releaseWalk b slot q done blocked s).2.map (·.req) = (done ++ q).map (·.req) := by
  induction q generalizing done blocked s with
  | nil => simp [releaseWalk]
  | cons h rest ih =>
    have step : ∀ (h' : HeldReq) (bl : Bool) (s' : State), h'.req = h.req →
        (releaseWalk b slot rest (done ++ [h']) bl s').2.map (·.req) =
          (done ++ h :: rest).map (·.req) := fun h' bl s' hr => by
      rw [ih]; simp [hr]
    unfold releaseWalk
    by_cases hb : h.block = b
    · rw [if_pos hb]
      cases h.hold with
      | released => exact step _ _ _ rfl
      | capture n =>
        dsimp only
        split_ifs
        · exact step _ _ _ rfl
        · exact step _ _ _ rfl
      | entry c => exact step _ _ _ rfl
      | buffer n => exact step _ _ _ rfl
      | order d mark here =>
        cases mark with
        | false => exact step _ _ _ (by split_ifs <;> rfl)
        | true => exact step _ _ _ rfl
    · rw [if_neg hb]; exact step _ _ _ rfl

theorem releaseWalk_eq (b : Block) (slot : Nat) (q done : List HeldReq) (blocked : Bool)
    (s : State) :
    (releaseWalk b slot q done blocked s).1 =
      { s with
        table := (releaseWalk b slot q done blocked s).1.table
        retire := { s.retire with
          list := (releaseWalk b slot q done blocked s).1.retire.list }
        epoch := { s.epoch with
          untracked := (releaseWalk b slot q done blocked s).1.epoch.untracked } } := by
  induction q generalizing done blocked s with
  | nil => rfl
  | cons h rest ih =>
    unfold releaseWalk
    by_cases hb : h.block = b
    · rw [if_pos hb]
      cases h.hold with
      | released => exact ih _ _ _
      | capture n =>
        dsimp only
        split_ifs
        · exact ih _ _ _
        · exact ih _ _ _
      | entry c => exact ih _ _ _
      | buffer n => exact ih _ _ _
      | order d mark here =>
        cases mark with
        | false => exact ih _ _ _
        | true => dsimp only; rw [ih, State.classifyWrite_eq]
    · rw [if_neg hb]; exact ih _ _ _

theorem reclassify_req (q done : List HeldReq) (s : State) :
    (reclassify q done s).2.map (·.req) = (done ++ q).map (·.req) := by
  induction q generalizing done s with
  | nil => simp [reclassify]
  | cons h rest ih =>
    unfold reclassify
    split_ifs
    · dsimp only; rw [ih]; simp [HeldReq.setHold]
    · have hr : (dropDeferred h).req = h.req := by unfold dropDeferred; split <;> rfl
      rw [ih]; simp [hr]

theorem reclassify_eq (q done : List HeldReq) (s : State) :
    (reclassify q done s).1 =
      { s with
        table := (reclassify q done s).1.table
        retire := { s.retire with list := (reclassify q done s).1.retire.list }
        epoch := { s.epoch with untracked := (reclassify q done s).1.epoch.untracked } } := by
  induction q generalizing done s with
  | nil => rfl
  | cons h rest ih =>
    unfold reclassify
    split_ifs
    · dsimp only; rw [ih, State.classifyWrite_eq]
    · exact ih _ _

/-! ### Answers to own requests -/

/-- An answer on a tag ends in one of four ways. -/
theorem State.ownAnswer_cases (s : State) (tag : Nat) (fits : OwnRole → Bool)
    (owner : OwnReq → State → State) :
    (s.findOwn tag = none ∧ s.ownAnswer tag fits owner = s) ∨
    ∃ i, s.findOwn tag = some i ∧
      ((i.abandoned = true ∧ s.ownAnswer tag fits owner = s.endOwn tag) ∨
        (i.abandoned = false ∧ fits i.req.role = true ∧
          s.ownAnswer tag fits owner = owner i.req (s.endOwn tag)) ∨
        (i.abandoned = false ∧ fits i.req.role = false ∧ s.ownAnswer tag fits owner = s)) := by
  unfold State.ownAnswer
  cases h : s.findOwn tag with
  | none => simp
  | some i =>
    right
    refine ⟨i, rfl, ?_⟩
    cases ha : i.abandoned <;> cases hf : fits i.req.role <;> simp [ha, hf]

/-- An awaited answer of a fitting kind reaches its owner. -/
theorem State.ownAnswer_of_awaits (s : State) (tag : Nat) (fits : OwnRole → Bool)
    (owner : OwnReq → State → State) (r : OwnReq) (h : s.awaits tag r)
    (hf : fits r.role = true) : s.ownAnswer tag fits owner = owner r (s.endOwn tag) := by
  obtain ⟨i, h1, h2, rfl⟩ := h
  simp [State.ownAnswer, h1, h2, hf]

end Sys2Proof.Machine
end

