-- ==== Sys2Proof/Laws/Step.lean ====
section
/-! SUPPORT. What a step can do, said once: a property that sees no more than `State.lawView` and
that each of the events below keeps is kept by every step (`Kept.step`). The register writes that
change nothing of the view, the bus bytes and the passing of time are settled here. -/

namespace Sys2Proof.Machine

/-- What the laws look at. -/
structure LawView where
  table    : List Entry
  hold     : List (Request × Hold)
  retire   : RetireEngine
  records  : List Record
  writer   : WriterState
  ringWait : Bool
  ringPoll : Bool
  epoch    : DevState × Half × Bool × Option Summary
  imaged   : List Nat
  places   : List CopyOutPlace
  cache    : List ImageBuf
  firWait  : Bool
  firPoll  : Bool
  classC   : List OwnReq
  classB   : List OwnReq
  own      : List (Nat × OwnReq × Bool)
  busy     : Bool

def State.lawView (s : State) : LawView :=
  { table := s.table
    hold := s.hold.map fun h => (h.req, h.hold)
    retire := s.retire
    records := s.journal.queue
    writer := s.journal.writer
    ringWait := s.journal.wait
    ringPoll := s.journal.timer.isSome
    epoch := (s.epoch.dev, s.epoch.number, s.epoch.draining, s.epoch.summary)
    imaged := s.copyOut.imaged
    places := s.copyOut.places
    cache := s.copyOut.cache
    firWait := s.copyOut.wait
    firPoll := s.copyOut.timer.isSome
    classC := s.mem.classC
    classB := s.mem.classB
    own := s.mem.issuedOwn.map fun i => (i.tag, i.req, i.abandoned)
    busy := s.cmd.busy }

theorem Outcome.next_inj {s t : State} :
    (Host.Outcome.next s : Host.Outcome State Fault Refusal) = .next t ↔ s = t := by
  constructor
  · intro h; cases h; rfl
  · rintro rfl; rfl

theorem State.lawView_handChanges (s : State) : s.handChanges.lawView = s.lawView := by
  rw [State.handChanges_eq]; rfl

theorem State.lawView_applyVerdict (s : State) (f : EventFlag) (v : AlertVerdict) :
    (s.applyVerdict f v).lawView = s.lawView := by
  cases v <;> rfl

theorem markFirst_view (p : HeldReq → Bool) (q : List HeldReq) :
    (markFirst p q).map (fun h => (h.req, h.hold)) = q.map fun h => (h.req, h.hold) := by
  induction q with
  | nil => rfl
  | cons a r ih => unfold markFirst; split_ifs <;> simp [ih]

/-- `Q` sees no more than the view (`same`), holds at reset, and is kept by each event that changes
the view: the commands by their meanings, the register writes that are commands by what their
acceptance does. -/
structure Kept (Q : State → Prop) : Prop where
  same : ∀ s t, t.lawView = s.lawView → Q s → Q t
  write : ∀ s i a m d g t, Q s → exec (.writeArrival i a m d g) s = .next t → Q t
  read : ∀ s i a g t, Q s → exec (.readArrival i a g) s = .next t → Q t
  leave : ∀ s t, Q s → exec .releasedLeave s = .next t → Q t
  issue : ∀ s t, Q s → exec .issue s = .next t → Q t
  captureData : ∀ s g d t, Q s → exec (.captureReadData g d) s = .next t → Q t
  imageDone : ∀ s g t, Q s → exec (.imageWriteDone g) s = .next t → Q t
  descDone : ∀ s g t, Q s → exec (.descWriteDone g) s = .next t → Q t
  descData : ∀ s g d t, Q s → exec (.descReadData g d) s = .next t → Q t
  slotData : ∀ s g d t, Q s → exec (.slotReadData g d) s = .next t → Q t
  slotDone : ∀ s g t, Q s → exec (.slotWriteDone g) s = .next t → Q t
  jcbData : ∀ s g d t, Q s → exec (.jcbReadData g d) s = .next t → Q t
  error : ∀ s g c, Q s → Q (s.ownAnswer g (fun _ => true) fun r s => s.memoryError r c)
  abandoned : ∀ s g, Q s → Q (s.endAbandoned g)
  limit : ∀ s t, Q s → exec .holdLimitExpiry s = .next t → Q t
  age : ∀ s t, Q s → exec .ageExpiry s = .next t → Q t
  firPoll : ∀ s t, Q s → exec .firPollExpiry s = .next t → Q t
  ringPoll : ∀ s t, Q s → exec .ringPollExpiry s = .next t → Q t
  grant : ∀ s t, Q s → exec .bufferGrant s = .next t → Q t
  prefetch : ∀ s t, Q s → exec .prefetch s = .next t → Q t
  copyOut : ∀ s t, Q s → exec .copyOutStart s = .next t → Q t
  retire : ∀ s t, Q s → exec .retirement s = .next t → Q t
  closeRecord : ∀ s t, Q s → exec .closeRecordBuild s = .next t → Q t
  slotRead : ∀ s t, Q s → exec .journalSlotReadStart s = .next t → Q t
  load : ∀ s, Q s → s.epoch.dev = .idle ∨ s.epoch.dev = .ready → Q s.acceptLoad
  opens : ∀ s, Q s → s.epoch.dev = .ready → s.cmd.busy = false → Q s.acceptOpen
  switches : ∀ s, Q s → s.epoch.dev = .tracking → s.cmd.busy = false → Q s.acceptSwitch
  ends : ∀ s, Q s → s.epoch.dev = .tracking → s.cmd.busy = false → Q s.acceptEnd
  kick : ∀ s, Q s → Q s.takeKick
  stop : ∀ s, Q s → Q s.takeStop
  reset : Q State.reset

namespace Kept
variable {Q : State → Prop} (C : Kept Q)

theorem port {s t : State} (h : Q s) {f : State → State} (he : s.onPort f = .next t)
    (hf : Q (f s)) : Q t := by
  unfold State.onPort at he
  split_ifs at he <;> rw [Outcome.next_inj] at he <;> subst he <;> assumption

include C

theorem afterWrite {s : State} (h : Q s) (p : Byte) : Q (s.afterWrite p) := C.same s _ rfl h

theorem decideExecute {s : State} (h : Q s) (legal : Bool) (f : State → State)
    (hf : s.cmd.busy = false → legal = true → Q (f s)) : Q (s.decideExecute legal f) := by
  unfold State.decideExecute
  split_ifs with h1 h2
  · exact C.same s _ rfl h
  · exact hf (by simpa using h1) h2
  · exact C.same s _ rfl h

theorem takeLoad {s : State} (h : Q s) : Q s.takeLoad :=
  C.decideExecute h _ _ fun _ hl => C.load s h (by simpa using hl)

theorem takeOpen {s : State} (h : Q s) : Q s.takeOpen :=
  C.decideExecute h _ _ fun hb hl => C.opens s h (by simpa using hl) hb

theorem takeSwitch {s : State} (h : Q s) : Q s.takeSwitch :=
  C.decideExecute h _ _ fun hb hl => C.switches s h (by simpa using hl) hb

theorem takeEnd {s : State} (h : Q s) : Q s.takeEnd :=
  C.decideExecute h _ _ fun hb hl => C.ends s h (by simpa using hl) hb

theorem commandWrite {s : State} (h : Q s) (v : Half) : Q (s.commandWrite v) := by
  unfold State.commandWrite
  split_ifs
  exacts [C.kick s h, C.stop s h, C.takeLoad h, C.takeOpen h, C.takeSwitch h, C.takeEnd h,
    C.same s _ rfl h]

theorem applyVerdict {s : State} (h : Q s) (f : EventFlag) (v : AlertVerdict) :
    Q (s.applyVerdict f v) :=
  C.same s _ (State.lawView_applyVerdict _ _ _) h

theorem writeAlert {s : State} (h : Q s) (r : AlertReg) (v : Half) : Q (s.writeAlert r v) := by
  cases r <;> dsimp only [State.writeAlert]
  · refine C.applyVerdict ?_ _ _; exact C.same s _ rfl h
  · refine C.applyVerdict ?_ _ _; exact C.same s _ rfl h
  · refine C.applyVerdict ?_ _ _; exact C.same s _ rfl h
  · refine C.applyVerdict ?_ _ _; exact C.same s _ rfl h
  · exact C.applyVerdict (C.applyVerdict (C.same s { s with
        imm.tableMode := alertModeOf (v.getLsbD 0)
        imm.poolAlertMode := alertModeOf (v.getLsbD 1) } rfl h) _ _) _ _

theorem writeDrain {s : State} (h : Q s) (r : DrainReg) (v : Half) : Q (s.writeDrain r v) := by
  unfold State.writeDrain; cases r <;> exact C.same s _ rfl h

theorem writeHoldAlert {s : State} (h : Q s) (v : Half) : Q (s.writeHoldAlert v) := by
  unfold State.writeHoldAlert; dsimp only; split_ifs
  · refine C.same s _ ?_ h
    simp only [State.lawView, LawView.mk.injEq, true_and, and_true, State.raise, List.map_map]
    apply List.map_congr_left; intro x _; simp only [Function.comp]; split_ifs <;> rfl
  · exact C.same s _ rfl h

theorem writePeak {s : State} (h : Q s) (p : Peak) (v : Half) : Q (s.writePeak p v) := by
  unfold State.writePeak; split_ifs
  · cases p <;> exact C.same s _ rfl h
  · exact h

theorem writeReg {s : State} (h : Q s) (v : Half) (r : Reg) : Q (s.writeReg v r) := by
  cases r <;> unfold State.writeReg <;> dsimp only
  case command => exact C.commandWrite h v
  case alertMode => exact C.writeAlert h _ _
  case tableUpper => exact C.writeAlert h _ _
  case tableLower => exact C.writeAlert h _ _
  case poolUpper => exact C.writeAlert h _ _
  case poolLower => exact C.writeAlert h _ _
  case drainHigh => exact C.writeDrain h _ _
  case drainLow => exact C.writeDrain h _ _
  case holdAlert => exact C.writeHoldAlert h _
  case peakOcc => exact C.writePeak h _ _
  case peakPool => exact C.writePeak h _ _
  case wideLow q => cases q <;> first | exact C.writePeak h _ _ | exact h
  all_goals first | exact h | exact C.same s _ rfl h

/-- Every command keeps it. -/
theorem exec {s t : State} (c : Instr) (h : Q s) (he : Machine.exec c s = .next t) : Q t := by
  cases c with
  | writeArrival i a m d g => exact C.write _ _ _ _ _ _ _ h he
  | readArrival i a g => exact C.read _ _ _ _ _ h he
  | releasedLeave => exact C.leave _ _ h he
  | issue => exact C.issue _ _ h he
  | passThroughAnswer g a =>
    simp only [Machine.exec, execPassThroughAnswer] at he
    split at he
    · rw [Outcome.next_inj] at he; subst he; exact h
    · split_ifs at he <;> rw [Outcome.next_inj] at he <;> subst he
      · exact C.same s _ rfl h
      · exact h
  | unmatchedAnswer g a => cases he; exact h
  | captureReadData g d => exact C.captureData _ _ _ _ h he
  | imageWriteDone g => exact C.imageDone _ _ _ h he
  | descWriteDone g => exact C.descDone _ _ _ h he
  | descReadData g d => exact C.descData _ _ _ _ h he
  | slotReadData g d => exact C.slotData _ _ _ _ h he
  | slotWriteDone g => exact C.slotDone _ _ _ h he
  | jcbReadData g d => exact C.jcbData _ _ _ _ h he
  | errorAnswer g =>
    simp only [Machine.exec, execErrorAnswer, Outcome.next_inj] at he
    subst he; exact C.error _ _ _ h
  | timeout g =>
    simp only [Machine.exec, execTimeout] at he
    split_ifs at he <;> rw [Outcome.next_inj] at he <;> subst he
    · exact C.error _ _ _ h
    · exact h
  | abandonedAnswer g a =>
    simp only [Machine.exec, execAbandonedAnswer, Outcome.next_inj] at he
    subst he; exact C.abandoned _ _ h
  | abandonedTimeout g =>
    simp only [Machine.exec, execAbandonedTimeout] at he
    split_ifs at he <;> rw [Outcome.next_inj] at he <;> subst he
    · exact C.abandoned _ _ h
    · exact h
  | holdLimitExpiry => exact C.limit _ _ h he
  | holdAlertReached =>
    simp only [Machine.exec, execHoldAlertReached] at he
    split_ifs at he <;> rw [Outcome.next_inj] at he <;> subst he
    · refine C.same s _ ?_ h
      simp only [State.lawView, LawView.mk.injEq, true_and, and_true, State.raise]
      exact markFirst_view _ _
    · exact h
  | ageExpiry => exact C.age _ _ h he
  | firPollExpiry => exact C.firPoll _ _ h he
  | ringPollExpiry => exact C.ringPoll _ _ h he
  | bufferGrant => exact C.grant _ _ h he
  | prefetch => exact C.prefetch _ _ h he
  | copyOutStart => exact C.copyOut _ _ h he
  | retirement => exact C.retire _ _ h he
  | closeRecordBuild => exact C.closeRecord _ _ h he
  | journalSlotReadStart => exact C.slotRead _ _ h he
  | load =>
    simp only [Machine.exec, execLoad] at he
    exact port h he (C.afterWrite (C.takeLoad h) _)
  | openEpoch =>
    simp only [Machine.exec, execOpenEpoch] at he
    exact port h he (C.afterWrite (C.takeOpen h) _)
  | closeSwitch =>
    simp only [Machine.exec, execCloseSwitch] at he
    exact port h he (C.afterWrite (C.takeSwitch h) _)
  | closeEnd =>
    simp only [Machine.exec, execCloseEnd] at he
    exact port h he (C.afterWrite (C.takeEnd h) _)
  | kick =>
    simp only [Machine.exec, execKick] at he
    exact port h he (C.afterWrite (C.kick _ h) _)
  | stop =>
    simp only [Machine.exec, execStop] at he
    exact port h he (C.afterWrite (C.stop _ h) _)
  | invalidCommandCode v =>
    simp only [Machine.exec, execInvalidCommandCode] at he
    exact port h he (C.afterWrite (C.commandWrite h v) _)
  | cmdStatusWrite v =>
    simp only [Machine.exec, execCmdStatusWrite] at he
    exact port h he (C.same s _ rfl h)
  | eventWrite v =>
    simp only [Machine.exec, execEventWrite] at he
    exact port h he (C.same s _ rfl h)
  | eventEnableWrite v =>
    simp only [Machine.exec, execEventEnableWrite] at he
    exact port h he (C.same s _ rfl h)
  | alertThresholdWrite r v =>
    simp only [Machine.exec, execAlertThresholdWrite] at he
    exact port h he (C.afterWrite (C.writeAlert h r v) _)
  | holdLimitWrite v =>
    simp only [Machine.exec, execHoldLimitWrite] at he
    exact port h he (C.same s _ rfl h)
  | holdAlertWrite v =>
    simp only [Machine.exec, execHoldAlertWrite] at he
    exact port h he (C.afterWrite (C.writeHoldAlert h v) _)
  | pollWrite v =>
    simp only [Machine.exec, execPollWrite] at he
    exact port h he (C.same s _ rfl h)
  | drainThresholdWrite r v =>
    simp only [Machine.exec, execDrainThresholdWrite] at he
    exact port h he (C.afterWrite (C.writeDrain h r v) _)
  | inspectSlotWrite v =>
    simp only [Machine.exec, execInspectSlotWrite] at he
    exact port h he (C.same s _ rfl h)
  | peakReset p =>
    simp only [Machine.exec, execPeakReset] at he
    exact port h he (C.afterWrite (by cases p <;> exact C.same s _ rfl h) _)
  | registerWrite p v =>
    simp only [Machine.exec, execRegisterWrite] at he
    exact port h he (C.afterWrite (C.writeReg h v _) _)
  | pointerByte b =>
    simp only [Machine.exec, execPointerByte] at he
    exact port h he (C.same s _ rfl h)
  | busStopCondition =>
    simp only [Machine.exec, execBusStopCondition] at he
    exact port h he (C.same s _ rfl h)
  | latchedRead =>
    simp only [Machine.exec, execLatchedRead] at he
    refine port h he ?_
    split
    · unfold State.sampleByte; split_ifs
      · exact C.same s _ rfl h
      · exact C.same s _ (by unfold State.latch; cases regAt s.port.pointer <;> rfl) h
    · unfold State.sampleByte; split_ifs
      · exact C.same s _ rfl h
      · exact C.same s _ (by unfold State.latch; cases regAt s.port.pointer <;> rfl) h
    · exact C.same s _ rfl h
  | powerOnReset => cases he; exact C.same State.reset _ rfl C.reset
  | resetRelease a b =>
    simp only [Machine.exec, execResetRelease] at he
    split_ifs at he <;> rw [Outcome.next_inj] at he <;> subst he
    · exact C.same s _ rfl h
    · exact h
  | heldLowByte b =>
    simp only [Machine.exec, execHeldLowByte] at he
    refine port h he ?_
    split
    · unfold State.highByte; split_ifs
      · exact C.same s _ rfl h
      · exact C.afterWrite (C.writeReg h _ _) _
    · exact C.same s _ rfl h
    · exact C.same s _ rfl h

/-- Every step keeps it. -/
theorem step (s t : State) (h : Q s) (he : Machine.step s = .next t) : Q t := by
  have one : ∀ c cs, s.takeOne c cs = .next t → Q t := by
    intro c cs he
    unfold State.takeOne at he
    split at he
    · exact C.exec _ h he
    · exact C.exec (s := { s with choices := s.choices + 1 }) _ (C.same s _ rfl h) he
  unfold Machine.step at he
  split at he
  · rename_i c cs _; exact C.exec (s := { s with pending := cs }) c (C.same s _ rfl h) he
  · unfold idle at he
    split at he
    · exact one _ _ he
    · exact one _ _ he
    · rw [Outcome.next_inj] at he; subst he
      refine C.same s _ ?_ h
      simp only [State.lawView, LawView.mk.injEq, true_and, and_true, State.tick, List.map_map,
        Option.isSome_map]
      refine ⟨?_, ?_⟩
      · apply List.map_congr_left
        intro x _
        simp only [Function.comp, HeldReq.tick]
        split_ifs <;> rfl
      · apply List.map_congr_left; intro x _; rfl

end Kept

end Sys2Proof.Machine
end

