-- ==== Sys2Proof/Laws/Table.lean ====
section
/-! SUPPORT. The Block Table under the shared operations: each keeps the table's law and the Retire
List's law, given what it changes; and what a classification does. -/

namespace Sys2Proof.Machine

/-! ### Entries -/

theorem lawful_newEntry (slot : Nat) (b : Block) (n : Half) (c : Classification) :
    (newEntry slot b n c).lawful := by
  have hbit : ∀ i : Initiator, (initBit i).getLsbD i.toNat = true := by
    intro i
    have := i.isLt
    simp [initBit, this]
  unfold Entry.lawful newEntry
  cases c.mode <;> simp [EntryState.holdsBuffer, EntryState.namesImage, hbit]

/-- An update keeps an entry lawful: it touches the statistics alone (R28 to R30). -/
theorem lawful_update (e : Entry) (i : Initiator) (t : Word) (h : e.lawful) :
    (e.update i t).lawful := by
  obtain ⟨h1, h2, h3, h4, h5, h6, h7⟩ := h
  refine ⟨h1, h2, h3, h4, ?_, ?_, ?_⟩
  · show satInc e.count ≠ 0
    unfold satInc
    split_ifs with hc
    · exact h5
    · intro hz
      apply hc
      have : e.count = (e.count + 1) - 1 := by simp
      rw [this, hz]
      rfl
  · show (e.writers ||| initBit i).getLsbD e.firstWriter.toNat = true
    simp [h6]
  · show (e.writers ||| initBit i).getLsbD i.toNat = true
    have := i.isLt
    simp [initBit, this]

theorem lawful_withdrawAge (e : Entry) (h : e.lawful) : e.withdrawAge.lawful := by
  unfold Entry.withdrawAge
  split_ifs
  · obtain ⟨h1, h2, h3, _, h5, h6, h7⟩ := h
    exact ⟨h1, h2, h3, by simp, h5, h6, h7⟩
  · exact h

theorem lawful_applyDeferred (b : Block) (q : List HeldReq) (e : Entry) (h : e.lawful) :
    (applyDeferred b q e).lawful := by
  rw [applyDeferred_eq_foldl]
  generalize q.filterMap _ = ds
  induction ds generalizing e with
  | nil => exact h
  | cons d ds ih => exact ih _ (lawful_update e _ _ h)

theorem applyDeferred_keeps (b : Block) (q : List HeldReq) (e : Entry) :
    (applyDeferred b q e).slot = e.slot ∧ (applyDeferred b q e).poolBuf = e.poolBuf ∧
      (applyDeferred b q e).cause = e.cause := by
  rw [applyDeferred_eq_foldl]
  generalize q.filterMap _ = ds
  induction ds generalizing e with
  | nil => exact ⟨rfl, rfl, rfl⟩
  | cons d ds ih => exact ih (e.update d.initiator d.time)

/-! ### Finding entries -/

theorem State.entryAt_mem {s : State} {slot : Nat} {e : Entry} (h : s.entryAt slot = some e) :
    e ∈ s.table ∧ e.slot = slot :=
  ⟨List.mem_of_find?_eq_some h, by simpa using List.find?_some h⟩

theorem State.lookup_mem {s : State} {b : Block} {e : Entry} (h : s.lookup b = some e) :
    e ∈ s.table ∧ e.block = b ∧ e.epoch = s.epoch.number := by
  refine ⟨List.mem_of_find?_eq_some h, ?_⟩
  simpa using List.find?_some h

theorem earliestStamp_mem {l : List Entry} {e : Entry} (h : earliestStamp l = some e) : e ∈ l := by
  induction l generalizing e with
  | nil => cases h
  | cons a rest ih =>
    unfold earliestStamp at h
    cases hr : earliestStamp rest with
    | none => rw [hr] at h; simp at h; exact h ▸ List.mem_cons_self
    | some b =>
      rw [hr] at h
      dsimp only at h
      split_ifs at h <;> simp at h
      · exact h ▸ List.mem_cons_of_mem _ (ih hr)
      · exact h ▸ List.mem_cons_self

/-- Entries of one slot are one entry. -/
theorem TableLaw.eq_of_slot {s : State} (h : TableLaw s) {a b : Entry} (ha : a ∈ s.table)
    (hb : b ∈ s.table) (hs : a.slot = b.slot) : a = b :=
  List.inj_on_of_nodup_map h.1 ha hb hs

/-! ### The table's law -/

theorem TableLaw.of_table {s t : State} (h : TableLaw s) (ht : t.table = s.table) : TableLaw t := by
  unfold TableLaw; rw [ht]; exact h

/-- A change of one entry that keeps its slot and its buffer, and keeps it lawful. -/
theorem TableLaw.modify {s t : State} (h : TableLaw s) (slot : Nat) (f : Entry → Entry)
    (ht : t.table = s.table.map fun e => if e.slot = slot then f e else e)
    (hs : ∀ e, (f e).slot = e.slot)
    (hf : ∀ e ∈ s.table, e.slot = slot → (f e).lawful)
    (hp : ∀ e ∈ s.table, e.slot = slot → (f e).poolBuf = e.poolBuf ∨ (f e).poolBuf = none) :
    TableLaw t := by
  obtain ⟨h1, h2, h3, h4⟩ := h
  have hmem : ∀ e ∈ t.table, ∃ x ∈ s.table, e.slot = x.slot ∧ (e.poolBuf = x.poolBuf ∨
      e.poolBuf = none) ∧ e.lawful := by
    intro e he
    rw [ht] at he
    obtain ⟨x, hx, rfl⟩ := List.mem_map.1 he
    refine ⟨x, hx, ?_⟩
    split_ifs with hc
    · exact ⟨hs x, hp x hx hc, hf x hx hc⟩
    · exact ⟨rfl, Or.inl rfl, (h2 x hx).2⟩
  refine ⟨?_, ?_, ?_, ?_⟩
  · rw [ht, List.map_map]
    have : ((fun e : Entry => e.slot) ∘ fun e => if e.slot = slot then f e else e) =
        fun e => e.slot := by
      funext e; simp only [Function.comp]; split_ifs <;> simp [hs]
    rw [this]; exact h1
  · intro e he
    obtain ⟨x, hx, hsl, _, hl⟩ := hmem e he
    exact ⟨hsl ▸ (h2 x hx).1, hl⟩
  · rw [ht, List.filterMap_map]
    have hsub : ∀ l : List Entry, (∀ e ∈ l, e ∈ s.table) →
        (l.filterMap ((fun e : Entry => e.poolBuf) ∘
          fun e => if e.slot = slot then f e else e)).Sublist (l.filterMap (·.poolBuf)) := by
      intro l hl
      induction l with
      | nil => simp
      | cons a l ih =>
        have ih' := ih fun e he => hl e (List.mem_cons_of_mem _ he)
        simp only [List.filterMap_cons, Function.comp]
        have ha : (if a.slot = slot then f a else a).poolBuf = a.poolBuf ∨
            (if a.slot = slot then f a else a).poolBuf = none := by
          split_ifs with hc
          · exact hp a (hl a List.mem_cons_self) hc
          · exact Or.inl rfl
        rcases ha with ha | ha <;> rw [ha]
        · cases a.poolBuf with
          | none => exact ih'
          | some n => exact ih'.cons_cons n
        · cases a.poolBuf with
          | none => exact ih'
          | some n => exact ih'.cons n
    exact (hsub s.table fun _ he => he).nodup h3
  · intro e he n hn
    obtain ⟨x, hx, _, hb, _⟩ := hmem e he
    rcases hb with hb | hb
    · exact h4 x hx n (hb ▸ hn)
    · rw [hb] at hn; cases hn

/-- Entries leave: those that stay are as they were. -/
theorem TableLaw.filter {s t : State} (h : TableLaw s) (p : Entry → Bool)
    (ht : t.table = s.table.filter p) : TableLaw t := by
  obtain ⟨h1, h2, h3, h4⟩ := h
  unfold TableLaw
  rw [ht]
  refine ⟨h1.sublist (List.filter_sublist.map _), fun e he => h2 e (List.mem_of_mem_filter he),
    h3.sublist (List.filter_sublist.filterMap _), fun e he => h4 e (List.mem_of_mem_filter he)⟩

/-- A lawful entry joins in a free slot, holding no buffer. -/
theorem TableLaw.create {s t : State} (h : TableLaw s) (e : Entry)
    (ht : t.table = s.table ++ [e]) (hs : e.slot < Config.tableSlots)
    (hfree : ∀ x ∈ s.table, x.slot ≠ e.slot) (hl : e.lawful) (hp : e.poolBuf = none) :
    TableLaw t := by
  obtain ⟨h1, h2, h3, h4⟩ := h
  unfold TableLaw
  rw [ht]
  refine ⟨?_, ?_, ?_, ?_⟩
  · rw [List.map_append, List.nodup_append]
    refine ⟨h1, by simp, ?_⟩
    intro a ha b hb hab
    obtain ⟨x, hx, rfl⟩ := List.mem_map.1 ha
    simp at hb
    exact hfree x hx (by rw [hab, hb])
  · intro x hx
    rcases List.mem_append.1 hx with hx | hx
    · exact h2 x hx
    · simp at hx; subst hx; exact ⟨hs, hl⟩
  · rw [List.filterMap_append]
    simp [hp, h3]
  · intro x hx n hn
    rcases List.mem_append.1 hx with hx | hx
    · exact h4 x hx n hn
    · simp at hx; subst hx; rw [hp] at hn; cases hn

/-- A PENDING entry takes a free buffer (R55). -/
theorem TableLaw.grant {s t : State} (h : TableLaw s) (slot n : Nat) (f : Entry → Entry)
    (ht : t.table = s.table.map fun e => if e.slot = slot then f e else e)
    (hs : ∀ e, (f e).slot = e.slot)
    (hf : ∀ e ∈ s.table, e.slot = slot → (f e).lawful)
    (hp : ∀ e, (f e).poolBuf = some n)
    (hn : n < Config.poolBuffers) (hfree : ∀ e ∈ s.table, e.poolBuf ≠ some n) : TableLaw t := by
  obtain ⟨h1, h2, h3, h4⟩ := h
  unfold TableLaw
  rw [ht]
  refine ⟨?_, ?_, ?_, ?_⟩
  · rw [List.map_map]
    have : ((fun e : Entry => e.slot) ∘ fun e => if e.slot = slot then f e else e) =
        fun e => e.slot := by
      funext e; simp only [Function.comp]; split_ifs <;> simp [hs]
    rw [this]; exact h1
  · intro e he
    obtain ⟨x, hx, rfl⟩ := List.mem_map.1 he
    split_ifs with hc
    · exact ⟨by rw [hs]; exact (h2 x hx).1, hf x hx hc⟩
    · exact h2 x hx
  · rw [List.filterMap_map]
    have key : ∀ l : List Entry, (∀ e ∈ l, e ∈ s.table) → (l.map (·.slot)).Nodup →
        (l.filterMap (·.poolBuf)).Nodup →
        (l.filterMap ((fun e : Entry => e.poolBuf) ∘
          fun e => if e.slot = slot then f e else e)).Nodup ∧
        ∀ k, k ∈ l.filterMap ((fun e : Entry => e.poolBuf) ∘
          fun e => if e.slot = slot then f e else e) →
          (k = n ∧ ∃ e ∈ l, e.slot = slot) ∨ ∃ e ∈ l, e.poolBuf = some k := by
      intro l hl hnd hbd
      induction l with
      | nil => simp
      | cons a l ih =>
        have hl' : ∀ e ∈ l, e ∈ s.table := fun e he => hl e (List.mem_cons_of_mem _ he)
        rw [List.map_cons, List.nodup_cons] at hnd
        have hbd' : (l.filterMap (·.poolBuf)).Nodup :=
          hbd.sublist ((List.sublist_cons_self a l).filterMap _)
        obtain ⟨ih1, ih2⟩ := ih hl' hnd.2 hbd'
        have hout : ∀ k, k ∈ l.filterMap ((fun e : Entry => e.poolBuf) ∘
            fun e => if e.slot = slot then f e else e) →
            (k = n ∧ ∃ e ∈ a :: l, e.slot = slot) ∨ ∃ e ∈ a :: l, e.poolBuf = some k := by
          intro k hk
          rcases ih2 k hk with ⟨rfl, e, he, hes⟩ | ⟨e, he, hek⟩
          · exact Or.inl ⟨rfl, e, List.mem_cons_of_mem _ he, hes⟩
          · exact Or.inr ⟨e, List.mem_cons_of_mem _ he, hek⟩
        simp only [List.filterMap_cons, Function.comp]
        by_cases hc : a.slot = slot
        · rw [if_pos hc, hp a]
          refine ⟨List.nodup_cons.2 ⟨?_, ih1⟩, ?_⟩
          · intro hmem
            rcases ih2 n hmem with ⟨_, e, he, hes⟩ | ⟨e, he, hek⟩
            · exact hnd.1 (List.mem_map.2 ⟨e, he, by rw [hes, hc]⟩)
            · exact hfree e (hl' e he) hek
          · intro k hk
            rcases List.mem_cons.1 hk with rfl | hk
            · exact Or.inl ⟨rfl, a, List.mem_cons_self, hc⟩
            · exact hout k hk
        · rw [if_neg hc]
          cases hb : a.poolBuf with
          | none => exact ⟨ih1, hout⟩
          | some m =>
            refine ⟨List.nodup_cons.2 ⟨?_, ih1⟩, ?_⟩
            · intro hmem
              rcases ih2 m hmem with ⟨rfl, _⟩ | ⟨e, he, hek⟩
              · exact hfree a (hl a List.mem_cons_self) hb
              · rw [List.filterMap_cons, hb, List.nodup_cons] at hbd
                exact hbd.1 (List.mem_filterMap.2 ⟨e, he, hek⟩)
            · intro k hk
              rcases List.mem_cons.1 hk with rfl | hk
              · exact Or.inr ⟨a, List.mem_cons_self, hb⟩
              · exact hout k hk
    exact (key s.table (fun _ he => he) h1 h3).1
  · intro e he k hk
    obtain ⟨x, hx, rfl⟩ := List.mem_map.1 he
    split_ifs at hk with hc
    · rw [hp] at hk; cases hk; exact hn
    · exact h4 x hx k hk

/-! ### The table's law under the shared operations -/

theorem TableLaw.giveCause {s : State} (h : TableLaw s) (e : Entry) (c : Cause) (he : e ∈ s.table)
    (hm : c = .close ∨ e.mode = .trace) : TableLaw (s.giveCause e.slot c) := by
  refine h.modify e.slot (fun e => { e with cause := some c }) (by simp) (fun _ => rfl) ?_
    (fun _ _ _ => Or.inl rfl)
  intro x hx hs
  obtain rfl := h.eq_of_slot hx he hs
  obtain ⟨h1, h2, h3, h4, h5⟩ := (h.2.1 x hx).2
  refine ⟨h1, h2, h3, ?_, h5⟩
  rcases hm with rfl | hm
  · simp
  · intro _; exact hm

theorem TableLaw.victimChoice {s : State} (h : TableLaw s) : TableLaw s.victimChoice := by
  unfold State.victimChoice
  split
  · exact h
  · rename_i e he
    have hm := List.mem_filter.1 (earliestStamp_mem he)
    refine h.giveCause e _ hm.1 (Or.inr ?_)
    have := hm.2
    simp [State.victimCandidate] at this
    exact this.1.1.2

theorem TableLaw.hitEntry {s : State} (h : TableLaw s) (e : Entry) (i : Initiator) (t : Word) :
    TableLaw (s.hitEntry e i t) := by
  refine h.modify e.slot (fun e => (e.update i t).withdrawAge) (by simp) ?_ ?_ ?_
  · intro x; unfold Entry.withdrawAge; split_ifs <;> rfl
  · intro x hx _; exact lawful_withdrawAge _ (lawful_update _ _ _ (h.2.1 x hx).2)
  · intro x _ _; left; unfold Entry.withdrawAge; split_ifs <;> rfl

theorem TableLaw.tableTake {s : State} (h : TableLaw s) (b : Block) (c : Classification)
    (waiting ahead : Bool) : TableLaw (s.tableTake b c waiting ahead).1 := by
  unfold State.tableTake
  split
  · exact h.hitEntry _ _ _
  · split_ifs
    · exact h.of_table (by simp)
    · exact h
    · split
      · rename_i slot hf
        obtain ⟨h1, h2, _⟩ := (State.freeSlot_eq_some s slot).1 hf
        exact h.create (newEntry slot b s.epoch.number c) (by simp) h1 h2
          (lawful_newEntry _ _ _ _) rfl
      · exact h.victimChoice

theorem TableLaw.classifyWrite {s : State} (h : TableLaw s) (r : Request)
    (waiting ahead blocked : Bool) : TableLaw (s.classifyWrite r waiting ahead blocked).1 := by
  unfold State.classifyWrite
  split
  · exact h
  · exact h
  · exact h.tableTake _ _ _ _

theorem TableLaw.releaseWalk (b : Block) (slot : Nat) (q done : List HeldReq) (blocked : Bool)
    {s : State} (h : TableLaw s) : TableLaw (releaseWalk b slot q done blocked s).1 := by
  induction q generalizing done blocked s with
  | nil => exact h
  | cons a rest ih =>
    unfold Machine.releaseWalk
    by_cases hb : a.block = b
    · rw [if_pos hb]
      cases a.hold with
      | released => exact ih _ _ h
      | capture n =>
        dsimp only
        split_ifs
        · exact ih _ _ h
        · exact ih _ _ h
      | entry c => exact ih _ _ h
      | buffer n => exact ih _ _ h
      | order d mark here =>
        cases mark with
        | false => exact ih _ _ h
        | true => exact ih _ _ (h.classifyWrite _ _ _ _)
    · rw [if_neg hb]; exact ih _ _ h

theorem TableLaw.reclassify (q done : List HeldReq) {s : State} (h : TableLaw s) :
    TableLaw (reclassify q done s).1 := by
  induction q generalizing done s with
  | nil => exact h
  | cons a rest ih =>
    unfold Machine.reclassify
    split_ifs
    · exact ih _ (h.classifyWrite _ _ _ _)
    · exact ih _ h

theorem TableLaw.removeEntries {s : State} (h : TableLaw s) (slots : List Nat) :
    TableLaw (s.removeEntries slots) :=
  h.filter (fun e => !slots.contains e.slot) rfl

/-- A slot that was just freed is granted (R25). -/
theorem TableLaw.grantEntry {s : State} (h : TableLaw s) (slot : Nat)
    (hs : slot < Config.tableSlots) (hfree : ∀ x ∈ s.table, x.slot ≠ slot) :
    TableLaw (s.grantEntry slot) := by
  unfold State.grantEntry
  split
  · exact h
  · rename_i a c _
    obtain ⟨k1, k2, _⟩ :=
      applyDeferred_keeps a.block s.hold (newEntry slot a.block s.epoch.number c)
    refine h.create (applyDeferred a.block s.hold (newEntry slot a.block s.epoch.number c))
      (by simp) ?_ ?_ (lawful_applyDeferred _ _ _ (lawful_newEntry _ _ _ _)) ?_
    · rw [k1]; exact hs
    · rw [k1]; exact hfree
    · rw [k2]; rfl

theorem TableLaw.closeEntries {s : State} (h : TableLaw s) : TableLaw s.closeEntries := by
  obtain ⟨h1, h2, h3, h4⟩ := h
  have hmap : ∀ {β : Type} (g : Entry → β), (∀ e c, g { e with cause := c } = g e) →
      (g ∘ fun e => if s.isCurrent e then { e with cause := some .close } else e) = g := by
    intro β g hg
    funext e
    simp only [Function.comp]
    split_ifs
    · exact hg e _
    · rfl
  have ht : s.closeEntries.table = s.table.map fun e =>
      if s.isCurrent e then { e with cause := some .close } else e := rfl
  unfold TableLaw
  rw [ht, List.map_map, List.filterMap_map, hmap _ (fun _ _ => rfl), hmap _ (fun _ _ => rfl)]
  refine ⟨h1, ?_, h3, ?_⟩
  · intro e he
    obtain ⟨x, hx, rfl⟩ := List.mem_map.1 he
    obtain ⟨a, b1, b2, b3, b4, b5⟩ := h2 x hx
    split_ifs
    · exact ⟨a, b1, b2, b3, by simp, b5⟩
    · exact ⟨a, b1, b2, b3, b4, b5⟩
  · intro e he n hn
    obtain ⟨x, hx, rfl⟩ := List.mem_map.1 he
    refine h4 x hx n ?_
    split_ifs at hn <;> exact hn

/-! ### The Retire List's law -/

theorem RetireLaw.of_eq {s t : State} (h : RetireLaw s) (h1 : t.table = s.table)
    (h2 : t.retire.list = s.retire.list) : RetireLaw t := by
  unfold RetireLaw; rw [h1, h2]; exact h

/-- Entries change, but neither their slots nor whether they carry a cause. -/
theorem RetireLaw.map {s t : State} (h : RetireLaw s) (f : Entry → Entry)
    (ht : t.table = s.table.map f) (hr : t.retire.list = s.retire.list)
    (hs : ∀ e, (f e).slot = e.slot)
    (hc : ∀ e ∈ s.table, (f e).cause.isSome = e.cause.isSome) : RetireLaw t := by
  refine ⟨hr ▸ h.1, fun n => ?_⟩
  rw [hr, h.2, ht]
  constructor
  · rintro ⟨e, he, h1, h2⟩
    exact ⟨f e, List.mem_map_of_mem he, by rw [hs, h1], by rw [hc e he, h2]⟩
  · rintro ⟨x, hx, h1, h2⟩
    obtain ⟨e, he, rfl⟩ := List.mem_map.1 hx
    exact ⟨e, he, by rw [← hs e, h1], by rw [← hc e he, h2]⟩

/-- One entry without a cause receives one and joins the tail of the list. -/
theorem RetireLaw.giveCause {s : State} (h : RetireLaw s) (ht : TableLaw s) (e : Entry) (c : Cause)
    (he : e ∈ s.table) (hn : e.cause = none) : RetireLaw (s.giveCause e.slot c) := by
  have hnot : e.slot ∉ s.retire.list := by
    intro hm
    obtain ⟨x, hx, hs, hx2⟩ := (h.2 e.slot).1 hm
    rw [ht.eq_of_slot hx he hs, hn] at hx2
    cases hx2
  refine ⟨?_, fun n => ?_⟩
  · simp only [State.giveCause_retire]
    rw [List.nodup_append]
    refine ⟨h.1, by simp, ?_⟩
    intro a ha b hb hab
    simp at hb
    exact hnot (hb ▸ hab ▸ ha)
  · simp only [State.giveCause_retire, State.giveCause_table, List.mem_append, List.mem_singleton]
    constructor
    · rintro (hm | rfl)
      · obtain ⟨x, hx, h1, h2⟩ := (h.2 n).1 hm
        refine ⟨_, List.mem_map_of_mem hx, ?_, ?_⟩
        · split_ifs <;> exact h1
        · split_ifs
          · rfl
          · exact h2
      · exact ⟨_, List.mem_map_of_mem he, by simp, by simp⟩
    · rintro ⟨x, hx, h1, h2⟩
      obtain ⟨y, hy, rfl⟩ := List.mem_map.1 hx
      split_ifs at h1 h2 with hc
      · right; rw [← h1]; exact hc
      · left; exact (h.2 n).2 ⟨y, hy, h1, h2⟩

theorem RetireLaw.victimChoice {s : State} (h : RetireLaw s) (ht : TableLaw s) :
    RetireLaw s.victimChoice := by
  unfold State.victimChoice
  split
  · exact h
  · rename_i e he
    have hm := List.mem_filter.1 (earliestStamp_mem he)
    refine h.giveCause ht e _ hm.1 ?_
    have := hm.2
    simp [State.victimCandidate] at this
    exact this.2

theorem RetireLaw.filter {s t : State} (h : RetireLaw s) (p : Nat → Bool)
    (ht : t.table = s.table.filter fun e => p e.slot)
    (hr : t.retire.list = s.retire.list.filter p) : RetireLaw t := by
  refine ⟨hr ▸ h.1.sublist List.filter_sublist, fun n => ?_⟩
  rw [hr, ht]
  simp only [List.mem_filter, h.2]
  constructor
  · rintro ⟨⟨e, he, h1, h2⟩, hp⟩
    exact ⟨e, ⟨he, h1 ▸ hp⟩, h1, h2⟩
  · rintro ⟨e, ⟨he, hp⟩, h1, h2⟩
    exact ⟨⟨e, he, h1, h2⟩, h1 ▸ hp⟩

theorem RetireLaw.create {s t : State} (h : RetireLaw s) (e : Entry)
    (ht : t.table = s.table ++ [e]) (hr : t.retire.list = s.retire.list) (hc : e.cause = none) :
    RetireLaw t := by
  refine ⟨hr ▸ h.1, fun n => ?_⟩
  rw [hr, ht, h.2]
  simp only [List.mem_append, List.mem_singleton]
  constructor
  · rintro ⟨x, hx, h1, h2⟩
    exact ⟨x, Or.inl hx, h1, h2⟩
  · rintro ⟨x, hx | rfl, h1, h2⟩
    · exact ⟨x, hx, h1, h2⟩
    · rw [hc] at h2; cases h2

/-- A hit withdraws an AGE cause and takes the entry off the list, and leaves others (R35). -/
theorem RetireLaw.hitEntry {s : State} (h : RetireLaw s) (ht : TableLaw s) (e : Entry)
    (he : e ∈ s.table) (i : Initiator) (t : Word) : RetireLaw (s.hitEntry e i t) := by
  by_cases ha : e.cause = some .age
  · refine ⟨?_, fun n => ?_⟩
    · simp only [State.hitEntry_retire, if_pos ha]
      exact h.1.sublist List.filter_sublist
    · simp only [State.hitEntry_retire, State.hitEntry_table, if_pos ha, List.mem_filter, h.2,
        bne_iff_ne, ne_eq]
      constructor
      · rintro ⟨⟨x, hx, h1, h2⟩, hn⟩
        refine ⟨_, List.mem_map_of_mem hx, ?_, ?_⟩
        · rw [if_neg (by rw [h1]; exact hn)]; exact h1
        · rw [if_neg (by rw [h1]; exact hn)]; exact h2
      · rintro ⟨x, hx, h1, h2⟩
        obtain ⟨y, hy, rfl⟩ := List.mem_map.1 hx
        split_ifs at h1 h2 with hc
        · obtain rfl := ht.eq_of_slot hy he hc
          have hu : (y.update i t).cause = some .age := ha
          simp [Entry.withdrawAge, hu] at h2
        · exact ⟨⟨y, hy, h1, h2⟩, by rw [← h1]; exact hc⟩
  · refine h.map (fun x => if x.slot = e.slot then (x.update i t).withdrawAge else x) (by simp)
      (by simp [ha]) ?_ ?_
    · intro x
      split_ifs
      · unfold Entry.withdrawAge; split_ifs <;> rfl
      · rfl
    · intro x hx
      split_ifs with hc
      · obtain rfl := ht.eq_of_slot hx he hc
        have hu : (x.update i t).cause = x.cause := rfl
        unfold Entry.withdrawAge
        rw [hu, if_neg ha, hu]
      · rfl

theorem RetireLaw.tableTake {s : State} (h : RetireLaw s) (ht : TableLaw s) (b : Block)
    (c : Classification) (waiting ahead : Bool) :
    RetireLaw (s.tableTake b c waiting ahead).1 := by
  unfold State.tableTake
  split
  · rename_i e he
    exact h.hitEntry ht e (State.lookup_mem he).1 _ _
  · split_ifs
    · exact h.of_eq (by simp) (by simp)
    · exact h
    · split
      · exact h.create (newEntry _ b s.epoch.number c) (by simp; rfl) (by simp) rfl
      · exact h.victimChoice ht

theorem RetireLaw.classifyWrite {s : State} (h : RetireLaw s) (ht : TableLaw s) (r : Request)
    (waiting ahead blocked : Bool) : RetireLaw (s.classifyWrite r waiting ahead blocked).1 := by
  unfold State.classifyWrite
  split
  · exact h
  · exact h
  · exact h.tableTake ht _ _ _ _

theorem RetireLaw.releaseWalk (b : Block) (slot : Nat) (q done : List HeldReq) (blocked : Bool)
    {s : State} (h : RetireLaw s) (ht : TableLaw s) :
    RetireLaw (releaseWalk b slot q done blocked s).1 := by
  induction q generalizing done blocked s with
  | nil => exact h
  | cons a rest ih =>
    unfold Machine.releaseWalk
    by_cases hb : a.block = b
    · rw [if_pos hb]
      cases a.hold with
      | released => exact ih _ _ h ht
      | capture n =>
        dsimp only
        split_ifs
        · exact ih _ _ h ht
        · exact ih _ _ h ht
      | entry c => exact ih _ _ h ht
      | buffer n => exact ih _ _ h ht
      | order d mark here =>
        cases mark with
        | false => exact ih _ _ h ht
        | true => exact ih _ _ (h.classifyWrite ht _ _ _ _) (ht.classifyWrite _ _ _ _)
    · rw [if_neg hb]; exact ih _ _ h ht

theorem RetireLaw.reclassify (q done : List HeldReq) {s : State} (h : RetireLaw s)
    (ht : TableLaw s) : RetireLaw (reclassify q done s).1 := by
  induction q generalizing done s with
  | nil => exact h
  | cons a rest ih =>
    unfold Machine.reclassify
    split_ifs
    · exact ih _ (h.classifyWrite ht _ _ _ _) (ht.classifyWrite _ _ _ _)
    · exact ih _ h ht

theorem RetireLaw.removeEntries {s : State} (h : RetireLaw s) (slots : List Nat) :
    RetireLaw (s.removeEntries slots) :=
  h.filter (fun n => !slots.contains n) (by simp) (by simp)

theorem RetireLaw.grantEntry {s : State} (h : RetireLaw s) (slot : Nat) :
    RetireLaw (s.grantEntry slot) := by
  unfold State.grantEntry
  split
  · exact h
  · rename_i a c _
    exact h.create (applyDeferred a.block s.hold (newEntry slot a.block s.epoch.number c))
      (by simp) (by simp) (applyDeferred_keeps _ _ _).2.2

/-- At a CLOSE cut the current entries without a cause join the list in creation order (R36). -/
theorem RetireLaw.closeEntries {s : State} (h : RetireLaw s) (ht : TableLaw s) :
    RetireLaw s.closeEntries := by
  have htab : s.closeEntries.table = s.table.map fun e =>
      if s.isCurrent e then { e with cause := some .close } else e := rfl
  have hlist : s.closeEntries.retire.list = s.retire.list ++
      (s.table.filter fun e => s.isCurrent e && e.cause.isNone).map (·.slot) := rfl
  refine ⟨?_, fun n => ?_⟩
  · rw [hlist, List.nodup_append]
    refine ⟨h.1, ht.1.sublist (List.filter_sublist.map _), ?_⟩
    intro a ha b hb hab
    obtain ⟨x, hx, rfl⟩ := List.mem_map.1 hb
    obtain ⟨hx1, hx2⟩ := List.mem_filter.1 hx
    obtain ⟨y, hy, h1, h2⟩ := (h.2 a).1 ha
    obtain rfl := ht.eq_of_slot hy hx1 (by rw [h1, hab])
    simp at hx2
    rw [hx2.2] at h2
    cases h2
  · rw [hlist, htab]
    simp only [List.mem_append, h.2]
    constructor
    · rintro (⟨e, he, h1, h2⟩ | hm)
      · refine ⟨_, List.mem_map_of_mem he, ?_, ?_⟩
        · split_ifs <;> exact h1
        · split_ifs
          · rfl
          · exact h2
      · obtain ⟨x, hx, rfl⟩ := List.mem_map.1 hm
        obtain ⟨hx1, hx2⟩ := List.mem_filter.1 hx
        simp at hx2
        exact ⟨_, List.mem_map_of_mem hx1, by simp [hx2.1], by simp [hx2.1]⟩
    · rintro ⟨x, hx, h1, h2⟩
      obtain ⟨y, hy, rfl⟩ := List.mem_map.1 hx
      split_ifs at h1 h2 with hc
      · cases hcause : y.cause with
        | some k => left; exact ⟨y, hy, h1, by rw [hcause]; rfl⟩
        | none =>
          right
          exact List.mem_map.2 ⟨y, List.mem_filter.2 ⟨hy, by simp [hc, hcause]⟩, h1⟩
      · left; exact ⟨y, hy, h1, h2⟩

/-! ### Grants -/

theorem TableLaw.grantBuffer {s : State} (h : TableLaw s) {g : HeldReq} {e : Entry} {n : Nat}
    (hd : s.dueGrant = some (g, e, n)) : TableLaw (s.grantBuffer g e n) := by
  obtain ⟨_, ⟨slot, _, _, he⟩, hm, hf⟩ := State.dueGrant_spec hd
  obtain ⟨hn1, hn2, _⟩ := (State.freeBuffer_eq_some s n).1 hf
  have hst : e.state = .pending := by simp [State.mayTake] at hm; exact hm.1
  have hem := (State.entryAt_mem he).1
  refine h.grant e.slot n
    (fun e => { e with state := .capturing, poolBuf := some n, linesIn := 0 }) rfl (fun _ => rfl)
    ?_ (fun _ => rfl) hn1 hn2
  intro x hx hs
  obtain rfl := h.eq_of_slot hx hem hs
  obtain ⟨a1, a2, a3, a4, a5⟩ := (h.2.1 x hx).2
  refine ⟨rfl, ?_, ?_, a4, a5⟩
  · dsimp only; rw [a2, hst]; rfl
  · intro hm; have := a3 hm; rw [hst] at this; cases this

theorem RetireLaw.grantBuffer {s : State} (h : RetireLaw s) (g : HeldReq) (e : Entry) (n : Nat) :
    RetireLaw (s.grantBuffer g e n) := by
  refine h.map _ rfl rfl ?_ ?_
  · intro e; split_ifs <;> rfl
  · intro e _; split_ifs <;> rfl

theorem TableLaw.grantBuffers {s : State} (h : TableLaw s) : TableLaw s.grantBuffers :=
  grantLoop_induct (fun _ _ _ _ h hd => h.grantBuffer hd) _ s h

theorem RetireLaw.grantBuffers {s : State} (h : RetireLaw s) : RetireLaw s.grantBuffers :=
  grantLoop_induct (fun _ g e n h _ => h.grantBuffer g e n) _ s h

/-- The end of an event keeps the table's law. -/
theorem TableLaw.handOver {s : State} (h : TableLaw s) : TableLaw s.handOver :=
  h.grantBuffers.of_table (State.handOver_table s)

/-- The end of an event keeps the Retire List's law. -/
theorem RetireLaw.handOver {s : State} (h : RetireLaw s) : RetireLaw s.handOver :=
  h.grantBuffers.of_eq (State.handOver_table s)
    (by rw [State.handOver_retire, State.grantBuffers_eq])

/-! ### What a classification does -/

theorem State.tableTake_hit (s : State) (b : Block) (c : Classification) (waiting ahead : Bool)
    (e : Entry) (h : s.lookup b = some e) :
    s.tableTake b c waiting ahead =
      (s.hitEntry e c.initiator c.time, .follow (decide (e.state = .pending))) := by
  unfold State.tableTake; rw [h]

theorem State.tableTake_overflowed (s : State) (b : Block) (c : Classification)
    (waiting ahead : Bool) (h : s.lookup b = none) (ho : s.epoch.overflow = true) :
    s.tableTake b c waiting ahead = (s.countUntracked 1, .follow false) := by
  unfold State.tableTake; rw [h]; simp only [ho]; rfl

theorem State.tableTake_defers (s : State) (b : Block) (c : Classification) (waiting : Bool)
    (h : s.lookup b = none) (ho : s.epoch.overflow = false) :
    s.tableTake b c waiting true = (s, .defer) := by
  unfold State.tableTake; rw [h]; simp only [ho]; rfl

theorem State.tableTake_learns (s : State) (b : Block) (c : Classification) (slot : Nat)
    (h : s.lookup b = none) (ho : s.epoch.overflow = false) (hf : s.freeSlot = some slot) :
    s.tableTake b c false false =
      (s.createEntry (newEntry slot b s.epoch.number c),
       match c.mode with
       | .trace => .follow false
       | .undo => .buffer slot) := by
  unfold State.tableTake; rw [h]; simp only [ho, hf]; rfl

theorem State.tableTake_waits (s : State) (b : Block) (c : Classification) (waiting : Bool)
    (h : s.lookup b = none) (ho : s.epoch.overflow = false)
    (hf : waiting = true ∨ s.freeSlot = none) :
    s.tableTake b c waiting false = (s.victimChoice, .wait) := by
  unfold State.tableTake; rw [h]; simp only [ho]
  rcases hf with rfl | hf
  · rfl
  · cases waiting <;> simp only [hf] <;> rfl

/-- Only TRACKING tracks, and a tracked classification carries the write's initiator and the epoch
time. -/
theorem State.classify_tracked {s : State} {a : Addr} {i : Initiator} {c : Classification}
    (h : s.classify a i = .tracked c) :
    s.epoch.dev = .tracking ∧ c.initiator = i ∧ c.time = s.epoch.epochTime := by
  unfold State.classify at h
  split at h
  · refine ⟨‹_›, ?_⟩
    split at h
    · cases h
    · split at h <;> first | (injection h with h; subst h; exact ⟨rfl, rfl⟩) | cases h
  · cases h

/-- The victim of R23: the earliest stamp among the candidates, the oldest of equals. -/
theorem earliestStamp_filter (p : Entry → Bool) (older newer : List Entry) (v : Entry)
    (hv : p v = true)
    (ho : ∀ e ∈ older, p e = true → v.lastStamp.toNat < e.lastStamp.toNat)
    (hn : ∀ e ∈ newer, p e = true → v.lastStamp.toNat ≤ e.lastStamp.toNat) :
    earliestStamp ((older ++ v :: newer).filter p) = some v := by
  induction older with
  | nil =>
    simp only [List.nil_append, List.filter_cons, hv, if_true, earliestStamp]
    cases h : earliestStamp (newer.filter p) with
    | none => rfl
    | some b =>
      have hb := earliestStamp_mem h
      rw [List.mem_filter] at hb
      have := hn b hb.1 hb.2
      dsimp only; rw [if_neg (by omega)]
  | cons a t ih =>
    have ih := ih (fun e he => ho e (List.mem_cons_of_mem _ he))
    simp only [List.cons_append, List.filter_cons]
    cases ha : p a
    · simpa using ih
    · simp only [if_true, earliestStamp, ih]
      rw [if_pos (ho a List.mem_cons_self ha)]

theorem State.victimCandidate_iff {s : State} (hd : s.epoch.dev = .tracking) (e : Entry) :
    s.victimCandidate e = true ↔
      e.epoch = s.epoch.number ∧ e.mode = .trace ∧ e.state = .logged ∧ e.cause = none := by
  simp [State.victimCandidate, State.isCurrent, hd, and_assoc]

theorem Entry.withdrawAge_update (e : Entry) (i : Initiator) (time : Word) :
    (e.update i time).withdrawAge =
      { e.update i time with cause := if e.cause = some .age then none else e.cause } := by
  have h : (e.update i time).cause = e.cause := rfl
  unfold Entry.withdrawAge
  rw [h]
  split_ifs <;> rfl

theorem State.countUntracked_one (s : State) :
    s.countUntracked 1 = { s with
      epoch.untracked :=
        if s.epoch.untracked = 0xFFFFFFFF then s.epoch.untracked else s.epoch.untracked + 1 } := by
  have h : BitVec.ofNat 32 (min (s.epoch.untracked.toNat + 1) (2 ^ 32 - 1)) =
      if s.epoch.untracked = 0xFFFFFFFF then s.epoch.untracked else s.epoch.untracked + 1 := by
    rw [← BitVec.toNat_inj]
    have := s.epoch.untracked.isLt
    split_ifs with h
    · rw [h]; rfl
    · have h' : s.epoch.untracked.toNat ≠ 2 ^ 32 - 1 := by
        intro h'; apply h; rw [← BitVec.toNat_inj, h']; rfl
      simp [BitVec.toNat_add]; omega
  unfold State.countUntracked
  rw [← h]

/-- A classification does what `State.Retakes` says of a held write that is classified anew. -/
theorem State.classifyWrite_retakes (s : State) (r : Request) (waiting ahead blocked : Bool) :
    s.Retakes r waiting ahead blocked (s.classifyWrite r waiting ahead blocked).1
      (s.classifyWrite r waiting ahead blocked).2 := by
  unfold State.Retakes State.classifyWrite
  dsimp only
  cases hv : s.classify r.addr r.initiator with
  | untracked => simp [plainHold]
  | excluded => simp [plainHold]
  | tracked c =>
    obtain ⟨hd, _, _⟩ := State.classify_tracked hv
    dsimp only
    refine ⟨?_, ?_, ?_, ?_⟩
    · rintro (h | h) <;> cases h
    · intro c' e h hl
      injection h with h; subst h
      rw [State.tableTake_hit s _ _ _ _ e hl]
      refine ⟨rfl, ?_⟩
      unfold State.hitEntry State.modifyEntry
      simp only [Entry.withdrawAge_update]
    · intro c' h hl ho
      injection h with h; subst h
      rw [State.tableTake_overflowed s _ _ _ _ hl ho]
      exact ⟨rfl, s.countUntracked_one⟩
    · intro c' h hl ho
      injection h with h; subst h
      refine ⟨?_, ?_, ?_⟩
      · rintro rfl
        rw [State.tableTake_defers s _ _ _ hl ho]; exact ⟨rfl, rfl⟩
      · rintro slot rfl rfl hf
        rw [State.tableTake_learns s _ _ _ hl ho hf]
        refine ⟨?_, rfl⟩
        dsimp only
        cases c.mode <;> rfl
      · rintro rfl hw
        rw [State.tableTake_waits s _ _ _ hl ho hw]
        refine ⟨rfl, ?_, ?_⟩
        · intro hn
          have none : s.table.filter s.victimCandidate = [] := by
            rw [List.filter_eq_nil_iff]
            intro x hx
            rw [State.victimCandidate_iff hd]
            exact hn x hx
          dsimp only
          unfold State.victimChoice
          rw [none]; rfl
        · intro older newer v hs hc h1 h2
          have first : earliestStamp (s.table.filter s.victimCandidate) = some v := by
            rw [hs]
            exact earliestStamp_filter _ _ _ _ ((State.victimCandidate_iff hd v).2 hc)
              (fun e he h => h1 e he ((State.victimCandidate_iff hd e).1 h))
              fun e he h => h2 e he ((State.victimCandidate_iff hd e).1 h)
          dsimp only
          unfold State.victimChoice
          rw [first]; rfl

end Sys2Proof.Machine
end

