-- ==== Sys2Proof/WellFormed.lean ====
section
/-! DEFINITION. What the manual asks of a command's operands. -/

namespace Sys2Proof

/-- A line address is a multiple of 64 (R46; 00, 5.2). -/
def lineAligned (addr : Addr) : Bool := addr.extractLsb' 0 6 = 0

/-- The six command codes (10.5, COMMAND). -/
def commandCodes : List Half := [0x0011, 0x0022, 0x0033, 0x0034, 0x00A5, 0x005A]

/-- Registers whose writes have rows of their own: COMMAND, CMD_STATUS, EVENT, EVENT_ENABLE,
ALERT_MODE, DRAIN_HIGH, DRAIN_LOW, HOLD_LIMIT, POLL, HOLD_ALERT, the four thresholds and
INSPECT_SLOT. A write of 0 to a lifetime peak has the row PEAK_RESET. -/
def registersWithRows : List Byte :=
  [0x00, 0x01, 0x05, 0x06, 0x07, 0x0E, 0x0F, 0x10, 0x11, 0x12, 0x13, 0x14, 0x15, 0x16, 0x70]

def peakRegisters : List Byte := [0x50, 0x51, 0x52]

def WellFormed : Instr → Bool
  | .writeArrival _ addr _ _ _ => lineAligned addr
  | .readArrival _ addr _ => lineAligned addr
  | .invalidCommandCode code => !commandCodes.contains code
  | .registerWrite pointer value =>
      !registersWithRows.contains pointer && !(peakRegisters.contains pointer && value == 0)
  | .releasedLeave | .issue | .passThroughAnswer _ _ | .unmatchedAnswer _ _
  | .captureReadData _ _ | .imageWriteDone _ | .descWriteDone _ | .descReadData _ _
  | .slotReadData _ _ | .slotWriteDone _ | .jcbReadData _ _ | .errorAnswer _ | .timeout _
  | .abandonedAnswer _ _ | .abandonedTimeout _ | .holdLimitExpiry | .holdAlertReached
  | .ageExpiry | .firPollExpiry | .ringPollExpiry | .bufferGrant | .prefetch | .copyOutStart
  | .retirement | .closeRecordBuild | .journalSlotReadStart | .load | .openEpoch | .closeSwitch
  | .closeEnd | .kick | .stop | .cmdStatusWrite _ | .eventWrite _ | .eventEnableWrite _
  | .alertThresholdWrite _ _ | .holdLimitWrite _ | .holdAlertWrite _ | .pollWrite _
  | .drainThresholdWrite _ _ | .inspectSlotWrite _ | .peakReset _ | .pointerByte _
  | .busStopCondition | .latchedRead | .powerOnReset | .resetRelease _ _ | .heldLowByte _ => true

end Sys2Proof
end

