-- ==== Sys2Proof/Tests/Slice0.lean ====
section
/-! SUPPORT. The model's own tests: the checks of WellFormed, one step of each command on a small
state, and for each obligation with hypotheses a state and operands that meet them. -/

namespace Sys2Proof.Tests

open Sys2Proof Sys2Proof.Machine

/-! ### Small states -/

/-- The state after a step that goes on. -/
def after : Host.Outcome State Fault Refusal → State
  | .next t => t
  | .fault f => nomatch f
  | .refused _ => State.reset

def winTrace : Window := { base := 0, limit := 1, mask := 0xFFFF, mode := .trace, quota := 16 }
def winUndo : Window := { base := 1, limit := 2, mask := 0xFFFF, mode := .undo, quota := 16 }
def winExclude : Window := { base := 2, limit := 3, mask := 0x0004, mode := .exclude, quota := 0 }

/-- TRACKING epoch 7 with a TRACE, an UNDO and an EXCLUDE window. -/
def tracking : State :=
  { State.reset with
    active.windows := ⟨winTrace, winUndo, winExclude, Window.reset⟩
    epoch.dev := .tracking
    epoch.number := 7
    epoch.epochTime := 5000 }

def ring : Ring := { base := 0x10000, code := 3 }
def image : ImageBuf := { firIndex := 0, addr := 0x40000 }

def traceEntry (slot : Nat) (block : Block) : Entry :=
  newEntry slot block 7 ⟨0, .trace, 2, 100⟩

def undoEntry (slot : Nat) (block : Block) : Entry :=
  newEntry slot block 7 ⟨1, .undo, 2, 100⟩

def capturing (slot : Nat) (block : Block) (n lines : Nat) : Entry :=
  { undoEntry slot block with state := .capturing, poolBuf := some n, linesIn := lines }

def imaged (slot : Nat) (block : Block) (n : Nat) : Entry :=
  { undoEntry slot block with state := .imaged, poolBuf := some n, linesIn := 4 }

def copying (slot : Nat) (block : Block) (n : Nat) : Entry :=
  { imaged slot block n with state := .copying }

def filing (slot : Nat) (block : Block) : Entry :=
  { undoEntry slot block with state := .filing, imageBuf := some image, linesIn := 4 }

def writeTo (addr : Addr) (place : Nat) : Request :=
  { initiator := 2, addr, op := .write 0xFF Line.zero, tag := 1, place }

def held (addr : Addr) (place : Nat) (x : Hold) : HeldReq :=
  { req := writeTo addr place, hold := x, start := 0, time := 0, reachedAlert := false }

/-- A line whose quads have this word 0. -/
def ownerLine (w : Word) : Line :=
  ⟨⟨w, 0x300, 0, 0⟩, ⟨w, 0x300, 0, 0⟩, ⟨w, 0x300, 0, 0⟩, ⟨w, 0x300, 0, 0⟩⟩

/-- One own request is issued and awaited, with tag 5. -/
def waitingFor (s : State) (role : OwnRole) : State :=
  { s with mem.issuedOwn := [⟨5, ⟨role, 0x40, .read, 1⟩, 0, false⟩], mem.nextTag := 6 }

/-! ### WellFormed -/

theorem test_wellFormed_alignment :
    WellFormed (.writeArrival 0 0x40 1 Line.zero 0) = true ∧
    WellFormed (.writeArrival 0 0x41 1 Line.zero 0) = false ∧
    WellFormed (.readArrival 0 0x40 0) = true ∧
    WellFormed (.readArrival 0 0x60 0) = false := by decide

theorem test_wellFormed_commandCode :
    WellFormed (.invalidCommandCode 0x0012) = true ∧
    WellFormed (.invalidCommandCode 0x0011) = false ∧
    WellFormed (.invalidCommandCode 0x005A) = false := by decide

theorem test_wellFormed_registerWrite :
    WellFormed (.registerWrite 0x04 0) = true ∧
    WellFormed (.registerWrite 0x00 0x0012) = false ∧
    WellFormed (.registerWrite 0x70 1) = false ∧
    WellFormed (.registerWrite 0x50 1) = true ∧
    WellFormed (.registerWrite 0x52 0) = false := by decide

/-! ### The fabric -/

theorem test_traceWrite_learnsAndPasses :
    let t := after (exec (.writeArrival 3 0x0140 1 Line.zero 9) tracking)
    t.table = [newEntry 0 1 7 ⟨0, .trace, 3, 5000⟩] ∧ t.mem.passQ.length = 1 ∧ t.hold = [] := by
  decide

/-- With a buffer free the grant is made at the arrival; with no quota left the write waits. -/
theorem test_undoWrite :
    let poor := { tracking with
      active.poolMode := .quota, active.windows.w1 := { winUndo with quota := 0 } }
    let t := after (exec (.writeArrival 3 0x10000 1 Line.zero 9) tracking)
    let u := after (exec (.writeArrival 3 0x10000 1 Line.zero 9) poor)
    t.table = [{ newEntry 0 0x100 7 ⟨1, .undo, 3, 5000⟩ with
      state := .capturing, poolBuf := some 0 }] ∧
    t.hold.map (·.hold) = [.capture 0] ∧ t.mem.classC.length = 4 ∧ t.alert.poolHanded = 1 ∧
    u.table = [newEntry 0 0x100 7 ⟨1, .undo, 3, 5000⟩] ∧
    u.hold.map (·.hold) = [.buffer 0] ∧ u.dueGrant = none := by decide

theorem test_read_followsItsBlock :
    (after (exec (.readArrival 3 0x100C0 9)
      { tracking with hold := [held 0x10000 0 (.buffer 0)] })).hold.map (·.hold) =
        [.buffer 0, .order none false false] ∧
    (after (exec (.readArrival 3 0x200C0 9)
      { tracking with hold := [held 0x10000 0 (.buffer 0)] })).mem.passQ.length = 1 := by decide

/-- The RELEASED requests leave past the HELD ones at one event, as many as there is room for. -/
theorem test_leave :
    let s := { tracking with
      hold := [held 0x140 0 .released, held 0x10000 1 (.buffer 0), held 0x240 2 .released,
        held 0x340 3 .released, held 0x10040 4 (.order none false true)] }
    let t := after (exec .releasedLeave s)
    let u := after (exec .releasedLeave { s with mem.passQ := List.replicate 6 (writeTo 0x400 9) })
    t.hold.map (·.req.place) = [1, 4] ∧ t.mem.passQ.map (·.place) = [0, 2, 3] ∧
    u.hold.map (·.req.place) = [1, 3, 4] ∧
    u.mem.passQ.map (·.place) = [9, 9, 9, 9, 9, 9, 0, 2] := by decide

theorem test_answer_returns :
    let s := { tracking with mem.issuedPass := [⟨4, writeTo 0x140 0⟩] }
    (after (exec (.passThroughAnswer 4 .done) s)).out.fabric = [⟨2, 1, .done⟩] ∧
    (after (exec (.passThroughAnswer 4 (.data Line.zero)) s)) = s ∧
    after (exec (.unmatchedAnswer 3 .done) s) = s := by decide

/-! ### The engines and the memory port -/

def granting : State :=
  { tracking with table := [undoEntry 0 0x100], hold := [held 0x10000 0 (.buffer 0)] }

theorem test_grant :
    let t := after (exec .bufferGrant granting)
    t.table.map (·.state) = [.capturing] ∧ t.hold.map (·.hold) = [.capture 0] ∧
    t.mem.classC.map (·.addr) = [0x10000, 0x10040, 0x10080, 0x100C0] ∧ t.poolUse = 1 ∧
    t.alert.peakPool = 1 := by decide

theorem test_issue_capturesFirst :
    let s := { after (exec .bufferGrant granting) with mem.passQ := [writeTo 0x140 1] }
    let t := after (exec .issue s)
    t.mem.classC.length = 3 ∧ t.mem.issuedOwn.length = 1 ∧ t.mem.passQ.length = 1 := by decide

theorem test_lastCaptureLine :
    let s := waitingFor
      { tracking with
        table := [capturing 0 0x100 0 3], hold := [held 0x10000 0 (.capture 0)] }
      (.captureRead 0 0 3)
    let t := after (exec (.captureReadData 5 (ownerLine 1)) s)
    t.table.map (·.state) = [.imaged] ∧ t.copyOut.imaged = [0] ∧
    t.hold.map (·.hold) = [.released] ∧ t.pool = [(3, ownerLine 1)] ∧ t.mem.issuedOwn = [] := by
  decide

def copyingOut : State :=
  { tracking with
    table := [imaged 0 0x100 0], copyOut.imaged := [0], copyOut.cache := [image]
    copyOut.fir := some ring, copyOut.prefetchIndex := 1, pool := [(2, ownerLine 1)] }

theorem test_copyOut :
    let t := after (exec .copyOutStart copyingOut)
    t.table.map (·.state) = [.copying] ∧ t.copyOut.cache = [] ∧
    t.mem.classB.map (·.addr) = [0x40000, 0x40040, 0x40080, 0x400C0] ∧
    t.mem.classB.map (·.op) = [.write (BitVec.allOnes 64) Line.zero,
      .write (BitVec.allOnes 64) Line.zero, .write (BitVec.allOnes 64) (ownerLine 1),
      .write (BitVec.allOnes 64) Line.zero] := by decide

theorem test_prefetch :
    (after (exec .prefetch { tracking with copyOut.fir := some ring })).mem.classB.map (·.addr) =
      [0x10000] := by decide

/-- An abandoned DESC_READ in flight keeps no PREFETCH back (log 27). -/
theorem test_prefetch_besideAbandoned :
    let s := { tracking with
      copyOut.fir := some ring
      mem.issuedOwn := [⟨6, ⟨.descRead, 0x80, .read, 3⟩, 0, true⟩] }
    (after (exec .prefetch s)).mem.classB.map (·.role) = [.descRead] ∧
    (after (exec .prefetch (waitingFor s .descRead))).mem.classB = [] := by decide

theorem test_imageDone :
    let s := waitingFor
      { tracking with
        table := [copying 0 0x100 0], copyOut.fir := some ring
        copyOut.places := [{ slot := 0, buffer := 0, image := image, linesDone := 3 }] }
      (.imageWrite 0)
    let t := after (exec (.imageWriteDone 5) s)
    t.table.map (·.state) = [.filing] ∧ t.poolUse = 0 ∧
    t.mem.classB.map (·.op) = [.write 0xFFFF
      ⟨⟨0x00070006, 0x400, 0x100, 0⟩, Quad.zero, Quad.zero, Quad.zero⟩] := by decide

theorem test_descDone :
    let s := waitingFor
      { tracking with
        table := [filing 0 0x100]
        copyOut.places := [{ slot := 0, buffer := 0, image := image, linesDone := 4 }] }
      (.descWrite 0)
    let t := after (exec (.descWriteDone 5) s)
    t.table.map (·.state) = [.logged] ∧ t.copyOut.places = [] ∧ t.epoch.imagesCurrent = 1 ∧
    t.alert.imagesWritten = 1 := by decide

theorem test_descRead :
    let s := waitingFor { tracking with copyOut.fir := some ring } .descRead
    (after (exec (.descReadData 5 (ownerLine 1)) s)).copyOut.cache = [⟨0, 0x30000⟩] ∧
    (after (exec (.descReadData 5 (ownerLine 2)) s)).copyOut.wait = true ∧
    (after (exec (.descReadData 5 (ownerLine 2)) s)).alert.flags = 0x040 := by decide

def journaling : State :=
  { tracking with
    journal.ring := some ring, journal.index := 7
    journal.queue := [.opening 7 .command State.reset.active.windows .shared 9] }

theorem test_slotRead :
    (after (exec .journalSlotReadStart journaling)).mem.classB.map (·.addr) = [0x100C0] ∧
    (let s := waitingFor { journaling with journal.writer := .reading } .slotRead
     (after (exec (.slotReadData 5 (ownerLine 1)) s)).journal.writer = .body ∧
     (after (exec (.slotReadData 5 (ownerLine 2)) s)).alert.flags = 0x020) := by decide

theorem test_slotWrites :
    let body := after (exec (.slotWriteDone 5)
      (waitingFor { journaling with journal.writer := .body } .slotWrite))
    let header := after (exec (.slotWriteDone 5)
      (waitingFor { journaling with journal.writer := .header } .slotWrite))
    body.journal.writer = .header ∧
    body.mem.classB.map (·.op) = [.write 0xF00000000
      ⟨Quad.zero, Quad.zero, ⟨0x00070006, 0, 0, 0⟩, Quad.zero⟩] ∧
    header.journal.queue = [] ∧ header.journal.index = 0 ∧ header.alert.recordsWritten = 1 := by
  decide

theorem test_retirement :
    let s := { tracking with
      table := [traceEntry 0 1, { traceEntry 1 2 with cause := some .age }]
      retire.list := [1], hold := [held 0x300 0 (.entry ⟨0, .trace, 2, 4000⟩)] }
    let t := after (exec .retirement s)
    t.journal.queue = [.block 0 { traceEntry 1 2 with cause := some .age }] ∧
    t.table = [traceEntry 0 1, newEntry 1 3 7 ⟨0, .trace, 2, 4000⟩] ∧
    t.hold.map (·.hold) = [.released] := by decide

/-- The image write that frees a buffer hands it to the waiter: pool use stays as it was. -/
theorem test_imageDone_handsTheBufferOn :
    let s := waitingFor
      { tracking with
        active.poolMode := .quota, active.windows.w1 := { winUndo with quota := 1 }
        table := [copying 0 0x100 0, undoEntry 1 0x101], hold := [held 0x10100 0 (.buffer 1)]
        copyOut.fir := some ring, alert.poolHanded := 1, alert.peakPool := 1
        copyOut.places := [{ slot := 0, buffer := 0, image := image, linesDone := 3 }] }
      (.imageWrite 0)
    let t := after (exec (.imageWriteDone 5) s)
    t.table.map (·.state) = [.filing, .capturing] ∧ t.poolUse = 1 ∧ t.alert.poolHanded = 1 ∧
    t.hold.map (·.hold) = [.capture 1] ∧ t.mem.drainMode = s.mem.drainMode := by decide

def summary : Summary :=
  { epoch := 6, cause := .switch, overflow := false, untracked := 0, peakOcc := 1, peakPool := 1
    longestHold := 0, duration := 9 }

def draining : State :=
  { tracking with epoch.draining := true, epoch.summary := some summary, cmd.busy := true }

theorem test_closeRecord :
    (after (exec .closeRecordBuild draining)).journal.queue = [.closing summary 0 0] ∧
    (let s := waitingFor
      { draining with
        journal.ring := some ring, journal.writer := .header, retire.closeBuilt := true
        journal.queue := [.closing summary 0 0] } .slotWrite
     let t := after (exec (.slotWriteDone 5) s)
     t.epoch.draining = false ∧ t.cmd.busy = false ∧ t.alert.flags = 0x004) := by decide

/-! ### Memory errors and expiries -/

theorem test_memoryError :
    let s := waitingFor { tracking with hold := [held 0x10000 0 (.buffer 0)] } .descRead
    let t := after (exec (.errorAnswer 5) s)
    t.epoch.dev = .halted ∧ t.hold.map (·.hold) = [.released] ∧ t.alert.flags = 0x010 ∧
    t.mem.err = some ⟨.descRead, .error, 0x40⟩ := by decide

def overdue : State :=
  { tracking with
    mem.issuedOwn := [⟨5, ⟨.descRead, 0x40, .read, 1⟩, 64, false⟩,
      ⟨6, ⟨.slotRead, 0x80, .read, 3⟩, 64, true⟩] }

theorem test_timeouts :
    (after (exec (.timeout 5) overdue)).epoch.dev = .halted ∧
    (after (exec (.abandonedTimeout 6) overdue)).mem.issuedOwn.length = 1 ∧
    (after (exec (.abandonedAnswer 6 .done) overdue)).mem.issuedOwn.length = 1 := by decide

def expired : State :=
  { tracking with
    table := [undoEntry 0 0x100]
    hold := [{ held 0x10000 0 (.buffer 0) with time := 1000 },
      held 0x10040 1 (.order none false true)] }

theorem test_holdLimit :
    let t := after (exec .holdLimitExpiry expired)
    t.epoch.overflow = true ∧ t.epoch.untracked = 2 ∧ t.table = [] ∧
    t.hold.map (·.hold) = [.released, .released] ∧ t.alert.overflows = 1 ∧
    t.alert.peakHold = 1000 := by decide

/-- A hold of 1000 microseconds that ends at STOP raises no peak; at a memory error it raises
PEAK_HOLD alone (log 24). -/
theorem test_holdsThatEndWithTheSession :
    let stopped := after (exec .stop expired)
    let halted := after (exec (.errorAnswer 5) (waitingFor expired .descRead))
    (stopped.hold.map (·.hold) = [.released, .released] ∧ stopped.alert.peakHold = 0 ∧
      stopped.alert.epochHold = 0) ∧
    (halted.epoch.dev = .halted ∧ halted.hold.map (·.hold) = [.released, .released] ∧
      halted.alert.peakHold = 1000 ∧ halted.alert.epochHold = 0) := by decide

theorem test_holdAlert :
    let t := after (exec .holdAlertReached expired)
    t.alert.flags = 0x400 ∧ t.hold.map (·.reachedAlert) = [true, false] := by decide

theorem test_age :
    let s := { tracking with table := [traceEntry 3 1], active.ageLimit := 4 }
    let t := after (exec .ageExpiry s)
    t.retire.list = [3] ∧ t.table.map (·.cause) = [some .age] := by decide

theorem test_polls :
    let s := { journaling with
      copyOut.fir := some ring, copyOut.wait := true, copyOut.timer := some 256
      journal.wait := true, journal.timer := some 256, journal.writer := .waiting }
    (after (exec .firPollExpiry s)).mem.classB.map (·.role) = [.descRead] ∧
    (after (exec .ringPollExpiry s)).mem.classB.map (·.role) = [.slotRead] ∧
    (after (exec .kick s)).mem.classB.map (·.role) = [.descRead, .slotRead] := by decide

/-! ### Commands -/

/-- The JCB of the example in 8.6. -/
def jcbLine (w1 : Word) : Line :=
  ⟨⟨0x40000000, w1, 0x40020000, 0⟩, Quad.zero, Quad.zero, Quad.zero⟩

def loading : State := waitingFor
  { State.reset with epoch.dev := .loading, cmd.busy := true } (.jcbRead 0x2000)

theorem test_load :
    (after (exec .load State.reset)).mem.classB.map (·.role) = [.jcbRead 0] ∧
    (let t := after (exec (.jcbReadData 5 (jcbLine 0x0005AC00)) loading)
     t.epoch.dev = .ready ∧ t.epoch.pendingFirst = some 5 ∧ t.cmd.loadResult = .done ∧
     t.journal.ring = some ⟨0x40000000, 12⟩ ∧ t.copyOut.fir = some ⟨0x40020000, 10⟩) ∧
    (after (exec (.jcbReadData 5 (jcbLine 0x0005AD00)) loading)).cmd.loadResult = .format ∧
    (after (exec (.jcbReadData 5
      ⟨⟨0x40000000, 0x0005AC00, 0x40000000, 0⟩, Quad.zero, Quad.zero, Quad.zero⟩)
      loading)).cmd.loadResult = .overlap := by decide

def ready : State :=
  { State.reset with
    epoch.dev := .ready, epoch.pendingFirst := some 5, staged.windows.w0 := winTrace }

theorem test_open :
    let t := after (exec .openEpoch ready)
    t.epoch.dev = .tracking ∧ t.epoch.number = 5 ∧ t.active.windows.w0 = winTrace ∧
    t.journal.queue = [.opening 5 .command ready.staged.windows .shared 0] := by decide

def closing : State :=
  { tracking with
    staged.windows := tracking.active.windows
    table := [traceEntry 0 1, undoEntry 1 0x100], hold := [held 0x10000 0 (.buffer 1)] }

theorem test_closeSwitch :
    let t := after (exec .closeSwitch closing)
    t.epoch.number = 8 ∧ t.epoch.draining = true ∧ t.retire.list = [0] ∧
    t.table.map (·.epoch) = [7, 8] ∧ t.table.map (·.state) = [.logged, .capturing] ∧
    t.hold.map (·.hold) = [.capture 1] ∧ t.cmd.busy = true := by decide

/-- CLOSE_END releases the waiters and what follows them; behind a capture requests stay HELD. -/
theorem test_closeEnd_order :
    let s := { closing with
      table := [undoEntry 1 0x100, capturing 2 0x101 0 0]
      hold := [held 0x10000 0 (.buffer 1), held 0x10040 1 (.order none false true),
        held 0x10100 2 (.capture 2), held 0x10140 3 (.order none false false),
        held 0x10180 4 (.order none false false), held 0x300 5 (.entry ⟨0, .trace, 2, 9⟩),
        held 0x340 6 (.order (some ⟨3, 10⟩) false true)] }
    (after (exec .closeEnd s)).hold.map (·.hold) =
      [.released, .released, .capture 2, .order none false false, .order none false false,
        .released, .released] := by decide

theorem test_closeEnd :
    let t := after (exec .closeEnd closing)
    t.epoch.dev = .finishing ∧ t.retire.list = [0] ∧ t.table.map (·.slot) = [0] ∧
    t.hold.map (·.hold) = [.released] := by decide

theorem test_stop :
    let t := after (exec .stop closing)
    t.epoch.dev = .idle ∧ t.table = [] ∧ t.active.windows.w0.mode = .off ∧
    t.hold.map (·.hold) = [.released] := by decide

theorem test_refusals :
    (after (exec (.invalidCommandCode 0x12) State.reset)).cmd.reason = .badCode ∧
    (after (exec .openEpoch State.reset)).cmd.reason = .state ∧
    (after (exec .load { State.reset with cmd.busy := true })).cmd.reason = .busy ∧
    (after (exec (.cmdStatusWrite 0) { State.reset with cmd.reject := true })).cmd.reject =
      false := by decide

/-! ### Registers, the bus and reset -/

theorem test_flagWrites :
    let s := { State.reset with alert.flags := 0x085 }
    (after (exec (.eventWrite 0x0081) s)).alert.flags = 0x004 ∧
    (after (exec (.eventEnableWrite 0xFFFF) s)).attnAsserted = true := by decide

theorem test_rangedWrites :
    (after (exec (.alertThresholdWrite .tableUpper 0) State.reset)).imm.tableUpper = 1 ∧
    (after (exec (.alertThresholdWrite .poolLower 0xFFFF) State.reset)).imm.poolLower = 63 ∧
    (after (exec (.drainThresholdWrite .drainHigh 100) State.reset)).imm.drainHigh = 64 ∧
    (after (exec (.pollWrite 0x1FF) State.reset)).imm.poll = 255 ∧
    (after (exec (.holdLimitWrite 0xFFFF) State.reset)).imm.holdLimit = 0xFFFF := by decide

theorem test_holdAlertWrite :
    (after (exec (.holdAlertWrite 900) expired)).alert.flags = 0x400 ∧
    (after (exec (.holdAlertWrite 1001) expired)).alert.flags = 0 := by decide

theorem test_inspect :
    let s := after (exec (.inspectSlotWrite 0x0803) { tracking with table := [capturing 3 0x100 9 0] })
    s.port.inspectSlot = 3 ∧ s.readReg (regAt 0x71) = 0x0855 ∧
    s.readReg (regAt 0x76) = 0x0922 ∧ s.wideValue .snapBlock = 0x100 := by decide

theorem test_peakReset :
    let s := { tracking with
      table := [traceEntry 0 1], alert.peakOcc := 9, alert.peakPool := 9, alert.peakHold := 9 }
    (after (exec (.peakReset .occ) s)).alert.peakOcc = 1 ∧
    (after (exec (.peakReset .pool) s)).alert.peakPool = 0 ∧
    (after (exec (.peakReset .hold) s)).alert.peakHold = 0 := by decide

theorem test_windowWrite :
    let s := after (exec (.registerWrite 0x21 0xFFAB) State.reset)
    let t := after (exec (.registerWrite 0x2B 0x5002) s)
    s.staged.windows.w0.base = 0xAB0000 ∧ s.port.pointer = 0x22 ∧
    t.staged.windows.w1.mode = .undo ∧ t.staged.windows.w1.quota = 64 ∧
    t.active.windows.w1 = Window.reset := by decide

theorem test_busWrite :
    let s := after (exec (.pointerByte 0x12) State.reset)
    let t := after (exec (.heldLowByte 0x34) s)
    (after (exec (.heldLowByte 0x12) t)).imm.holdAlert = 0x1234 ∧
    (after (exec .busStopCondition t)).port.phase = .low := by decide

theorem test_busRead :
    let s := after (exec (.pointerByte 0x10) State.reset)
    let t := after (exec .latchedRead s)
    let u := after (exec .latchedRead t)
    u.out.bus = [.ack, .byte 0xE8, .byte 0x03] ∧ u.port.pointer = 0x11 := by decide

theorem test_reset :
    let s := after (exec .powerOnReset closing)
    s.table = [] ∧ s.port.resetAsserted = true ∧
    (after (exec (.resetRelease true false) s)).port.slaveAddr = 0x5A := by decide

theorem test_step :
    (after (step { tracking with pending := [.pollWrite 3] })).imm.poll = 3 ∧
    (after (step tracking)).epoch.partTime = 1 ∧
    (after (step granting)).table.map (·.state) = [.capturing] := by decide

/-! ### Every hypothesis is met somewhere -/

theorem witness_EmptyQueue_timePasses :
    State.reset.pending = [] ∧ State.reset.engineSteps = [] ∧ State.reset.expirySteps = [] := by
  decide

theorem witness_EmptyQueue_oneStep :
    granting.pending = [] ∧ granting.engineSteps = [.bufferGrant] := by decide

theorem witness_EmptyQueue_oneExpiry :
    let s := { tracking with hold := [{ held 0x10000 0 (.buffer 0) with time := 1000 }]
                             imm.holdAlert := 0 }
    s.pending = [] ∧ s.engineSteps = [] ∧ s.expirySteps = [.holdLimitExpiry] := by decide

theorem witness_EmptyQueue_severalSteps :
    let s := { granting with copyOut.fir := some ring }
    s.pending = [] ∧ s.engineSteps = [.bufferGrant, .prefetch] := by decide

theorem witness_EmptyQueue_severalExpiries :
    let s := { tracking with hold := [{ held 0x10000 0 (.buffer 0) with time := 1000 }] }
    s.pending = [] ∧ s.engineSteps = [] ∧
    s.expirySteps = [.holdLimitExpiry, .holdAlertReached] := by decide

theorem witness_NotDue :
    let s := State.reset
    s.dueLeave = none ∧ s.choose = .nothing ∧ s.dueHoldLimit = false ∧ s.dueHoldAlert = false ∧
    s.dueAge = none ∧ s.dueFirPoll = false ∧ s.dueRingPoll = false ∧ s.dueGrant = none ∧
    s.duePrefetch = false ∧ s.dueCopyOut = none ∧ s.dueRetire = none ∧ s.dueClose = none ∧
    s.dueSlotRead = false ∧ s.findOwn 0 = none := by decide

/-- One microsecond below the limit the timeout is not due. -/
theorem witness_NotDue_timeout :
    let s := { tracking with mem.issuedOwn := [⟨5, ⟨.descRead, 0x40, .read, 1⟩, 63, false⟩] }
    ∀ i, s.findOwn 5 = some i → i.age < 64 := by
  intro s i h
  obtain rfl : (⟨5, ⟨.descRead, 0x40, .read, 1⟩, 63, false⟩ : IssuedOwn) = i := Option.some.inj h
  decide

/-- Every step is due at once; then each at the first value at which it is not. -/
def allDue : State :=
  { tracking with
    active.ageLimit := 4
    table := [{ traceEntry 0 1 with lastStamp := 1000 }, undoEntry 1 0x100, imaged 2 0x101 0,
      { traceEntry 3 2 with cause := some .close }]
    retire.list := [3]
    hold := [held 0x140 0 .released, { held 0x10000 1 (.buffer 1) with time := 1000 }]
    mem.passQ := List.replicate 7 (writeTo 0x400 0)
    copyOut := { imaged := [2], places := List.replicate 3 ⟨9, 9, ⟨5, 0⟩, 0⟩, cache := [image]
                 prefetchIndex := 1, fir := some ring, wait := false, timer := none }
    journal.ring := some ring
    journal.queue := List.replicate 30 (.block 0 (traceEntry 0 1)) }

theorem witness_Due :
    allDue.dueLeave ≠ none ∧ allDue.choose ≠ .nothing ∧ allDue.dueHoldLimit = true ∧
    allDue.dueHoldAlert = true ∧ allDue.dueAge ≠ none ∧ allDue.dueGrant ≠ none ∧
    allDue.duePrefetch = true ∧ allDue.dueCopyOut ≠ none ∧ allDue.dueRetire ≠ none ∧
    allDue.dueSlotRead = true := by decide

theorem witness_Due_boundaries :
    ({ allDue with mem.passQ := List.replicate 8 (writeTo 0x400 0) }).dueLeave = none ∧
    ({ allDue with imm.holdLimit := 1001 }).dueHoldLimit = false ∧
    ({ allDue with imm.holdLimit := 0 }).dueHoldLimit = false ∧
    ({ allDue with imm.holdAlert := 1001 }).dueHoldAlert = false ∧
    ({ allDue with epoch.epochTime := 4999 }).dueAge = none ∧
    ({ allDue with epoch.dev := .finishing }).dueAge = none ∧
    ({ allDue with epoch.dev := .finishing }).dueGrant = none ∧
    ({ allDue with active.poolMode := .quota, active.windows.w1.quota := 1 }).dueGrant = none ∧
    ({ allDue with copyOut.cache := List.replicate 4 image }).duePrefetch = false ∧
    ({ allDue with copyOut.prefetchIndex := 5 }).duePrefetch = false ∧
    ({ allDue with copyOut.prefetchIndex := 0 }).duePrefetch = false ∧
    ({ allDue with copyOut.wait := true }).duePrefetch = false ∧
    ({ allDue with copyOut.places := List.replicate 4 ⟨9, 9, ⟨5, 0⟩, 0⟩ }).dueCopyOut = none ∧
    ({ allDue with journal.queue :=
      List.replicate 31 (.block 0 (traceEntry 0 1)) }).dueRetire = none ∧
    ({ allDue with epoch.dev := .halted }).dueRetire = none ∧
    ({ allDue with journal.writer := .reading }).dueSlotRead = false := by decide

theorem witness_Due_close :
    let many := { draining with journal.queue := List.replicate 31 (.block 0 (traceEntry 0 1)) }
    draining.dueClose ≠ none ∧ many.dueClose = none ∧
    ({ draining with retire.closeBuilt := true }).dueClose = none ∧
    ({ draining with table := [{ traceEntry 0 1 with epoch := 6 }] }).dueClose = none := by
  decide

theorem witness_ResetRelease :
    (after (exec .powerOnReset tracking)).port.resetAsserted = true ∧
    State.reset.port.resetAsserted = false ∧ usesPort .load = true ∧
    usesPort (.heldLowByte 0) = true := by decide

theorem witness_BusBytes :
    let low := State.reset
    let high := { State.reset with port.phase := .highWrite 0x34 }
    let ended := { high with port.pointer := 0xFF, port.endMarker := true }
    (low.port.resetAsserted = false ∧ low.port.phase = .low) ∧
    (high.port.resetAsserted = false ∧ high.port.phase = .highWrite 0x34 ∧
      high.port.endMarker = false) ∧
    (ended.port.resetAsserted = false ∧ ended.port.phase = .highWrite 0x34 ∧
      ended.port.endMarker = true) := by decide

theorem witness_Read :
    let low := { State.reset with port.pointer := 0x48 }
    let high := { State.reset with port.pointer := 0xFE, port.phase := .highRead 1 }
    let lowEnd := { State.reset with port.pointer := 0xFF, port.endMarker := true }
    let highEnd := { lowEnd with port.phase := .highRead 0 }
    (low.port.resetAsserted = false ∧ low.port.phase = .low ∧ low.port.endMarker = false ∧
      regAt low.port.pointer = .wideLow .untracked) ∧
    (high.port.resetAsserted = false ∧ high.port.phase = .highRead 1 ∧
      high.port.endMarker = false) ∧
    (lowEnd.port.resetAsserted = false ∧ lowEnd.port.phase = .low ∧
      lowEnd.port.endMarker = true) ∧
    (highEnd.port.resetAsserted = false ∧ highEnd.port.phase = .highRead 0 ∧
      highEnd.port.endMarker = true) := by decide

/-- The first and last register of each range that reads 0, and the defined registers beside them. -/
theorem witness_Read_undefined :
    [0x17, 0x1F, 0x38, 0x3F, 0x47, 0x4F, 0x58, 0x5F, 0x63, 0x6F, 0x7F, 0xFF].all (fun p : Byte =>
      decide (regAt p = .undefined)) = true ∧
    [0x16, 0x20, 0x37, 0x40, 0x46, 0x48, 0x4E, 0x50, 0x57, 0x60, 0x62, 0x70, 0x7E].all
      (fun p : Byte => decide (regAt p ≠ .undefined)) = true := by decide

theorem witness_Read_errors :
    State.reset.mem.err = none ∧
    ({ State.reset with mem.err := some ⟨.slotRead, .timeout, 0x1234567880⟩ } : State).mem.err =
      some ⟨.slotRead, .timeout, 0x1234567880⟩ := by decide

theorem test_readings :
    let s := { tracking with
      mem.err := some ⟨.slotRead, .timeout, 0x1234567880⟩, epoch.overflow := true
      cmd.loadResult := .overlap, alert.flags := 0x40A, alert.recordsWritten := 0x12345678
      imm.view := .active, port.latches.recordsWritten := 9 }
    s.readReg (regAt 0x02) = 0x23 ∧ s.readReg (regAt 0x05) = 0x340A ∧
    s.readReg (regAt 0x62) = 0x225 ∧ s.readReg (regAt 0x60) = 0x5678 ∧
    s.readReg (regAt 0x4A) = 0x5678 ∧ s.readReg (regAt 0x4B) = 9 ∧
    s.readReg (regAt 0x2B) = 0x1002 ∧ s.readReg (regAt 0x46) = 7 ∧
    ({ s with imm.view := .staged }).readReg (regAt 0x2B) = 0x1000 := by decide

/-- ImmediateWrites…, InspectSlot…, RegisterWriteStores… and the three threshold statements ask for
a released RESET_N; the bus bytes of InspectSlot… for phase LOW too. -/
theorem witness_released :
    State.reset.port.resetAsserted = false ∧ State.reset.port.phase = .low := by decide

theorem witness_Snapshot :
    State.reset.port.snapshot = none ∧
    ({ State.reset with port.snapshot := some (filing 3 0x100) }).port.snapshot =
      some (filing 3 0x100) := by decide

/-- The first and last register of each range that ignores writes, and no register beside them. -/
theorem witness_RegisterWriteElsewhere :
    [0x02, 0x03, 0x17, 0x1F, 0x38, 0x4F, 0x53, 0x6F, 0x71, 0xFF].all (fun p : Byte =>
      p == 0x02 || p == 0x03 || (0x17 ≤ p.toNat && p.toNat ≤ 0x1F) ||
      (0x38 ≤ p.toNat && p.toNat ≤ 0x4F) || (0x53 ≤ p.toNat && p.toNat ≤ 0x6F) ||
      0x71 ≤ p.toNat) = true ∧
    [0x04, 0x16, 0x20, 0x37, 0x70].all (fun p : Byte =>
      !(p == 0x02 || p == 0x03 || (0x17 ≤ p.toNat && p.toNat ≤ 0x1F) ||
      (0x38 ≤ p.toNat && p.toNat ≤ 0x4F) || (0x53 ≤ p.toNat && p.toNat ≤ 0x6F) ||
      0x71 ≤ p.toNat)) = true := by decide

theorem witness_AlertThreshold :
    (AlertReg.tableUpper = .tableUpper ∧
      (2048 : BitVec 12) = BitVec.ofNat 12 (max 1 (min 2048 (0xFFFF : Half).toNat)) ∧
      (1536 : BitVec 11) = State.reset.imm.tableLower) ∧
    (AlertReg.tableLower = .tableLower ∧ (1792 : BitVec 12) = State.reset.imm.tableUpper ∧
      (0 : BitVec 11) = BitVec.ofNat 11 (min 2047 (0 : Half).toNat)) ∧
    ((1 : BitVec 7) = BitVec.ofNat 7 (max 1 (min 64 (0 : Half).toNat))) ∧
    ((63 : BitVec 6) = BitVec.ofNat 6 (min 63 (0xFFFF : Half).toNat)) := by decide

theorem witness_DrainThreshold :
    let drains := { State.reset with mem.drainMode := true }
    State.reset.mem.drainMode = false ∧ drains.mem.drainMode = true ∧
    State.reset.imm.drainLow.toNat < (64 : BitVec 7).toNat ∧
    (1 : BitVec 7).toNat ≤ State.reset.imm.drainLow.toNat := by decide

/-- At the hold time itself a hold is overdue, one above it none is. -/
theorem witness_HoldAlertWrite :
    ((1000 : Half) ≠ 0 ∧
      ∃ h ∈ expired.hold, h.isHeld = true ∧ (1000 : Half).toNat ≤ h.time.toNat) ∧
    ∀ h ∈ expired.hold, h.isHeld = true → h.time.toNat < (1001 : Half).toNat := by decide

theorem witness_Changes :
    let more := { tracking with table := [capturing 0 0x100 0 0] }
    (State.reset.dueGrant = none ∧ State.reset.occupancy = State.reset.alert.occHanded ∧
      State.reset.poolUse = State.reset.alert.poolHanded) ∧
    (more.dueGrant = none ∧ more.occupancy ≠ more.alert.occHanded ∧
      more.poolUse ≠ more.alert.poolHanded) ∧
    granting.dueGrant ≠ none := by decide

theorem witness_Refused :
    let busy := { tracking with cmd.busy := true }
    (busy.port.resetAsserted = false ∧ busy.cmd.busy = true) ∧
    (tracking.cmd.busy = false ∧ tracking.epoch.dev ≠ .idle ∧ tracking.epoch.dev ≠ .ready) ∧
    (State.reset.cmd.busy = false ∧ State.reset.epoch.dev ≠ .ready ∧
      State.reset.epoch.dev ≠ .tracking) := by decide

theorem witness_AcceptedCommands :
    (State.reset.cmd.busy = false ∧ State.reset.epoch.dev = .idle) ∧
    (ready.port.resetAsserted = false ∧ ready.cmd.busy = false ∧ ready.epoch.dev = .ready ∧
      ∀ h ∈ ready.hold, h.isHeld = false) ∧
    (closing.port.resetAsserted = false ∧ closing.cmd.busy = false ∧
      closing.epoch.dev = .tracking) ∧
    ((∃ h ∈ closing.hold, h.hold = .buffer 1) ∧ ∀ h ∈ tracking.hold, h.isWaiter = false) := by
  decide

/-- Both cases of what a cut hands over: occupancy and pool use changed, and as they were. -/
theorem witness_HandsOver :
    let same := { closing with alert.occHanded := 2, alert.poolHanded := 1 }
    let opened := after (exec .openEpoch ready)
    (opened.occupancy = ready.alert.occHanded ∧ opened.poolUse = ready.alert.poolHanded) ∧
    ((after (exec .closeSwitch closing)).occupancy ≠ closing.alert.occHanded ∧
      (after (exec .closeSwitch closing)).poolUse ≠ closing.alert.poolHanded) ∧
    ((after (exec .closeSwitch same)).occupancy = same.alert.occHanded ∧
      (after (exec .closeSwitch same)).poolUse = same.alert.poolHanded) ∧
    ((after (exec .closeEnd same)).occupancy ≠ same.alert.occHanded ∧
      (after (exec .closeEnd same)).poolUse ≠ same.alert.poolHanded) ∧
    ((after (exec .closeEnd closing)).occupancy ≠ closing.alert.occHanded ∧
      (after (exec .closeEnd closing)).poolUse = closing.alert.poolHanded) := by decide

/-- A waiter of either kind, a request of neither, and what a waiter is classified as. -/
theorem witness_Reclassify :
    (held 0x10000 0 (.buffer 1)).isWaiter = true ∧
    (held 0x300 0 (.entry ⟨0, .trace, 2, 9⟩)).isWaiter = true ∧
    (held 0x10100 0 (.capture 2)).isWaiter = false ∧
    closing.classify 0x10000 2 = .tracked ⟨1, .undo, 2, 5000⟩ ∧
    closing.freeSlot = some 2 ∧ closing.lookup 0x300 = none := by decide

theorem witness_AcceptedCommands_laws : TableLaw closing ∧ SettingsLaw State.reset := by
  unfold TableLaw Entry.lawful SettingsLaw Windows.quotasInRange; decide

theorem witness_Kick :
    let fir := { tracking with copyOut.fir := some ring, copyOut.wait := true }
    let jring := { journaling with journal.wait := true, journal.writer := .waiting }
    let both := { jring with copyOut.fir := some ring, copyOut.wait := true }
    (tracking.copyOut.wait = false ∧ tracking.journal.wait = false) ∧
    (fir.copyOut.wait = true ∧ fir.ownPending .descRead = false ∧ fir.journal.wait = false ∧
      fir.copyOut.fir = some ring) ∧
    (jring.journal.wait = true ∧ jring.ownPending .slotRead = false ∧
      jring.copyOut.wait = false ∧ jring.journal.ring = some ring) ∧
    (both.copyOut.wait = true ∧ both.ownPending .descRead = false ∧ both.journal.wait = true ∧
      both.ownPending .slotRead = false ∧ both.copyOut.fir = some ring ∧
      both.journal.ring = some ring) := by decide

/-- At BASE and just below LIMIT the window claims; at LIMIT and for the other initiators not. -/
theorem witness_Window :
    winExclude.claims 0x20000 2 = true ∧ winExclude.claims 0x2FFC0 2 = true ∧
    winExclude.claims 0x30000 2 = false ∧ winExclude.claims 0x1FFC0 2 = false ∧
    winExclude.claims 0x20000 3 = false ∧
    ({ winExclude with limit := 2 }).limit.toNat ≤ winExclude.base.toNat ∧
    0xFFFFFF0000 ≤ (0xFFFFFFFFC0 : Addr).toNat := by decide

theorem witness_Deciding :
    State.reset.epoch.dev ≠ .tracking ∧ tracking.epoch.dev = .tracking ∧
    (∀ n, (tracking.active.windows.get n).claims 0x30000 2 = false) ∧
    (tracking.active.windows.get 2).claims 0x20000 2 = true ∧
    ∀ m : BitVec 2, m.toNat < (2 : BitVec 2).toNat →
      (tracking.active.windows.get m).claims 0x20000 2 = false := by decide

/-- A capture of epoch 6 protects block 0x100 while epoch 7 is current. -/
def behind : State :=
  { draining with
    table := [{ capturing 0 0x100 0 0 with epoch := 6, cause := some .close }]
    retire.list := [0], hold := [held 0x10000 0 (.capture 0)] }

theorem witness_NotTracked :
    let full := { tracking with hold := List.replicate 16 (held 0x10000 0 .released) }
    let almost := { tracking with hold := List.replicate 15 (held 0x10000 0 .released) }
    full.ready = false ∧ almost.ready = true ∧
    ({ tracking with mem.passQ := List.replicate 8 (writeTo 0x140 0) }).ready = false ∧
    tracking.classify 0x20000 2 = .excluded ∧ tracking.classify 0x30000 2 = .untracked ∧
    tracking.behindOldCapture (blockOf 0x20000) = false ∧
    behind.ready = true ∧ behind.epoch.dev = .tracking ∧
    behind.behindOldCapture (blockOf 0x10040) = true := by decide

theorem witness_Miss :
    let ct : Classification := ⟨0, .trace, 2, 5000⟩
    let cu : Classification := ⟨1, .undo, 2, 5000⟩
    tracking.ready = true ∧ tracking.behindOldCapture (blockOf 0x140) = false ∧
    tracking.classify 0x140 2 = .tracked ct ∧ tracking.classify 0x10000 2 = .tracked cu ∧
    tracking.lookup (blockOf 0x140) = none ∧ tracking.lookup (blockOf 0x10000) = none ∧
    tracking.epoch.overflow = false ∧ (∀ h ∈ tracking.hold, h.isEntry = false) ∧
    tracking.freeSlot = some 0 := by decide

theorem witness_Hit :
    let s := { tracking with table := [{ traceEntry 0 1 with cause := some .age }]
                             retire.list := [0] }
    s.ready = true ∧ s.behindOldCapture (blockOf 0x140) = false ∧
    s.classify 0x140 3 = .tracked ⟨0, .trace, 3, 5000⟩ ∧
    s.lookup (blockOf 0x140) = some { traceEntry 0 1 with cause := some .age } ∧
    granting.lookup (blockOf 0x10040) = some (undoEntry 0 0x100) := by decide

/-- A write of another block waits for an entry already. -/
def crowded : State :=
  { tracking with
    table := [{ traceEntry 0 1 with lastStamp := 300 }, traceEntry 1 2, traceEntry 2 3]
    hold := [held 0x400 0 (.entry ⟨0, .trace, 2, 400⟩)] }

theorem witness_Wait :
    let candidate (e : Entry) : Prop :=
      e.epoch = crowded.epoch.number ∧ e.mode = .trace ∧ e.state = .logged ∧ e.cause = none
    crowded.ready = true ∧ crowded.behindOldCapture (blockOf 0x500) = false ∧
    crowded.classify 0x500 2 = .tracked ⟨0, .trace, 2, 5000⟩ ∧
    crowded.lookup (blockOf 0x500) = none ∧ crowded.lookup (blockOf 0x400) = none ∧
    crowded.epoch.overflow = false ∧
    (∃ h ∈ crowded.hold, h.isEntry = true ∧ h.block = blockOf 0x440) ∧
    (∀ h ∈ crowded.hold, h.isEntry = true → h.block ≠ blockOf 0x500) ∧
    (∃ h ∈ crowded.hold, h.isEntry = true) ∧
    crowded.table = [{ traceEntry 0 1 with lastStamp := 300 }] ++ traceEntry 1 2 ::
      [traceEntry 2 3] ∧
    candidate (traceEntry 1 2) ∧
    (traceEntry 1 2).lastStamp.toNat < 300 ∧
    (traceEntry 1 2).lastStamp.toNat ≤ (traceEntry 2 3).lastStamp.toNat ∧
    ∀ e ∈ ({ crowded with table := [undoEntry 0 1] } : State).table, ¬candidate e := by decide

/-- A table with an entry in each of its slots is full. -/
theorem witness_Wait_fullTable (s : State) (slots : List Nat)
    (hs : slots = List.range Config.tableSlots)
    (ht : s.table = slots.map fun n => traceEntry n 0) : s.freeSlot = none := by
  cases h : s.freeSlot with
  | none => rfl
  | some n =>
    obtain ⟨hn, hfree, _⟩ := (State.freeSlot_eq_some _ n).1 h
    have hmem : traceEntry n 0 ∈ s.table := by
      rw [ht, hs]
      exact List.mem_map_of_mem (List.mem_range.2 hn)
    exact absurd rfl (hfree _ hmem)

theorem witness_MissInOverflow :
    let s := { tracking with epoch.overflow := true, epoch.untracked := 0xFFFFFFFF }
    s.ready = true ∧ s.behindOldCapture (blockOf 0x140) = false ∧
    s.classify 0x140 2 = .tracked ⟨0, .trace, 2, 5000⟩ ∧ s.lookup (blockOf 0x140) = none ∧
    s.epoch.overflow = true := by decide

/-- Room for all, room for one of two, and none. -/
theorem witness_Leave :
    let ahead := [held 0x10000 0 (.buffer 0), held 0x140 1 .released]
    let leaving := ahead.filter fun h => !h.isHeld
    (0 + leaving.length ≤ 8 ∧ ∀ h ∈ [held 0x10040 2 (.order none false true)], h.isHeld = true) ∧
    (7 + leaving.length = 8 ∧ (held 0x240 3 .released).isHeld = false) ∧
    8 ≤ (List.replicate 8 (writeTo 0x140 0)).length := by decide

theorem witness_Answers :
    let s := { tracking with mem.issuedPass := [⟨4, writeTo 0x140 0⟩] }
    s.mem.issuedPass.find? (·.tag == 4) = some ⟨4, writeTo 0x140 0⟩ ∧
    (writeTo 0x140 0).op ≠ .read := by decide

/-- 254, 255 and a count already saturated. -/
theorem witness_WriteCount :
    ({ traceEntry 0 1 with count := 254 }).count.toNat < 255 ∧
    ({ traceEntry 0 1 with count := 255 }).count.toNat = 255 ∧
    ({ traceEntry 0 1 with saturated := true }).saturated = true := by decide

theorem witness_Pool : poolWf [(3, ownerLine 1), (255, ownerLine 2)] = true := by decide

theorem witness_Grant :
    let quota := { granting with active.poolMode := .quota }
    granting.epoch.dev = .tracking ∧
    granting.hold = [] ++ held 0x10000 0 (.buffer 0) :: [] ∧
    granting.entryAt 0 = some (undoEntry 0 0x100) ∧
    (undoEntry 0 0x100).state = .pending ∧ granting.active.poolMode = .shared ∧
    (quota.table.filter fun y => y.poolBuf.isSome && y.window == 1).length <
      (quota.active.windows.get 1).quota.toNat ∧
    granting.freeBuffer = some 0 := by decide

/-- An older waiter whose window has no quota left is passed over. -/
theorem witness_Grant_passedOver :
    let poor := { undoEntry 1 0x101 with window := 2 }
    let s := { tracking with
      active.poolMode := .quota, table := [poor, undoEntry 0 0x100]
      hold := [held 0x10100 0 (.buffer 1), held 0x10000 1 (.buffer 0)] }
    s.entryAt 1 = some poor ∧
    ¬(s.table.filter fun y => y.poolBuf.isSome && y.window == poor.window).length <
      (s.active.windows.get poor.window).quota.toNat ∧
    s.dueGrant.map (·.2.1) = some (undoEntry 0 0x100) := by decide

theorem witness_CopyOut :
    let s := { tracking with copyOut.fir := some ring }
    (s.epoch.dev = .tracking ∧ s.copyOut.cache.length < 4 ∧ s.ownPending .descRead = false ∧
      s.copyOut.wait = false ∧ s.copyOut.cache = [] ∧ s.copyOut.places = [] ∧
      s.copyOut.fir = some ring) ∧
    (copyingOut.epoch.dev = .tracking ∧ copyingOut.copyOut.places.length < 4 ∧
      copyingOut.copyOut.imaged = (imaged 0 0x100 0).slot :: [] ∧
      copyingOut.copyOut.cache = image :: [] ∧
      copyingOut.entryAt 0 = some (imaged 0 0x100 0) ∧ (imaged 0 0x100 0).state = .imaged ∧
      (imaged 0 0x100 0).poolBuf = some 0) := by decide

/-- The Retire List's first entry is still PENDING, the second is ready. -/
def retiring : State :=
  { tracking with
    table := [undoEntry 0 0x100, { traceEntry 1 2 with cause := some .age }]
    retire.list := [0, 1]
    hold := [held 0x10000 0 (.buffer 0), held 0x300 1 (.entry ⟨0, .trace, 2, 4000⟩),
      held 0x340 2 (.order (some ⟨3, 4500⟩) false true)] }

theorem witness_Retirement :
    let e := { traceEntry 1 2 with cause := some .age }
    retiring.epoch.dev = .tracking ∧ retiring.journal.queue.length < 31 ∧
    retiring.retire.list = [0] ++ e.slot :: [] ∧
    retiring.entryAt 0 = some (undoEntry 0 0x100) ∧ (undoEntry 0 0x100).state ≠ .logged ∧
    retiring.entryAt e.slot = some e ∧ e.state = .logged ∧ retiring.epoch.draining = false ∧
    retiring.hold = [held 0x10000 0 (.buffer 0)] ++ held 0x300 1 (.entry ⟨0, .trace, 2, 4000⟩) ::
      [held 0x340 2 (.order (some ⟨3, 4500⟩) false true)] ∧
    (held 0x10000 0 (.buffer 0)).isEntry = false ∧
    (∀ h ∈ tracking.hold, h.isEntry = false) := by decide

/-- The freed slot goes to the ENTRY waiter, what follows it is released, and the BUFFER waiter gets
the buffer that is due. -/
theorem test_retirement_order :
    let t := after (exec .retirement retiring)
    t.hold.map (·.hold) = [.capture 0, .released, .released] ∧
    t.table.map (·.count) = [1, 2] := by decide

/-- The retired entry belongs to the draining epoch. -/
theorem witness_Retirement_drains :
    let e := { traceEntry 1 2 with epoch := 6, cause := some .close }
    let s := { draining with table := [e], retire.list := [1] }
    s.epoch.draining = true ∧ s.epoch.summary = some summary ∧ summary.epoch = e.epoch ∧
    s.entryAt e.slot = some e ∧ e.state = .logged := by decide

theorem witness_CloseRecord :
    (draining.epoch.dev = .tracking ∧ draining.epoch.draining = true ∧
      draining.epoch.summary = some summary ∧ draining.retire.closeBuilt = false ∧
      (∀ e ∈ draining.table, e.epoch ≠ summary.epoch) ∧ draining.journal.queue.length < 31) ∧
    (journaling.journal.writer = .standby ∧ journaling.journal.queue ≠ [] ∧
      journaling.journal.ring = some ring) := by decide

/-- One capture read behind an older request for its block, one free to go. -/
def issuing : State :=
  { tracking with
    hold := [held 0x10000 0 .released]
    mem.classC := [⟨.captureRead 0 0 0, 0x10000, .read, 4⟩, ⟨.captureRead 1 1 0, 0x20000, .read, 4⟩]
    mem.classB := [⟨.descRead, 0x40, .read, 5⟩]
    mem.passQ := [writeTo 0x140 1] }

theorem witness_Issue :
    let eligible (addr : Addr) (key : Nat) : Prop :=
      ∀ u ∈ issuing.unissued, u.1 = blockOf addr → key ≤ u.2
    ¬eligible 0x10000 4 ∧ eligible 0x20000 4 ∧ eligible 0x40 5 ∧ eligible 0x140 3 ∧
    issuing.mem.issuedOwn.length < 16 ∧
    issuing.mem.drainMode = false ∧
    ¬(issuing.imm.passWeight.toNat ≤ issuing.mem.runCount) ∧
    ({ issuing with mem.runCount := 4 }).imm.passWeight.toNat ≤ 4 ∧
    (State.reset.mem.classC = [] ∧ State.reset.mem.classB = [] ∧ State.reset.mem.passQ = []) := by
  decide

/-- Outside drain mode a PASS_WEIGHT of 0 lets class P go first at any run count, and a weight from 1
on that the run count has reached lets class B go first (log 28). -/
theorem test_issue_passWeight :
    let s := { issuing with mem.classC := [], mem.runCount := 3 }
    let weighed (w : BitVec 4) := after (exec .issue { s with imm.passWeight := w })
    ((weighed 0).mem.passQ = [] ∧ (weighed 0).mem.runCount = 4) ∧
    ((weighed 2).mem.classB = [] ∧ (weighed 2).mem.runCount = 0) ∧
    (weighed 4).mem.passQ = [] := by decide

def lastLine : State := waitingFor
  { tracking with
    table := [capturing 0 0x100 0 3]
    hold := [held 0x10000 0 (.capture 0), held 0x10040 1 (.order none false true)] }
  (.captureRead 0 0 3)

theorem witness_Capture :
    lastLine.findOwn 5 = some ⟨5, ⟨.captureRead 0 0 3, 0x40, .read, 1⟩, 0, false⟩ ∧
    lastLine.entryAt 0 = some (capturing 0 0x100 0 3) ∧
    (capturing 0 0x100 0 3).state = .capturing ∧ (capturing 0 0x100 0 3).linesIn = 3 ∧
    (capturing 0 0x100 0 2).linesIn + 1 < 4 ∧
    (∀ h ∈ lastLine.hold, h.block = 0x100 → h.hold = .released ∨ h.hold = .capture 0 ∨
      h.hold = .order none false true) ∧
    (lastLine.table.map (·.slot)).Nodup ∧
    (lastLine.table.filterMap (·.poolBuf)).Nodup := by decide

/-- A write stands marked behind the capture of an earlier epoch's entry of its block. -/
def unmarking : State := waitingFor
  { draining with
    table := [{ capturing 0 0x100 0 3 with epoch := 6, cause := some .close }]
    retire.list := [0]
    hold := [held 0x10000 0 (.capture 0), held 0x10040 1 (.order none true false),
      held 0x10080 2 (.order none true false)] }
  (.captureRead 0 0 3)

/-- The marked writes are classified: the first learns an entry and waits for its buffer, which is
granted at once, the second hits it. -/
theorem test_walk_marks :
    let t := after (exec (.captureReadData 5 Line.zero) unmarking)
    t.table.map (·.state) = [.imaged, .capturing] ∧ t.table.map (·.epoch) = [6, 7] ∧
    t.table.map (·.count) = [1, 2] ∧
    t.hold.map (·.hold) = [.released, .capture 1, .order none false false] := by decide

theorem witness_Capture_law : TableLaw lastLine := by
  unfold TableLaw Entry.lawful; decide

/-- An issued own request is awaited: the shape of every `awaits` hypothesis. -/
theorem witness_awaits (role : OwnRole) :
    (waitingFor tracking role).awaits 5 ⟨role, 0x40, .read, 1⟩ :=
  ⟨⟨5, ⟨role, 0x40, .read, 1⟩, 0, false⟩, rfl, rfl, rfl⟩

theorem witness_ImageAndDescriptor :
    let place : CopyOutPlace := { slot := 0, buffer := 0, image := image, linesDone := 3 }
    let s := { waitingFor tracking (.imageWrite 0) with
      table := [copying 0 0x100 0], copyOut.fir := some ring, copyOut.places := [place] }
    let d := { waitingFor draining (.descWrite 0) with
      table := [{ filing 0 0x100 with epoch := 6, cause := some .close }] }
    (s.copyOut.places.find? (·.slot == 0) = some place ∧ place.linesDone = 3 ∧
      s.entryAt 0 = some (copying 0 0x100 0) ∧ (copying 0 0x100 0).state = .copying ∧
      s.copyOut.fir = some ring ∧ ({ place with linesDone := 2 }).linesDone + 1 < 4) ∧
    (d.entryAt 0 = some { filing 0 0x100 with epoch := 6, cause := some .close } ∧
      d.epoch.draining = true ∧ d.epoch.summary = some summary ∧
      ({ waitingFor tracking (.descWrite 0) with table := [filing 0 0x100] }).entryAt 0 =
        some (filing 0 0x100)) := by decide

theorem witness_Owners :
    (quadAt (ownerLine 1) (ring.base + BitVec.ofNat 40 (16 * 0))).w0.toNat % 4 = 1 ∧
    (quadAt (ownerLine 2) (ring.base + BitVec.ofNat 40 (16 * 0))).w0.toNat % 4 ≠ 1 ∧
    (quadAt (ownerLine 5) (ring.base + BitVec.ofNat 40 (32 * 7))).w0.toNat % 4 = 1 ∧
    (quadAt (ownerLine 3) (ring.base + BitVec.ofNat 40 (32 * 7))).w0.toNat % 4 ≠ 1 ∧
    journaling.journal.ring = some ring ∧ journaling.journal.queue ≠ [] := by decide

theorem witness_Header :
    let body := waitingFor { journaling with journal.writer := .body } .slotWrite
    let last := waitingFor
      { draining with
        journal.ring := some ring, journal.writer := .header, retire.closeBuilt := true
        journal.queue := [.closing summary 0 0] } .slotWrite
    (body.journal.writer = .body ∧ body.journal.ring = some ring ∧
      body.journal.queue = [.opening 7 .command State.reset.active.windows .shared 9]) ∧
    body.epoch.draining = false ∧
    (last.journal.writer = .header ∧ last.epoch.draining = true ∧
      last.journal.queue = [.closing summary 0 0] ∧ last.epoch.dev ≠ .finishing) ∧
    ({ last with epoch.dev := .finishing }).epoch.dev = .finishing := by decide

/-- The example of 8.6 passes; size code 13 is out of range; equal bases overlap; areas that touch
do not. -/
theorem witness_Jcb :
    let q (w0 w1 w2 : Word) : Quad := ⟨w0, w1, w2, 0⟩
    loading.epoch.dev = .loading ∧
    (jcbFormatOk (q 0x40000000 0x0005AC00 0x40020000) = true ∧
      jcbOverlap (q 0x40000000 0x0005AC00 0x40020000) = false) ∧
    jcbFormatOk (q 0x40000000 0x0005AD00 0x40020000) = false ∧
    jcbFormatOk (q 0x40000000 0x0005A200 0x40020000) = false ∧
    (jcbFormatOk (q 0x40000000 0x0005AC00 0x4001FF00) = true ∧
      jcbOverlap (q 0x40000000 0x0005AC00 0x4001FF00) = true) ∧
    jcbFormatOk (q 0xFFFFFF00 0x00052CFF 0x40020000) = false := by decide

theorem witness_MemoryError :
    let failed := waitingFor tracking .descRead
    (loading.epoch.dev = .loading ∧ failed.epoch.dev = .tracking ∧
      (waitingFor State.reset .descRead).epoch.dev = .idle) ∧
    (overdue.findOwn 5 = some ⟨5, ⟨.descRead, 0x40, .read, 1⟩, 64, false⟩) ∧
    ({ failed with epoch.dev := .finishing, epoch.draining := true }).epoch.dev = .finishing ∧
    (expired.hold.map (·.isHeld) = [true, true] ∧
      (expired.hold.map (·.time)).head? = some 1000) := by decide

theorem witness_Abandoned :
    overdue.findOwn 6 = some ⟨6, ⟨.slotRead, 0x80, .read, 3⟩, 64, true⟩ ∧
    overdue.findOwn 7 = none := by decide

theorem witness_HoldLimit :
    expired.imm.holdLimit ≠ 0 ∧
    (∃ h ∈ expired.hold, h.isWaiter = true ∧ expired.imm.holdLimit.toNat ≤ h.time.toNat) ∧
    expired.epoch.overflow = false ∧
    ({ expired with epoch.overflow := true } : State).epoch.overflow = true ∧
    expired.imm.holdLimit.toNat = 1000 := by decide

/-- What stands behind a capture stays HELD at the overflow, and a second overflow counts no more. -/
theorem test_holdLimit_order :
    let s := { expired with
      epoch.overflow := true
      table := [undoEntry 0 0x100, capturing 1 0x101 0 0]
      hold := expired.hold ++ [held 0x10100 2 (.capture 1),
        held 0x10140 3 (.order none false false)] }
    let t := after (exec .holdLimitExpiry s)
    t.hold.map (·.hold) = [.released, .released, .capture 1, .order none false false] ∧
    t.alert.overflows = 0 ∧ t.alert.flags = 0 ∧ t.alert.peakHold = 1000 ∧
    t.alert.epochHold = 1000 := by decide

theorem witness_Expiries :
    let aged := { tracking with
      table := [undoEntry 0 0x100, { traceEntry 3 1 with lastStamp := 1000 }]
      active.ageLimit := 4 }
    let waits := { journaling with
      copyOut.fir := some ring, copyOut.wait := true, copyOut.timer := some 256
      journal.wait := true, journal.timer := some 256 }
    (expired.imm.holdAlert ≠ 0 ∧
      expired.hold = [] ++ { held 0x10000 0 (.buffer 0) with time := 1000 } ::
        [held 0x10040 1 (.order none false true)] ∧
      expired.imm.holdAlert.toNat ≤ 1000) ∧
    (aged.epoch.dev = .tracking ∧ aged.active.ageLimit ≠ 0 ∧
      (undoEntry 0 0x100).mode ≠ .trace ∧
      aged.active.ageLimit.toNat * 1000 ≤
        aged.epoch.epochTime.toNat - ({ traceEntry 3 1 with lastStamp := 1000 }).lastStamp.toNat) ∧
    (waits.epoch.dev = .tracking ∧ waits.copyOut.wait = true ∧ waits.imm.poll ≠ 0 ∧
      waits.copyOut.timer = some 256 ∧ waits.imm.poll.toNat * 16 ≤ 256 ∧
      waits.copyOut.fir = some ring ∧ waits.journal.wait = true ∧
      waits.journal.timer = some 256 ∧ waits.journal.ring = some ring) := by decide

theorem witness_Layouts :
    (summary.peakOcc ≤ 2048 ∧ summary.peakPool ≤ 64) ∧
    ((0x100C0 : Addr).toNat % 32 = 0 ∧ (0x100C0 : Addr).toNat % 64 = 0) ∧
    ((0x100E0 : Addr).toNat % 32 = 0 ∧ (0x100E0 : Addr).toNat % 64 = 32) ∧
    (0x10030 : Addr).toNat % 16 = 0 := by decide

/-- The masks: the header's four bytes and the rest of a slot in either half of its line. -/
theorem test_masks :
    maskOf (lineOffset 0x100C0 + 4) 28 = 0xFFFFFFF0 ∧
    maskOf (lineOffset 0x100E0 + 4) 28 = 0xFFFFFFF000000000 ∧
    maskOf (lineOffset 0x100E0) 4 = 0xF00000000 ∧
    maskOf (lineOffset 0x10030) 16 = 0xFFFF000000000000 := by decide

/-- Epoch 7 is current, epoch 6 drains: an entry in each kind of state, a request with each kind of
hold, and an own request of each kind that these admit. -/
def lawful : State :=
  { draining with
    table := [{ capturing 0 0x100 0 3 with epoch := 6, cause := some .close }, undoEntry 1 0x101,
      { copying 2 0x102 1 with epoch := 6, cause := some .close },
      { filing 3 0x103 with epoch := 6, cause := some .close },
      { traceEntry 4 1 with cause := some .age }, imaged 5 0x104 2]
    retire.list := [0, 2, 3, 4]
    hold := [held 0x10000 0 (.capture 0), held 0x10040 1 (.order none true false),
      held 0x10100 2 (.buffer 1), held 0x10140 3 (.order none false true),
      held 0x300 4 (.entry ⟨0, .trace, 2, 4000⟩), held 0x400 5 .released]
    copyOut := { imaged := [5], cache := [image], prefetchIndex := 3, fir := some ring
                 wait := false, timer := none
                 places := [⟨2, 1, ⟨1, 0x50000⟩, 3⟩, ⟨3, 3, ⟨2, 0x60000⟩, 4⟩] }
    journal.ring := some ring
    journal.queue := [.opening 7 .switch tracking.active.windows .shared 9]
    journal.writer := .reading
    mem.issuedOwn := [⟨5, ⟨.captureRead 0 0 3, 0x10000, .read, 0⟩, 0, false⟩,
      ⟨6, ⟨.imageWrite 2, 0x500C0, .write 1 Line.zero, 9⟩, 0, false⟩,
      ⟨7, ⟨.descWrite 3, 0x10000, .write 1 Line.zero, 11⟩, 0, false⟩,
      ⟨8, ⟨.captureRead 9 9 9, 0, .read, 1⟩, 3, true⟩]
    mem.classB := [⟨.descRead, 0x10000, .read, 13⟩, ⟨.slotRead, 0x10000, .read, 15⟩]
    mem.nextTag := 9
    pool := [(0, ownerLine 1)]
    epoch.overflow := false, epoch.untracked := 0 }

theorem witness_Laws_table : TableLaw lawful := by
  unfold TableLaw Entry.lawful; decide

theorem witness_Laws_retire : RetireLaw lawful := by
  refine ⟨by decide, fun n => ⟨fun h => ?_, ?_⟩⟩
  · have hn : n = 0 ∨ n = 2 ∨ n = 3 ∨ n = 4 := by simpa [lawful] using h
    rcases hn with rfl | rfl | rfl | rfl <;> decide
  · rintro ⟨e, he, rfl, hc⟩
    revert e
    decide

theorem witness_Laws_others :
    CapacityLaw lawful ∧ CountLaw lawful ∧ SettingsLaw lawful ∧ PoolFormLaw lawful ∧
    BlockLaw lawful := by
  unfold CapacityLaw CountLaw SettingsLaw Windows.quotasInRange PoolFormLaw BlockLaw; decide

/-- The untracked count may stand where the overflow flag is set. -/
theorem witness_Laws_count :
    CountLaw { lawful with epoch.overflow := true, epoch.untracked := 1 } := by
  unfold CountLaw; decide

theorem witness_Laws_epoch : EpochLaw lawful := by
  refine ⟨?_, ?_, ?_, ?_, ?_, ?_, ?_, ?_⟩ <;> decide

theorem witness_Laws_hold : HoldLaw lawful := by
  unfold HoldLaw State.waitsForOldCapture; decide

theorem witness_Laws_cache : CacheLaw lawful := by
  unfold CacheLaw; decide

theorem witness_Laws_own : OwnLaw lawful := by
  unfold OwnLaw; decide

theorem witness_Laws_step :
    (after (step { lawful with pending := [.bufferGrant] })).table.map (·.state) =
      [.capturing, .capturing, .copying, .filing, .logged, .imaged] ∧
    (after (step { lawful with pending := [.captureReadData 5 Line.zero] })).hold.map (·.hold) =
      [.released, .entry ⟨1, .undo, 2, 5000⟩, .capture 1, .order none false false,
        .entry ⟨0, .trace, 2, 4000⟩, .released] := by decide

end Sys2Proof.Tests
end

/-! ### The settings' ranges and the pool's form (R1, R140, R157, R167) -/

namespace Sys2Proof.Machine

/-- What every step keeps, is kept by commands, by the model's own counters and by the passing of
time. -/
theorem step_induct {Q : State → Prop}
    (command : ∀ c s t, Q s → exec c s = .next t → Q t)
    (counters : ∀ s p n, Q s → Q { s with pending := p, choices := n })
    (tick : ∀ s : State, Q s → Q s.tick) (s t : State) (h : Q s) (he : step s = .next t) : Q t := by
  have one : ∀ c cs, s.takeOne c cs = .next t → Q t := by
    intro c cs he
    unfold State.takeOne at he
    split at he
    · exact command _ _ _ h he
    · exact command _ _ _ (counters s s.pending (s.choices + 1) h) he
  unfold step at he
  split at he
  · rename_i c rest _
    exact command _ _ _ (counters s rest s.choices h) he
  · unfold idle at he
    split at he
    · exact one _ _ he
    · exact one _ _ he
    · rw [Outcome.next_inj] at he
      exact he ▸ tick s h

/-- The settings and the pool are in order. -/
def SettingsInOrder (s : State) : Prop := SettingsLaw s ∧ PoolFormLaw s

/-- What `SettingsInOrder` looks at. -/
def State.settingsView (s : State) : Settings × Settings × Immediate × Addr × List (Nat × Line) :=
  (s.staged, s.active, s.imm, s.cmd.jcbAddr, s.pool)

theorem SettingsInOrder.of_view {s t : State} (h : SettingsInOrder s)
    (e : t.settingsView = s.settingsView) : SettingsInOrder t := by
  obtain ⟨e1, e2, e3, e4, e5⟩ : t.staged = s.staged ∧ t.active = s.active ∧ t.imm = s.imm ∧
      t.cmd.jcbAddr = s.cmd.jcbAddr ∧ t.pool = s.pool := by
    simpa [State.settingsView] using e
  unfold SettingsInOrder SettingsLaw PoolFormLaw
  rw [e1, e2, e3, e4, e5]
  exact h

/-- The staged copy may be installed (R12). -/
theorem SettingsInOrder.of_installed {s t : State} (h : SettingsInOrder s)
    (e : t.settingsView = s.installStaged.settingsView) : SettingsInOrder t := by
  refine SettingsInOrder.of_view (s := s.installStaged) ?_ e
  obtain ⟨⟨hs, _, hi⟩, hp⟩ := h
  exact ⟨⟨hs, hs, hi⟩, hp⟩

/-! #### Operations that leave the settings and the pool alone -/

@[simp] theorem State.settingsView_afterWrite (s : State) (p : Byte) :
    (s.afterWrite p).settingsView = s.settingsView := rfl

@[simp] theorem State.settingsView_queueB (s : State) (role : OwnRole) (addr : Addr) (op : Op) :
    (s.queueB role addr op).settingsView = s.settingsView := rfl

theorem State.settingsView_setCmd (s : State) (c : CommandUnit)
    (hc : c.jcbAddr = s.cmd.jcbAddr) : { s with cmd := c }.settingsView = s.settingsView := by
  simp only [State.settingsView, hc]

@[simp] theorem State.settingsView_applyVerdict (s : State) (f : EventFlag) (v : AlertVerdict) :
    (s.applyVerdict f v).settingsView = s.settingsView := by
  rw [State.applyVerdict_eq]; rfl

@[simp] theorem State.settingsView_grantBuffers (s : State) :
    s.grantBuffers.settingsView = s.settingsView := by
  rw [State.grantBuffers_eq]; rfl

@[simp] theorem State.settingsView_handChanges (s : State) :
    s.handChanges.settingsView = s.settingsView := by
  rw [State.handChanges_eq]; rfl

@[simp] theorem State.settingsView_handOver (s : State) :
    s.handOver.settingsView = s.settingsView := by
  rw [State.handOver_eq]; rfl

@[simp] theorem State.settingsView_route (s : State) (r : Request) (x : Hold) :
    (s.route r x).settingsView = s.settingsView := by
  rw [State.route_eq]; rfl

@[simp] theorem State.settingsView_classifyWrite (s : State) (r : Request)
    (waiting ahead blocked : Bool) :
    (s.classifyWrite r waiting ahead blocked).1.settingsView = s.settingsView := by
  rw [State.classifyWrite_eq]; rfl

@[simp] theorem State.settingsView_arriveWrite (s : State) (r : Request) :
    (s.arriveWrite r).settingsView = s.settingsView := by
  unfold State.arriveWrite
  dsimp only
  split_ifs
  · rfl
  · rw [State.settingsView_route, State.settingsView_classifyWrite]

@[simp] theorem State.settingsView_queueDescRead (s : State) :
    s.queueDescRead.settingsView = s.settingsView := by
  unfold State.queueDescRead
  split <;> rfl

@[simp] theorem State.settingsView_queueSlotRead (s : State) :
    s.queueSlotRead.settingsView = s.settingsView := by
  unfold State.queueSlotRead
  split <;> rfl

@[simp] theorem State.settingsView_queueSlotWrite (s : State) (op : Addr → Record → Op) :
    (s.queueSlotWrite op).settingsView = s.settingsView := by
  unfold State.queueSlotWrite
  split <;> rfl

@[simp] theorem State.settingsView_rereadDesc (s : State) :
    s.rereadDesc.settingsView = s.settingsView :=
  s.settingsView_queueDescRead

@[simp] theorem State.settingsView_rereadSlot (s : State) :
    s.rereadSlot.settingsView = s.settingsView :=
  s.settingsView_queueSlotRead

@[simp] theorem State.settingsView_imageLine (s : State) (slot : Nat) :
    (s.imageLine slot).settingsView = s.settingsView := by
  unfold State.imageLine
  split
  · dsimp only
    split_ifs
    · unfold State.completeImage
      dsimp only
      split <;> rfl
    · rfl
  · rfl

@[simp] theorem State.settingsView_completeDesc (s : State) (slot : Nat) :
    (s.completeDesc slot).settingsView = s.settingsView := by
  unfold State.completeDesc
  split
  · rfl
  · split_ifs
    · unfold State.countImage
      dsimp only
      split_ifs <;> rfl
    · rfl

@[simp] theorem State.settingsView_takeDescriptor (s : State) (data : Line) :
    (s.takeDescriptor data).settingsView = s.settingsView := by
  unfold State.takeDescriptor
  split
  · rfl
  · dsimp only
    split_ifs <;> rfl

@[simp] theorem State.settingsView_takeSlot (s : State) (data : Line) :
    (s.takeSlot data).settingsView = s.settingsView := by
  unfold State.takeSlot
  split
  · rfl
  · split_ifs
    · exact s.endRingWait.settingsView_queueSlotWrite bodyWrite
    · rfl
    · rfl

@[simp] theorem State.settingsView_completeDrain (s : State) :
    s.completeDrain.settingsView = s.settingsView := by
  unfold State.completeDrain
  dsimp only
  split_ifs <;> rfl

@[simp] theorem State.settingsView_recordWritten (s : State) :
    s.recordWritten.settingsView = s.settingsView := by
  unfold State.recordWritten
  split
  · dsimp only
    split_ifs
    · exact State.settingsView_completeDrain _
    · rfl
  · rfl

@[simp] theorem State.settingsView_slotWritten (s : State) :
    s.slotWritten.settingsView = s.settingsView := by
  unfold State.slotWritten
  split
  · exact s.settingsView_queueSlotWrite headerWrite
  · exact s.settingsView_recordWritten
  all_goals rfl

@[simp] theorem State.settingsView_checkJcb (s : State) (q : Quad) :
    (s.checkJcb q).settingsView = s.settingsView := by
  unfold State.checkJcb
  split_ifs <;> rfl

@[simp] theorem State.settingsView_dropOwn (s : State) :
    s.dropOwn.settingsView = s.settingsView := rfl

@[simp] theorem State.settingsView_halt (s : State) : s.halt.settingsView = s.settingsView := by
  simp [State.settingsView, State.halt, State.releaseAll]

@[simp] theorem State.settingsView_reportError (s : State) :
    s.reportError.settingsView = s.settingsView := by
  unfold State.reportError
  split
  · rfl
  · exact s.settingsView_halt
  · exact s.settingsView_halt
  all_goals rfl

@[simp] theorem State.settingsView_memoryError (s : State) (r : OwnReq) (c : ErrCause) :
    (s.memoryError r c).settingsView = s.settingsView := by
  unfold State.memoryError
  rw [State.settingsView_dropOwn, State.settingsView_reportError]; rfl

@[simp] theorem State.settingsView_endAbandoned (s : State) (tag : Nat) :
    (s.endAbandoned tag).settingsView = s.settingsView := by
  unfold State.endAbandoned
  split_ifs <;> rfl

@[simp] theorem State.settingsView_overflowEpoch (s : State) :
    s.overflowEpoch.settingsView = s.settingsView := by
  have flagged : s.setOverflow.settingsView = s.settingsView := by
    unfold State.setOverflow
    split_ifs <;> rfl
  rw [← flagged]
  simp [State.settingsView, State.overflowEpoch]

@[simp] theorem State.settingsView_startCopyOut (s : State) (e : Entry) (buffer : Nat)
    (image : ImageBuf) : (s.startCopyOut e buffer image).settingsView = s.settingsView := by
  have queued : ∀ (u : State) line,
      (u.queueImageWrite e.slot buffer image line).settingsView = u.settingsView :=
    fun u line => State.settingsView_queueB _ _ _ _
  simp only [State.startCopyOut, List.foldl, queued]
  rfl

@[simp] theorem State.settingsView_retireEntry (s : State) (e : Entry) :
    (s.retireEntry e).settingsView = s.settingsView := by
  unfold State.retireEntry State.grantEntry State.advanceSeq
  split <;> split_ifs <;> rfl

@[simp] theorem State.settingsView_kickFir (s : State) :
    s.kickFir.settingsView = s.settingsView := by
  unfold State.kickFir
  split_ifs
  · exact s.settingsView_rereadDesc
  · rfl

@[simp] theorem State.settingsView_kickRing (s : State) :
    s.kickRing.settingsView = s.settingsView := by
  unfold State.kickRing
  split_ifs
  · exact s.settingsView_rereadSlot
  · rfl

@[simp] theorem State.settingsView_takeKick (s : State) :
    s.takeKick.settingsView = s.settingsView := by
  unfold State.takeKick
  rw [State.settingsView_kickRing, State.settingsView_kickFir]
  rfl

@[simp] theorem State.settingsView_latch (s : State) (r : Reg) :
    (s.latch r).settingsView = s.settingsView := by
  unfold State.latch
  split <;> rfl

@[simp] theorem State.settingsView_sampleByte (s : State) :
    s.sampleByte.settingsView = s.settingsView := by
  unfold State.sampleByte
  split_ifs
  · rfl
  · exact s.settingsView_latch _

/-- An answer's owner decides what becomes of the settings and the pool. -/
theorem SettingsInOrder.ownAnswer {s : State} (h : SettingsInOrder s) (tag : Nat)
    (fits : OwnRole → Bool) (owner : OwnReq → State → State)
    (ho : ∀ r u, SettingsInOrder u → SettingsInOrder (owner r u)) :
    SettingsInOrder (s.ownAnswer tag fits owner) := by
  rcases s.ownAnswer_cases tag fits owner with ⟨_, e⟩ | ⟨i, _, ⟨_, e⟩ | ⟨_, _, e⟩ | ⟨_, _, e⟩⟩ <;>
    rw [e]
  · exact h
  · exact h.of_view rfl
  · exact ho _ _ (h.of_view rfl)
  · exact h

/-! #### The capture's data, the cuts, STOP and reset -/

theorem State.settingsView_releaseWalk (b : Block) (slot : Nat) (q done : List HeldReq)
    (blocked : Bool) (s : State) :
    (releaseWalk b slot q done blocked s).1.settingsView = s.settingsView := by
  rw [releaseWalk_eq]; rfl

theorem State.settingsView_completeCapture (s : State) (e : Entry) :
    (s.completeCapture e).settingsView = s.settingsView :=
  State.settingsView_releaseWalk _ _ _ _ _ _

/-- A returned line goes into the pool, whose form stays canonical (R56). -/
theorem SettingsInOrder.captureLine {s : State} (h : SettingsInOrder s) (slot buffer line : Nat)
    (data : Line) : SettingsInOrder (s.captureLine slot buffer line data) := by
  have placed : SettingsInOrder { s with pool := poolWrite (poolLine buffer line) data s.pool } :=
    ⟨h.1, poolWf_poolWrite _ _ _ h.2⟩
  unfold State.captureLine
  dsimp only
  split
  · exact placed
  · split_ifs
    · exact placed.of_view rfl
    · exact placed.of_view (State.settingsView_completeCapture _ _)
    · exact placed

theorem State.settingsView_reclassifyWaiters (s : State) :
    s.reclassifyWaiters.settingsView = s.settingsView := by
  show (reclassify s.hold [] s.freePending).1.settingsView = _
  rw [reclassify_eq]; rfl

theorem State.settingsView_copyLongestHold (s : State) :
    s.copyLongestHold.settingsView = s.settingsView := rfl

theorem State.settingsView_endCut (s : State) : s.endCut.settingsView = s.settingsView := by
  unfold State.endCut
  rw [State.settingsView_handChanges]
  exact s.settingsView_grantBuffers

theorem State.settingsView_cutOpen (s : State) :
    s.cutOpen.settingsView = s.installStaged.settingsView := by
  unfold State.cutOpen
  rw [State.settingsView_endCut, State.settingsView_reclassifyWaiters]; rfl

theorem State.settingsView_cutSwitch (s : State) :
    s.cutSwitch.settingsView = s.installStaged.settingsView := by
  unfold State.cutSwitch
  rw [State.settingsView_endCut, State.settingsView_copyLongestHold,
    State.settingsView_reclassifyWaiters]; rfl

theorem State.settingsView_cutEnd (s : State) :
    s.cutEnd.settingsView = s.installStaged.settingsView := by
  unfold State.cutEnd
  rw [State.settingsView_handOver]; rfl

theorem SettingsInOrder.acceptOpen {s : State} (h : SettingsInOrder s) :
    SettingsInOrder s.acceptOpen :=
  h.of_installed ((State.settingsView_setCmd s.cutOpen
    { s.cutOpen.cmd with last := .openEpoch } rfl).trans s.settingsView_cutOpen)

theorem SettingsInOrder.acceptSwitch {s : State} (h : SettingsInOrder s) :
    SettingsInOrder s.acceptSwitch :=
  h.of_installed ((State.settingsView_setCmd s.cutSwitch
    { s.cutSwitch.cmd with busy := true, last := .closeSwitch } rfl).trans s.settingsView_cutSwitch)

theorem SettingsInOrder.acceptEnd {s : State} (h : SettingsInOrder s) :
    SettingsInOrder s.acceptEnd :=
  h.of_installed ((State.settingsView_setCmd s.cutEnd
    { s.cutEnd.cmd with busy := true, last := .closeEnd } rfl).trans s.settingsView_cutEnd)

/-- STOP changes the active modes alone (R15). -/
theorem State.settingsView_stopBlocks (s : State) :
    s.stopBlocks.settingsView = { s with active.windows := s.active.windows.allOff }.settingsView :=
  rfl

theorem State.settingsView_takeStop (s : State) :
    s.takeStop.settingsView = s.stopBlocks.settingsView := by
  rw [← State.settingsView_handChanges s.stopBlocks]
  unfold State.takeStop State.settingsView
  dsimp only [State.evalDrainMode]

theorem SettingsInOrder.takeStop {s : State} (h : SettingsInOrder s) :
    SettingsInOrder s.takeStop := by
  refine SettingsInOrder.of_view (s := { s with active.windows := s.active.windows.allOff }) ?_
    (s.settingsView_takeStop.trans s.settingsView_stopBlocks)
  exact h

theorem SettingsInOrder.reset : SettingsInOrder State.reset := by
  unfold SettingsInOrder SettingsLaw Windows.quotasInRange PoolFormLaw
  decide

theorem SettingsInOrder.decideExecute {s : State} (h : SettingsInOrder s) (legal : Bool)
    (accept : State → State) (ha : SettingsInOrder (accept s)) :
    SettingsInOrder (s.decideExecute legal accept) := by
  unfold State.decideExecute
  split_ifs
  · exact h.of_view rfl
  · exact ha
  · exact h.of_view rfl

theorem SettingsInOrder.takeLoad {s : State} (h : SettingsInOrder s) : SettingsInOrder s.takeLoad :=
  h.decideExecute _ _ (h.of_view rfl)

theorem SettingsInOrder.takeOpen {s : State} (h : SettingsInOrder s) : SettingsInOrder s.takeOpen :=
  h.decideExecute _ _ h.acceptOpen

theorem SettingsInOrder.takeSwitch {s : State} (h : SettingsInOrder s) :
    SettingsInOrder s.takeSwitch :=
  h.decideExecute _ _ h.acceptSwitch

theorem SettingsInOrder.takeEnd {s : State} (h : SettingsInOrder s) : SettingsInOrder s.takeEnd :=
  h.decideExecute _ _ h.acceptEnd

theorem SettingsInOrder.commandWrite {s : State} (h : SettingsInOrder s) (v : Half) :
    SettingsInOrder (s.commandWrite v) := by
  unfold State.commandWrite
  split_ifs
  · exact h.of_view s.settingsView_takeKick
  · exact h.takeStop
  · exact h.takeLoad
  · exact h.takeOpen
  · exact h.takeSwitch
  · exact h.takeEnd
  · exact h.of_view rfl

/-! #### Register writes -/

theorem clampTo_le (low high : Nat) (v : Half) (h : low ≤ high) : clampTo low high v ≤ high := by
  unfold clampTo; omega

theorem le_clampTo (low high : Nat) (v : Half) : low ≤ clampTo low high v := by
  unfold clampTo; omega

/-- A clamped value keeps its range in a register wide enough for it (R150). -/
theorem toNat_ofNat_clampTo (n low high : Nat) (v : Half) (h : low ≤ high) (hn : high < 2 ^ n) :
    (BitVec.ofNat n (clampTo low high v)).toNat = clampTo low high v := by
  rw [BitVec.toNat_ofNat, Nat.mod_eq_of_lt (lt_of_le_of_lt (clampTo_le low high v h) hn)]

theorem SettingsInOrder.writeAlert {s : State} (h : SettingsInOrder s) (r : AlertReg) (v : Half) :
    SettingsInOrder (s.writeAlert r v) := by
  obtain ⟨⟨hs, ha, d1, d2, t1, t2, p1, p2, hj⟩, hp⟩ := h
  have table : (BitVec.ofNat 12 (clampTo 1 2048 v)).toNat = clampTo 1 2048 v :=
    toNat_ofNat_clampTo 12 1 2048 v (by omega) (by omega)
  have pool : (BitVec.ofNat 7 (clampTo 1 64 v)).toNat = clampTo 1 64 v :=
    toNat_ofNat_clampTo 7 1 64 v (by omega) (by omega)
  cases r with
  | tableUpper =>
    refine SettingsInOrder.of_view ?_ (State.settingsView_applyVerdict _ _ _)
    refine ⟨⟨hs, ha, d1, d2, ?_, ?_, p1, p2, hj⟩, hp⟩
    · exact table.symm ▸ le_clampTo 1 2048 v
    · exact table.symm ▸ clampTo_le 1 2048 v (by omega)
  | tableLower =>
    refine SettingsInOrder.of_view ?_ (State.settingsView_applyVerdict _ _ _)
    exact ⟨⟨hs, ha, d1, d2, t1, t2, p1, p2, hj⟩, hp⟩
  | poolUpper =>
    refine SettingsInOrder.of_view ?_ (State.settingsView_applyVerdict _ _ _)
    refine ⟨⟨hs, ha, d1, d2, t1, t2, ?_, ?_, hj⟩, hp⟩
    · exact pool.symm ▸ le_clampTo 1 64 v
    · exact pool.symm ▸ clampTo_le 1 64 v (by omega)
  | poolLower =>
    refine SettingsInOrder.of_view ?_ (State.settingsView_applyVerdict _ _ _)
    exact ⟨⟨hs, ha, d1, d2, t1, t2, p1, p2, hj⟩, hp⟩
  | alertMode =>
    refine SettingsInOrder.of_view ?_ ((State.settingsView_applyVerdict _ _ _).trans
      (State.settingsView_applyVerdict _ _ _))
    exact ⟨⟨hs, ha, d1, d2, t1, t2, p1, p2, hj⟩, hp⟩

theorem SettingsInOrder.writeDrain {s : State} (h : SettingsInOrder s) (r : DrainReg) (v : Half) :
    SettingsInOrder (s.writeDrain r v) := by
  obtain ⟨⟨hs, ha, _, _, hi⟩, hp⟩ := h
  have high : (BitVec.ofNat 7 (clampTo 1 64 v)).toNat = clampTo 1 64 v :=
    toNat_ofNat_clampTo 7 1 64 v (by omega) (by omega)
  cases r with
  | drainHigh =>
    refine ⟨⟨hs, ha, ?_, ?_, hi⟩, hp⟩
    · exact high.symm ▸ le_clampTo 1 64 v
    · exact high.symm ▸ clampTo_le 1 64 v (by omega)
  | drainLow => exact ⟨⟨hs, ha, ‹_›, ‹_›, hi⟩, hp⟩

theorem SettingsInOrder.writeHoldAlert {s : State} (h : SettingsInOrder s) (v : Half) :
    SettingsInOrder (s.writeHoldAlert v) := by
  unfold State.writeHoldAlert
  dsimp only
  split_ifs <;> exact h

theorem SettingsInOrder.resetPeak {s : State} (h : SettingsInOrder s) (p : Peak) :
    SettingsInOrder (s.resetPeak p) := by
  cases p <;> exact h

theorem SettingsInOrder.writePeak {s : State} (h : SettingsInOrder s) (p : Peak) (v : Half) :
    SettingsInOrder (s.writePeak p v) := by
  unfold State.writePeak
  split_ifs
  · exact h.resetPeak p
  · exact h

theorem Windows.quotasInRange_get {ws : Windows} (h : ws.quotasInRange) (n : BitVec 2) :
    (ws.get n).quota.toNat ≤ 64 := by
  obtain ⟨h0, h1, h2, h3⟩ := h
  unfold Windows.get
  split_ifs <;> assumption

theorem Windows.quotasInRange_set {ws : Windows} (h : ws.quotasInRange) (n : BitVec 2) (w : Window)
    (hw : w.quota.toNat ≤ 64) : (ws.set n w).quotasInRange := by
  obtain ⟨h0, h1, h2, h3⟩ := h
  unfold Windows.set
  split_ifs
  · exact ⟨hw, h1, h2, h3⟩
  · exact ⟨h0, hw, h2, h3⟩
  · exact ⟨h0, h1, hw, h3⟩
  · exact ⟨h0, h1, h2, hw⟩

/-- A window register's write may change all but the QUOTA, or bring the QUOTA into its range. -/
theorem SettingsInOrder.writeWindow {s : State} (h : SettingsInOrder s) (n : BitVec 2)
    (f : Window → Window) (hf : ∀ w, (f w).quota = w.quota ∨ (f w).quota.toNat ≤ 64) :
    SettingsInOrder (s.writeWindow n f) := by
  obtain ⟨⟨hs, hi⟩, hp⟩ := h
  refine ⟨⟨Windows.quotasInRange_set hs n _ ?_, hi⟩, hp⟩
  rcases hf (s.staged.windows.get n) with hq | hq
  · rw [hq]; exact Windows.quotasInRange_get hs n
  · exact hq

/-- The low bits of a field that begins at bit 0. -/
theorem extractLsb'_low {w n k : Nat} (x : BitVec w) (h : k ≤ n) :
    (x.extractLsb' 0 n).extractLsb' 0 k = x.extractLsb' 0 k := by
  ext i hi
  simp [show i < n by omega]

/-- JCB_ADDR stays a multiple of 16 (R157). -/
theorem jcbAddrWith_aligned (old : Addr) (part : BitVec 2) (v : Half)
    (h : old.extractLsb' 0 4 = 0) : (jcbAddrWith old part v).extractLsb' 0 4 = 0 := by
  have low : ∀ {n m : Nat} (x : BitVec n) (y : BitVec m), 4 ≤ m →
      (x ++ y).extractLsb' 0 4 = y.extractLsb' 0 4 := fun _ _ hm =>
    BitVec.extractLsb'_append_eq_of_add_le (by omega)
  unfold jcbAddrWith
  split_ifs
  · exact (low _ _ (by omega)).trans ((low _ _ (by omega)).trans rfl)
  · exact (low _ _ (by omega)).trans ((low _ _ (by omega)).trans
      ((extractLsb'_low old (by omega)).trans h))
  · exact (low _ _ (by omega)).trans ((extractLsb'_low old (by omega)).trans h)

theorem SettingsInOrder.writeReg {s : State} (h : SettingsInOrder s) (v : Half) (r : Reg) :
    SettingsInOrder (s.writeReg v r) := by
  cases r with
  | command => exact h.commandWrite v
  | alertMode => exact h.writeAlert .alertMode v
  | tableUpper => exact h.writeAlert .tableUpper v
  | tableLower => exact h.writeAlert .tableLower v
  | poolUpper => exact h.writeAlert .poolUpper v
  | poolLower => exact h.writeAlert .poolLower v
  | drainHigh => exact h.writeDrain .drainHigh v
  | drainLow => exact h.writeDrain .drainLow v
  | holdAlert => exact h.writeHoldAlert v
  | jcbAddr n =>
    obtain ⟨⟨hs, ha, d1, d2, t1, t2, p1, p2, hj⟩, hp⟩ := h
    exact ⟨⟨hs, ha, d1, d2, t1, t2, p1, p2, jcbAddrWith_aligned _ n v hj⟩, hp⟩
  | winBaseL n => exact h.writeWindow n _ fun _ => .inl rfl
  | winBaseH n => exact h.writeWindow n _ fun _ => .inl rfl
  | winLimitL n => exact h.writeWindow n _ fun _ => .inl rfl
  | winLimitH n => exact h.writeWindow n _ fun _ => .inl rfl
  | winMask n => exact h.writeWindow n _ fun _ => .inl rfl
  | winModeQuota n =>
    refine h.writeWindow n _ fun _ => .inr ?_
    show (BitVec.ofNat 7 (min 64 _)).toNat ≤ 64
    rw [BitVec.toNat_ofNat]
    omega
  | peakOcc => exact h.writePeak .occ v
  | peakPool => exact h.writePeak .pool v
  | wideLow q =>
    cases q with
    | peakHold => exact h.writePeak .hold v
    | _ => exact h
  | _ => exact h

/-! #### Every command -/

theorem SettingsInOrder.onPort {s t : State} (h : SettingsInOrder s) {f : State → State}
    (he : s.onPort f = .next t) (hf : SettingsInOrder (f s)) : SettingsInOrder t := by
  unfold State.onPort at he
  split_ifs at he <;> cases he <;> assumption

theorem SettingsInOrder.afterWrite {s : State} (h : SettingsInOrder s) (p : Byte) :
    SettingsInOrder (s.afterWrite p) :=
  h.of_view (s.settingsView_afterWrite p)

/-- A command that either answers a lawful state or the state as it was. -/
theorem SettingsInOrder.ite {s t u : State} (h : SettingsInOrder s) {p : Prop} [Decidable p]
    (he : (if p then .next u else .next s : Host.Outcome State Fault Refusal) = .next t)
    (hu : SettingsInOrder u) :
    SettingsInOrder t := by
  split_ifs at he <;> cases he <;> assumption

theorem SettingsInOrder.issue {s t : State} (h : SettingsInOrder s)
    (he : execIssue s = .next t) : SettingsInOrder t := by
  unfold execIssue at he
  split at he <;> cases he <;> exact h

theorem exec_keeps_settings (c : Instr) (s t : State) (h : SettingsInOrder s)
    (he : exec c s = .next t) : SettingsInOrder t := by
  unfold exec at he
  cases c with
  | writeArrival i a m d g =>
    refine h.ite he (h.of_view ?_)
    exact (State.settingsView_handOver _).trans (State.settingsView_arriveWrite _ _)
  | readArrival i a g =>
    refine h.ite he (h.of_view ?_)
    exact State.settingsView_route _ _ _
  | releasedLeave =>
    simp only [execReleasedLeave] at he
    split at he <;> cases he <;> exact h
  | issue => exact h.issue he
  | passThroughAnswer g a =>
    simp only [execPassThroughAnswer] at he
    split at he
    · cases he; exact h
    · exact h.ite he (h.of_view rfl)
  | unmatchedAnswer g a => cases he; exact h
  | captureReadData g d =>
    cases he
    refine h.ownAnswer _ _ _ fun r u hu => ?_
    split
    · exact (hu.captureLine _ _ _ _).of_view (State.settingsView_handOver _)
    · exact hu
  | imageWriteDone g =>
    cases he
    refine h.ownAnswer _ _ _ fun r u hu => ?_
    split
    · exact hu.of_view ((State.settingsView_handOver _).trans (u.settingsView_imageLine _))
    · exact hu
  | descWriteDone g =>
    cases he
    refine h.ownAnswer _ _ _ fun r u hu => ?_
    split
    · exact hu.of_view (u.settingsView_completeDesc _)
    · exact hu
  | descReadData g d =>
    cases he
    exact h.ownAnswer _ _ _ fun r u hu => hu.of_view (u.settingsView_takeDescriptor d)
  | slotReadData g d =>
    cases he
    exact h.ownAnswer _ _ _ fun r u hu => hu.of_view (u.settingsView_takeSlot d)
  | slotWriteDone g =>
    cases he
    exact h.ownAnswer _ _ _ fun r u hu => hu.of_view u.settingsView_slotWritten
  | jcbReadData g d =>
    cases he
    refine h.ownAnswer _ _ _ fun r u hu => ?_
    split
    · split_ifs
      · exact hu.of_view (u.settingsView_checkJcb _)
      · exact hu
    · exact hu
  | errorAnswer g =>
    cases he
    exact h.ownAnswer _ _ _ fun r u hu => hu.of_view (u.settingsView_memoryError r .error)
  | timeout g =>
    refine h.ite he ?_
    exact h.ownAnswer _ _ _ fun r u hu => hu.of_view (u.settingsView_memoryError r .timeout)
  | abandonedAnswer g a => cases he; exact h.of_view (s.settingsView_endAbandoned g)
  | abandonedTimeout g => exact h.ite he (h.of_view (s.settingsView_endAbandoned g))
  | holdLimitExpiry =>
    exact h.ite he
      (h.of_view ((State.settingsView_handOver _).trans s.settingsView_overflowEpoch))
  | holdAlertReached => exact h.ite he (h.of_view rfl)
  | ageExpiry =>
    simp only [execAgeExpiry] at he
    split at he <;> cases he <;> exact h
  | firPollExpiry => exact h.ite he (h.of_view s.settingsView_rereadDesc)
  | ringPollExpiry => exact h.ite he (h.of_view s.settingsView_rereadSlot)
  | bufferGrant =>
    simp only [execBufferGrant] at he
    split at he <;> cases he
    · exact h
    · exact h.of_view (State.settingsView_handOver _)
  | prefetch => exact h.ite he (h.of_view s.settingsView_queueDescRead)
  | copyOutStart =>
    simp only [execCopyOutStart] at he
    split at he <;> cases he
    · exact h
    · exact h.of_view (s.settingsView_startCopyOut _ _ _)
  | retirement =>
    simp only [execRetirement] at he
    split at he <;> cases he
    · exact h
    · exact h.of_view ((State.settingsView_handOver _).trans (s.settingsView_retireEntry _))
  | closeRecordBuild =>
    simp only [execCloseRecordBuild] at he
    split at he <;> cases he <;> exact h
  | journalSlotReadStart => exact h.ite he (h.of_view s.settingsView_queueSlotRead)
  | load => exact h.onPort he (h.takeLoad.afterWrite _)
  | openEpoch => exact h.onPort he (h.takeOpen.afterWrite _)
  | closeSwitch => exact h.onPort he (h.takeSwitch.afterWrite _)
  | closeEnd => exact h.onPort he (h.takeEnd.afterWrite _)
  | kick => exact h.onPort he (SettingsInOrder.afterWrite (h.of_view s.settingsView_takeKick) _)
  | stop => exact h.onPort he (h.takeStop.afterWrite _)
  | invalidCommandCode v => exact h.onPort he (SettingsInOrder.afterWrite (h.commandWrite v) _)
  | alertThresholdWrite r v => exact h.onPort he (SettingsInOrder.afterWrite (h.writeAlert r v) _)
  | drainThresholdWrite r v => exact h.onPort he (SettingsInOrder.afterWrite (h.writeDrain r v) _)
  | holdAlertWrite v => exact h.onPort he (SettingsInOrder.afterWrite (h.writeHoldAlert v) _)
  | peakReset p => exact h.onPort he (SettingsInOrder.afterWrite (h.resetPeak p) _)
  | registerWrite p v => exact h.onPort he (SettingsInOrder.afterWrite (h.writeReg v _) _)
  | cmdStatusWrite v => exact h.onPort he h
  | eventWrite v => exact h.onPort he h
  | eventEnableWrite v => exact h.onPort he h
  | holdLimitWrite v => exact h.onPort he h
  | pollWrite v => exact h.onPort he h
  | inspectSlotWrite v => exact h.onPort he h
  | pointerByte b => exact h.onPort he h
  | busStopCondition => exact h.onPort he h
  | latchedRead =>
    refine h.onPort he ?_
    split
    · exact h.of_view s.settingsView_sampleByte
    · exact h.of_view s.settingsView_sampleByte
    · exact h
  | powerOnReset => cases he; exact SettingsInOrder.reset
  | resetRelease a b => exact h.ite he (h.of_view rfl)
  | heldLowByte b =>
    refine h.onPort he ?_
    split
    · unfold State.highByte
      split_ifs
      · exact h
      · exact (h.writeReg _ _).afterWrite _
    · exact h
    · exact h

/-- Settles O57: commands keep the settings in order, and neither the model's counters nor the
passing of time touches them. -/
theorem everyStepKeepsSettingsInRangeAndThePoolsForm :
    Obligations.EveryStepKeepsSettingsInRangeAndThePoolsForm := by
  intro s t hs hp he
  exact step_induct exec_keeps_settings (fun _ _ _ h => h) (fun _ h => h) s t ⟨hs, hp⟩ he

end Sys2Proof.Machine

/-! ### Windows, classification and the settings' registers (R1 to R5, R10, R14, R150, R157) -/

namespace Sys2Proof.Machine

/-! #### Windows -/

theorem toNat_unitOf (a : Addr) : (unitOf a).toNat = a.toNat / 65536 := by
  have := a.isLt
  simp only [unitOf, BitVec.extractLsb'_toNat, Nat.shiftRight_eq_div_pow]
  omega

theorem Window.claims_iff (w : Window) (a : Addr) (i : Initiator) :
    w.claims a i = true ↔
      w.mode ≠ .off ∧ w.base.toNat ≤ a.toNat / 65536 ∧ a.toNat / 65536 < w.limit.toNat ∧
        w.mask.getLsbD i.toNat = true := by
  simp [Window.claims, toNat_unitOf, and_assoc]

theorem Window.claims_eq_false_iff (w : Window) (a : Addr) (i : Initiator) :
    w.claims a i = false ↔
      ¬(w.mode ≠ .off ∧ w.base.toNat ≤ a.toNat / 65536 ∧ a.toNat / 65536 < w.limit.toNat ∧
        w.mask.getLsbD i.toNat = true) := by
  rw [← Window.claims_iff, Bool.not_eq_true]

theorem Window.claims_of_off {w : Window} (h : w.mode = .off) (a : Addr) (i : Initiator) :
    w.claims a i = false := by
  rw [Window.claims_eq_false_iff]
  exact fun hc => hc.1 h

/-- The highest 64 KiB unit lies in no range: a LIMIT is less than 2^24 (R2). -/
theorem Window.claims_of_highest (w : Window) {a : Addr} (h : 0xFFFFFF0000 ≤ a.toNat)
    (i : Initiator) : w.claims a i = false := by
  rw [Window.claims_eq_false_iff]
  rintro ⟨_, _, hl, _⟩
  have := w.limit.isLt
  omega

theorem Windows.get_const (w : Window) (n : BitVec 2) : (Windows.mk w w w w).get n = w := by
  unfold Windows.get
  split_ifs <;> rfl

theorem Windows.get_allOff (ws : Windows) (n : BitVec 2) :
    ws.allOff.get n = { ws.get n with mode := .off } := by
  unfold Windows.get
  split_ifs <;> rfl

theorem windowNumber_cases (n : BitVec 2) : n = 0 ∨ n = 1 ∨ n = 2 ∨ n = 3 := by
  revert n; decide

/-- The window that claims a write, and none before it does, decides (R3). -/
theorem Windows.deciding_of_first (ws : Windows) (a : Addr) (i : Initiator) (n : BitVec 2)
    (h : (ws.get n).claims a i = true)
    (first : ∀ m : BitVec 2, m.toNat < n.toNat → (ws.get m).claims a i = false) :
    ws.deciding a i = some n := by
  unfold Windows.deciding
  obtain rfl | rfl | rfl | rfl := windowNumber_cases n
  · have h0 : ws.w0.claims a i = true := h
    simp [h0]
  · have h0 : ws.w0.claims a i = false := first 0 (by decide)
    have h1 : ws.w1.claims a i = true := h
    simp [h0, h1]
  · have h0 : ws.w0.claims a i = false := first 0 (by decide)
    have h1 : ws.w1.claims a i = false := first 1 (by decide)
    have h2 : ws.w2.claims a i = true := h
    simp [h0, h1, h2]
  · have h0 : ws.w0.claims a i = false := first 0 (by decide)
    have h1 : ws.w1.claims a i = false := first 1 (by decide)
    have h2 : ws.w2.claims a i = false := first 2 (by decide)
    have h3 : ws.w3.claims a i = true := h
    simp [h0, h1, h2, h3]

theorem Windows.deciding_of_none (ws : Windows) (a : Addr) (i : Initiator)
    (h : ∀ n, (ws.get n).claims a i = false) : ws.deciding a i = none := by
  have h0 : ws.w0.claims a i = false := h 0
  have h1 : ws.w1.claims a i = false := h 1
  have h2 : ws.w2.claims a i = false := h 2
  have h3 : ws.w3.claims a i = false := h 3
  simp [Windows.deciding, h0, h1, h2, h3]

/-! #### Classification -/

theorem State.classify_of_not_tracking (s : State) (a : Addr) (i : Initiator)
    (h : s.epoch.dev ≠ .tracking) : s.classify a i = .untracked := by
  unfold State.classify
  rw [if_neg h]

theorem State.classify_of_unclaimed (s : State) (a : Addr) (i : Initiator)
    (h : ∀ n, (s.active.windows.get n).claims a i = false) : s.classify a i = .untracked := by
  unfold State.classify
  rw [Windows.deciding_of_none _ a i h]
  split_ifs <;> rfl

theorem State.classify_of_first (s : State) (a : Addr) (i : Initiator) (n : BitVec 2)
    (ht : s.epoch.dev = .tracking) (h : (s.active.windows.get n).claims a i = true)
    (first : ∀ m : BitVec 2, m.toNat < n.toNat → (s.active.windows.get m).claims a i = false) :
    s.classify a i =
      match (s.active.windows.get n).mode with
      | .trace => .tracked ⟨n, .trace, i, s.epoch.epochTime⟩
      | .undo => .tracked ⟨n, .undo, i, s.epoch.epochTime⟩
      | .exclude => .excluded
      | .off => .untracked := by
  unfold State.classify
  rw [if_pos ht, Windows.deciding_of_first _ a i n h first]
  dsimp only
  cases (s.active.windows.get n).mode <;> rfl

/-- Settles O28: outside TRACKING, no claim, and the first claim. -/
theorem theFirstClaimingWindowDecides : Obligations.TheFirstClaimingWindowDecides :=
  ⟨State.classify_of_not_tracking, fun s a i _ h => s.classify_of_unclaimed a i h,
    fun s a i n ht h first => s.classify_of_first a i n ht h first⟩

/-! #### Reset -/

/-- Settles O5: the values of R14, from which no window claims a write. -/
theorem powerOnResetGivesTheSettingsTheirValues :
    Obligations.PowerOnResetGivesTheSettingsTheirValues := by
  intro s
  have unclaimed : ∀ (n : BitVec 2) (a : Addr) (i : Initiator),
      (Settings.reset.windows.get n).claims a i = false := by
    intro n
    have reset : Settings.reset.windows.get n = Window.reset := Windows.get_const _ n
    exact Window.claims_of_off (by rw [reset]; rfl)
  refine ⟨_, rfl, fun n => ⟨Windows.get_const _ n, Windows.get_const _ n⟩, rfl, rfl, rfl, rfl, rfl,
    unclaimed, rfl, fun a i => State.classify_of_unclaimed _ a i (fun n => unclaimed n a i)⟩

/-! #### The registers of the settings -/

theorem exec_registerWrite (s : State) (p : Byte) (v : Half) (h : s.port.resetAsserted = false) :
    exec (.registerWrite p v) s = .next { s.writeReg v (regAt p) with
      port := (s.writeReg v (regAt p)).port.written p
      out.bus := (s.writeReg v (regAt p)).out.bus ++ [.ack] } := by
  simp only [exec, execRegisterWrite]
  rw [State.onPort_of_released s _ h, State.afterWrite_eq]

/-- Six registers to a window, from 0x20 on (10.5). -/
theorem regAt_window : ∀ n : Fin 4,
    regAt (BitVec.ofNat 8 (0x20 + 6 * n.val)) = .winBaseL (BitVec.ofFin n) ∧
    regAt (BitVec.ofNat 8 (0x21 + 6 * n.val)) = .winBaseH (BitVec.ofFin n) ∧
    regAt (BitVec.ofNat 8 (0x22 + 6 * n.val)) = .winLimitL (BitVec.ofFin n) ∧
    regAt (BitVec.ofNat 8 (0x23 + 6 * n.val)) = .winLimitH (BitVec.ofFin n) ∧
    regAt (BitVec.ofNat 8 (0x24 + 6 * n.val)) = .winMask (BitVec.ofFin n) ∧
    regAt (BitVec.ofNat 8 (0x25 + 6 * n.val)) = .winModeQuota (BitVec.ofFin n) := by
  decide

theorem clampTo_zero (high : Nat) (v : Half) : clampTo 0 high v = min high v.toNat :=
  Nat.zero_max _

theorem toNat_extractLsb'_mode (v : Half) : (v.extractLsb' 0 2).toNat = v.toNat % 4 := by
  simp

theorem toNat_extractLsb'_quota (v : Half) :
    (v.extractLsb' 8 7).toNat = v.toNat / 256 % 128 := by
  simp [Nat.shiftRight_eq_div_pow]

/-- Settles O13, register by register. -/
theorem registerWriteStoresEachSettingInItsRange :
    Obligations.RegisterWriteStoresEachSettingInItsRange := by
  intro s v h
  have write := fun p => exec_registerWrite s p v h
  refine ⟨write 0x04, write 0x08, write 0x09, write 0x0A, write 0x0B, ?_, ?_, fun n => ?_⟩
  · rw [write, ← clampTo_zero]; rfl
  · rw [write, ← clampTo_zero]; rfl
  · obtain ⟨r0, r1, r2, r3, r4, r5⟩ := regAt_window n
    dsimp only
    refine ⟨?_, ?_, ?_, ?_, ?_, ?_⟩
    · rw [write, r0]; rfl
    · rw [write, r1, show 0x21 + 6 * n.val = 0x20 + 6 * n.val + 1 by omega]; rfl
    · rw [write, r2, show 0x22 + 6 * n.val = 0x20 + 6 * n.val + 2 by omega]; rfl
    · rw [write, r3, show 0x23 + 6 * n.val = 0x20 + 6 * n.val + 3 by omega]; rfl
    · rw [write, r4, show 0x24 + 6 * n.val = 0x20 + 6 * n.val + 4 by omega]; rfl
    · rw [write, r5, show 0x25 + 6 * n.val = 0x20 + 6 * n.val + 5 by omega,
        ← toNat_extractLsb'_mode, ← toNat_extractLsb'_quota]
      simp only [State.writeReg]
      generalize v.extractLsb' 0 2 = code
      obtain rfl | rfl | rfl | rfl := windowNumber_cases code <;> rfl

end Sys2Proof.Machine

/-! ### The fabric port (R4 to R7, R28 to R35, R47, R50, R58, R135) -/

namespace Sys2Proof.Machine

/-! #### Routes -/

theorem State.ready_iff (s : State) :
    s.ready = true ↔ s.hold.length < 16 ∧ s.mem.passQ.length < 8 := by
  rw [State.ready, Bool.and_eq_true, decide_eq_true_iff, decide_eq_true_iff]
  exact Iff.rfl

theorem State.isDraining_iff (s : State) (e : Entry) :
    s.isDraining e = true ↔
      s.epoch.draining = true ∧ ∃ sum, s.epoch.summary = some sum ∧ sum.epoch = e.epoch := by
  unfold State.isDraining State.drainingNumber
  cases s.epoch.draining <;> simp

theorem State.behindOldCapture_iff (s : State) (b : Block) :
    s.behindOldCapture b = true ↔
      ∃ h ∈ s.hold, h.block = b ∧ ∃ slot e sum, h.hold = .capture slot ∧
        s.entryAt slot = some e ∧ s.epoch.draining = true ∧ s.epoch.summary = some sum ∧
        sum.epoch = e.epoch := by
  unfold State.behindOldCapture
  simp only [List.any_eq_true, Bool.and_eq_true, beq_iff_eq]
  refine exists_congr fun h => and_congr_right fun _ => and_congr_right fun _ => ?_
  cases h.hold with
  | capture slot =>
    simp only [Option.any_eq_true, State.isDraining_iff]
    constructor
    · rintro ⟨e, he, hd, sum, hs, hn⟩
      exact ⟨slot, e, sum, rfl, he, hd, hs, hn⟩
    · rintro ⟨_, e, sum, hslot, he, hd, hs, hn⟩
      cases hslot
      exact ⟨e, he, hd, sum, hs, hn⟩
  | _ => simp

/-- A request that needs nothing but its block's order goes where `State.plainRoute` says. -/
theorem State.route_orderHold (s : State) (r : Request) (here : Bool) :
    s.route r (if heldFor s.hold (blockOf r.addr) then .order none false here else .released) =
      s.plainRoute r here := by
  unfold State.route State.plainRoute heldFor anyFor
  by_cases hh : (s.hold.any fun h => h.isHeld && h.block == blockOf r.addr) = true
  · rw [if_pos hh, if_pos hh, if_neg (by simp)]; rfl
  · rw [if_neg hh, if_neg hh, if_pos rfl]; rfl

/-! #### Arrivals -/

/-- The state that has taken a request: the next place is given out (R135). -/
def State.placeTaken (s : State) : State := { s with mem.nextPlace := s.mem.nextPlace + 1 }

theorem exec_writeArrival_of_ready (s : State) (i : Initiator) (a : Addr) (m : ByteMask) (d : Line)
    (g : Nat) (h : s.ready = true) :
    exec (.writeArrival i a m d g) s =
      .next (s.placeTaken.arriveWrite (s.writeRequest i a m d g)).handOver := by
  simp only [exec, execWriteArrival, h, if_true]; rfl

theorem exec_arrival_of_not_ready (s : State) (i : Initiator) (a : Addr) (m : ByteMask) (d : Line)
    (g : Nat) (h : s.ready = false) :
    exec (.writeArrival i a m d g) s = .next s ∧ exec (.readArrival i a g) s = .next s := by
  simp [exec, execWriteArrival, execReadArrival, h]

theorem exec_readArrival_of_ready (s : State) (i : Initiator) (a : Addr) (g : Nat)
    (h : s.ready = true) :
    exec (.readArrival i a g) s = .next (s.placeTaken.plainRoute
      { initiator := i, addr := a, op := .read, tag := g, place := s.mem.nextPlace } false) := by
  simp only [exec, execReadArrival, h, if_true]
  rw [← State.route_orderHold]; rfl

/-- Behind a draining epoch's capture a write is held unclassified (R58). -/
theorem State.arriveWrite_behind (s : State) (r : Request) (ht : s.epoch.dev = .tracking)
    (hb : s.behindOldCapture (blockOf r.addr) = true) :
    s.arriveWrite r = s.joinHold r (.order none true false) := by
  simp [State.arriveWrite, ht, hb]

/-- Every other write is classified, and routed by the hold it gets (R5, R50). -/
theorem State.arriveWrite_classified (s : State) (r : Request)
    (hb : s.epoch.dev ≠ .tracking ∨ s.behindOldCapture (blockOf r.addr) = false) :
    s.arriveWrite r =
      let t := s.classifyWrite r (s.hold.any HeldReq.isEntry) (entryFor s.hold (blockOf r.addr))
        (heldFor s.hold (blockOf r.addr))
      t.1.route r t.2 := by
  unfold State.arriveWrite
  dsimp only
  rw [if_neg]
  rintro ⟨ht, hc⟩
  rcases hb with hb | hb
  · exact hb ht
  · rw [hb] at hc; cases hc

theorem State.classifyWrite_not_tracked (s : State) (r : Request) (waiting ahead blocked : Bool)
    (h : s.classify r.addr r.initiator = .untracked ∨ s.classify r.addr r.initiator = .excluded) :
    s.classifyWrite r waiting ahead blocked = (s, plainHold blocked) := by
  unfold State.classifyWrite
  rcases h with h | h <;> rw [h]

theorem State.classifyWrite_tracked (s : State) (r : Request) (waiting ahead blocked : Bool)
    (c : Classification) (h : s.classify r.addr r.initiator = .tracked c) :
    s.classifyWrite r waiting ahead blocked =
      ((s.tableTake (blockOf r.addr) c waiting ahead).1,
        (s.tableTake (blockOf r.addr) c waiting ahead).2.hold c blocked) := by
  unfold State.classifyWrite
  rw [h]

/-- Settles O29: the port's readiness, an offer it does not take, and the three routes. -/
theorem requestsThatAreNotTrackedKeepTheirBlocksOrder :
    Obligations.RequestsThatAreNotTrackedKeepTheirBlocksOrder := by
  refine ⟨State.ready_iff, State.behindOldCapture_iff, exec_arrival_of_not_ready,
    exec_readArrival_of_ready, ?_, ?_⟩
  · intro s i a m d g hr hv hb
    rw [exec_writeArrival_of_ready s i a m d g hr,
      State.arriveWrite_classified s.placeTaken (s.writeRequest i a m d g) hb,
      State.classifyWrite_not_tracked s.placeTaken (s.writeRequest i a m d g) _ _ _ hv]
    dsimp only
    rw [plainHold, State.route_orderHold]; rfl
  · intro s i a m d g hr ht hb
    rw [exec_writeArrival_of_ready s i a m d g hr,
      State.arriveWrite_behind s.placeTaken (s.writeRequest i a m d g) ht hb]; rfl

/-! #### Grants do not look at what a write carries -/

/-- A request without its operation: what classification, routing and grants look at. -/
def Request.blind (r : Request) : Request := { r with op := .read }

def HeldReq.blind (h : HeldReq) : HeldReq := { h with req := h.req.blind }

/-- The state with every waiting fabric request's operation left out. -/
def State.blind (s : State) : State :=
  { s with hold := s.hold.map HeldReq.blind, mem.passQ := s.mem.passQ.map Request.blind }

theorem State.bufferWaiter_blind (s : State) :
    s.blind.bufferWaiter = s.bufferWaiter.map fun p => (p.1.blind, p.2) := by
  show (s.hold.map HeldReq.blind).findSome? _ = Option.map _ (s.hold.findSome? _)
  induction s.hold with
  | nil => rfl
  | cons h rest ih =>
    rw [List.map_cons, List.findSome?_cons, List.findSome?_cons]
    cases hh : h.hold with
    | buffer slot =>
      have hb : h.blind.hold = .buffer slot := hh
      have hat : s.blind.entryAt slot = s.entryAt slot := rfl
      have may : ∀ e, s.blind.mayTake e = s.mayTake e := fun _ => rfl
      simp only [hb, hat]
      cases s.entryAt slot with
      | none => exact ih
      | some e =>
        simp only [may]
        cases s.mayTake e with
        | true => rfl
        | false => exact ih
    | _ =>
      have hb : h.blind.hold = _ := hh
      simp only [hb]
      exact ih

theorem State.dueGrant_blind (s : State) :
    s.blind.dueGrant = s.dueGrant.map fun p => (p.1.blind, p.2) := by
  unfold State.dueGrant
  rw [State.bufferWaiter_blind]
  have free : s.blind.freeBuffer = s.freeBuffer := rfl
  have dev : s.blind.epoch.dev = s.epoch.dev := rfl
  rw [free, dev]
  split_ifs
  · cases s.bufferWaiter with
    | none => rfl
    | some p => cases s.freeBuffer <;> rfl
  · rfl

theorem State.grantBuffer_blind (s : State) (h : HeldReq) (e : Entry) (n : Nat) :
    s.blind.grantBuffer h.blind e n = (s.grantBuffer h e n).blind := by
  have holds : (s.hold.map HeldReq.blind).map
        (fun g => clearTrackingHere h.block (bufferToCapture e.slot g)) =
      (s.hold.map fun g => clearTrackingHere h.block (bufferToCapture e.slot g)).map
        HeldReq.blind := by
    rw [List.map_map, List.map_map]
    refine List.map_congr_left fun g _ => ?_
    have capture : bufferToCapture e.slot g.blind = (bufferToCapture e.slot g).blind := by
      have hold : g.blind.hold = g.hold := rfl
      unfold bufferToCapture
      rw [hold]
      split_ifs <;> rfl
    have clear : ∀ x : HeldReq,
        clearTrackingHere h.block x.blind = (clearTrackingHere h.block x).blind := by
      intro x
      have block : x.blind.block = x.block := rfl
      unfold clearTrackingHere
      rw [block]
      split_ifs
      · obtain ⟨r, y, st, tm, ra⟩ := x
        cases y <;> rfl
      · rfl
    simp only [Function.comp, capture, clear]
  unfold State.grantBuffer
  have block : h.blind.block = h.block := rfl
  rw [block]
  simp only [State.blind]
  rw [← holds]
  rfl

theorem grantLoop_blind (fuel : Nat) (s : State) :
    grantLoop fuel s.blind = (grantLoop fuel s).blind := by
  induction fuel generalizing s with
  | zero => rfl
  | succ k ih =>
    unfold grantLoop
    rw [State.dueGrant_blind]
    cases s.dueGrant with
    | none => rfl
    | some p =>
      obtain ⟨h, e, n⟩ := p
      dsimp only [Option.map]
      rw [State.grantBuffer_blind, ih]

theorem State.grantBuffers_blind (s : State) : s.blind.grantBuffers = s.grantBuffers.blind := by
  have length : s.blind.hold.length = s.hold.length := List.length_map _
  unfold State.grantBuffers
  rw [length, grantLoop_blind]

theorem State.joinHold_blind (s : State) (r : Request) (x : Hold) :
    (s.joinHold r x).blind = s.blind.joinHold r.blind x := by
  simp only [State.blind, State.joinHold, List.map_append, List.map_cons, List.map_nil]
  rfl

theorem State.joinPass_blind (s : State) (r : Request) :
    (s.joinPass r).blind = s.blind.joinPass r.blind := by
  simp [State.blind, State.joinPass]

/-- Two requests that differ in their operations alone are routed alike. -/
theorem State.route_blind_congr (s : State) {r r' : Request} (h : r.blind = r'.blind) (x : Hold) :
    (s.route r x).blind = (s.route r' x).blind := by
  have addr : r.addr = r'.addr := (congrArg Request.addr h :)
  have joinHold : ∀ y, (s.joinHold r y).blind = (s.joinHold r' y).blind := fun y => by
    rw [State.joinHold_blind, State.joinHold_blind, h]
  have joinPass : (s.joinPass r).blind = (s.joinPass r').blind := by
    rw [State.joinPass_blind, State.joinPass_blind, h]
  unfold State.route
  rw [addr]
  split_ifs
  · exact joinHold _
  · exact joinPass
  · exact joinHold _

theorem State.arriveWrite_blind_congr (s : State) {r r' : Request} (h : r.blind = r'.blind) :
    (s.arriveWrite r).blind = (s.arriveWrite r').blind := by
  have addr : r.addr = r'.addr := (congrArg Request.addr h :)
  have initiator : r.initiator = r'.initiator := (congrArg Request.initiator h :)
  have classified : ∀ waiting ahead blocked,
      s.classifyWrite r waiting ahead blocked = s.classifyWrite r' waiting ahead blocked := by
    intro waiting ahead blocked
    unfold State.classifyWrite
    rw [addr, initiator]
  unfold State.arriveWrite
  dsimp only
  rw [addr, classified]
  split_ifs
  · rw [State.joinHold_blind, State.joinHold_blind, h]
  · exact State.route_blind_congr _ h _

/-- States that differ in what their waiting requests carry stay alike at the end of an event. -/
theorem State.handOver_blind_congr {s t : State} (h : s.blind = t.blind) :
    s.handOver.table = t.handOver.table ∧ s.handOver.epoch = t.handOver.epoch ∧
      s.handOver.hold.map (·.hold) = t.handOver.hold.map (·.hold) ∧
      s.handOver.mem.passQ.length = t.handOver.mem.passQ.length := by
  have granted : s.grantBuffers.blind = t.grantBuffers.blind := by
    rw [← State.grantBuffers_blind, ← State.grantBuffers_blind, h]
  have holds : ∀ u : State, u.hold.map (·.hold) = u.blind.hold.map (·.hold) := fun u => by
    simp only [State.blind, List.map_map]; rfl
  have passQ : ∀ u : State, u.handOver.mem.passQ.length = u.blind.mem.passQ.length := fun u => by
    rw [State.handOver_eq]
    exact (List.length_map _).symm
  refine ⟨?_, ?_, ?_, ?_⟩
  · rw [State.handOver_table, State.handOver_table]
    exact (congrArg State.table granted :)
  · rw [State.handOver_epoch, State.handOver_epoch]
    exact (congrArg State.epoch h :)
  · rw [State.handOver_hold, State.handOver_hold, holds, holds t.grantBuffers, granted]
  · rw [passQ, passQ, h]

/-- Settles O27: the range and the mask decide a claim, and the operation of a write no more than
travels with it. -/
theorem windowClaimsByModeRangeAndMask : Obligations.WindowClaimsByModeRangeAndMask := by
  refine ⟨fun w a i => ⟨w.claims_iff a i, ?_, ?_, ?_, fun h => w.claims_of_highest h i⟩,
    fun s a i h => s.classify_of_unclaimed a i fun n => Window.claims_of_highest _ h i, ?_⟩
  · intro b hb
    rw [Bool.eq_iff_iff, Window.claims_iff, Window.claims_iff, hb]
  · intro hr
    rw [Window.claims_eq_false_iff]
    rintro ⟨_, hbase, hlimit, _⟩
    omega
  · intro hm
    rw [Window.claims_eq_false_iff, hm]
    simp
  · intro s t t' i a m m' d d' g ht ht'
    cases hr : s.ready with
    | false =>
      rw [(exec_arrival_of_not_ready s i a _ _ g hr).1, Outcome.next_inj] at ht ht'
      rw [← ht, ← ht']
      exact ⟨rfl, rfl, rfl, rfl⟩
    | true =>
      rw [exec_writeArrival_of_ready s i a _ _ g hr, Outcome.next_inj] at ht ht'
      rw [← ht, ← ht']
      exact State.handOver_blind_congr (State.arriveWrite_blind_congr _ rfl)

/-! #### Hits -/

/-- What a hit makes of an entry, field by field (R28 to R30, R35). -/
theorem Entry.hit_eq (x : Entry) (i : Initiator) (time : Word) :
    (x.update i time).withdrawAge =
      { x with
        count := if x.count = 255 then 255 else x.count + 1
        saturated := x.saturated || x.count == 255
        handoffs := if i = x.lastWriter ∨ x.handoffs = 15 then x.handoffs else x.handoffs + 1
        lastWriter := i
        writers := x.writers ||| (1 : InitSet) <<< i.toNat
        lastStamp := time
        cause := if x.cause = some .age then none else x.cause } := by
  have count : satInc x.count = if x.count = 255 then 255 else x.count + 1 := by
    by_cases h : x.count = 255
    · rw [h]; rfl
    · rw [if_neg h]; exact if_neg h
  have handoffs : (if i = x.lastWriter then x.handoffs else satInc x.handoffs) =
      if i = x.lastWriter ∨ x.handoffs = 15 then x.handoffs else x.handoffs + 1 := by
    unfold satInc
    by_cases hw : i = x.lastWriter
    · simp [hw]
    · simp only [hw, if_false, false_or]; rfl
  rw [Entry.withdrawAge_update, ← count, ← handoffs]; rfl

/-- A hit updates its entry and goes on as its block's order asks (R31). -/
theorem State.arriveWrite_hit (s : State) (r : Request) (c : Classification) (e : Entry)
    (hb : s.behindOldCapture (blockOf r.addr) = false)
    (hv : s.classify r.addr r.initiator = .tracked c) (hl : s.lookup (blockOf r.addr) = some e) :
    s.arriveWrite r =
      (s.hitEntry e c.initiator c.time).plainRoute r (decide (e.state = .pending)) := by
  rw [State.arriveWrite_classified s r (.inr hb), State.classifyWrite_tracked s r _ _ _ c hv,
    State.tableTake_hit s _ c _ _ e hl, ← State.route_orderHold]
  rfl

/-- Settles O31. -/
theorem trackedHitUpdatesTheEntry : Obligations.TrackedHitUpdatesTheEntry := by
  intro s i a m d g c e hr hb hv hl
  obtain ⟨_, hblock, hepoch⟩ := State.lookup_mem hl
  obtain ⟨_, hi, ht⟩ := State.classify_tracked hv
  refine ⟨⟨hblock, hepoch⟩, ?_⟩
  rw [exec_writeArrival_of_ready s i a m d g hr,
    State.arriveWrite_hit s.placeTaken (s.writeRequest i a m d g) c e hb hv hl, hi, ht]
  simp only [← Entry.hit_eq]
  rfl

end Sys2Proof.Machine

/-! ### The release walk behind a completed capture (R8, R52, R54, R56, R57, R82) -/

namespace Sys2Proof.Machine

/-! #### What a classification leaves as it was -/

/-- A classification keeps every entry's slot, block, epoch, state and buffer. -/
theorem State.classifyWrite_entry (s : State) (r : Request) (waiting ahead blocked : Bool)
    {e : Entry} (he : e ∈ s.table) :
    ∃ x ∈ (s.classifyWrite r waiting ahead blocked).1.table, x.slot = e.slot ∧
      x.block = e.block ∧ x.epoch = e.epoch ∧ x.state = e.state ∧ x.poolBuf = e.poolBuf := by
  have same : ∃ x ∈ s.table, x.slot = e.slot ∧ x.block = e.block ∧ x.epoch = e.epoch ∧
      x.state = e.state ∧ x.poolBuf = e.poolBuf := ⟨e, he, rfl, rfl, rfl, rfl, rfl⟩
  unfold State.classifyWrite
  split
  · exact same
  · exact same
  · unfold State.tableTake
    split
    · refine ⟨_, List.mem_map_of_mem he, ?_⟩
      simp only [Entry.hit_eq]
      split_ifs <;> exact ⟨rfl, rfl, rfl, rfl, rfl⟩
    · split_ifs
      · exact same
      · exact same
      · split
        · exact ⟨e, List.mem_append_left _ he, rfl, rfl, rfl, rfl, rfl⟩
        · unfold State.victimChoice
          split
          · exact same
          · refine ⟨_, List.mem_map_of_mem he, ?_⟩
            split_ifs <;> exact ⟨rfl, rfl, rfl, rfl, rfl⟩

/-- No classification makes a request wait for a capture (R55). -/
theorem State.classifyWrite_ne_capture (s : State) (r : Request) (waiting ahead blocked : Bool)
    (n : Nat) : (s.classifyWrite r waiting ahead blocked).2 ≠ .capture n := by
  have plain : plainHold blocked ≠ .capture n := by cases blocked <;> simp [plainHold]
  unfold State.classifyWrite
  split
  · exact plain
  · exact plain
  · dsimp only
    rename_i c _
    cases (s.tableTake (blockOf r.addr) c waiting ahead).2 <;> cases blocked <;>
      simp [Disposition.hold]

/-! #### The walk -/

/-- What every classification keeps, the walk keeps. -/
theorem releaseWalk_keeps {P : State → Prop}
    (keeps : ∀ s r waiting ahead blocked, P s → P (s.classifyWrite r waiting ahead blocked).1)
    (b : Block) (slot : Nat) (q done : List HeldReq) (blocked : Bool) (s : State) (h : P s) :
    P (releaseWalk b slot q done blocked s).1 := by
  induction q generalizing done blocked s with
  | nil => exact h
  | cons g rest ih =>
    unfold releaseWalk
    by_cases hb : g.block = b
    · rw [if_pos hb]
      cases g.hold with
      | capture n => dsimp only; split_ifs <;> exact ih _ _ _ h
      | order d mark here =>
        cases mark with
        | false => exact ih _ _ _ h
        | true => exact ih _ _ _ (keeps _ _ _ _ _ h)
      | _ => exact ih _ _ _ h
    · rw [if_neg hb]; exact ih _ _ _ h

/-- What the walk over the block `b` may make of one request: nothing of another block's, and no
wait for the capture in `slot`. -/
def WalkedTo (b : Block) (slot : Nat) (h h' : HeldReq) : Prop :=
  (h.block ≠ b → h' = h) ∧ (h.block = b → h'.block = b ∧ h'.hold ≠ .capture slot)

/-- The walk takes each request to one it may become, in its place. -/
theorem releaseWalk_walkedTo (b : Block) (slot : Nat) (q done : List HeldReq) (blocked : Bool)
    (s : State) : ∃ q', (releaseWalk b slot q done blocked s).2 = done ++ q' ∧
      List.Forall₂ (WalkedTo b slot) q q' := by
  induction q generalizing done blocked s with
  | nil => exact ⟨[], by simp [releaseWalk], .nil⟩
  | cons h rest ih =>
    have goOn : ∀ (h' : HeldReq) (bl : Bool) (t : State), WalkedTo b slot h h' →
        ∃ q', (releaseWalk b slot rest (done ++ [h']) bl t).2 = done ++ q' ∧
          List.Forall₂ (WalkedTo b slot) (h :: rest) q' := by
      intro h' bl t hw
      obtain ⟨q', e, hq⟩ := ih (done ++ [h']) bl t
      exact ⟨h' :: q', by rw [e, List.append_assoc]; rfl, .cons hw hq⟩
    unfold releaseWalk
    by_cases hb : h.block = b
    · have stays : h.hold ≠ .capture slot → WalkedTo b slot h h := fun hn =>
        ⟨fun _ => rfl, fun _ => ⟨hb, hn⟩⟩
      have takes : ∀ x, x ≠ .capture slot → WalkedTo b slot h (h.setHold x) := fun x hx =>
        ⟨fun hn => absurd hb hn, fun _ => ⟨hb, hx⟩⟩
      rw [if_pos hb]
      cases hh : h.hold with
      | released => exact goOn _ _ _ (stays (by simp [hh]))
      | entry c => exact goOn _ _ _ (stays (by simp [hh]))
      | buffer n => exact goOn _ _ _ (stays (by simp [hh]))
      | capture n =>
        dsimp only
        split_ifs with hn
        · exact goOn _ _ _ (takes .released (by simp))
        · exact goOn _ _ _ (stays (by simpa [hh] using hn))
      | order d mark here =>
        cases mark with
        | false =>
          cases blocked with
          | false => exact goOn _ _ _ (takes .released (by simp))
          | true => exact goOn _ _ _ (stays (by simp [hh]))
        | true => exact goOn _ _ _ (takes _ (State.classifyWrite_ne_capture _ _ _ _ _ _))
    · rw [if_neg hb]
      exact goOn _ _ _ ⟨fun _ => rfl, fun hc => absurd hc hb⟩

theorem WalkedTo.keeps_others {b : Block} {slot : Nat} {q q' : List HeldReq}
    (hw : List.Forall₂ (WalkedTo b slot) q q') {h : HeldReq} (hm : h ∈ q) (hb : h.block ≠ b) :
    h ∈ q' := by
  induction hw with
  | nil => cases hm
  | cons hx _ ih =>
    rcases List.mem_cons.1 hm with rfl | hm
    · rw [hx.1 hb]; exact List.mem_cons_self
    · exact List.mem_cons_of_mem _ (ih hm)

theorem WalkedTo.ends_wait {b : Block} {slot : Nat} {q q' : List HeldReq}
    (hw : List.Forall₂ (WalkedTo b slot) q q') {h : HeldReq} (hm : h ∈ q') (hb : h.block = b) :
    h.hold ≠ .capture slot := by
  induction hw with
  | nil => cases hm
  | @cons x x' _ _ hx _ ih =>
    rcases List.mem_cons.1 hm with rfl | hm
    · by_cases hxb : x.block = b
      · exact (hx.2 hxb).2
      · exact absurd (hx.1 hxb ▸ hb) hxb
    · exact ih hm

/-- Without unclassified writes the walk releases every request of the block. -/
theorem releaseWalk_releases (b : Block) (slot : Nat) (q done : List HeldReq) (s : State)
    (h : ∀ g ∈ q, g.block = b → g.hold = .released ∨ g.hold = .capture slot ∨
      ∃ d here, g.hold = .order d false here) :
    releaseWalk b slot q done false s =
      (s, done ++ q.map fun g => if g.block = b then { g with hold := .released } else g) := by
  induction q generalizing done with
  | nil => simp [releaseWalk]
  | cons g rest ih =>
    have goOn : ∀ g', g' = (if g.block = b then { g with hold := .released } else g) →
        releaseWalk b slot rest (done ++ [g']) false s = (s, done ++ (g :: rest).map fun g =>
          if g.block = b then { g with hold := .released } else g) := by
      rintro _ rfl
      rw [ih _ fun x hx => h x (List.mem_cons_of_mem _ hx), List.append_assoc]
      rfl
    unfold releaseWalk
    by_cases hb : g.block = b
    · rw [if_pos hb] at goOn ⊢
      rcases h g List.mem_cons_self hb with hh | hh | ⟨d, here, hh⟩ <;> rw [hh]
      · exact goOn g (by rw [← hh])
      · dsimp only
        rw [if_pos rfl]
        exact goOn _ rfl
      · exact goOn _ rfl
    · rw [if_neg hb] at goOn ⊢
      exact goOn g rfl

/-! #### One request of the walk -/

theorem releaseWalk_cons_passes (b : Block) (slot : Nat) (h : HeldReq) (rest done : List HeldReq)
    (blocked : Bool) (s : State) (hp : h.block ≠ b ∨ h.hold = .released) :
    releaseWalk b slot (h :: rest) done blocked s =
      releaseWalk b slot rest (done ++ [h]) blocked s := by
  conv_lhs => unfold releaseWalk
  by_cases hb : h.block = b
  · rw [if_pos hb, hp.resolve_left (not_not_intro hb)]
  · rw [if_neg hb]

theorem releaseWalk_cons_protected (b : Block) (slot : Nat) (h : HeldReq)
    (rest done : List HeldReq) (blocked : Bool) (s : State) (hb : h.block = b)
    (hh : h.hold = .capture slot) :
    releaseWalk b slot (h :: rest) done blocked s =
      releaseWalk b slot rest (done ++ [{ h with hold := .released }]) blocked s := by
  conv_lhs => unfold releaseWalk
  rw [if_pos hb, hh]
  dsimp only
  rw [if_pos rfl]
  rfl

theorem releaseWalk_cons_waits (b : Block) (slot : Nat) (h : HeldReq)
    (rest done : List HeldReq) (blocked : Bool) (s : State) (hb : h.block = b)
    (hw : h.isWaiter = true ∨ ∃ n, n ≠ slot ∧ h.hold = .capture n) :
    releaseWalk b slot (h :: rest) done blocked s =
      releaseWalk b slot rest (done ++ [h]) true s := by
  conv_lhs => unfold releaseWalk
  rw [if_pos hb]
  cases hh : h.hold with
  | entry c => rfl
  | buffer n => rfl
  | capture n =>
    dsimp only
    rw [if_neg]
    rintro rfl
    simp [HeldReq.isWaiter, hh] at hw
  | _ => simp [HeldReq.isWaiter, hh] at hw

theorem releaseWalk_cons_order (b : Block) (slot : Nat) (h : HeldReq)
    (rest done : List HeldReq) (blocked : Bool) (s : State) (d : Option Deferred) (here : Bool)
    (hb : h.block = b) (hh : h.hold = .order d false here) :
    releaseWalk b slot (h :: rest) done blocked s =
      releaseWalk b slot rest
        (done ++ [if blocked then h else { h with hold := .released }]) blocked s := by
  conv_lhs => unfold releaseWalk
  rw [if_pos hb, hh]
  rfl

theorem releaseWalk_cons_marked (b : Block) (slot : Nat) (h : HeldReq)
    (rest done : List HeldReq) (blocked : Bool) (s : State) (d : Option Deferred) (here : Bool)
    (hb : h.block = b) (hh : h.hold = .order d true here) :
    let t := s.classifyWrite h.req ((done ++ rest).any HeldReq.isEntry) (entryFor done b) blocked
    releaseWalk b slot (h :: rest) done blocked s =
      releaseWalk b slot rest (done ++ [{ h with hold := t.2 }])
        (blocked || decide (t.2 ≠ .released)) t.1 := by
  intro t
  conv_lhs => unfold releaseWalk
  rw [if_pos hb, hh]
  rfl

/-! #### The data of a capture -/

theorem exec_captureReadData_of_awaits (s : State) (tag slot buffer line key : Nat) (addr : Addr)
    (op : Op) (data : Line)
    (h : s.awaits tag { role := .captureRead slot buffer line, addr, op, key }) :
    exec (.captureReadData tag data) s =
      .next ((s.endOwn tag).captureLine slot buffer line data).handOver := by
  simp only [exec, execCaptureReadData]
  rw [State.ownAnswer_of_awaits s tag _ _ _ h rfl]

/-- The state with the data of a line placed and its request ended (R56). -/
def State.lineTaken (s : State) (tag n : Nat) (data : Line) : State :=
  { s with mem.issuedOwn := s.ownLeft tag, pool := poolWrite n data s.pool }

/-- The state with the entry in the slot IMAGED and on the Imaged List (R57, R82). -/
def State.slotImaged (s : State) (slot : Nat) : State :=
  { s with
    table := s.table.map fun x =>
      if x.slot = slot then { x with state := .imaged, linesIn := 4 } else x
    copyOut.imaged := s.copyOut.imaged ++ [slot] }

/-- Before the last line only the entry's line count changes. -/
theorem State.captureLine_counts (s : State) (tag slot buffer line : Nat) (data : Line) (e : Entry)
    (he : s.entryAt slot = some e) (hs : e.state = .capturing) (hl : e.linesIn + 1 < 4) :
    (s.endOwn tag).captureLine slot buffer line data =
      (s.lineTaken tag (4 * buffer + line) data).modifyEntry slot
        fun x => { x with linesIn := x.linesIn + 1 } := by
  have found : ∀ p, State.entryAt { s.endOwn tag with pool := p } slot = some e := fun _ => he
  unfold State.captureLine
  dsimp only
  rw [found]
  dsimp only
  rw [if_pos hs, if_pos hl]
  rfl

theorem State.captureLine_completes (s : State) (tag slot buffer line : Nat) (data : Line)
    (e : Entry) (he : s.entryAt slot = some e) (hs : e.state = .capturing) (hl : e.linesIn = 3) :
    (s.endOwn tag).captureLine slot buffer line data =
      (s.lineTaken tag (4 * buffer + line) data).completeCapture e := by
  have found : ∀ p, State.entryAt { s.endOwn tag with pool := p } slot = some e := fun _ => he
  unfold State.captureLine
  dsimp only
  rw [found]
  dsimp only
  rw [if_pos hs, if_neg (by omega)]
  rfl

theorem State.setHold_eq (s : State) (q : List HeldReq) :
    s.setHold q = { s with
      hold := q
      alert := { s.alert with
        peakHold := peakWith s.alert.peakHold s.hold q
        epochHold := peakWith s.alert.epochHold s.hold q } } := by
  unfold State.setHold
  rw [Alert.noteHold_foldl]
  rfl

/-- With the last line the walk goes over the queue, and the hold times that end are reported. -/
theorem State.completeCapture_eq (s : State) (e : Entry) :
    s.completeCapture e =
      let r := releaseWalk e.block e.slot s.hold [] false (s.slotImaged e.slot)
      { r.1 with
        hold := r.2
        alert := { s.alert with
          peakHold := peakWith s.alert.peakHold s.hold r.2
          epochHold := peakWith s.alert.epochHold s.hold r.2 } } := by
  have walked := releaseWalk_eq e.block e.slot s.hold [] false (s.slotImaged e.slot)
  show (releaseWalk e.block e.slot s.hold [] false (s.slotImaged e.slot)).1.setHold _ = _
  have hold : (releaseWalk e.block e.slot s.hold [] false (s.slotImaged e.slot)).1.hold = s.hold :=
    by rw [walked]; rfl
  have alert : (releaseWalk e.block e.slot s.hold [] false (s.slotImaged e.slot)).1.alert =
    s.alert := by rw [walked]; rfl
  rw [State.setHold_eq, hold, alert]
  rfl

/-- The last line: the whole next state is the walk's. -/
theorem exec_captureReadData_last (s : State) (tag slot buffer line key : Nat) (addr : Addr)
    (op : Op) (data : Line) (e : Entry)
    (h : s.awaits tag { role := .captureRead slot buffer line, addr, op, key })
    (he : s.entryAt slot = some e) (hs : e.state = .capturing) (hl : e.linesIn = 3) :
    let r := releaseWalk e.block slot s.hold [] false
      ((s.lineTaken tag (4 * buffer + line) data).slotImaged slot)
    exec (.captureReadData tag data) s = .next (State.handOver { r.1 with
      hold := r.2
      alert := { s.alert with
        peakHold := peakWith s.alert.peakHold s.hold r.2
        epochHold := peakWith s.alert.epochHold s.hold r.2 } }) := by
  rw [exec_captureReadData_of_awaits s tag slot buffer line key addr op data h,
    State.captureLine_completes s tag slot buffer line data e he hs hl,
    State.completeCapture_eq, (State.entryAt_mem he).2]
  rfl

/-- Settles O43. -/
theorem captureDataFillsTheBufferAndTheLastLineReleasesTheBlock :
    Obligations.CaptureDataFillsTheBufferAndTheLastLineReleasesTheBlock := by
  refine ⟨?_, fun _ _ _ _ _ => rfl, ?_⟩
  · intro s tag slot buffer line key addr op data e h he hs
    have last := exec_captureReadData_last s tag slot buffer line key addr op data e h he hs
    obtain ⟨hmem, hslot⟩ := State.entryAt_mem he
    refine ⟨?_, ?_, ?_, last⟩
    · intro hl
      rw [exec_captureReadData_of_awaits s tag slot buffer line key addr op data h,
        State.captureLine_counts s tag slot buffer line data e he hs hl]
      rfl
    · intro hl plain
      refine ⟨_, last hl, ?_, ?_⟩
      · rw [releaseWalk_releases _ _ _ _ _ plain]; rfl
      · rfl
    · intro hl _
      refine ⟨_, last hl, ?_⟩
      generalize hs' : (s.lineTaken tag (4 * buffer + line) data).slotImaged slot = s'
      obtain ⟨q', hq, hw⟩ := releaseWalk_walkedTo e.block slot s.hold [] false s'
      have walked := releaseWalk_eq e.block slot s.hold [] false s'
      refine ⟨?_, ?_, ?_, ?_, ?_, ?_⟩
      · refine releaseWalk_keeps (P := fun t => ∃ x ∈ t.table, x.slot = slot ∧ x.block = e.block ∧
          x.epoch = e.epoch ∧ x.state = .imaged ∧ x.poolBuf = e.poolBuf) ?_ _ _ _ _ _ _ ?_
        · rintro t r waiting ahead blocked ⟨x, hx, rfl, h2, h3, h4, h5⟩
          obtain ⟨y, hy, k1, k2, k3, k4, k5⟩ :=
            t.classifyWrite_entry r waiting ahead blocked hx
          exact ⟨y, hy, k1, k2.trans h2, k3.trans h3, k4.trans h4, k5.trans h5⟩
        · rw [← hs']
          refine ⟨_, List.mem_map_of_mem hmem, ?_⟩
          rw [if_pos hslot]
          exact ⟨hslot, rfl, rfl, rfl, rfl⟩
      · show (releaseWalk _ _ _ _ _ _).1.copyOut.imaged = _
        rw [walked, ← hs']; rfl
      · show (releaseWalk _ _ _ _ _ _).1.pool = _
        rw [walked, ← hs']; rfl
      · exact releaseWalk_req _ _ _ _ _ _
      · intro g hg hb
        exact WalkedTo.ends_wait hw (by rw [List.nil_append] at hq; exact hq ▸ hg) hb
      · intro g hg hb
        show g ∈ (releaseWalk _ _ _ _ _ _).2
        rw [hq]
        exact WalkedTo.keeps_others hw hg hb
  · intro b slot h rest done blocked s
    refine ⟨releaseWalk_cons_passes b slot h rest done blocked s,
      releaseWalk_cons_protected b slot h rest done blocked s,
      releaseWalk_cons_waits b slot h rest done blocked s,
      releaseWalk_cons_order b slot h rest done blocked s, ?_⟩
    intro d here hb hh
    exact ⟨_, _, s.classifyWrite_retakes h.req _ _ blocked,
      releaseWalk_cons_marked b slot h rest done blocked s d here hb hh⟩

end Sys2Proof.Machine

/-! ### STOP (R15, R45, R67, R74, R89, R109, R125, R128, R145, R161) -/

namespace Sys2Proof.Machine

/-- A command's register write: what it does, and the port behind it. -/
theorem State.onPort_command (s : State) (f : State → State) (h : s.port.resetAsserted = false) :
    (s.onPort fun s => (f s).afterWrite 0x00) = .next { f s with
      port := (f s).port.written 0x00
      out.bus := (f s).out.bus ++ [.ack] } := by
  rw [State.onPort_of_released s _ h, State.afterWrite_eq]

theorem State.occupancy_of_empty {s : State} (h : s.table = []) : s.occupancy = 0 := by
  rw [State.occupancy, h]; rfl

theorem State.poolUse_of_empty {s : State} (h : s.table = []) : s.poolUse = 0 := by
  rw [State.poolUse, h]; rfl

/-- With no entry present the changes handed on raise no peak. -/
theorem State.handChanges_of_empty (s : State) (h : s.table = []) : ∃ flags drain,
    s.handChanges = { s with
      alert := { s.alert with flags := flags, occHanded := 0, poolHanded := 0 }
      mem.drainMode := drain } := by
  have occ := State.occupancy_of_empty h
  have pool := State.poolUse_of_empty h
  obtain ⟨o1, o2, o3, p1, p2, p3, _, e⟩ := s.handChanges_spec
  have peakOcc : s.handChanges.alert.peakOcc = s.alert.peakOcc ∧
      s.handChanges.alert.epochPeakOcc = s.alert.epochPeakOcc := by
    by_cases hc : s.occupancy = s.alert.occHanded
    · exact (o1 hc).2
    · simpa [occ] using (o2 hc).2
  have peakPool : s.handChanges.alert.peakPool = s.alert.peakPool ∧
      s.handChanges.alert.epochPeakPool = s.alert.epochPeakPool := by
    by_cases hc : s.poolUse = s.alert.poolHanded
    · exact ⟨(p1 hc).2.1, (p1 hc).2.2.1⟩
    · simpa [pool] using And.intro (p2 hc).2.1 (p2 hc).2.2.1
  rw [peakOcc.1, peakOcc.2, peakPool.1, peakPool.2, o3, p3, occ, pool] at e
  exact ⟨_, _, e⟩

/-- A pool use of 0 ends drain mode, and DRAIN_HIGH is at least 1 (R140). -/
theorem drainModeNext_zero (mode : Bool) (high low : Nat) (h : 1 ≤ high) :
    drainModeNext mode 0 high low = false := by
  have above : ¬high ≤ 0 := by omega
  cases mode with
  | false => simp [drainModeNext, above]
  | true => simp [drainModeNext]; omega

theorem State.evalDrainMode_of_empty (s : State) (h : s.table = [])
    (hd : 1 ≤ s.imm.drainHigh.toNat) : s.evalDrainMode = { s with mem.drainMode := false } := by
  unfold State.evalDrainMode
  rw [State.poolUse_of_empty h, drainModeNext_zero _ _ _ hd]

/-- STOP on the engines keeps every alert: the hold times that end change no peak (log 24). -/
theorem State.stopBlocks_eq (s : State) :
    s.stopBlocks = { s with
      active.windows := s.active.windows.allOff
      table := []
      hold := s.hold.map HeldReq.release
      copyOut := CopyOut.reset
      retire := RetireEngine.reset
      journal := Journal.reset
      epoch.dev := .idle
      epoch.pendingFirst := none
      epoch.draining := false
      epoch.summary := none
      epoch.imagesCurrent := 0
      epoch.imagesDraining := 0
      mem.classC := []
      mem.classB := []
      mem.issuedOwn := s.mem.issuedOwn.map fun i => { i with abandoned := true }
      mem.runCount := 0 } := by
  unfold State.stopBlocks State.releaseAll
  rw [State.setHold_eq]
  rfl

/-- STOP, whole. -/
theorem State.takeStop_eq (s : State) (hd : 1 ≤ s.imm.drainHigh.toNat) :
    s.takeStop = { s.stopBlocks with
      mem := { s.stopBlocks.mem with drainMode := false }
      alert := { s.stopBlocks.alert with flags := 0, occHanded := 0, poolHanded := 0 }
      cmd := { s.cmd with busy := false, reject := false, last := .stop } } := by
  obtain ⟨flags, drain, e⟩ := s.stopBlocks.handChanges_of_empty rfl
  have empty : s.stopBlocks.handChanges.table = [] := State.handChanges_table _
  have high : 1 ≤ s.stopBlocks.handChanges.imm.drainHigh.toNat := by rw [e]; exact hd
  unfold State.takeStop
  rw [State.evalDrainMode_of_empty _ empty high, e]
  rfl

/-- Settles O26. -/
theorem stopEndsEveryBlocksWork : Obligations.StopEndsEveryBlocksWork := by
  intro s h settings
  obtain ⟨_, _, hd, _⟩ := settings
  refine ⟨_, s.onPort_command State.takeStop h, ?_⟩
  rw [State.takeStop_eq s hd, State.stopBlocks_eq]
  exact ⟨Windows.get_allOff _, rfl, rfl, rfl⟩

end Sys2Proof.Machine

/-! ### What the cuts share: hold times that end, grants, and what is handed over (R54, R72, R126,
R165, R169) -/

namespace Sys2Proof.Machine

/-! #### Hold times that end -/

/-- Which hold times end is decided by which requests are still HELD. -/
theorem endedHolds_congr (old : List HeldReq) {q q' : List HeldReq}
    (h : q.map HeldReq.isHeld = q'.map HeldReq.isHeld) : endedHolds old q = endedHolds old q' := by
  induction old generalizing q q' with
  | nil => cases q <;> cases q' <;> rfl
  | cons a old ih =>
    cases q with
    | nil =>
      cases q' with
      | nil => rfl
      | cons b' q' => simp at h
    | cons b q =>
      cases q' with
      | nil => simp at h
      | cons b' q' =>
        simp only [List.map_cons, List.cons.injEq] at h
        obtain ⟨hb, hq⟩ := h
        simp only [endedHolds, hb, ih hq]

/-- Grants end no hold and move no request. -/
theorem State.grantBuffers_isHeld (s : State) :
    s.grantBuffers.hold.map HeldReq.isHeld = s.hold.map HeldReq.isHeld := by
  have h := congrArg (List.map fun p : Request × Bool × Bool × Word => p.2.1) s.grantBuffers_hold
  rwa [List.map_map, List.map_map] at h

theorem State.grantBuffers_req (s : State) :
    s.grantBuffers.hold.map (·.req) = s.hold.map (·.req) := by
  have h := congrArg (List.map fun p : Request × Bool × Bool × Word => p.1) s.grantBuffers_hold
  rwa [List.map_map, List.map_map] at h

theorem peakWith_grantBuffers (peak : Word) (old : List HeldReq) (s : State) :
    peakWith peak old s.grantBuffers.hold = peakWith peak old s.hold := by
  rw [peakWith, peakWith, endedHolds_congr old s.grantBuffers_isHeld]

/-! #### Grants look at the table, the holds and the active settings -/

theorem State.dueGrant_eq_none_of_no_buffer (s : State)
    (h : ∀ g ∈ s.hold, g.bufferSlot = none) : s.dueGrant = none := by
  cases hd : s.dueGrant with
  | none => rfl
  | some p =>
    obtain ⟨g, e, n⟩ := p
    obtain ⟨_, ⟨slot, hg, hh, _⟩, _⟩ := State.dueGrant_spec hd
    have := h g hg
    rw [HeldReq.bufferSlot, hh] at this
    cases this

theorem State.dueGrant_eq_none_of_not_tracking (s : State) (h : s.epoch.dev ≠ .tracking) :
    s.dueGrant = none := by
  unfold State.dueGrant
  rw [if_neg h]

theorem grantLoop_withAlert (fuel : Nat) (s : State) (a : Alert) (c : EpochCtl)
    (hc : c.dev = s.epoch.dev) :
    grantLoop fuel { s with alert := a, epoch := c } =
      { grantLoop fuel s with alert := a, epoch := c } := by
  induction fuel generalizing s with
  | zero => rfl
  | succ k ih =>
    have due : State.dueGrant { s with alert := a, epoch := c } = s.dueGrant := by
      unfold State.dueGrant
      dsimp only
      rw [hc]
      rfl
    unfold grantLoop
    rw [due]
    cases s.dueGrant with
    | none => rfl
    | some p =>
      obtain ⟨h, e, n⟩ := p
      exact ih (s.grantBuffer h e n) hc

/-- Grants look neither at the alerts nor at the Epoch Controller's counts. -/
theorem State.grantBuffers_withAlert (s : State) (a : Alert) (c : EpochCtl)
    (hc : c.dev = s.epoch.dev) :
    State.grantBuffers { s with alert := a, epoch := c } =
      { s.grantBuffers with alert := a, epoch := c } :=
  grantLoop_withAlert _ s a c hc

/-! #### What is handed over -/

/-- What the handing over of changes starts from. -/
def State.handedView (s : State) : Immediate × Bool × BitVec 11 × Nat × Nat × Nat × Nat × Word ×
    Word × Half :=
  (s.imm, s.mem.drainMode, s.alert.flags, s.alert.occHanded, s.alert.peakOcc, s.alert.poolHanded,
    s.alert.peakPool, s.alert.recordsWritten, s.alert.imagesWritten, s.alert.overflows)

theorem State.handsOver_of_view {s s' t : State} (h : s.HandsOver t)
    (e : s'.handedView = s.handedView) : s'.HandsOver t := by
  simp only [State.handedView, Prod.mk.injEq] at e
  obtain ⟨e1, e2, e3, e4, e5, e6, e7, e8, e9, e10⟩ := e
  have flags : ∀ f, s'.alert.isSet f = s.alert.isSet f := fun f => by
    unfold Alert.isSet
    rw [e3]
  unfold State.HandsOver
  simp only [flags, e1, e2, e4, e5, e6, e7, e8, e9, e10]
  exact h

/-- The target's table, alerts and drain mode are all it is asked for. -/
theorem State.handsOver_of_target {s t t' : State} (h : s.HandsOver t) (ht : t'.table = t.table)
    (ha : t'.alert = t.alert) (hd : t'.mem.drainMode = t.mem.drainMode) : s.HandsOver t' := by
  unfold State.HandsOver State.occupancy State.poolUse at h ⊢
  rw [ht, ha, hd]
  exact h

theorem State.occupancy_handChanges (s : State) : s.handChanges.occupancy = s.occupancy := by
  rw [State.occupancy, State.handChanges_table]; rfl

theorem State.poolUse_handChanges (s : State) : s.handChanges.poolUse = s.poolUse := by
  rw [State.poolUse, State.handChanges_table]; rfl

theorem State.handsOver_handChanges (s : State) : s.HandsOver s.handChanges := by
  obtain ⟨o1, o2, o3, p1, p2, p3, flags, e⟩ := s.handChanges_spec
  unfold State.HandsOver
  rw [State.occupancy_handChanges, State.poolUse_handChanges]
  refine ⟨fun h => ⟨(o1 h).1, (o1 h).2.1⟩, fun h => ⟨(o2 h).1, (o2 h).2.1⟩,
    fun h => ⟨(p1 h).1, (p1 h).2.1, (p1 h).2.2.2⟩, fun h => ⟨(p2 h).1, (p2 h).2.1, (p2 h).2.2.2⟩,
    o3, p3, flags, ?_, ?_, ?_⟩ <;> rw [e]

/-- The handing over of changes touches no hold-time peak. -/
theorem State.handChanges_holdPeaks (s : State) :
    s.handChanges.alert.peakHold = s.alert.peakHold ∧
      s.handChanges.alert.epochHold = s.alert.epochHold := by
  obtain ⟨_, _, _, _, _, _, _, e⟩ := s.handChanges_spec
  constructor <;> rw [e]

/-- The per-epoch peaks of occupancy and pool use take a changed value (R126). -/
theorem State.handChanges_epochPeaks (s : State) :
    s.handChanges.alert.epochPeakOcc = (if s.occupancy = s.alert.occHanded
      then s.alert.epochPeakOcc else max s.alert.epochPeakOcc s.occupancy) ∧
    s.handChanges.alert.epochPeakPool = (if s.poolUse = s.alert.poolHanded
      then s.alert.epochPeakPool else max s.alert.epochPeakPool s.poolUse) := by
  obtain ⟨o1, o2, _, p1, p2, _⟩ := s.handChanges_spec
  constructor
  · split_ifs with h
    · exact (o1 h).2.2
    · exact (o2 h).2.2
  · split_ifs with h
    · exact (p1 h).2.2.1
    · exact (p2 h).2.2.1

/-! #### The end of a cut that opens an epoch -/

/-- The state behind the grants of a cut, with the per-epoch peaks restarted (R126). -/
theorem State.restarted_eq (s : State) :
    s.grantBuffers.restartPeaks = { s with
      table := s.grantBuffers.table
      hold := s.grantBuffers.hold
      alert := { s.alert with
        epochPeakOcc := s.grantBuffers.occupancy
        epochPeakPool := s.grantBuffers.poolUse
        epochHold := 0 }
      mem.classC := s.grantBuffers.mem.classC } := by
  have granted := s.grantBuffers_eq
  unfold State.restartPeaks
  generalize s.grantBuffers.occupancy = occ
  generalize s.grantBuffers.poolUse = pool
  rw [granted]

/-- The end of the cut: the grants it made due, the restart of the per-epoch peaks, and what is
handed over (R72, R116, R126). -/
theorem State.endCut_spec (s : State) : ∃ alert drain,
    s.endCut = { s with
      table := s.grantBuffers.table
      hold := s.grantBuffers.hold
      alert := alert
      mem.classC := s.grantBuffers.mem.classC
      mem.drainMode := drain } ∧
    alert.peakHold = s.alert.peakHold ∧ alert.epochHold = 0 ∧
    alert.epochPeakOcc = s.endCut.occupancy ∧ alert.epochPeakPool = s.endCut.poolUse ∧
    s.HandsOver s.endCut := by
  have handed : s.endCut = s.grantBuffers.restartPeaks.handChanges := rfl
  have startOcc : s.grantBuffers.restartPeaks.alert.epochPeakOcc =
    s.grantBuffers.restartPeaks.occupancy := rfl
  have startPool : s.grantBuffers.restartPeaks.alert.epochPeakPool =
    s.grantBuffers.restartPeaks.poolUse := rfl
  have restarted := s.restarted_eq
  generalize s.grantBuffers.restartPeaks = u at handed startOcc startPool restarted
  obtain ⟨peakOcc, peakPool⟩ := u.handChanges_epochPeaks
  obtain ⟨peakHold, epochHold⟩ := u.handChanges_holdPeaks
  rw [startOcc, max_self, ite_self] at peakOcc
  rw [startPool, max_self, ite_self] at peakPool
  have told := u.handsOver_handChanges
  have occ := u.occupancy_handChanges
  have pool := u.poolUse_handChanges
  have frame := u.handChanges_eq
  rw [handed]
  refine ⟨u.handChanges.alert, u.handChanges.mem.drainMode, ?_, ?_, ?_, ?_, ?_, ?_⟩
  · generalize u.handChanges.alert = alert at frame ⊢
    generalize u.handChanges.mem.drainMode = drain at frame ⊢
    rw [frame, restarted]
  · rw [peakHold, restarted]
  · rw [epochHold, restarted]
  · rw [peakOcc, occ]
  · rw [peakPool, pool]
  · exact State.handsOver_of_view told (by rw [restarted]; rfl)

end Sys2Proof.Machine

/-! ### OPEN (R12, R54, R113, R114, R116, R118, R119, R126, R156) -/

namespace Sys2Proof.Machine

/-! #### The walk over the waiters -/

/-- What every classification keeps, the walk of R116 keeps. -/
theorem reclassify_keeps {P : State → Prop}
    (keeps : ∀ s r waiting ahead blocked, P s → P (s.classifyWrite r waiting ahead blocked).1)
    (q done : List HeldReq) (s : State) (h : P s) : P (reclassify q done s).1 := by
  induction q generalizing done s with
  | nil => exact h
  | cons g rest ih =>
    unfold reclassify
    split_ifs
    · exact ih _ _ (keeps _ _ _ _ _ h)
    · exact ih _ _ h

/-- In an epoch that has not overflowed no write is counted as untracked (R63). -/
theorem State.classifyWrite_epoch (s : State) (r : Request) (waiting ahead blocked : Bool)
    (ho : s.epoch.overflow = false) :
    (s.classifyWrite r waiting ahead blocked).1.epoch = s.epoch := by
  unfold State.classifyWrite
  split
  · rfl
  · rfl
  · unfold State.tableTake
    split
    · rfl
    · rw [if_neg (by simp [ho])]
      split_ifs
      · rfl
      · split
        · rfl
        · unfold State.victimChoice
          split <;> rfl

theorem reclassify_epoch (q done : List HeldReq) (s : State) (ho : s.epoch.overflow = false) :
    (reclassify q done s).1.epoch = s.epoch := by
  refine reclassify_keeps (P := fun t => t.epoch = s.epoch) ?_ q done s rfl
  intro t r waiting ahead blocked ht
  rw [State.classifyWrite_epoch _ _ _ _ _ (ht ▸ ho), ht]

/-- In an epoch that has just begun the walk touches the table and the Retire List alone. -/
theorem reclassify_frame (q done : List HeldReq) (s : State) (ho : s.epoch.overflow = false) :
    (reclassify q done s).1 = { s with
      table := (reclassify q done s).1.table
      retire := { s.retire with list := (reclassify q done s).1.retire.list } } := by
  have walked := reclassify_eq q done s
  have count : (reclassify q done s).1.epoch.untracked = s.epoch.untracked := by
    rw [reclassify_epoch q done s ho]
  rw [count] at walked
  exact walked

/-- With no waiter the walk only drops what the cut drops (R65). -/
theorem reclassify_of_no_waiter (q done : List HeldReq) (s : State)
    (h : ∀ g ∈ q, g.isWaiter = false) :
    reclassify q done s = (s, done ++ q.map dropDeferred) := by
  induction q generalizing done with
  | nil => simp [reclassify]
  | cons g rest ih =>
    unfold reclassify
    rw [if_neg (by simp [h g List.mem_cons_self]),
      ih _ fun x hx => h x (List.mem_cons_of_mem _ hx), List.append_assoc]
    rfl

/-- The queue behind step 4 of a cut that opens an epoch. -/
def State.reclassifiedHold (s : State) : List HeldReq :=
  releaseOrders [] (reclassify s.hold [] s.freePending).2

theorem State.reclassifiedHold_req (s : State) :
    s.reclassifiedHold.map (·.req) = s.hold.map (·.req) := by
  rw [State.reclassifiedHold, releaseOrders_req, reclassify_req, List.nil_append]

/-- Step 4 of a cut that opens an epoch, in an epoch that has just begun (R116). -/
theorem State.reclassifyWaiters_eq (s : State) (ho : s.epoch.overflow = false) :
    s.reclassifyWaiters = { s with
      table := s.reclassifyWaiters.table
      retire := { s.retire with list := s.reclassifyWaiters.retire.list }
      hold := s.reclassifiedHold
      alert := { s.alert with
        peakHold := peakWith s.alert.peakHold s.hold s.reclassifiedHold
        epochHold := peakWith s.alert.epochHold s.hold s.reclassifiedHold } } := by
  have walked := reclassify_frame s.hold [] s.freePending ho
  have queue : s.reclassifyWaiters =
    (reclassify s.hold [] s.freePending).1.setHold s.reclassifiedHold := rfl
  rw [State.setHold_eq] at queue
  rw [queue]
  generalize s.reclassifiedHold = q
  rw [walked]
  rfl

/-! #### A queue with nothing HELD -/

theorem HeldReq.hold_of_not_held {h : HeldReq} (hh : h.isHeld = false) : h.hold = .released := by
  unfold HeldReq.isHeld at hh
  split at hh
  · assumption
  · cases hh

theorem HeldReq.bufferSlot_of_not_waiter {h : HeldReq} (hw : h.isWaiter = false) :
    h.bufferSlot = none := by
  unfold HeldReq.isWaiter at hw
  unfold HeldReq.bufferSlot
  split
  · rename_i slot hh
    rw [hh] at hw
    cases hw
  · rfl

theorem releaseOrders_of_released (held : List Block) (q : List HeldReq)
    (h : ∀ g ∈ q, g.hold = .released) : releaseOrders held q = q := by
  induction q generalizing held with
  | nil => rfl
  | cons g rest ih =>
    unfold releaseOrders
    rw [h g List.mem_cons_self]
    dsimp only
    rw [ih _ fun x hx => h x (List.mem_cons_of_mem _ hx)]

/-- With no waiter no entry is freed (R116). -/
theorem State.freePending_of_no_waiter (s : State) (h : ∀ g ∈ s.hold, g.isWaiter = false) :
    s.freePending = s := by
  have none : s.hold.filterMap HeldReq.bufferSlot = [] := by
    rw [List.filterMap_eq_nil_iff]
    exact fun g hg => HeldReq.bufferSlot_of_not_waiter (h g hg)
  unfold State.freePending State.removeEntries
  rw [none]
  simp

theorem State.reclassifyWaiters_of_no_waiter (s : State) (h : ∀ g ∈ s.hold, g.isWaiter = false) :
    s.reclassifyWaiters = s.setHold (releaseOrders [] (s.hold.map dropDeferred)) := by
  unfold State.reclassifyWaiters
  rw [State.freePending_of_no_waiter s h, reclassify_of_no_waiter _ _ _ h]
  rfl

theorem dropDeferred_of_released {h : HeldReq} (hh : h.hold = .released) : dropDeferred h = h := by
  unfold dropDeferred
  rw [hh]

/-! #### The whole cut -/

/-- The state of OPEN's cut before the Hold Queue's requests are classified anew. -/
def State.opened (s : State) : State := s.installStaged.beginEpoch s.openNumber .command

theorem State.openNumber_eq (s : State) :
    s.openNumber = match s.epoch.pendingFirst with
      | some n => n
      | none => s.epoch.number + 1 := by
  unfold State.openNumber
  cases s.epoch.pendingFirst <;> rfl

theorem exec_openEpoch_accepted (s : State) (h : s.port.resetAsserted = false)
    (hb : s.cmd.busy = false) (hd : s.epoch.dev = .ready) :
    exec .openEpoch s = .next { s.cutOpen with
      cmd.last := .openEpoch
      port := s.cutOpen.port.written 0x00
      out.bus := s.cutOpen.out.bus ++ [.ack] } := by
  have taken : s.takeOpen = s.acceptOpen := by
    simp [State.takeOpen, State.decideExecute, hb, hd]
  have ran : exec .openEpoch s = _ := s.onPort_command State.takeOpen h
  rw [ran, taken, State.acceptOpen]

/-- With nothing HELD the cut of OPEN leaves table, Hold Queue, Retire List and class C. -/
theorem State.opened_of_nothing_held {s v : State} (hv : s.opened.reclassifyWaiters = v)
    (h : ∀ g ∈ s.hold, g.isHeld = false) :
    v.grantBuffers.table = s.table ∧ v.grantBuffers.hold = s.hold ∧
      v.retire.list = s.retire.list ∧ v.grantBuffers.mem.classC = s.mem.classC := by
  have released : ∀ g ∈ s.hold, g.hold = .released := fun g hg => HeldReq.hold_of_not_held (h g hg)
  have waits : ∀ g ∈ s.opened.hold, g.isWaiter = false := fun g hg => by
    rw [HeldReq.isWaiter, released g hg]
  have drop : s.hold.map dropDeferred = s.hold := by
    conv_rhs => rw [← List.map_id s.hold]
    exact List.map_congr_left fun g hg => dropDeferred_of_released (released g hg)
  have queue : v = s.opened.setHold s.hold := by
    rw [← hv, State.reclassifyWaiters_of_no_waiter _ waits]
    show s.opened.setHold (releaseOrders [] (s.hold.map dropDeferred)) = _
    rw [drop, releaseOrders_of_released _ _ released]
  have due : (s.opened.setHold s.hold).dueGrant = none :=
    State.dueGrant_eq_none_of_no_buffer _ fun g hg => by
      rw [HeldReq.bufferSlot, released g hg]
  rw [queue, State.grantBuffers_of_none _ due]
  exact ⟨rfl, rfl, rfl, rfl⟩

/-- What the cut of OPEN makes of the part. -/
theorem State.cutOpen_spec (s : State) : ∃ table list hold classC alert drain,
    s.cutOpen = { s with
      active := s.staged
      epoch := { s.epoch with
        dev := .tracking, number := s.openNumber, pendingFirst := none, epochTime := 0
        overflow := false, untracked := 0, imagesCurrent := 0 }
      journal.queue := s.journal.queue ++ [.opening s.openNumber .command s.staged.windows
        s.staged.poolMode s.epoch.partTime]
      retire := { s.retire with list := list, currentCounter := 0 }
      table := table
      hold := hold
      alert := alert
      mem := { s.mem with classC := classC, drainMode := drain } } ∧
    hold.map (·.req) = s.hold.map (·.req) ∧
    alert.peakHold = peakWith s.alert.peakHold s.hold hold ∧ alert.epochHold = 0 ∧
    alert.epochPeakOcc = s.cutOpen.occupancy ∧ alert.epochPeakPool = s.cutOpen.poolUse ∧
    s.HandsOver s.cutOpen ∧
    ((∀ h ∈ s.hold, h.isHeld = false) →
      table = s.table ∧ hold = s.hold ∧ list = s.retire.list ∧ classC = s.mem.classC) := by
  have cut : s.cutOpen = s.opened.reclassifyWaiters.endCut := rfl
  have frame := s.opened.reclassifyWaiters_eq rfl
  have req := s.opened.reclassifiedHold_req
  generalize hv : s.opened.reclassifyWaiters = v at cut frame
  generalize s.opened.reclassifiedHold = q at frame req
  have holdPeak : v.alert.peakHold = peakWith s.alert.peakHold s.hold v.grantBuffers.hold := by
    rw [peakWith_grantBuffers, frame]; rfl
  have reqs : v.grantBuffers.hold.map (·.req) = s.hold.map (·.req) := by
    rw [State.grantBuffers_req, frame]; exact req
  have view : s.handedView = v.handedView := by rw [frame]; rfl
  obtain ⟨alert, drain, ended, peakHold, epochHold, peakOcc, peakPool, told⟩ := v.endCut_spec
  rw [← cut] at ended peakOcc peakPool told
  refine ⟨v.grantBuffers.table, v.retire.list, v.grantBuffers.hold, v.grantBuffers.mem.classC,
    alert, drain, ?_, reqs, peakHold.trans holdPeak, epochHold, peakOcc, peakPool,
    State.handsOver_of_view told view, State.opened_of_nothing_held hv⟩
  rw [ended]
  generalize v.grantBuffers = granted
  rw [frame]
  rfl

/-- Settles O22. -/
theorem acceptedOpenBeginsAnEpoch : Obligations.AcceptedOpenBeginsAnEpoch := by
  intro s h hb hd number
  have hn : number = s.openNumber := s.openNumber_eq.symm
  obtain ⟨table, list, hold, classC, alert, drain, e, req, peakHold, epochHold, peakOcc, peakPool,
    told, quiet⟩ := s.cutOpen_spec
  refine ⟨_, exec_openEpoch_accepted s h hb hd, ?_⟩
  rw [hn]
  rw [e] at peakOcc peakPool told ⊢
  exact ⟨rfl, rfl, rfl, rfl, rfl, epochHold, peakOcc, peakPool, peakHold,
    State.handsOver_of_target told rfl rfl rfl, req, quiet, rfl⟩

end Sys2Proof.Machine

/-! ### CLOSE_SWITCH (R12, R36, R52, R54, R65, R72, R90, R94, R113 to R119, R125, R126, R156) -/

namespace Sys2Proof.Machine

/-! #### The table and the Retire List at a cut that closes an epoch -/

/-- A BUFFER waiter protects the entry in the slot. -/
def State.buffered (s : State) (slot : Nat) : Bool := s.hold.any fun h => h.hold == .buffer slot

/-- The table with cause CLOSE given to every entry of the current epoch (R36). -/
def State.closedTable (s : State) : List Entry :=
  s.table.map fun e => if e.epoch = s.epoch.number then { e with cause := some .close } else e

/-- The Retire List with the entries that had no cause, in creation order (R36, R90). -/
def State.closedList (s : State) : List Nat :=
  s.retire.list ++
    (s.table.filter fun e => e.epoch == s.epoch.number && e.cause.isNone).map (·.slot)

theorem State.isCurrent_of_tracking {s : State} (ht : s.epoch.dev = .tracking) (e : Entry) :
    s.isCurrent e = (e.epoch == s.epoch.number) := by
  simp [State.isCurrent, ht]

theorem State.closeEntries_eq (s : State) (ht : s.epoch.dev = .tracking) :
    s.closeEntries = { s with
      table := s.closedTable
      retire := { s.retire with list := s.closedList } } := by
  unfold State.closeEntries State.closedTable State.closedList
  simp only [State.isCurrent_of_tracking ht, beq_iff_eq]

theorem bufferSlot_eq_some (h : HeldReq) (slot : Nat) :
    h.bufferSlot = some slot ↔ h.hold = .buffer slot := by
  unfold HeldReq.bufferSlot
  cases h.hold <;> simp

theorem State.buffered_eq (s : State) (slot : Nat) :
    (s.hold.filterMap HeldReq.bufferSlot).contains slot = s.buffered slot := by
  rw [Bool.eq_iff_iff]
  simp [State.buffered, List.any_eq_true, bufferSlot_eq_some]

theorem State.buffered_of_no_waiter (s : State) (h : ∀ g ∈ s.hold, g.isWaiter = false)
    (slot : Nat) : s.buffered slot = false := by
  rw [State.buffered, List.any_eq_false]
  intro g hg hb
  have waits := h g hg
  rw [HeldReq.isWaiter, eq_of_beq hb] at waits
  cases waits

theorem State.freePending_eq (s : State) :
    s.freePending = { s with
      table := s.table.filter fun e => !s.buffered e.slot
      retire := { s.retire with list := s.retire.list.filter fun n => !s.buffered n } } := by
  unfold State.freePending State.removeEntries
  simp only [State.buffered_eq]

/-! #### CLOSE_SWITCH: the cut's states -/

/-- The Epoch Controller behind the cut of CLOSE_SWITCH, by the longest hold of the summary (R113,
R115, R118, R125). -/
def State.switchedEpoch (s : State) (longest : Word) : EpochCtl :=
  { s.epoch with
    number := s.epoch.number + 1, pendingFirst := none, epochTime := 0
    draining := true
    summary := some
      { epoch := s.epoch.number, cause := .switch, overflow := s.epoch.overflow
        untracked := s.epoch.untracked, peakOcc := s.alert.epochPeakOcc
        peakPool := s.alert.epochPeakPool, longestHold := longest
        duration := s.epoch.epochTime }
    overflow := false, untracked := 0, imagesCurrent := 0
    imagesDraining := s.epoch.imagesCurrent }

/-- The next epoch is open and the PENDING entries of the BUFFER waiters are freed: the state whose
waiters are classified anew (R116). -/
def State.switchOpened (s : State) : State :=
  { s with
    active := s.staged
    epoch := s.switchedEpoch s.alert.epochHold
    journal.queue := s.journal.queue ++ [.opening (s.epoch.number + 1) .switch s.staged.windows
      s.staged.poolMode s.epoch.partTime]
    retire :=
      { list := s.closedList.filter fun n => !s.buffered n
        currentCounter := 0, drainingCounter := s.retire.currentCounter, closeBuilt := false }
    table := s.closedTable.filter fun e => !s.buffered e.slot }

/-- The waiters are classified anew and the ORDER requests released (R52, R116). -/
def State.switchWalked (s : State) : State :=
  { (reclassify s.hold [] s.switchOpened).1 with
    hold := releaseOrders [] (reclassify s.hold [] s.switchOpened).2 }

theorem State.switchWalked_frame (s : State) :
    s.switchWalked = { s.switchOpened with
      table := s.switchWalked.table
      retire := { s.switchOpened.retire with list := s.switchWalked.retire.list }
      hold := s.switchWalked.hold } := by
  have walked := reclassify_frame s.hold [] s.switchOpened rfl
  unfold State.switchWalked
  generalize releaseOrders [] (reclassify s.hold [] s.switchOpened).2 = q
  rw [walked]

theorem State.switchWalked_req (s : State) :
    s.switchWalked.hold.map (·.req) = s.hold.map (·.req) := by
  show (releaseOrders [] _).map (·.req) = _
  rw [releaseOrders_req, reclassify_req, List.nil_append]

/-- The state of the cut before step 4. -/
def State.switched (s : State) : State :=
  (s.installStaged.closeEpoch .switch).beginEpoch (s.epoch.number + 1) .switch

theorem State.switched_freePending (s : State) (ht : s.epoch.dev = .tracking) :
    s.switched.freePending = s.switchOpened := by
  have closed := State.closeEntries_eq s.installStaged ht
  have dev : s.switchedEpoch s.alert.epochHold =
      { s.switchedEpoch s.alert.epochHold with dev := .tracking } := by rw [← ht]; rfl
  rw [State.freePending_eq]
  unfold State.switched State.closeEpoch
  rw [closed]
  unfold State.switchOpened
  rw [dev]
  rfl

/-- The longest hold is copied with the hold times that the cut ended (R114, R126). -/
theorem State.switched_reclassified (s : State) (ht : s.epoch.dev = .tracking) :
    s.switched.reclassifyWaiters.copyLongestHold = { s.switchWalked with
      alert := { s.alert with
        peakHold := peakWith s.alert.peakHold s.hold s.switchWalked.hold
        epochHold := peakWith s.alert.epochHold s.hold s.switchWalked.hold }
      epoch := s.switchedEpoch (peakWith s.alert.epochHold s.hold s.switchWalked.hold) } := by
  have step : s.switched.reclassifyWaiters =
      (reclassify s.hold [] s.switchOpened).1.setHold
        (releaseOrders [] (reclassify s.hold [] s.switchOpened).2) := by
    rw [← State.switched_freePending s ht]; rfl
  have walked := reclassify_frame s.hold [] s.switchOpened rfl
  rw [step, State.setHold_eq]
  unfold State.switchWalked
  generalize releaseOrders [] (reclassify s.hold [] s.switchOpened).2 = q
  rw [walked]
  rfl

/-- What the cut of CLOSE_SWITCH makes of the part, by the grants behind the walk. -/
theorem State.cutSwitch_spec (s : State) (ht : s.epoch.dev = .tracking) : ∃ alert drain,
    s.cutSwitch = { s with
      active := s.staged
      epoch := s.switchedEpoch (peakWith s.alert.epochHold s.hold s.switchWalked.grantBuffers.hold)
      journal.queue := s.journal.queue ++ [.opening (s.epoch.number + 1) .switch s.staged.windows
        s.staged.poolMode s.epoch.partTime]
      retire :=
        { list := s.switchWalked.retire.list, currentCounter := 0
          drainingCounter := s.retire.currentCounter, closeBuilt := false }
      table := s.switchWalked.grantBuffers.table
      hold := s.switchWalked.grantBuffers.hold
      alert := alert
      mem := { s.mem with
        classC := s.switchWalked.grantBuffers.mem.classC, drainMode := drain } } ∧
    alert.peakHold = peakWith s.alert.peakHold s.hold s.switchWalked.grantBuffers.hold ∧
    alert.epochHold = 0 ∧
    alert.epochPeakOcc = s.cutSwitch.occupancy ∧ alert.epochPeakPool = s.cutSwitch.poolUse ∧
    s.HandsOver s.cutSwitch := by
  have cut : s.cutSwitch = s.switched.reclassifyWaiters.copyLongestHold.endCut := rfl
  rw [State.switched_reclassified s ht] at cut
  have frame := s.switchWalked_frame
  rw [peakWith_grantBuffers, peakWith_grantBuffers]
  generalize s.switchWalked = w at cut frame ⊢
  have dev : (s.switchedEpoch (peakWith s.alert.epochHold s.hold w.hold)).dev = w.epoch.dev := by
    rw [frame]; rfl
  have grants := w.grantBuffers_withAlert { s.alert with
      peakHold := peakWith s.alert.peakHold s.hold w.hold
      epochHold := peakWith s.alert.epochHold s.hold w.hold } _ dev
  generalize hv : ({ w with
      alert := { s.alert with
        peakHold := peakWith s.alert.peakHold s.hold w.hold
        epochHold := peakWith s.alert.epochHold s.hold w.hold }
      epoch := s.switchedEpoch (peakWith s.alert.epochHold s.hold w.hold) } : State) = v
    at cut grants
  obtain ⟨alert, drain, ended, peakHold, epochHold, peakOcc, peakPool, told⟩ := v.endCut_spec
  rw [← cut] at ended peakOcc peakPool told
  have view : s.handedView = v.handedView := by rw [← hv, frame]; rfl
  refine ⟨alert, drain, ?_, peakHold.trans (by rw [← hv]), epochHold, peakOcc, peakPool,
    State.handsOver_of_view told view⟩
  rw [ended, grants]
  generalize w.grantBuffers = granted
  rw [← hv, frame]
  rfl

/-! #### CLOSE_SWITCH: the closed epoch's entries -/

/-- The table behind the cut: every entry of the closed epoch `old` carries CLOSE, and the slots in
`freed` hold entries of the new epoch alone. -/
def SwitchedTable (old : Half) (freed : Nat → Bool) (s : State) : Prop :=
  TableLaw s ∧ s.epoch.number ≠ old ∧
  ∀ e ∈ s.table, (e.epoch = old → e.cause = some .close) ∧
    (freed e.slot = true → e.epoch = s.epoch.number)

/-- A change of an entry of the current epoch. -/
theorem SwitchedTable.modify {old : Half} {freed : Nat → Bool} {s t : State}
    (h : SwitchedTable old freed s) (law : TableLaw t) (number : t.epoch.number = s.epoch.number)
    {e : Entry} (he : e ∈ s.table) (current : e.epoch = s.epoch.number) (f : Entry → Entry)
    (slot : (f e).slot = e.slot) (epoch : (f e).epoch = e.epoch)
    (table : t.table = s.table.map fun x => if x.slot = e.slot then f x else x) :
    SwitchedTable old freed t := by
  obtain ⟨ls, hn, hs⟩ := h
  refine ⟨law, number ▸ hn, ?_⟩
  rw [table, number]
  intro y hy
  obtain ⟨x, hx, rfl⟩ := List.mem_map.1 hy
  split_ifs with hc
  · obtain rfl := ls.eq_of_slot hx he hc
    exact ⟨fun ho => absurd (current.symm.trans (epoch.symm.trans ho)) hn,
      fun _ => epoch.trans current⟩
  · exact hs x hx

theorem SwitchedTable.hitEntry {old : Half} {freed : Nat → Bool} {s : State}
    (h : SwitchedTable old freed s) {e : Entry} (he : e ∈ s.table)
    (current : e.epoch = s.epoch.number) (i : Initiator) (time : Word) :
    SwitchedTable old freed (s.hitEntry e i time) := by
  refine h.modify (h.1.hitEntry e i time) rfl he current _ ?_ ?_ (s.hitEntry_table e i time) <;>
    rw [Entry.hit_eq]

theorem SwitchedTable.victimChoice {old : Half} {freed : Nat → Bool} {s : State}
    (h : SwitchedTable old freed s) : SwitchedTable old freed s.victimChoice := by
  have law := h.1.victimChoice
  unfold State.victimChoice at law ⊢
  cases hv : earliestStamp (s.table.filter s.victimCandidate) with
  | none => exact h
  | some e =>
    rw [hv] at law
    obtain ⟨he, hc⟩ := List.mem_filter.1 (earliestStamp_mem hv)
    have current : e.epoch = s.epoch.number := by
      simp only [State.victimCandidate, State.isCurrent, Bool.and_eq_true, beq_iff_eq] at hc
      obtain ⟨⟨⟨⟨_, current⟩, _⟩, _⟩, _⟩ := hc
      exact current
    exact h.modify law rfl he current _ rfl rfl (s.giveCause_table e.slot .pressure)

/-- A tracked write changes entries of the current epoch alone. -/
theorem SwitchedTable.tableTake {old : Half} {freed : Nat → Bool} {s : State}
    (h : SwitchedTable old freed s) (b : Block) (c : Classification) (waiting ahead : Bool) :
    SwitchedTable old freed (s.tableTake b c waiting ahead).1 := by
  have law := h.1.tableTake b c waiting ahead
  cases hl : s.lookup b with
  | some e =>
    obtain ⟨he, _, current⟩ := State.lookup_mem hl
    rw [State.tableTake_hit s b c waiting ahead e hl]
    exact h.hitEntry he current _ _
  | none =>
    cases ho : s.epoch.overflow with
    | true =>
      rw [State.tableTake_overflowed s b c waiting ahead hl ho] at law ⊢
      exact ⟨law, h.2⟩
    | false =>
      cases ahead with
      | true => rw [State.tableTake_defers s b c waiting hl ho]; exact h
      | false =>
        by_cases hw : waiting = true ∨ s.freeSlot = none
        · rw [State.tableTake_waits s b c waiting hl ho hw]
          exact h.victimChoice
        · obtain ⟨hw, hf⟩ := not_or.1 hw
          obtain ⟨slot, hf⟩ := Option.ne_none_iff_exists'.1 hf
          rw [Bool.eq_false_of_not_eq_true hw, State.tableTake_learns s b c slot hl ho hf]
            at law ⊢
          obtain ⟨_, hn, hs⟩ := h
          refine ⟨law, hn, fun x hx => ?_⟩
          rcases List.mem_append.1 hx with hx | hx
          · exact hs x hx
          · rw [List.mem_singleton.1 hx]
            exact ⟨fun ho => absurd ho hn, fun _ => rfl⟩

theorem SwitchedTable.classifyWrite {old : Half} {freed : Nat → Bool} {s : State}
    (h : SwitchedTable old freed s) (r : Request) (waiting ahead blocked : Bool) :
    SwitchedTable old freed (s.classifyWrite r waiting ahead blocked).1 := by
  unfold State.classifyWrite
  split
  · exact h
  · exact h
  · exact h.tableTake _ _ _ _

/-- A grant keeps every entry's epoch and cause. -/
theorem SwitchedTable.grantBuffer {old : Half} {freed : Nat → Bool} {s : State}
    (h : SwitchedTable old freed s) {g : HeldReq} {e : Entry} {n : Nat}
    (hd : s.dueGrant = some (g, e, n)) : SwitchedTable old freed (s.grantBuffer g e n) := by
  obtain ⟨ls, hn, hs⟩ := h
  refine ⟨ls.grantBuffer hd, hn, fun y hy => ?_⟩
  obtain ⟨x, hx, rfl⟩ := List.mem_map.1 hy
  split_ifs <;> exact hs x hx

theorem add_one_ne_self (n : Half) : n + 1 ≠ n := by
  intro h
  simp at h

theorem State.switchOpened_table (s : State) (ht : s.epoch.dev = .tracking) (law : TableLaw s) :
    SwitchedTable s.epoch.number s.buffered s.switchOpened := by
  have closed : TableLaw { s with
      table := s.closedTable, retire := { s.retire with list := s.closedList } } :=
    State.closeEntries_eq s ht ▸ law.closeEntries
  refine ⟨closed.filter (fun e => !s.buffered e.slot) rfl, add_one_ne_self _, fun e he => ?_⟩
  obtain ⟨hm, hb⟩ := List.mem_filter.1 he
  refine ⟨fun ho => ?_, fun hf => absurd hf (by simpa using hb)⟩
  obtain ⟨x, _, rfl⟩ := List.mem_map.1 hm
  split_ifs at ho ⊢ with hx
  · rfl
  · exact absurd ho hx

theorem State.switchWalked_table (s : State) (ht : s.epoch.dev = .tracking) (law : TableLaw s) :
    SwitchedTable s.epoch.number s.buffered s.switchWalked.grantBuffers := by
  have walked := reclassify_keeps (P := SwitchedTable s.epoch.number s.buffered)
    (fun _ r w a b h => h.classifyWrite r w a b) s.hold [] _ (s.switchOpened_table ht law)
  exact grantLoop_induct (P := SwitchedTable s.epoch.number s.buffered)
    (fun _ _ _ _ h hd => h.grantBuffer hd) _ s.switchWalked walked

/-! #### CLOSE_SWITCH without waiters -/

theorem State.switchOpened_of_no_waiter (s : State) (h : ∀ g ∈ s.hold, g.isWaiter = false) :
    s.switchOpened.table = s.closedTable ∧ s.switchOpened.retire.list = s.closedList := by
  have free := s.buffered_of_no_waiter h
  constructor
  · show s.closedTable.filter (fun e => !s.buffered e.slot) = _
    simp [free]
  · show s.closedList.filter (fun n => !s.buffered n) = _
    simp [free]

theorem bufferSlot_dropDeferred {h : HeldReq} (hw : h.isWaiter = false) :
    (dropDeferred h).bufferSlot = none := by
  obtain ⟨r, x, st, tm, ra⟩ := h
  cases x with
  | buffer n => cases hw
  | _ => rfl

/-- A release of ORDER requests makes of each request itself or its release. -/
theorem mem_releaseOrders {held : List Block} {q : List HeldReq} {h : HeldReq}
    (hm : h ∈ releaseOrders held q) : ∃ g ∈ q, h = g ∨ h = g.release := by
  induction q generalizing held with
  | nil => cases hm
  | cons a rest ih =>
    have goOn : ∀ {held' : List Block} {a' : HeldReq}, (a' = a ∨ a' = a.release) →
        h ∈ a' :: releaseOrders held' rest → ∃ g ∈ a :: rest, h = g ∨ h = g.release := by
      intro held' a' ha hm
      rcases List.mem_cons.1 hm with rfl | hm
      · exact ⟨a, List.mem_cons_self, ha⟩
      · obtain ⟨g, hg, e⟩ := ih hm
        exact ⟨g, List.mem_cons_of_mem _ hg, e⟩
    unfold releaseOrders at hm
    cases ha : a.hold with
    | order d mark here =>
      rw [ha] at hm
      dsimp only at hm
      split_ifs at hm
      · exact goOn (.inl rfl) hm
      · exact goOn (.inr rfl) hm
    | _ =>
      rw [ha] at hm
      exact goOn (.inl rfl) hm

/-- Without waiters the walk drops what the cut drops and makes no grant due (R65). -/
theorem State.switchWalked_of_no_waiter (s : State) (h : ∀ g ∈ s.hold, g.isWaiter = false) :
    s.switchWalked.grantBuffers =
      { s.switchOpened with hold := releaseOrders [] (s.hold.map dropDeferred) } := by
  have walked : s.switchWalked =
      { s.switchOpened with hold := releaseOrders [] (s.hold.map dropDeferred) } := by
    unfold State.switchWalked
    rw [reclassify_of_no_waiter _ _ _ h]
    rfl
  rw [walked]
  refine State.grantBuffers_of_none _ (State.dueGrant_eq_none_of_no_buffer _ fun g hg => ?_)
  obtain ⟨x, hx, hg⟩ := mem_releaseOrders hg
  obtain ⟨y, hy, rfl⟩ := List.mem_map.1 hx
  rcases hg with rfl | rfl
  · exact bufferSlot_dropDeferred (h y hy)
  · rfl

/-! #### CLOSE_SWITCH, whole -/

theorem exec_closeSwitch_accepted (s : State) (h : s.port.resetAsserted = false)
    (hb : s.cmd.busy = false) (hd : s.epoch.dev = .tracking) :
    exec .closeSwitch s = .next { s.cutSwitch with
      cmd.busy := true
      cmd.last := .closeSwitch
      port := s.cutSwitch.port.written 0x00
      out.bus := s.cutSwitch.out.bus ++ [.ack] } := by
  have taken : s.takeSwitch = s.acceptSwitch := by
    simp [State.takeSwitch, State.decideExecute, hb, hd]
  have ran : exec .closeSwitch s = _ := s.onPort_command State.takeSwitch h
  rw [ran, taken, State.acceptSwitch]

theorem reclassify_cons_keeps (h : HeldReq) (rest done : List HeldReq) (s : State)
    (hh : h.hold = .released ∨ ∃ slot, h.hold = .capture slot) :
    reclassify (h :: rest) done s = reclassify rest (done ++ [h]) s := by
  conv_lhs => unfold reclassify
  obtain hh | ⟨slot, hh⟩ := hh <;>
    rw [if_neg (by simp [HeldReq.isWaiter, hh]), dropDeferred, hh]

theorem reclassify_cons_order (h : HeldReq) (rest done : List HeldReq) (s : State)
    (d : Option Deferred) (mark here : Bool) (hh : h.hold = .order d mark here) :
    reclassify (h :: rest) done s =
      reclassify rest (done ++ [{ h with hold := .order none mark false }]) s := by
  conv_lhs => unfold reclassify
  rw [if_neg (by simp [HeldReq.isWaiter, hh]), dropDeferred, hh]
  rfl

theorem reclassify_cons_waiter (h : HeldReq) (rest done : List HeldReq) (s : State)
    (hw : h.isWaiter = true) :
    let t := s.classifyWrite h.req (done.any HeldReq.isEntry) (entryFor done h.block) false
    reclassify (h :: rest) done s = reclassify rest (done ++ [{ h with hold := t.2 }]) t.1 := by
  intro t
  conv_lhs => unfold reclassify
  rw [if_pos hw]
  rfl

/-- Settles O23. -/
theorem acceptedCloseSwitchClosesAndOpens : Obligations.AcceptedCloseSwitchClosesAndOpens := by
  refine ⟨?_, fun _ _ => rfl, fun h rest done s => ⟨reclassify_cons_keeps h rest done s,
    reclassify_cons_order h rest done s, fun hw => ⟨_, _, s.classifyWrite_retakes h.req _ _ false,
      reclassify_cons_waiter h rest done s hw⟩⟩⟩
  intro s h hb hd law
  obtain ⟨_, _, entries⟩ := s.switchWalked_table hd law
  have req : s.switchWalked.grantBuffers.hold.map (·.req) = s.hold.map (·.req) := by
    rw [State.grantBuffers_req, State.switchWalked_req]
  have plain := s.switchWalked_of_no_waiter
  have number : s.switchWalked.grantBuffers.epoch.number = s.epoch.number + 1 := by
    rw [State.grantBuffers_eq, State.switchWalked_frame]; rfl
  obtain ⟨alert, drain, e, peakHold, epochHold, peakOcc, peakPool, told⟩ := s.cutSwitch_spec hd
  refine ⟨_, exec_closeSwitch_accepted s h hb hd, ?_⟩
  rw [e] at peakOcc peakPool told ⊢
  refine ⟨rfl, rfl, rfl, rfl, rfl, rfl, rfl, rfl, epochHold, peakOcc, peakPool, peakHold,
    State.handsOver_of_target told rfl rfl rfl, req, fun x hx => (entries x hx).1, ?_, ?_, ?_, rfl⟩
  · rintro x hx ⟨g, hg, hbuf⟩
    rw [← number]
    exact (entries x hx).2 (List.any_eq_true.2 ⟨g, hg, by simp [hbuf]⟩)
  · intro hw
    obtain ⟨table, list⟩ := s.switchOpened_of_no_waiter hw
    have walkedList : s.switchWalked.retire.list = s.closedList := by
      have := congrArg (fun u => u.retire.list) (plain hw)
      rw [State.grantBuffers_eq] at this
      exact this.trans list
    dsimp only
    rw [walkedList, plain hw]
    exact ⟨table, rfl, rfl, releaseOrders_follow _⟩
  · refine ⟨_, releaseOrders_follow _, ?_⟩
    show _ = s.switchWalked.handOver.table ∧ _ = s.switchWalked.handOver.hold ∧
      _ = s.switchWalked.handOver.mem.classC ∧ _ = s.switchWalked.handOver.retire.list
    rw [State.handOver_eq]
    exact ⟨rfl, rfl, rfl, rfl⟩

end Sys2Proof.Machine

/-! ### CLOSE_END (R12, R36, R52, R54, R65, R90, R94, R113 to R115, R117, R125, R126, R156) -/

namespace Sys2Proof.Machine

/-- The queue behind the cut of CLOSE_END: the waiters released, and the ORDER requests with nothing
HELD ahead (R52, R117). -/
def State.endedHold (s : State) : List HeldReq := releaseOrders [] (s.hold.map endWaiter)

/-- The Epoch Controller behind the cut of CLOSE_END (R115, R117, R125). -/
def State.endedEpoch (s : State) : EpochCtl :=
  { s.epoch with
    dev := .finishing
    pendingFirst := none
    draining := true
    summary := some
      { epoch := s.epoch.number, cause := .endEpoch, overflow := s.epoch.overflow
        untracked := s.epoch.untracked, peakOcc := s.alert.epochPeakOcc
        peakPool := s.alert.epochPeakPool
        longestHold := peakWith s.alert.epochHold s.hold s.endedHold
        duration := s.epoch.epochTime }
    imagesCurrent := 0, imagesDraining := s.epoch.imagesCurrent }

/-- The state behind the cut of CLOSE_END, before the changes are handed over. -/
def State.ended (s : State) : State :=
  { s with
    active := s.staged
    epoch := s.endedEpoch
    retire :=
      { list := s.closedList.filter fun n => !s.buffered n
        currentCounter := 0, drainingCounter := s.retire.currentCounter, closeBuilt := false }
    table := s.closedTable.filter fun e => !s.buffered e.slot
    hold := s.endedHold
    alert := { s.alert with
      peakHold := peakWith s.alert.peakHold s.hold s.endedHold
      epochHold := peakWith s.alert.epochHold s.hold s.endedHold } }

/-- The cut of CLOSE_END makes no grant due: FINISHING grants none (R72). -/
theorem State.cutEnd_eq (s : State) (ht : s.epoch.dev = .tracking) :
    s.cutEnd = s.ended.handChanges := by
  have closed := State.closeEntries_eq s.installStaged ht
  have cut : s.cutEnd = s.ended.handOver := by
    unfold State.cutEnd State.releaseWaiters
    dsimp only
    rw [State.freePending_eq, State.setHold_eq]
    unfold State.closeEpoch
    rw [closed]
    rfl
  have due : s.ended.dueGrant = none :=
    State.dueGrant_eq_none_of_not_tracking _ (by simp [State.ended, State.endedEpoch])
  rw [cut, State.handOver, State.grantBuffers_of_none _ due]

theorem exec_closeEnd_accepted (s : State) (h : s.port.resetAsserted = false)
    (hb : s.cmd.busy = false) (hd : s.epoch.dev = .tracking) :
    exec .closeEnd s = .next { s.cutEnd with
      cmd.busy := true
      cmd.last := .closeEnd
      port := s.cutEnd.port.written 0x00
      out.bus := s.cutEnd.out.bus ++ [.ack] } := by
  have taken : s.takeEnd = s.acceptEnd := by
    simp [State.takeEnd, State.decideExecute, hb, hd]
  have ran : exec .closeEnd s = _ := s.onPort_command State.takeEnd h
  rw [ran, taken, State.acceptEnd]

theorem endWaiter_req (h : HeldReq) : (endWaiter h).req = h.req := by
  obtain ⟨r, x, st, tm, ra⟩ := h
  cases x <;> rfl

theorem endWaiter_not_waiter (h : HeldReq) : (endWaiter h).isWaiter = false := by
  obtain ⟨r, x, st, tm, ra⟩ := h
  cases x <;> rfl

theorem State.endedHold_req (s : State) : s.endedHold.map (·.req) = s.hold.map (·.req) := by
  rw [State.endedHold, releaseOrders_req, List.map_map]
  exact List.map_congr_left fun g _ => endWaiter_req g

/-- No waiter is left (R117). -/
theorem State.endedHold_not_waiter (s : State) {h : HeldReq} (hm : h ∈ s.endedHold) :
    h.isWaiter = false := by
  obtain ⟨x, hx, hg⟩ := mem_releaseOrders hm
  obtain ⟨y, _, rfl⟩ := List.mem_map.1 hx
  obtain rfl | rfl := hg
  · exact endWaiter_not_waiter y
  · rfl

/-- Settles O24. -/
theorem acceptedCloseEndReleasesTheWaiters : Obligations.AcceptedCloseEndReleasesTheWaiters := by
  intro s h hb hd
  refine ⟨_, exec_closeEnd_accepted s h hb hd, ?_⟩
  have told := State.handsOver_of_view (s' := s) s.ended.handsOver_handChanges rfl
  obtain ⟨peakHold, epochHold⟩ := s.ended.handChanges_holdPeaks
  obtain ⟨peakOcc, peakPool⟩ := s.ended.handChanges_epochPeaks
  have frame := s.ended.handChanges_eq
  rw [State.cutEnd_eq s hd]
  generalize s.ended.handChanges = t at *
  rw [frame]
  refine ⟨rfl, rfl, rfl, rfl, rfl, rfl, rfl, s.endedHold_req, fun g hg => s.endedHold_not_waiter hg,
    ?_, peakHold, epochHold, peakOcc, peakPool, State.handsOver_of_target told ?_ rfl rfl, rfl, rfl,
    rfl⟩
  · refine (congrArg (OrdersFollow · s.endedHold) (List.map_congr_left fun g _ => ?_)).mp
      (releaseOrders_follow _)
    obtain ⟨r, x, st, tm, ra⟩ := g
    cases x <;> rfl
  · rw [frame]

end Sys2Proof.Machine

/-! ### What a step can do to the table, the holds, the records and the epochs -/

namespace Sys2Proof.Machine

/-- What the laws of the Block Table, the Retire List, the Hold Queue and the epochs look at. -/
structure TableView where
  table      : List Entry
  hold       : List (Request × Hold)
  list       : List Nat
  closeBuilt : Bool
  records    : List Record
  epoch      : DevState × Half × Bool × Option Summary
  busy       : Bool

def State.tableView (s : State) : TableView :=
  { table := s.table
    hold := s.hold.map fun h => (h.req, h.hold)
    list := s.retire.list
    closeBuilt := s.retire.closeBuilt
    records := s.journal.queue
    epoch := (s.epoch.dev, s.epoch.number, s.epoch.draining, s.epoch.summary)
    busy := s.cmd.busy }

theorem State.tableView_of_lawView {s t : State} (h : t.lawView = s.lawView) :
    t.tableView = s.tableView :=
  congrArg (fun v : LawView => ({ table := v.table, hold := v.hold, list := v.retire.list
                                  closeBuilt := v.retire.closeBuilt, records := v.records
                                  epoch := v.epoch, busy := v.busy } : TableView)) h

/-- What the completion of a drain makes of the view (R123). -/
def State.drained (s : State) : State :=
  { s with
    retire.closeBuilt := false
    cmd.busy := false
    epoch.dev := if s.epoch.dev = .finishing then .ready else s.epoch.dev
    epoch.draining := false
    epoch.summary := none }

/-- `Q` sees no more than the view (`same`), holds at reset, and is kept by each thing a step can do
to what the view shows. -/
structure Tended (Q : State → Prop) : Prop where
  same : ∀ {s t}, Q s → t.tableView = s.tableView → Q t
  routes : ∀ s r, Q s → Q (s.route r (plainHold (heldFor s.hold (blockOf r.addr))))
  arrives : ∀ s r, Q s → Q (s.arriveWrite r)
  leaves : ∀ s room, Q s → Q { s with hold := (leaveUpTo room s.hold).2 }
  grants : ∀ s h e n, Q s → s.dueGrant = some (h, e, n) → Q (s.grantBuffer h e n)
  counts : ∀ s e, Q s → s.entryAt e.slot = some e → e.state = .capturing →
    Q (s.modifyEntry e.slot fun x => { x with linesIn := x.linesIn + 1 })
  captures : ∀ s e, Q s → s.entryAt e.slot = some e → e.state = .capturing →
    Q (s.completeCapture e)
  copies : ∀ s e, Q s → s.entryAt e.slot = some e → e.state = .imaged →
    Q (s.modifyEntry e.slot fun x => { x with state := .copying })
  files : ∀ s e image, Q s → s.entryAt e.slot = some e → e.state = .copying →
    Q (s.modifyEntry e.slot fun x =>
      { x with state := .filing, poolBuf := none, imageBuf := some image })
  logs : ∀ s e, Q s → s.entryAt e.slot = some e → e.state = .filing →
    Q (s.modifyEntry e.slot fun x => { x with state := .logged })
  writes : ∀ s r rest, Q s → s.journal.queue = r :: rest →
    ¬(r.isClosing = true ∧ s.epoch.draining = true) → Q { s with journal.queue := rest }
  drains : ∀ s r rest, Q s → s.journal.queue = r :: rest → r.isClosing = true →
    s.epoch.draining = true → Q (State.drained { s with journal.queue := rest })
  loads : ∀ s, Q s → s.epoch.dev = .idle ∨ s.epoch.dev = .ready →
    Q { s with epoch.dev := .loading, cmd.busy := true }
  loaded : ∀ s d, Q s → s.epoch.dev = .loading → d = .idle ∨ d = .ready →
    Q { s with epoch.dev := d, cmd.busy := false }
  halts : ∀ s, Q s → s.running = true → Q s.halt
  overflows : ∀ s, Q s → Q s.overflowEpoch
  ages : ∀ s e, Q s → e ∈ s.table → s.victimCandidate e = true → Q (s.giveCause e.slot .age)
  retires : ∀ s e, Q s → s.dueRetire = some e → Q (s.retireEntry e)
  closes : ∀ s sum, Q s → s.dueClose = some sum → Q
    { s.joinRecords (.closing sum s.retire.drainingCounter s.epoch.imagesDraining) with
      retire.closeBuilt := true }
  opens : ∀ s, Q s → s.epoch.dev = .ready → s.cmd.busy = false →
    Q s.opened.reclassifyWaiters.grantBuffers
  switches : ∀ s longest, Q s → s.epoch.dev = .tracking → s.cmd.busy = false →
    Q { s.switchWalked.grantBuffers with epoch := s.switchedEpoch longest, cmd.busy := true }
  ends : ∀ s, Q s → s.epoch.dev = .tracking → s.cmd.busy = false →
    Q { s.ended with cmd.busy := true }
  stops : ∀ s, Q s → Q { s.stopBlocks with cmd.busy := false }
  reset : Q State.reset

/-! #### Operations that show nothing in the view -/

theorem State.tableView_queueDescRead (s : State) : s.queueDescRead.tableView = s.tableView := by
  unfold State.queueDescRead
  split <;> rfl

theorem State.tableView_queueSlotRead (s : State) : s.queueSlotRead.tableView = s.tableView := by
  unfold State.queueSlotRead
  split <;> rfl

theorem State.tableView_queueSlotWrite (s : State) (op : Addr → Record → Op) :
    (s.queueSlotWrite op).tableView = s.tableView := by
  unfold State.queueSlotWrite
  split <;> rfl

theorem State.tableView_takeDescriptor (s : State) (data : Line) :
    (s.takeDescriptor data).tableView = s.tableView := by
  unfold State.takeDescriptor
  split
  · rfl
  · dsimp only
    split_ifs <;> rfl

theorem State.tableView_takeSlot (s : State) (data : Line) :
    (s.takeSlot data).tableView = s.tableView := by
  unfold State.takeSlot
  split
  · rfl
  · split_ifs
    · exact s.endRingWait.tableView_queueSlotWrite bodyWrite
    · rfl
    · rfl

theorem State.tableView_takeKick (s : State) : s.takeKick.tableView = s.tableView := by
  have ring : ∀ u : State, u.kickRing.tableView = u.tableView := fun u => by
    unfold State.kickRing
    split_ifs
    · exact u.tableView_queueSlotRead
    · rfl
  have fir : ∀ u : State, u.kickFir.tableView = u.tableView := fun u => by
    unfold State.kickFir
    split_ifs
    · exact u.tableView_queueDescRead
    · rfl
  unfold State.takeKick
  rw [ring, fir]
  rfl

/-- STOP's handing on shows nothing in the view (R161). -/
theorem State.tableView_takeStop (s : State) :
    s.takeStop.tableView = State.tableView { s.stopBlocks with cmd.busy := false } := by
  have handed := State.tableView_of_lawView s.stopBlocks.lawView_handChanges
  unfold State.takeStop
  generalize s.stopBlocks.handChanges = u at handed
  exact congrArg (fun v : TableView => { v with busy := false }) handed

/-- The end of a cut shows in the view as its grants alone (R72, R126). -/
theorem State.tableView_endCut (s : State) : s.endCut.tableView = s.grantBuffers.tableView :=
  State.tableView_of_lawView (State.lawView_handChanges s.grantBuffers.restartPeaks)

theorem State.tableView_acceptOpen (s : State) :
    s.acceptOpen.tableView = s.opened.reclassifyWaiters.grantBuffers.tableView := by
  have cut : s.cutOpen.tableView = _ := s.opened.reclassifyWaiters.tableView_endCut
  unfold State.acceptOpen
  generalize s.cutOpen = u at cut
  exact cut

theorem State.tableView_acceptSwitch (s : State) (ht : s.epoch.dev = .tracking) :
    ∃ longest, s.acceptSwitch.tableView = State.tableView
      { s.switchWalked.grantBuffers with epoch := s.switchedEpoch longest, cmd.busy := true } := by
  obtain ⟨alert, drain, cut, _⟩ := s.cutSwitch_spec ht
  have frame : s.switchWalked.grantBuffers = { s.switchOpened with
      table := s.switchWalked.grantBuffers.table
      retire := { s.switchOpened.retire with list := s.switchWalked.retire.list }
      hold := s.switchWalked.grantBuffers.hold
      mem.classC := s.switchWalked.grantBuffers.mem.classC } := by
    rw [State.grantBuffers_eq, State.switchWalked_frame]
  generalize s.switchWalked.grantBuffers = g at cut frame ⊢
  refine ⟨peakWith s.alert.epochHold s.hold g.hold, ?_⟩
  unfold State.acceptSwitch
  rw [cut, frame]
  rfl

theorem State.tableView_acceptEnd (s : State) (ht : s.epoch.dev = .tracking) :
    s.acceptEnd.tableView = State.tableView { s.ended with cmd.busy := true } := by
  have cut : s.cutEnd.tableView = s.ended.tableView := by
    rw [State.cutEnd_eq s ht]
    exact State.tableView_of_lawView s.ended.lawView_handChanges
  unfold State.acceptEnd
  generalize s.cutEnd = u at cut
  exact congrArg (fun v : TableView => { v with busy := true }) cut

theorem State.tableView_endAbandoned (s : State) (tag : Nat) :
    (s.endAbandoned tag).tableView = s.tableView := by
  unfold State.endAbandoned
  split_ifs <;> rfl

theorem State.tableView_issue {s t : State} (h : execIssue s = .next t) :
    t.tableView = s.tableView := by
  unfold execIssue at h
  split at h <;> cases h <;> rfl

theorem State.tableView_completeDrain (s : State) :
    s.completeDrain.tableView = s.drained.tableView := by
  unfold State.completeDrain State.drained
  dsimp only [State.raise]
  by_cases hd : s.epoch.dev = .finishing
  · rw [if_pos hd, if_pos hd]; rfl
  · rw [if_neg hd, if_neg hd]; rfl

/-- The drain's completion looks at the queue's rest as at any other (R100, R123). -/
theorem State.tableView_recordWritten (s : State) (ring : Ring) (r : Record) (rest : List Record)
    (hr : s.journal.ring = some ring) (hq : s.journal.queue = r :: rest) :
    s.recordWritten.tableView =
      (if r.isClosing = true ∧ s.epoch.draining = true
        then State.drained { s with journal.queue := rest }
        else { s with journal.queue := rest }).tableView := by
  unfold State.recordWritten
  rw [hr, hq]
  dsimp only
  split_ifs
  · rw [State.tableView_completeDrain]; rfl
  · rfl

/-- A copy-out start shows in the view as the entry's state alone (R83). -/
theorem State.tableView_startCopyOut (s : State) (e : Entry) (buffer : Nat) (image : ImageBuf) :
    (s.startCopyOut e buffer image).tableView =
      (s.modifyEntry e.slot fun x => { x with state := .copying }).tableView :=
  rfl

/-- A copy-out starts for an IMAGED entry (R83). -/
theorem State.dueCopyOut_entryAt {s : State} {e : Entry} {buffer : Nat} {image : ImageBuf}
    (h : s.dueCopyOut = some (e, buffer, image)) :
    s.entryAt e.slot = some e ∧ e.state = .imaged := by
  unfold State.dueCopyOut at h
  split_ifs at h
  split at h
  · split at h
    · rename_i x hx
      obtain ⟨_, hslot⟩ := State.entryAt_mem hx
      split at h
      · rename_i hs _
        cases h
        exact ⟨by rw [hslot]; exact hx, hs⟩
      · cases h
    · cases h
  · cases h

namespace Tended
variable {Q : State → Prop} (T : Tended Q)
include T

/-- The end of an event: each grant keeps it, and what is handed over it does not see. -/
theorem handOver {s : State} (h : Q s) : Q s.handOver := by
  have granted : Q s.grantBuffers :=
    grantLoop_induct (fun _ _ _ _ h hd => T.grants _ _ _ _ h hd) _ s h
  exact T.same granted (State.tableView_of_lawView (State.lawView_handChanges _))

/-- An answer's owner keeps it, or nothing in the view changes. -/
theorem ownAnswer {s : State} (h : Q s) (tag : Nat) (fits : OwnRole → Bool)
    (owner : OwnReq → State → State) (ho : ∀ r u, Q u → Q (owner r u)) :
    Q (s.ownAnswer tag fits owner) := by
  obtain ⟨_, e⟩ | ⟨i, _, ⟨_, e⟩ | ⟨_, _, e⟩ | ⟨_, _, e⟩⟩ := s.ownAnswer_cases tag fits owner <;>
    rw [e]
  · exact h
  · exact T.same h rfl
  · exact ho _ _ (T.same h rfl)
  · exact h

theorem captureLine {s : State} (h : Q s) (slot buffer line : Nat) (data : Line) :
    Q (s.captureLine slot buffer line data) := by
  have placed : ∀ p, Q { s with pool := p } := fun p => T.same h rfl
  unfold State.captureLine
  dsimp only
  split
  · exact placed _
  · rename_i e he
    obtain ⟨_, rfl⟩ := State.entryAt_mem he
    split_ifs with hs
    · exact T.counts _ e (placed _) he hs
    · exact T.captures _ e (placed _) he hs
    · exact placed _

theorem imageLine {s : State} (h : Q s) (slot : Nat) : Q (s.imageLine slot) := by
  unfold State.imageLine
  split
  · rename_i p e _ he
    obtain ⟨_, rfl⟩ := State.entryAt_mem he
    dsimp only
    split_ifs with hd
    · refine T.same (T.files s e p.image h he hd.2) ?_
      unfold State.completeImage
      dsimp only
      split <;> rfl
    · exact T.same h rfl
  · exact h

theorem completeDesc {s : State} (h : Q s) (slot : Nat) : Q (s.completeDesc slot) := by
  unfold State.completeDesc
  split
  · exact h
  · rename_i e he
    obtain ⟨_, rfl⟩ := State.entryAt_mem he
    split_ifs with hs
    · refine T.same (T.logs s e h he hs) ?_
      unfold State.countImage
      dsimp only
      split_ifs <;> rfl
    · exact h

theorem slotWritten {s : State} (h : Q s) : Q s.slotWritten := by
  unfold State.slotWritten
  split
  · exact T.same h (s.tableView_queueSlotWrite headerWrite)
  · cases hr : s.journal.ring with
    | none => unfold State.recordWritten; rw [hr]; exact h
    | some ring =>
      cases hq : s.journal.queue with
      | nil => unfold State.recordWritten; rw [hr, hq]; exact h
      | cons r rest =>
        refine T.same ?_ (s.tableView_recordWritten ring r rest hr hq)
        split_ifs with hc
        · exact T.drains s r rest h hq hc.1 hc.2
        · exact T.writes s r rest h hq hc
  all_goals exact h

theorem failLoad {s : State} (h : Q s) (hd : s.epoch.dev = .loading) (result : LoadResult) :
    Q (s.failLoad result) :=
  T.same (T.loaded s .idle h hd (.inl rfl)) rfl

theorem checkJcb {s : State} (h : Q s) (hd : s.epoch.dev = .loading) (q : Quad) :
    Q (s.checkJcb q) := by
  unfold State.checkJcb
  split_ifs
  · exact T.failLoad h hd _
  · exact T.failLoad h hd _
  · exact T.same (T.loaded s .ready h hd (.inr rfl)) rfl

theorem reportError {s : State} (h : Q s) : Q s.reportError := by
  unfold State.reportError
  split
  · rename_i hd
    exact T.failLoad h hd _
  · rename_i hd
    exact T.halts s h (by simp [State.running, hd])
  · rename_i hd
    exact T.halts s h (by simp [State.running, hd])
  all_goals exact h

theorem memoryError {s : State} (h : Q s) (r : OwnReq) (cause : ErrCause) :
    Q (s.memoryError r cause) := by
  have recorded : ∀ err, Q { s with mem.err := err } := fun err => T.same h rfl
  exact T.same (T.reportError (recorded _)) rfl

/-- Every step keeps it: each command does no more to the view than the structure names. -/
theorem kept : Kept Q where
  same s t hv h := T.same h (State.tableView_of_lawView hv)
  write s i a m d g t h he := by
    simp only [exec, execWriteArrival] at he
    split_ifs at he <;> cases he
    · exact T.handOver (T.arrives _ _ (T.same h rfl))
    · exact h
  read s i a g t h he := by
    simp only [exec, execReadArrival] at he
    split_ifs at he <;> cases he
    · exact T.routes _ _ (T.same h rfl)
    · exact h
  leave s t h he := by
    simp only [exec, execReleasedLeave] at he
    split at he <;> cases he
    · exact h
    · rename_i leaving rest hl
      unfold State.dueLeave at hl
      dsimp only at hl
      split_ifs at hl
      have hq : rest = (leaveUpTo (Config.passPlaces - s.mem.passQ.length) s.hold).2 :=
        (congrArg Prod.snd (Option.some.inj hl)).symm
      subst hq
      exact T.same (T.leaves s _ h) rfl
  issue s t h he := T.same h (State.tableView_issue he)
  captureData s g d t h he := by
    cases he
    refine T.ownAnswer h _ _ _ fun r u hu => ?_
    split
    · exact T.handOver (T.captureLine hu _ _ _ _)
    · exact hu
  imageDone s g t h he := by
    cases he
    refine T.ownAnswer h _ _ _ fun r u hu => ?_
    split
    · exact T.handOver (T.imageLine hu _)
    · exact hu
  descDone s g t h he := by
    cases he
    refine T.ownAnswer h _ _ _ fun r u hu => ?_
    split
    · exact T.completeDesc hu _
    · exact hu
  descData s g d t h he := by
    cases he
    exact T.ownAnswer h _ _ _ fun r u hu => T.same hu (u.tableView_takeDescriptor d)
  slotData s g d t h he := by
    cases he
    exact T.ownAnswer h _ _ _ fun r u hu => T.same hu (u.tableView_takeSlot d)
  slotDone s g t h he := by
    cases he
    exact T.ownAnswer h _ _ _ fun r u hu => T.slotWritten hu
  jcbData s g d t h he := by
    cases he
    refine T.ownAnswer h _ _ _ fun r u hu => ?_
    split
    · split_ifs with hd
      · exact T.checkJcb hu hd _
      · exact hu
    · exact hu
  error s g c h := T.ownAnswer h _ _ _ fun r u hu => T.memoryError hu r c
  abandoned s g h := T.same h (s.tableView_endAbandoned g)
  limit s t h he := by
    simp only [exec, execHoldLimitExpiry] at he
    split_ifs at he <;> cases he
    · exact T.handOver (T.overflows s h)
    · exact h
  age s t h he := by
    simp only [exec, execAgeExpiry] at he
    split at he <;> cases he
    · exact h
    · rename_i e hd
      unfold State.dueAge at hd
      split_ifs at hd
      have aged := List.find?_some hd
      simp only [State.aged, Bool.and_eq_true] at aged
      exact T.ages s e h (List.mem_of_find?_eq_some hd) aged.1
  firPoll s t h he := by
    simp only [exec, execFirPollExpiry] at he
    split_ifs at he <;> cases he
    · exact T.same h s.tableView_queueDescRead
    · exact h
  ringPoll s t h he := by
    simp only [exec, execRingPollExpiry] at he
    split_ifs at he <;> cases he
    · exact T.same h s.tableView_queueSlotRead
    · exact h
  grant s t h he := by
    simp only [exec, execBufferGrant] at he
    split at he <;> cases he
    · exact h
    · rename_i hd
      exact T.handOver (T.grants s _ _ _ h hd)
  prefetch s t h he := by
    simp only [exec, execPrefetch] at he
    split_ifs at he <;> cases he
    · exact T.same h s.tableView_queueDescRead
    · exact h
  copyOut s t h he := by
    simp only [exec, execCopyOutStart] at he
    split at he <;> cases he
    · exact h
    · rename_i e buffer image hd
      obtain ⟨found, imaged⟩ := State.dueCopyOut_entryAt hd
      exact T.same (T.copies s e h found imaged) (s.tableView_startCopyOut e buffer image)
  retire s t h he := by
    simp only [exec, execRetirement] at he
    split at he <;> cases he
    · exact h
    · rename_i e hd
      exact T.handOver (T.retires s e h hd)
  closeRecord s t h he := by
    simp only [exec, execCloseRecordBuild] at he
    split at he <;> cases he
    · exact h
    · rename_i sum hd
      exact T.closes s sum h hd
  slotRead s t h he := by
    simp only [exec, execJournalSlotReadStart] at he
    split_ifs at he <;> cases he
    · exact T.same h s.tableView_queueSlotRead
    · exact h
  load s h hd := T.same (T.loads s h hd) rfl
  opens s h hd hb := T.same (T.opens s h hd hb) s.tableView_acceptOpen
  switches s h hd hb := by
    obtain ⟨longest, view⟩ := s.tableView_acceptSwitch hd
    exact T.same (T.switches s longest h hd hb) view
  ends s h hd hb := T.same (T.ends s h hd hb) (s.tableView_acceptEnd hd)
  kick s h := T.same h s.tableView_takeKick
  stop s h := T.same (T.stops s h) s.tableView_takeStop
  reset := T.reset

end Tended

end Sys2Proof.Machine

/-! ### The Block Table's law (R16, R17, R18, R29, R32, R70) -/

namespace Sys2Proof.Machine

/-- The law holds of the table, whatever else changes. -/
theorem TableLaw.of_empty {s : State} (h : s.table = []) : TableLaw s := by
  unfold TableLaw
  rw [h]
  simp

theorem TableLaw.route {s : State} (h : TableLaw s) (r : Request) (x : Hold) :
    TableLaw (s.route r x) :=
  h.of_table (by rw [State.route_eq])

theorem TableLaw.arriveWrite {s : State} (h : TableLaw s) (r : Request) :
    TableLaw (s.arriveWrite r) := by
  unfold State.arriveWrite
  dsimp only
  split_ifs
  · exact h
  · exact (h.classifyWrite _ _ _ _).route _ _

/-- An entry moves on in its states: its buffer and its image keep step with them (R17, R18). -/
theorem TableLaw.advance {s : State} (h : TableLaw s) {e : Entry} (he : s.entryAt e.slot = some e)
    (f : Entry → Entry) (slot : ∀ x, (f x).slot = x.slot) (lawful : e.lawful → (f e).lawful)
    (buffer : (f e).poolBuf = e.poolBuf ∨ (f e).poolBuf = none) :
    TableLaw (s.modifyEntry e.slot f) := by
  have one : ∀ x ∈ s.table, x.slot = e.slot → x = e := fun x hx hs =>
    h.eq_of_slot hx (State.entryAt_mem he).1 hs
  refine h.modify e.slot f rfl slot (fun x hx hs => ?_) (fun x hx hs => ?_)
  · obtain rfl := one x hx hs
    obtain ⟨_, entries, _⟩ := h
    exact lawful (entries x hx).2
  · obtain rfl := one x hx hs
    exact buffer

/-- An entry that is not LOGGED is an UNDO entry (R18). -/
theorem Entry.lawful.undo {e : Entry} (h : e.lawful) (hs : e.state ≠ .logged) : e.mode = .undo := by
  obtain ⟨_, _, trace, _⟩ := h
  cases hm : e.mode with
  | trace => exact absurd (trace hm) hs
  | undo => rfl

/-- A new state of an UNDO entry, with the buffers that go with it, is lawful (R17, R18). -/
theorem Entry.lawful.setState {e x : Entry} (h : e.lawful) (hs : e.state ≠ .logged)
    (buffer : x.poolBuf.isSome = x.state.holdsBuffer)
    (image : x.imageBuf.isSome = x.state.namesImage)
    (same : x = { e with state := x.state, poolBuf := x.poolBuf, imageBuf := x.imageBuf
                         linesIn := x.linesIn }) : x.lawful := by
  have undo : x.mode = .undo := by rw [same]; exact h.undo hs
  obtain ⟨_, _, _, cause, stats⟩ := h
  refine ⟨buffer, ?_, ?_, ?_, ?_⟩
  · rw [image, undo]; rfl
  · rw [undo]; intro hm; cases hm
  · rw [same]; exact cause
  · rw [same]; exact stats

theorem TableLaw.slotImaged {s : State} (h : TableLaw s) {e : Entry}
    (he : s.entryAt e.slot = some e) (hs : e.state = .capturing) :
    TableLaw (s.slotImaged e.slot) := by
  refine TableLaw.of_table (h.advance he (fun x => { x with state := .imaged, linesIn := 4 })
    (fun _ => rfl) (fun hl => ?_) (.inl rfl)) rfl
  obtain ⟨buffer, image, _⟩ := id hl
  rw [hs] at buffer image
  refine hl.setState (by simp [hs]) buffer ?_ rfl
  rw [image]; simp [EntryState.namesImage]

theorem TableLaw.completeCapture {s : State} (h : TableLaw s) {e : Entry}
    (he : s.entryAt e.slot = some e) (hs : e.state = .capturing) :
    TableLaw (s.completeCapture e) := by
  rw [State.completeCapture_eq]
  exact TableLaw.of_table ((h.slotImaged he hs).releaseWalk _ _ _ _ _) rfl

theorem TableLaw.retireEntry {s : State} (h : TableLaw s) {e : Entry} (he : e ∈ s.table) :
    TableLaw (s.retireEntry e) := by
  have advanced : TableLaw ((s.joinRecords (.block (s.nextSeq e) e)).advanceSeq e) := by
    unfold State.advanceSeq
    split_ifs <;> exact h
  obtain ⟨_, entries, _⟩ := h
  refine (advanced.removeEntries [e.slot]).grantEntry e.slot (entries e he).1 fun x hx => ?_
  simpa using (List.mem_filter.1 hx).2

theorem State.dueRetire_entry {s : State} {e : Entry} (h : s.dueRetire = some e) :
    s.running = true ∧ s.journal.queue.length < Config.recordLimit ∧
      s.entryAt e.slot = some e ∧ e.state = .logged := by
  unfold State.dueRetire at h
  split_ifs at h with hr
  obtain ⟨slot, _, hf⟩ := List.exists_of_findSome?_eq_some h
  obtain ⟨found, logged⟩ := Option.filter_eq_some_iff.1 hf
  rw [(State.entryAt_mem found).2]
  exact ⟨hr.1, hr.2, found, by simpa using logged⟩

theorem TableLaw.reclassifyWaiters {s : State} (h : TableLaw s) : TableLaw s.reclassifyWaiters :=
  TableLaw.of_table (TableLaw.reclassify s.hold [] (h.removeEntries _)) rfl

theorem tended_tableLaw : Tended TableLaw where
  same h hv := h.of_table (congrArg TableView.table hv)
  routes s r h := h.route r _
  arrives s r h := h.arriveWrite r
  leaves s room h := h
  grants s g e n h hd := h.grantBuffer hd
  counts s e h he hs := h.advance he _ (fun _ => rfl) (fun hl => hl) (.inl rfl)
  captures s e h he hs := h.completeCapture he hs
  copies s e h he hs := by
    refine h.advance he _ (fun _ => rfl) (fun hl => ?_) (.inl rfl)
    obtain ⟨buffer, image, _⟩ := id hl
    rw [hs] at buffer image
    refine hl.setState (by simp [hs]) buffer ?_ rfl
    rw [image]; simp [EntryState.namesImage]
  files s e image h he hs :=
    h.advance he _ (fun _ => rfl) (fun hl => hl.setState (by simp [hs]) rfl rfl rfl) (.inr rfl)
  logs s e h he hs := by
    refine h.advance he _ (fun _ => rfl) (fun hl => ?_) (.inl rfl)
    have undo := hl.undo (by simp [hs])
    obtain ⟨buffer, image, _⟩ := id hl
    rw [hs] at buffer image
    refine hl.setState (by simp [hs]) buffer ?_ rfl
    rw [image, undo]; rfl
  writes s r rest h _ _ := h
  drains s r rest h _ _ _ := h
  loads s h _ := h
  loaded s d h _ _ := h
  halts s h _ := h
  overflows s h := by
    have flagged : TableLaw s.setOverflow := by
      unfold State.setOverflow
      split_ifs <;> exact h
    exact (flagged.removeEntries _).of_table rfl
  ages s e h he hc := by
    refine h.giveCause e .age he (.inr ?_)
    simp only [State.victimCandidate, Bool.and_eq_true, decide_eq_true_iff] at hc
    obtain ⟨⟨⟨_, trace⟩, _⟩, _⟩ := hc
    exact trace
  retires s e h hd := by
    obtain ⟨_, _, found, _⟩ := State.dueRetire_entry hd
    exact h.retireEntry (State.entryAt_mem found).1
  closes s sum h _ := h
  opens s h _ _ := by
    have opened : TableLaw s.opened := h
    exact opened.reclassifyWaiters.grantBuffers
  switches s longest h hd _ := by
    obtain ⟨law, _⟩ := s.switchWalked_table hd h
    exact law.of_table rfl
  ends s h hd _ := by
    have closed : TableLaw s.closeEntries := h.closeEntries
    rw [State.closeEntries_eq s hd] at closed
    exact closed.filter (fun e => !s.buffered e.slot) rfl
  stops s h := TableLaw.of_empty rfl
  reset := TableLaw.of_empty rfl

/-- Settles O53. -/
theorem everyStepKeepsTheTableLaw : Obligations.EveryStepKeepsTheTableLaw :=
  tended_tableLaw.kept.step

end Sys2Proof.Machine

/-! ### What a classification makes of the table and of its request (R21 to R24, R27 to R31) -/

namespace Sys2Proof.Machine

/-- What the laws of blocks, holds and epochs look at in an entry. -/
def Entry.standing (e : Entry) : Nat × Block × Half × EntryState :=
  (e.slot, e.block, e.epoch, e.state)

/-- A change of entries that shows in none of these. -/
theorem map_standing (table : List Entry) (f : Entry → Entry)
    (h : ∀ e, (f e).standing = e.standing) :
    (table.map f).map Entry.standing = table.map Entry.standing := by
  rw [List.map_map]
  exact List.map_congr_left fun e _ => h e

theorem Entry.standing_hit (e : Entry) (i : Initiator) (time : Word) :
    (e.update i time).withdrawAge.standing = e.standing := by
  rw [Entry.hit_eq]; rfl

theorem State.standing_hitEntry (s : State) (e : Entry) (i : Initiator) (time : Word) :
    (s.hitEntry e i time).table.map Entry.standing = s.table.map Entry.standing := by
  refine map_standing _ _ fun x => ?_
  split_ifs
  · exact x.standing_hit i time
  · rfl

theorem State.standing_victimChoice (s : State) :
    s.victimChoice.table.map Entry.standing = s.table.map Entry.standing := by
  unfold State.victimChoice
  split
  · rfl
  · refine map_standing _ _ fun x => ?_
    split_ifs <;> rfl

/-- The hold of a request that waits for no entry, no buffer and no capture. -/
def Hold.isPlain : Hold → Prop
  | .order _ mark _ => mark = false
  | .released => True
  | .entry _ | .buffer _ | .capture _ => False

theorem plainHold_isPlain (blocked : Bool) : (plainHold blocked).isPlain := by
  cases blocked <;> simp [plainHold, Hold.isPlain]

theorem follow_isPlain (c : Classification) (blocked here : Bool) :
    ((Disposition.follow here).hold c blocked).isPlain := by
  cases blocked <;> simp [Disposition.hold, Hold.isPlain]

/-- A classification either leaves the standing of every entry as it is and has its request go on,
defer its update or, on a miss, wait for an entry; or it learns an entry in the lowest free slot. -/
theorem State.classifyWrite_cases (s : State) (r : Request) (waiting ahead blocked : Bool) :
    let t := s.classifyWrite r waiting ahead blocked
    (t.1.table.map Entry.standing = s.table.map Entry.standing ∧
      (t.2.isPlain ∨ s.epoch.dev = .tracking ∧ s.lookup (blockOf r.addr) = none ∧
        ahead = false ∧ ∃ c, t.2 = .entry c)) ∨
    ∃ slot c, s.epoch.dev = .tracking ∧ s.lookup (blockOf r.addr) = none ∧ waiting = false ∧
      s.freeSlot = some slot ∧
      t.1.table = s.table ++ [newEntry slot (blockOf r.addr) s.epoch.number c] ∧
      (t.2.isPlain ∨ c.mode = .undo ∧ t.2 = .buffer slot) := by
  intro t
  cases hv : s.classify r.addr r.initiator with
  | untracked =>
    have e : t = _ := s.classifyWrite_not_tracked r waiting ahead blocked (.inl hv)
    rw [e]
    exact .inl ⟨rfl, .inl (plainHold_isPlain blocked)⟩
  | excluded =>
    have e : t = _ := s.classifyWrite_not_tracked r waiting ahead blocked (.inr hv)
    rw [e]
    exact .inl ⟨rfl, .inl (plainHold_isPlain blocked)⟩
  | tracked c =>
    obtain ⟨ht, _, _⟩ := State.classify_tracked hv
    have e : t = _ := s.classifyWrite_tracked r waiting ahead blocked c hv
    rw [e]
    cases hl : s.lookup (blockOf r.addr) with
    | some x =>
      rw [State.tableTake_hit s _ c _ _ x hl]
      exact .inl ⟨s.standing_hitEntry x _ _, .inl (follow_isPlain c blocked _)⟩
    | none =>
      cases ho : s.epoch.overflow with
      | true =>
        rw [State.tableTake_overflowed s _ c _ _ hl ho]
        exact .inl ⟨rfl, .inl (follow_isPlain c blocked false)⟩
      | false =>
        cases ahead with
        | true =>
          rw [State.tableTake_defers s _ c _ hl ho]
          exact .inl ⟨rfl, .inl rfl⟩
        | false =>
          by_cases hw : waiting = true ∨ s.freeSlot = none
          · rw [State.tableTake_waits s _ c _ hl ho hw]
            exact .inl ⟨s.standing_victimChoice, .inr ⟨ht, rfl, rfl, c, rfl⟩⟩
          · obtain ⟨hw, hf⟩ := not_or.1 hw
            obtain ⟨slot, hf⟩ := Option.ne_none_iff_exists'.1 hf
            obtain rfl := Bool.eq_false_of_not_eq_true hw
            rw [State.tableTake_learns s _ c slot hl ho hf]
            refine .inr ⟨slot, c, ht, rfl, rfl, hf, rfl, ?_⟩
            cases hm : c.mode with
            | trace => exact .inl (follow_isPlain c blocked false)
            | undo => exact .inr ⟨rfl, rfl⟩

end Sys2Proof.Machine

/-! ### The epochs of the entries and the Record Queue (R96, R97, R113, R115, R118, R122, R123) -/

namespace Sys2Proof.Machine

/-- What the law of epochs and records looks at beside the table. -/
def State.epochView (s : State) :
    (DevState × Half × Bool × Option Summary) × List Record × Bool × Bool :=
  ((s.epoch.dev, s.epoch.number, s.epoch.draining, s.epoch.summary), s.journal.queue,
    s.retire.closeBuilt, s.cmd.busy)

/-- Every entry of the table is of an epoch that has entries in `s`, or of its current epoch. -/
def State.Spans (s : State) (table : List Entry) : Prop :=
  ∀ e ∈ table, (s.epoch.dev = .tracking ∧ e.epoch = s.epoch.number) ∨
    ∃ x ∈ s.table, x.epoch = e.epoch

theorem State.spans_self (s : State) : s.Spans s.table := fun e he => .inr ⟨e, he, rfl⟩

theorem State.Spans.map {s : State} {table : List Entry} (h : s.Spans table) (f : Entry → Entry)
    (hf : ∀ e, (f e).epoch = e.epoch) : s.Spans (table.map f) := by
  intro y hy
  obtain ⟨x, hx, rfl⟩ := List.mem_map.1 hy
  rw [hf]
  exact h x hx

theorem State.Spans.filter {s : State} {table : List Entry} (h : s.Spans table) (p : Entry → Bool) :
    s.Spans (table.filter p) :=
  fun e he => h e (List.mem_of_mem_filter he)

theorem State.Spans.of_standing {s : State} {table table' : List Entry} (h : s.Spans table)
    (e : table'.map Entry.standing = table.map Entry.standing) : s.Spans table' := by
  intro y hy
  have hm : y.standing ∈ table.map Entry.standing := e ▸ List.mem_map_of_mem hy
  obtain ⟨x, hx, same⟩ := List.mem_map.1 hm
  have epoch : x.epoch = y.epoch :=
    congrArg (fun k : Nat × Block × Half × EntryState => k.2.2.1) same
  rw [← epoch]
  exact h x hx

/-- Entries leave, or join the current epoch. -/
theorem EpochLaw.of_spans {s t : State} (h : EpochLaw s) (view : t.epochView = s.epochView)
    (spans : s.Spans t.table) : EpochLaw t := by
  obtain ⟨h1, h2, h3, h4, h5, h6, h7, h8⟩ := h
  simp only [State.epochView, Prod.mk.injEq] at view
  obtain ⟨⟨dev, number, draining, summary⟩, records, built, busy⟩ := view
  have running : t.running = s.running := by unfold State.running; rw [dev]
  unfold EpochLaw
  rw [running, dev, number, draining, summary, records, built, busy]
  refine ⟨fun hd => ?_, fun hd hn => ?_, fun hd hn => ?_, fun hd => ?_, h5, fun hn hb m hm e he => ?_,
    h7, h8⟩
  · obtain ⟨empty, rest⟩ := h1 hd
    refine ⟨List.eq_nil_iff_forall_not_mem.2 fun e he => ?_, rest⟩
    obtain ⟨ht, _⟩ | ⟨x, hx, _⟩ := spans e he
    · rw [ht] at hd; simp at hd
    · rw [empty] at hx; cases hx
  · obtain ⟨all, rest⟩ := h2 hd hn
    refine ⟨fun e he => ?_, rest⟩
    obtain ⟨_, he⟩ | ⟨x, hx, he⟩ := spans e he
    · exact he
    · rw [← he]; exact all x hx
  · obtain ⟨hb, hl, m, hm, hne, all⟩ := h3 hd hn
    refine ⟨hb, hl, m, hm, hne, fun e he => ?_⟩
    obtain ⟨_, he⟩ | ⟨x, hx, he⟩ := spans e he
    · exact .inl he
    · rw [← he]; exact all x hx
  · obtain ⟨hn, hb, hl, m, hm, he, all⟩ := h4 hd
    refine ⟨hn, hb, hl, m, hm, he, fun e he => ?_⟩
    obtain ⟨_, he⟩ | ⟨x, hx, he⟩ := spans e he
    · exact he
    · rw [← he]; exact all x hx
  · obtain ⟨ht, he⟩ | ⟨x, hx, he⟩ := spans e he
    · obtain ⟨_, _, m', hm', hne, _⟩ := h3 ht hn
      rw [he, Option.mem_unique hm hm']
      exact hne.symm
    · rw [← he]; exact h6 hn hb m hm x hx

/-- What every classification keeps of an event's beginning `s`. -/
def State.Spanned (s t : State) : Prop :=
  t.epochView = s.epochView ∧ s.Spans t.table

theorem State.Spanned.classifyWrite {s t : State} (h : s.Spanned t) (r : Request)
    (waiting ahead blocked : Bool) : s.Spanned (t.classifyWrite r waiting ahead blocked).1 := by
  obtain ⟨view, spans⟩ := h
  refine ⟨?_, ?_⟩
  · rw [State.classifyWrite_eq]; exact view
  · obtain ⟨standing, _⟩ | ⟨slot, c, ht, _, _, _, learns, _⟩ :=
      t.classifyWrite_cases r waiting ahead blocked
    · exact spans.of_standing standing
    · simp only [State.epochView, Prod.mk.injEq] at view
      obtain ⟨⟨dev, number, _⟩, _⟩ := view
      rw [learns]
      intro e he
      rcases List.mem_append.1 he with he | he
      · exact spans e he
      · rw [List.mem_singleton.1 he]
        exact .inl ⟨dev ▸ ht, number⟩

theorem EpochLaw.of_spanned {s t : State} (h : EpochLaw s) (ht : s.Spanned t) : EpochLaw t :=
  h.of_spans ht.1 ht.2

theorem EpochLaw.modify {s : State} (h : EpochLaw s) (slot : Nat) (f : Entry → Entry)
    (hf : ∀ e, (f e).epoch = e.epoch) : EpochLaw (s.modifyEntry slot f) := by
  refine h.of_spans rfl (s.spans_self.map _ fun e => ?_)
  split_ifs
  · exact hf e
  · rfl

theorem EpochLaw.arriveWrite {s : State} (h : EpochLaw s) (r : Request) :
    EpochLaw (s.arriveWrite r) := by
  unfold State.arriveWrite
  dsimp only
  split_ifs
  · exact h.of_spans rfl s.spans_self
  · have taken : s.Spanned s := ⟨rfl, s.spans_self⟩
    have classified := h.of_spanned (taken.classifyWrite r (s.hold.any HeldReq.isEntry)
      (entryFor s.hold (blockOf r.addr)) (heldFor s.hold (blockOf r.addr)))
    rw [State.route_eq]
    exact classified.of_spans rfl (State.spans_self _)

theorem EpochLaw.completeCapture {s : State} (h : EpochLaw s) (e : Entry) :
    EpochLaw (s.completeCapture e) := by
  have imaged : s.Spanned (s.slotImaged e.slot) :=
    ⟨rfl, s.spans_self.map _ fun x => by split_ifs <;> rfl⟩
  have walked := releaseWalk_keeps (P := s.Spanned)
    (fun _ r w a b ht => ht.classifyWrite r w a b) e.block e.slot s.hold [] false _ imaged
  rw [State.completeCapture_eq]
  exact h.of_spans walked.1 walked.2

/-- A record that is no CLOSE record joins the queue below its limit (R91, R96). -/
theorem EpochLaw.joinRecords {s : State} (h : EpochLaw s) (running : s.running = true)
    (room : s.journal.queue.length < Config.recordLimit)
    (open_ : s.epoch.dev = .finishing → s.retire.closeBuilt = false) (r : Record)
    (hr : r.isClosing = false) : EpochLaw (s.joinRecords r) := by
  have room : (s.journal.queue ++ [r]).length ≤ 31 := by
    rw [List.length_append]; exact room
  obtain ⟨h1, h2, h3, h4, h5, h6, h7, h8⟩ := h
  refine ⟨fun hd => ?_, fun hd hn => ⟨(h2 hd hn).1, room⟩, fun hd hn => ?_, fun hd => ?_,
    fun hd => ?_, h6, fun _ => ?_, fun hd hb => ?_⟩
  · have dev : s.epoch.dev = .idle ∨ s.epoch.dev = .loading ∨ s.epoch.dev = .ready := hd
    rcases dev with dev | dev | dev <;> simp [State.running, dev] at running
  · obtain ⟨hb, _, hm⟩ := h3 hd hn
    exact ⟨hb, room.trans (by omega), hm⟩
  · obtain ⟨hn, hb, _, hm⟩ := h4 hd
    exact ⟨hn, hb, room, hm⟩
  · have dev : s.epoch.dev = .halted := hd
    simp [State.running, dev] at running
  · show ((s.journal.queue ++ [r]).any Record.isClosing = true → _) ∧
      (s.journal.queue ++ [r]).countP Record.isClosing ≤ 1
    rw [List.any_append, List.countP_append]
    simpa [hr] using h7 running
  · have built : s.retire.closeBuilt = true := hb
    rw [open_ hd] at built
    cases built

theorem standing_applyDeferred (b : Block) (q : List HeldReq) (e : Entry) :
    (applyDeferred b q e).standing = e.standing := by
  rw [applyDeferred_eq_foldl]
  generalize q.filterMap _ = ds
  induction ds generalizing e with
  | nil => rfl
  | cons d ds ih => exact ih (e.update d.initiator d.time)

/-- The table behind an entry grant: one entry more at most, of the current epoch (R25). -/
theorem State.grantEntry_table (s : State) (slot : Nat) :
    (s.grantEntry slot).table = s.table ∨
      ∃ h c, s.entryWaiter = some (h, c) ∧ (s.grantEntry slot).table = s.table ++
        [applyDeferred h.block s.hold (newEntry slot h.block s.epoch.number c)] := by
  unfold State.grantEntry
  split
  · exact .inl rfl
  · rename_i h c hw
    exact .inr ⟨h, c, hw, rfl⟩

theorem State.epochView_grantEntry (s : State) (slot : Nat) :
    (s.grantEntry slot).epochView = s.epochView := by
  unfold State.grantEntry
  split <;> rfl

/-- In FINISHING an entry of the table is of the draining epoch, whose CLOSE record is to come
(R97, R122). -/
theorem EpochLaw.open_of_finishing {s : State} (h : EpochLaw s) {e : Entry} (he : e ∈ s.table)
    (hd : s.epoch.dev = .finishing) : e.epoch = s.epoch.number ∧ s.retire.closeBuilt = false := by
  obtain ⟨_, _, _, h4, _, h6, _⟩ := h
  obtain ⟨hn, _, _, m, hm, number, all⟩ := h4 hd
  refine ⟨all e he, Bool.eq_false_of_not_eq_true fun built => ?_⟩
  exact h6 hn built m hm e he ((all e he).trans number.symm)

/-- The slot of a retired entry goes to the current epoch, which is its own unless the device tracks
(R25). -/
theorem EpochLaw.retireEntry {s : State} (h : EpochLaw s) {e : Entry} (hd : s.dueRetire = some e) :
    EpochLaw (s.retireEntry e) := by
  obtain ⟨running, room, found, _⟩ := State.dueRetire_entry hd
  obtain ⟨he, _⟩ := State.entryAt_mem found
  have recorded := h.joinRecords running room (fun hd => (h.open_of_finishing he hd).2)
    (.block (s.nextSeq e) e) rfl
  have advanced : ∀ u : State, (u.advanceSeq e).epochView = u.epochView ∧
      (u.advanceSeq e).table = u.table ∧ (u.advanceSeq e).epoch = u.epoch := fun u => by
    unfold State.advanceSeq
    split_ifs <;> exact ⟨rfl, rfl, rfl⟩
  unfold State.retireEntry
  generalize hu : s.joinRecords (.block (s.nextSeq e) e) = u at recorded
  obtain ⟨view, table, epoch⟩ := advanced u
  have kept : u.Spans (((u.advanceSeq e).removeEntries [e.slot]).table) := by
    rw [State.removeEntries_table, table]
    exact u.spans_self.filter _
  refine recorded.of_spans ((State.epochView_grantEntry _ _).trans view) ?_
  obtain same | ⟨g, c, _, same⟩ :=
    ((u.advanceSeq e).removeEntries [e.slot]).grantEntry_table e.slot <;> rw [same]
  · exact kept
  · intro x hx
    rcases List.mem_append.1 hx with hx | hx
    · exact kept x hx
    · have number : x.epoch = u.epoch.number := by
        rw [List.mem_singleton.1 hx, ← epoch]
        exact congrArg (fun k : Nat × Block × Half × EntryState => k.2.2.1)
          (standing_applyDeferred _ _ _)
      have he : e ∈ u.table := by rw [← hu]; exact he
      have runs : u.epoch.dev = .tracking ∨ u.epoch.dev = .finishing := by
        rw [← hu]; simpa [State.running] using running
      rcases runs with hd | hd
      · exact .inl ⟨hd, number⟩
      · exact .inr ⟨e, he, (recorded.open_of_finishing he hd).1.trans number.symm⟩

/-- The CLOSE record joins behind every record of its epoch (R97). -/
theorem EpochLaw.closeRecord {s : State} (h : EpochLaw s) {sum : Summary}
    (hd : s.dueClose = some sum) : EpochLaw
      { s.joinRecords (.closing sum s.retire.drainingCounter s.epoch.imagesDraining) with
        retire.closeBuilt := true } := by
  unfold State.dueClose at hd
  split_ifs at hd with hc
  obtain ⟨running, draining, unbuilt, room, none⟩ := hc
  generalize hr : Record.closing sum s.retire.drainingCounter s.epoch.imagesDraining = r
  have closing : r.isClosing = true := by rw [← hr]; rfl
  have room : (s.journal.queue ++ [r]).length ≤ 31 := by
    rw [List.length_append]; exact room
  obtain ⟨h1, h2, h3, h4, h5, _, h7, _⟩ := h
  have first : s.journal.queue.any Record.isClosing = false :=
    Bool.eq_false_of_not_eq_true fun ha => by
      obtain ⟨_, built⟩ := (h7 running).1 ha
      rw [unbuilt] at built
      cases built
  have fewer : s.journal.queue.countP Record.isClosing = 0 := by
    rw [List.countP_eq_zero]
    simpa using first
  refine ⟨fun hd => ?_, fun _ hn => ?_, fun hd hn => ?_, fun hd => ?_, fun hd => ?_,
    fun _ _ m hm e he hm' => ?_, fun _ => ⟨fun _ => ⟨draining, rfl⟩, ?_⟩, fun _ _ => ?_⟩
  · have dev : s.epoch.dev = .idle ∨ s.epoch.dev = .loading ∨ s.epoch.dev = .ready := hd
    rcases dev with dev | dev | dev <;> simp [State.running, dev] at running
  · have hn : s.epoch.draining = false := hn
    rw [draining] at hn
    cases hn
  · obtain ⟨hb, _, hm⟩ := h3 hd hn
    exact ⟨hb, room.trans (by omega), hm⟩
  · obtain ⟨hn, hb, _, hm⟩ := h4 hd
    exact ⟨hn, hb, room, hm⟩
  · have dev : s.epoch.dev = .halted := hd
    simp [State.running, dev] at running
  · have hm : s.epoch.summary = some m := hm
    have drains : s.isDraining e = true :=
      (s.isDraining_iff e).2 ⟨draining, m, hm, hm'.symm⟩
    rw [List.all_eq_true] at none
    simpa [drains] using none e he
  · show (s.journal.queue ++ [r]).countP Record.isClosing ≤ 1
    rw [List.countP_append, fewer]
    simp [closing]
  · show (s.journal.queue ++ [r]).getLast?.any Record.isClosing = true
    simp [closing]

/-- The head record leaves the queue, other than at the completion of a drain (R100). -/
theorem EpochLaw.recordLeaves {s : State} (h : EpochLaw s) {r : Record} {rest : List Record}
    (hq : s.journal.queue = r :: rest) (hc : ¬(r.isClosing = true ∧ s.epoch.draining = true)) :
    EpochLaw { s with journal.queue := rest } := by
  obtain ⟨h1, h2, h3, h4, h5, h6, h7, h8⟩ := h
  rw [hq] at h1 h2 h3 h4 h5 h7 h8
  simp only [List.length_cons] at h2 h3 h4 h5
  refine ⟨fun hd => ?_, fun hd hn => ?_, fun hd hn => ?_, fun hd => ?_, fun hd => ?_, h6,
    fun hr => ?_, fun hd hb => ?_⟩
  · obtain ⟨_, hnil, _⟩ := h1 hd
    cases hnil
  · obtain ⟨all, hl⟩ := h2 hd hn
    exact ⟨all, show rest.length ≤ 31 by omega⟩
  · obtain ⟨hb, hl, hm⟩ := h3 hd hn
    exact ⟨hb, show rest.length ≤ 32 by omega, hm⟩
  · obtain ⟨hn, hb, hl, hm⟩ := h4 hd
    exact ⟨hn, hb, show rest.length ≤ 31 by omega, hm⟩
  · obtain ⟨hn, hl⟩ := h5 hd
    exact ⟨hn, show rest.length ≤ 32 by omega⟩
  · obtain ⟨hany, hcount⟩ := h7 hr
    rw [List.any_cons] at hany
    rw [List.countP_cons] at hcount
    exact ⟨fun ha => hany (by simpa using .inr (by simpa using ha)),
      show rest.countP Record.isClosing ≤ 1 by omega⟩
  · have last := h8 hd hb
    obtain ⟨draining, _⟩ := h4 hd
    cases rest with
    | nil => exact absurd ⟨by simpa using last, draining⟩ hc
    | cons r' rest => simpa using last

/-! #### The device states one by one -/

/-- Nothing stands in a device that is at rest. -/
theorem EpochLaw.of_rest {s : State}
    (dev : s.epoch.dev = .idle ∨ s.epoch.dev = .loading ∨ s.epoch.dev = .ready)
    (table : s.table = []) (records : s.journal.queue = []) (draining : s.epoch.draining = false) :
    EpochLaw s := by
  unfold EpochLaw
  rw [table, records, draining]
  rcases dev with dev | dev | dev <;> simp [State.running, dev]

/-- An epoch is open and no drain is in progress. -/
theorem EpochLaw.of_tracking {s : State} (dev : s.epoch.dev = .tracking)
    (draining : s.epoch.draining = false) (table : ∀ e ∈ s.table, e.epoch = s.epoch.number)
    (room : s.journal.queue.length ≤ 31) (records : s.journal.queue.any Record.isClosing = false) :
    EpochLaw s := by
  have none : s.journal.queue.countP Record.isClosing = 0 := by
    rw [List.countP_eq_zero]
    simpa using records
  unfold EpochLaw
  rw [draining, records, none, dev]
  simpa using ⟨table, room⟩

/-- The device has halted: no drain goes on. -/
theorem EpochLaw.of_halted {s : State} (dev : s.epoch.dev = .halted)
    (draining : s.epoch.draining = false) (room : s.journal.queue.length ≤ 32) : EpochLaw s := by
  unfold EpochLaw
  rw [draining, dev]
  simpa [State.running, dev] using room

/-- A drain goes on beside the open epoch, or behind the last one; its CLOSE record is to come. -/
theorem EpochLaw.of_draining {s : State} {m : Summary}
    (dev : (s.epoch.dev = .tracking ∧ m.epoch ≠ s.epoch.number ∧ s.journal.queue.length ≤ 32) ∨
      (s.epoch.dev = .finishing ∧ m.epoch = s.epoch.number ∧ s.journal.queue.length ≤ 31))
    (draining : s.epoch.draining = true) (summary : s.epoch.summary = some m)
    (built : s.retire.closeBuilt = false) (busy : s.cmd.busy = true)
    (table : ∀ e ∈ s.table, e.epoch = s.epoch.number ∨ e.epoch = m.epoch)
    (records : s.journal.queue.any Record.isClosing = false) : EpochLaw s := by
  have none : s.journal.queue.countP Record.isClosing = 0 := by
    rw [List.countP_eq_zero]
    simpa using records
  unfold EpochLaw
  rw [draining, records, none, summary, built, busy]
  obtain ⟨dev, number, room⟩ | ⟨dev, number, room⟩ := dev
  · rw [dev]
    simpa using ⟨room, number, table⟩
  · rw [dev]
    rw [number] at table
    simpa [number] using ⟨room, fun e he => (table e he).elim id id⟩

theorem EpochLaw.atRest {s : State} (h : EpochLaw s)
    (dev : s.epoch.dev = .idle ∨ s.epoch.dev = .loading ∨ s.epoch.dev = .ready) :
    s.table = [] ∧ s.journal.queue = [] ∧ s.epoch.draining = false := h.1 dev

/-- A drain is in progress in TRACKING and FINISHING alone (R122). -/
theorem EpochLaw.running_of_draining {s : State} (h : EpochLaw s)
    (draining : s.epoch.draining = true) : s.epoch.dev = .tracking ∨ s.epoch.dev = .finishing := by
  obtain ⟨h1, _, _, _, h5, _⟩ := h
  rw [draining] at h1 h5
  cases dev : s.epoch.dev <;> simp [dev] at h1 h5 ⊢

/-- At the completion of the drain the queue holds no other CLOSE record, and no entry of the closed
epoch is left (R97, R123). -/
theorem EpochLaw.drains {s : State} (h : EpochLaw s) {r : Record} {rest : List Record}
    (hq : s.journal.queue = r :: rest) (hc : r.isClosing = true)
    (hd : s.epoch.draining = true) :
    EpochLaw (State.drained { s with journal.queue := rest }) := by
  have runs := h.running_of_draining hd
  have running : s.running = true := by simpa [State.running] using runs
  obtain ⟨_, _, h3, h4, _, h6, h7, h8⟩ := h
  obtain ⟨hany, hcount⟩ := h7 running
  rw [hq] at h3 h4 hany hcount h8
  obtain ⟨_, built⟩ := hany (by simp [hc])
  have others : rest.any Record.isClosing = false := by
    rw [List.countP_cons, if_pos hc] at hcount
    have none : rest.countP Record.isClosing = 0 := by omega
    rw [List.countP_eq_zero] at none
    simpa using none
  rcases runs with dev | dev
  · obtain ⟨_, room, m, hm, _, all⟩ := h3 dev hd
    refine EpochLaw.of_tracking (by simp [State.drained, dev]) rfl (fun e he => ?_)
      (Nat.le_of_succ_le_succ room) others
    exact (all e he).resolve_right (h6 hd built m hm e he)
  · obtain ⟨_, _, _, m, hm, number, all⟩ := h4 dev
    have last := h8 dev built
    refine EpochLaw.of_rest (.inr (.inr (by simp [State.drained, dev]))) ?_ ?_ rfl
    · refine List.eq_nil_iff_forall_not_mem.2 fun e he => ?_
      exact h6 hd built m hm e he ((all e he).trans number.symm)
    · show rest = []
      cases rest with
      | nil => rfl
      | cons r' rest =>
        rw [List.getLast?_cons_cons] at last
        obtain ⟨x, hx, closing⟩ := Option.any_eq_true _ _ |>.1 last
        rw [List.any_eq_false] at others
        exact absurd closing (others x (List.mem_of_getLast? hx))

theorem EpochLaw.halt {s : State} (h : EpochLaw s) (running : s.running = true) :
    EpochLaw s.halt := by
  have runs : s.epoch.dev = .tracking ∨ s.epoch.dev = .finishing := by
    simpa [State.running] using running
  obtain ⟨_, h2, h3, h4, _⟩ := h
  refine EpochLaw.of_halted rfl rfl ?_
  show s.journal.queue.length ≤ 32
  rcases runs with dev | dev
  · cases draining : s.epoch.draining with
    | false => exact (h2 dev draining).2.trans (by omega)
    | true =>
      obtain ⟨_, room, _⟩ := h3 dev draining
      exact room
  · obtain ⟨_, _, room, _⟩ := h4 dev
    omega

/-- At a cut the current epoch is the only one with entries (R97, R113). -/
theorem EpochLaw.atCut {s : State} (h : EpochLaw s) (dev : s.epoch.dev = .tracking)
    (busy : s.cmd.busy = false) :
    s.epoch.draining = false ∧ (∀ e ∈ s.table, e.epoch = s.epoch.number) ∧
      s.journal.queue.length ≤ 31 ∧ s.journal.queue.any Record.isClosing = false := by
  obtain ⟨_, h2, h3, _, _, _, h7, _⟩ := h
  have draining : s.epoch.draining = false := Bool.eq_false_of_not_eq_true fun hd => by
    have := (h3 dev hd).1
    rw [busy] at this
    cases this
  obtain ⟨all, room⟩ := h2 dev draining
  refine ⟨draining, all, room, Bool.eq_false_of_not_eq_true fun ha => ?_⟩
  have := ((h7 (by simp [State.running, dev])).1 ha).1
  rw [draining] at this
  cases this

/-! #### The law under every thing a step can do -/

theorem EpochLaw.of_tableView {s t : State} (h : EpochLaw s) (view : t.tableView = s.tableView) :
    EpochLaw t := by
  have table : t.table = s.table := congrArg TableView.table view
  refine h.of_spans ?_ (table ▸ s.spans_self)
  exact congrArg (fun v : TableView => (v.epoch, v.records, v.closeBuilt, v.busy)) view

theorem State.Spanned.grantBuffers {s t : State} (h : s.Spanned t) : s.Spanned t.grantBuffers := by
  refine grantLoop_induct (P := s.Spanned) (fun u g e n ⟨view, spans⟩ _ => ?_) _ t h
  exact ⟨view, spans.map _ fun x => by split_ifs <;> rfl⟩

theorem State.Spanned.reclassify {s t : State} (h : s.Spanned t) (q done : List HeldReq) :
    s.Spanned (reclassify q done t).1 :=
  reclassify_keeps (P := s.Spanned) (fun _ r w a b ht => ht.classifyWrite r w a b) q done t h

theorem EpochLaw.opens {s : State} (h : EpochLaw s) (dev : s.epoch.dev = .ready) :
    EpochLaw s.opened.reclassifyWaiters.grantBuffers := by
  obtain ⟨table, records, draining⟩ := h.atRest (.inr (.inr dev))
  have opened : EpochLaw s.opened := by
    have queue : s.opened.journal.queue = s.journal.queue ++ [_] := rfl
    rw [records] at queue
    refine EpochLaw.of_tracking rfl draining (fun e he => ?_) ?_ ?_
    · have he : e ∈ s.table := he
      rw [table] at he
      cases he
    · rw [queue]; simp
    · rw [queue]; rfl
  have freed : s.opened.Spanned s.opened.freePending := ⟨rfl, s.opened.spans_self.filter _⟩
  have walked : s.opened.Spanned s.opened.reclassifyWaiters := freed.reclassify s.opened.hold []
  exact opened.of_spanned walked.grantBuffers

theorem State.closedTable_epoch {s : State} {e : Entry} (h : e ∈ s.closedTable) :
    ∃ x ∈ s.table, x.epoch = e.epoch := by
  obtain ⟨x, hx, rfl⟩ := List.mem_map.1 h
  refine ⟨x, hx, ?_⟩
  split_ifs <;> rfl

theorem EpochLaw.switches {s : State} (h : EpochLaw s) (dev : s.epoch.dev = .tracking)
    (busy : s.cmd.busy = false) (longest : Word) : EpochLaw
      { s.switchWalked.grantBuffers with epoch := s.switchedEpoch longest, cmd.busy := true } := by
  obtain ⟨_, all, room, records⟩ := h.atCut dev busy
  have begun : s.switchOpened.Spanned s.switchOpened := ⟨rfl, State.spans_self _⟩
  have walked : s.switchOpened.Spanned s.switchWalked := begun.reclassify s.hold []
  obtain ⟨view, spans⟩ := walked.grantBuffers
  simp only [State.epochView, Prod.mk.injEq] at view
  obtain ⟨_, queue, built, _⟩ := view
  refine EpochLaw.of_draining (.inl ⟨dev, (add_one_ne_self s.epoch.number).symm, ?_⟩) rfl rfl built
    rfl (fun e he => ?_) ?_
  · show s.switchWalked.grantBuffers.journal.queue.length ≤ 32
    rw [queue]
    show (s.journal.queue ++ [_]).length ≤ 32
    rw [List.length_append]
    exact Nat.succ_le_succ room
  · obtain ⟨_, number⟩ | ⟨x, hx, number⟩ := spans e he
    · exact .inl number
    · obtain ⟨y, hy, closed⟩ := State.closedTable_epoch (List.mem_of_mem_filter hx)
      exact .inr (number.symm.trans (closed.symm.trans (all y hy)))
  · show s.switchWalked.grantBuffers.journal.queue.any Record.isClosing = false
    rw [queue]
    show (s.journal.queue ++ [_]).any Record.isClosing = false
    rw [List.any_append, records]
    rfl

theorem EpochLaw.ends {s : State} (h : EpochLaw s) (dev : s.epoch.dev = .tracking)
    (busy : s.cmd.busy = false) : EpochLaw { s.ended with cmd.busy := true } := by
  obtain ⟨_, all, room, records⟩ := h.atCut dev busy
  refine EpochLaw.of_draining (.inr ⟨rfl, rfl, room⟩) rfl rfl rfl rfl (fun e he => .inl ?_) records
  obtain ⟨y, hy, closed⟩ := State.closedTable_epoch (List.mem_of_mem_filter he)
  exact closed.symm.trans (all y hy)

theorem State.epochView_setOverflow (s : State) : s.setOverflow.epochView = s.epochView := by
  unfold State.setOverflow
  split_ifs <;> rfl

theorem State.setOverflow_table (s : State) : s.setOverflow.table = s.table := by
  unfold State.setOverflow
  split_ifs <;> rfl

theorem EpochLaw.overflowEpoch {s : State} (h : EpochLaw s) : EpochLaw s.overflowEpoch := by
  refine h.of_spans s.epochView_setOverflow (fun e he => ?_)
  have he : e ∈ s.setOverflow.table := List.mem_of_mem_filter he
  exact s.spans_self e (s.setOverflow_table ▸ he)

/-- Every command keeps the law of epochs and records. -/
theorem tended_epochLaw : Tended EpochLaw where
  same h view := h.of_tableView view
  routes s r h := by
    rw [State.route_eq]
    exact h.of_spans rfl s.spans_self
  arrives s r h := h.arriveWrite r
  leaves s room h := h.of_spans rfl s.spans_self
  grants s g e n h hd := by
    have granted : s.Spanned (s.grantBuffer g e n) :=
      ⟨rfl, s.spans_self.map _ fun x => by split_ifs <;> rfl⟩
    exact h.of_spanned granted
  counts s e h _ _ := h.modify _ _ fun _ => rfl
  captures s e h _ _ := h.completeCapture e
  copies s e h _ _ := h.modify _ _ fun _ => rfl
  files s e image h _ _ := h.modify _ _ fun _ => rfl
  logs s e h _ _ := h.modify _ _ fun _ => rfl
  writes s r rest h hq hc := h.recordLeaves hq hc
  drains s r rest h hq hc hd := h.drains hq hc hd
  loads s h dev := by
    obtain ⟨table, records, draining⟩ := h.atRest (dev.imp id .inr)
    exact EpochLaw.of_rest (.inr (.inl rfl)) table records draining
  loaded s d h dev hd := by
    obtain ⟨table, records, draining⟩ := h.atRest (.inr (.inl dev))
    exact EpochLaw.of_rest (hd.imp id .inr) table records draining
  halts s h running := h.halt running
  overflows s h := h.overflowEpoch
  ages s e h _ _ := h.of_spans rfl (s.spans_self.map _ fun x => by split_ifs <;> rfl)
  retires s e h hd := h.retireEntry hd
  closes s sum h hd := h.closeRecord hd
  opens s h dev _ := h.opens dev
  switches s longest h dev busy := h.switches dev busy longest
  ends s h dev busy := h.ends dev busy
  stops s h := EpochLaw.of_rest (.inl rfl) rfl rfl rfl
  reset := EpochLaw.of_rest (.inl rfl) rfl rfl rfl

end Sys2Proof.Machine

/-! ### Single blocks and what the Hold Queue's requests stand for (R16, R21 to R24, R38, R55, R57,
R58, R117) -/

namespace Sys2Proof.Machine

/-! #### The law of a queue -/

/-- What `HoldLaw` says of a queue `q` beside the table of `s`, but for the classify-on-release marks
of the blocks in `exempt`. -/
structure HoldsStand (exempt : Block → Prop) (s : State) (q : List HeldReq) : Prop where
  tracked : s.epoch.dev ≠ .tracking → ∀ h ∈ q, h.isWaiter = false
  buffer : ∀ h ∈ q, ∀ n ∈ h.bufferSlot, ∃ e ∈ s.table,
    e.slot = n ∧ e.block = h.block ∧ e.epoch = s.epoch.number ∧ e.state = .pending
  capture : ∀ h ∈ q, ∀ n ∈ h.captureSlot, ∃ e ∈ s.table,
    e.slot = n ∧ e.block = h.block ∧ e.state = .capturing
  captured : s.running = true → ∀ e ∈ s.table, e.state = .capturing →
    ∃ h ∈ q, h.captureSlot = some e.slot
  marked : ∀ h ∈ q, h.isMarked = true →
    exempt h.block ∨ ∃ g ∈ q, g.block = h.block ∧ s.waitsForOldCapture g
  alone : ∀ g ∈ q, s.waitsForOldCapture g → ∀ h ∈ q, h.block = g.block →
    h.isWaiter = false ∧ (h.captureSlot = none ∨ h.captureSlot = g.captureSlot)
  entry : ∀ h ∈ q, h.isEntry = true → ∀ e ∈ s.table, e.block = h.block → e.epoch ≠ s.epoch.number
  single : ((q.filter HeldReq.isEntry).map HeldReq.block).Nodup

theorem holdLaw_iff (s : State) : HoldLaw s ↔ HoldsStand (fun _ => False) s s.hold := by
  constructor
  · rintro ⟨h1, h2, h3, h4, h5, h6, h7, h8⟩
    exact ⟨h1, h2, h3, h4, fun h hm hk => .inr (h5 h hm hk), h6, h7, h8⟩
  · rintro ⟨h1, h2, h3, h4, h5, h6, h7, h8⟩
    exact ⟨h1, h2, h3, h4, fun h hm hk => (h5 h hm hk).resolve_left id, h6, h7, h8⟩

/-! #### Requests that wait for less -/

/-- The request `h'` waits for nothing that `h` does not wait for, and for the same capture. -/
structure Eases (h h' : HeldReq) : Prop where
  block : h'.block = h.block
  capture : h'.captureSlot = h.captureSlot
  waiter : h'.isWaiter = true → h.isWaiter = true
  buffer : ∀ n ∈ h'.bufferSlot, n ∈ h.bufferSlot
  entry : h'.isEntry = true → h.isEntry = true
  marked : h'.isMarked = true → h.isMarked = true

theorem Eases.refl (h : HeldReq) : Eases h h :=
  ⟨rfl, rfl, id, fun _ => id, id, id⟩

/-- Whatever waits for no capture may be released, or held in its block's order. -/
theorem Eases.setHold {h : HeldReq} (hc : h.captureSlot = none) {x : Hold} (hx : x.isPlain) :
    Eases h (h.setHold x) := by
  cases x with
  | released => exact ⟨rfl, hc.symm, by simp [HeldReq.isWaiter, HeldReq.setHold],
      by simp [HeldReq.bufferSlot, HeldReq.setHold], by simp [HeldReq.isEntry, HeldReq.setHold],
      by simp [HeldReq.isMarked, HeldReq.setHold]⟩
  | order d mark here =>
    obtain rfl : mark = false := hx
    exact ⟨rfl, hc.symm, by simp [HeldReq.isWaiter, HeldReq.setHold],
      by simp [HeldReq.bufferSlot, HeldReq.setHold], by simp [HeldReq.isEntry, HeldReq.setHold],
      by simp [HeldReq.isMarked, HeldReq.setHold]⟩
  | entry c => cases hx
  | buffer n => cases hx
  | capture n => cases hx

theorem Eases.release {h : HeldReq} (hc : h.captureSlot = none) : Eases h h.release :=
  Eases.setHold (x := .released) hc trivial

/-- The items of an ORDER request other than its mark may change. -/
theorem Eases.setOrder {h : HeldReq} {d d' : Option Deferred} {mark here here' : Bool}
    (hh : h.hold = .order d mark here) : Eases h (h.setHold (.order d' mark here')) := by
  obtain ⟨r, x, st, tm, ra⟩ := h
  obtain rfl : x = .order d mark here := hh
  exact ⟨rfl, rfl, by simp [HeldReq.isWaiter, HeldReq.setHold],
    by simp [HeldReq.bufferSlot, HeldReq.setHold], by simp [HeldReq.isEntry, HeldReq.setHold], id⟩

theorem Eases.releaseOrders (held : List Block) (q : List HeldReq) :
    List.Forall₂ Eases q (releaseOrders held q) := by
  induction q generalizing held with
  | nil => exact .nil
  | cons h rest ih =>
    unfold Machine.releaseOrders
    cases hh : h.hold with
    | order d mark here =>
      dsimp only
      split_ifs
      · exact .cons (Eases.refl h) (ih _)
      · exact .cons (Eases.release (by simp [HeldReq.captureSlot, hh])) (ih _)
    | _ => exact .cons (Eases.refl h) (ih _)

theorem Eases.map {q : List HeldReq} {f : HeldReq → HeldReq} (h : ∀ g ∈ q, Eases g (f g)) :
    List.Forall₂ Eases q (q.map f) := by
  rw [List.forall₂_map_right_iff, List.forall₂_same]
  exact h

theorem Eases.of_mem_right {q q' : List HeldReq} (hq : List.Forall₂ Eases q q') {h' : HeldReq}
    (hm : h' ∈ q') : ∃ h ∈ q, Eases h h' := by
  induction hq with
  | nil => cases hm
  | cons he _ ih =>
    rcases List.mem_cons.1 hm with rfl | hm
    · exact ⟨_, List.mem_cons_self, he⟩
    · obtain ⟨h, hh, he⟩ := ih hm
      exact ⟨h, List.mem_cons_of_mem _ hh, he⟩

theorem Eases.of_mem_left {q q' : List HeldReq} (hq : List.Forall₂ Eases q q') {h : HeldReq}
    (hm : h ∈ q) : ∃ h' ∈ q', Eases h h' := by
  induction hq with
  | nil => cases hm
  | cons he _ ih =>
    rcases List.mem_cons.1 hm with rfl | hm
    · exact ⟨_, List.mem_cons_self, he⟩
    · obtain ⟨h, hh, he⟩ := ih hm
      exact ⟨h, List.mem_cons_of_mem _ hh, he⟩

theorem Eases.entryBlocks {q q' : List HeldReq} (hq : List.Forall₂ Eases q q') :
    ((q'.filter HeldReq.isEntry).map HeldReq.block).Sublist
      ((q.filter HeldReq.isEntry).map HeldReq.block) := by
  induction hq with
  | nil => exact List.Sublist.refl _
  | @cons h h' _ _ he _ ih =>
    simp only [List.filter_cons]
    by_cases hw : h'.isEntry = true
    · rw [if_pos hw, if_pos (he.entry hw), List.map_cons, List.map_cons, he.block]
      exact ih.cons_cons _
    · rw [if_neg hw]
      split_ifs
      · exact ih.cons _
      · exact ih

theorem State.waitsForOldCapture_congr {s : State} {g g' : HeldReq}
    (h : g'.captureSlot = g.captureSlot) : s.waitsForOldCapture g' ↔ s.waitsForOldCapture g := by
  unfold State.waitsForOldCapture
  rw [h]

/-- Requests that wait for less stand for what is there. -/
theorem HoldsStand.eases {exempt : Block → Prop} {s : State} {q q' : List HeldReq}
    (h : HoldsStand exempt s q) (hq : List.Forall₂ Eases q q') : HoldsStand exempt s q' where
  tracked hd g' hg' := by
    obtain ⟨g, hg, he⟩ := Eases.of_mem_right hq hg'
    refine Bool.eq_false_of_not_eq_true fun hw => ?_
    have waits := h.tracked hd g hg
    rw [he.waiter hw] at waits
    cases waits
  buffer g' hg' n hn := by
    obtain ⟨g, hg, he⟩ := Eases.of_mem_right hq hg'
    rw [he.block]
    exact h.buffer g hg n (he.buffer n hn)
  capture g' hg' n hn := by
    obtain ⟨g, hg, he⟩ := Eases.of_mem_right hq hg'
    rw [he.block]
    exact h.capture g hg n (he.capture ▸ hn)
  captured hr e hm hs := by
    obtain ⟨g, hg, hc⟩ := h.captured hr e hm hs
    obtain ⟨g', hg', he⟩ := Eases.of_mem_left hq hg
    exact ⟨g', hg', he.capture.trans hc⟩
  marked g' hg' hk := by
    obtain ⟨g, hg, he⟩ := Eases.of_mem_right hq hg'
    rw [he.block]
    refine (h.marked g hg (he.marked hk)).imp id ?_
    rintro ⟨o, ho, hb, hw⟩
    obtain ⟨o', ho', ho''⟩ := Eases.of_mem_left hq ho
    exact ⟨o', ho', ho''.block.trans hb, (State.waitsForOldCapture_congr ho''.capture).2 hw⟩
  alone o' ho' hw g' hg' hb := by
    obtain ⟨o, ho, hoe⟩ := Eases.of_mem_right hq ho'
    obtain ⟨g, hg, he⟩ := Eases.of_mem_right hq hg'
    obtain ⟨waits, captures⟩ := h.alone o ho ((State.waitsForOldCapture_congr hoe.capture).1 hw) g hg
      (he.block.symm.trans (hb.trans hoe.block))
    rw [he.capture, hoe.capture]
    refine ⟨Bool.eq_false_of_not_eq_true fun hw => ?_, captures⟩
    rw [he.waiter hw] at waits
    cases waits
  entry g' hg' hi := by
    obtain ⟨g, hg, he⟩ := Eases.of_mem_right hq hg'
    rw [he.block]
    exact h.entry g hg (he.entry hi)
  single := h.single.sublist (Eases.entryBlocks hq)

/-! #### The table, the blocks and the queue together -/

/-- What a held request can stand for in an entry: slot, block, epoch, and whether the entry is
PENDING or CAPTURING. -/
def Entry.anchor (e : Entry) : Nat × Block × Half × Bool × Bool :=
  (e.slot, e.block, e.epoch, decide (e.state = .pending), decide (e.state = .capturing))

theorem Entry.anchor_eq_iff (e x : Entry) : e.anchor = x.anchor ↔
    e.slot = x.slot ∧ e.block = x.block ∧ e.epoch = x.epoch ∧
      (e.state = .pending ↔ x.state = .pending) ∧
      (e.state = .capturing ↔ x.state = .capturing) := by
  simp [Entry.anchor]

theorem anchor_of_standing {table table' : List Entry}
    (h : table'.map Entry.standing = table.map Entry.standing) :
    table'.map Entry.anchor = table.map Entry.anchor := by
  have through := congrArg (List.map fun k : Nat × Block × Half × EntryState =>
    (k.1, k.2.1, k.2.2.1, decide (k.2.2.2 = .pending), decide (k.2.2.2 = .capturing))) h
  rwa [List.map_map, List.map_map] at through

/-- What the laws of blocks and holds look at in the Epoch Controller. -/
def State.epochKey (s : State) : DevState × Half × Option Half :=
  (s.epoch.dev, s.epoch.number, s.drainingNumber)

/-- The laws of the table, of blocks and of holds, for a queue that stands beside the table, and that
an open epoch is not the draining one. -/
structure Stands (exempt : Block → Prop) (s : State) (q : List HeldReq) : Prop where
  table : TableLaw s
  blocks : BlockLaw s
  fresh : s.epoch.dev = .tracking → s.drainingNumber ≠ some s.epoch.number
  holds : HoldsStand exempt s q

theorem Stands.eases {exempt : Block → Prop} {s : State} {q q' : List HeldReq}
    (h : Stands exempt s q) (hq : List.Forall₂ Eases q q') : Stands exempt s q' :=
  ⟨h.table, h.blocks, h.fresh, h.holds.eases hq⟩

theorem State.epochKey_eq_iff (s t : State) : t.epochKey = s.epochKey ↔
    t.epoch.dev = s.epoch.dev ∧ t.epoch.number = s.epoch.number ∧
      t.drainingNumber = s.drainingNumber := by
  simp [State.epochKey]

theorem State.running_of_key {s t : State} (key : t.epochKey = s.epochKey) :
    t.running = s.running := by
  obtain ⟨dev, _⟩ := (s.epochKey_eq_iff t).1 key
  unfold State.running
  rw [dev]

/-- Entries of one epoch drain alike. -/
theorem State.isDraining_of_key {s t : State} (key : t.epochKey = s.epochKey) {x y : Entry}
    (epoch : y.epoch = x.epoch) : t.isDraining y = s.isDraining x := by
  obtain ⟨_, _, draining⟩ := (s.epochKey_eq_iff t).1 key
  unfold State.isDraining
  rw [draining, epoch]

/-- The requests go on standing when the entries that they can stand for stay, and those that are
new are nothing to them. -/
theorem HoldsStand.of_entries {exempt : Block → Prop} {s t : State} {q : List HeldReq}
    (h : HoldsStand exempt s q) (law : TableLaw s) (epoch : t.epochKey = s.epochKey)
    (stay : ∀ x ∈ s.table, x.state = .capturing ∨ (∃ g ∈ q, g.bufferSlot = some x.slot) →
      ∃ e ∈ t.table, e.anchor = x.anchor)
    (origin : ∀ e ∈ t.table, (∃ x ∈ s.table, e.anchor = x.anchor) ∨
      (e.state ≠ .capturing ∧ (∀ x ∈ s.table, x.slot ≠ e.slot) ∧
        ∀ g ∈ q, g.isEntry = true → g.block ≠ e.block)) : HoldsStand exempt t q := by
  obtain ⟨dev, number, _⟩ := (s.epochKey_eq_iff t).1 epoch
  have running : t.running = s.running := State.running_of_key epoch
  have drains : ∀ e x : Entry, e.epoch = x.epoch → t.isDraining e = s.isDraining x :=
    fun _ _ he => State.isDraining_of_key epoch he
  have waits : ∀ g ∈ q, t.waitsForOldCapture g ↔ s.waitsForOldCapture g := by
    intro g hg
    constructor
    · rintro ⟨e, he, hc, hd⟩
      obtain ⟨y, hy, hys, _⟩ := h.capture g hg _ hc
      obtain ⟨x, hx, ha⟩ | ⟨_, unused, _⟩ := origin e he
      · obtain ⟨slot, _, ep, _⟩ := (e.anchor_eq_iff x).1 ha
        exact ⟨x, hx, hc.trans (by rw [slot]), drains e x ep ▸ hd⟩
      · exact absurd hys (unused y hy)
    · rintro ⟨x, hx, hc, hd⟩
      obtain ⟨y, hy, hys, _, hst⟩ := h.capture g hg _ hc
      obtain rfl := law.eq_of_slot hy hx hys
      obtain ⟨e, he, ha⟩ := stay y hy (.inl hst)
      obtain ⟨slot, _, ep, _⟩ := (e.anchor_eq_iff y).1 ha
      exact ⟨e, he, hc.trans (by rw [slot]), (drains e y ep).symm ▸ hd⟩
  refine ⟨fun hd => h.tracked (dev ▸ hd), fun g hg n hn => ?_, fun g hg n hn => ?_,
    fun hr e he hs => ?_, fun g hg hk => ?_, fun g hg hw => h.alone g hg ((waits g hg).1 hw),
    fun g hg hi e he hb => ?_, h.single⟩
  · obtain ⟨x, hx, hslot, hblock, hepoch, hstate⟩ := h.buffer g hg n hn
    obtain ⟨e, he, ha⟩ := stay x hx (.inr ⟨g, hg, hn.trans (by rw [hslot])⟩)
    obtain ⟨slot, block, ep, pending, _⟩ := (e.anchor_eq_iff x).1 ha
    exact ⟨e, he, slot.trans hslot, block.trans hblock, ep.trans (hepoch.trans number.symm),
      pending.2 hstate⟩
  · obtain ⟨x, hx, hslot, hblock, hstate⟩ := h.capture g hg n hn
    obtain ⟨e, he, ha⟩ := stay x hx (.inl hstate)
    obtain ⟨slot, block, _, _, capturing⟩ := (e.anchor_eq_iff x).1 ha
    exact ⟨e, he, slot.trans hslot, block.trans hblock, capturing.2 hstate⟩
  · obtain ⟨x, hx, ha⟩ | ⟨other, _⟩ := origin e he
    · obtain ⟨slot, _, _, _, capturing⟩ := (e.anchor_eq_iff x).1 ha
      rw [slot]
      exact h.captured (running ▸ hr) x hx (capturing.1 hs)
    · exact absurd hs other
  · refine (h.marked g hg hk).imp id ?_
    rintro ⟨o, ho, hb, hw⟩
    exact ⟨o, ho, hb, (waits o ho).2 hw⟩
  · rw [number]
    obtain ⟨x, hx, ha⟩ | ⟨_, _, strange⟩ := origin e he
    · obtain ⟨_, block, ep, _⟩ := (e.anchor_eq_iff x).1 ha
      rw [ep]
      exact h.entry g hg hi x hx (block.symm.trans hb)
    · exact absurd hb.symm (strange g hg hi)

theorem BlockLaw.of_blocks {s t : State} (h : BlockLaw s)
    (blocks : t.table.map (fun e => (e.block, e.epoch)) = s.table.map fun e => (e.block, e.epoch)) :
    BlockLaw t := by
  unfold BlockLaw
  rw [blocks]
  exact h

theorem BlockLaw.of_anchor {s t : State} (h : BlockLaw s)
    (table : t.table.map Entry.anchor = s.table.map Entry.anchor) : BlockLaw t := by
  have through := congrArg (List.map fun k : Nat × Block × Half × Bool × Bool => (k.2.1, k.2.2.1))
    table
  rw [List.map_map, List.map_map] at through
  exact h.of_blocks through

/-- Entries that change in other fields than block and epoch. -/
theorem BlockLaw.of_map {s t : State} (h : BlockLaw s) (f : Entry → Entry)
    (place : ∀ e, (f e).block = e.block ∧ (f e).epoch = e.epoch) (table : t.table = s.table.map f) :
    BlockLaw t := by
  refine h.of_blocks ?_
  rw [table, List.map_map]
  refine List.map_congr_left fun e _ => ?_
  obtain ⟨block, epoch⟩ := place e
  simp only [Function.comp, block, epoch]

/-- Entries of one block and one epoch are one entry (R16). -/
theorem BlockLaw.eq_of_block {s : State} (h : BlockLaw s) {a b : Entry} (ha : a ∈ s.table)
    (hb : b ∈ s.table) (block : a.block = b.block) (epoch : a.epoch = b.epoch) : a = b :=
  List.inj_on_of_nodup_map h ha hb (Prod.ext block epoch)

/-- Changes of entries that leave what a request can stand for. -/
theorem Stands.of_anchor {exempt : Block → Prop} {s t : State} {q : List HeldReq}
    (h : Stands exempt s q) (law : TableLaw t) (epoch : t.epochKey = s.epochKey)
    (table : t.table.map Entry.anchor = s.table.map Entry.anchor) : Stands exempt t q := by
  obtain ⟨dev, number, draining⟩ := (s.epochKey_eq_iff t).1 epoch
  refine ⟨law, h.blocks.of_anchor table, by rw [dev, number, draining]; exact h.fresh, ?_⟩
  refine h.holds.of_entries h.table epoch (fun x hx _ => ?_) fun e he => .inl ?_
  · have hm : x.anchor ∈ t.table.map Entry.anchor := table ▸ List.mem_map_of_mem hx
    exact List.mem_map.1 hm
  · have hm : e.anchor ∈ s.table.map Entry.anchor := table ▸ List.mem_map_of_mem he
    obtain ⟨x, hx, ha⟩ := List.mem_map.1 hm
    exact ⟨x, hx, ha.symm⟩

/-- Entries that no request stands for may leave. -/
theorem Stands.filter {exempt : Block → Prop} {s t : State} {q : List HeldReq}
    (h : Stands exempt s q) (epoch : t.epochKey = s.epochKey) (p : Entry → Bool)
    (table : t.table = s.table.filter p)
    (stay : ∀ x ∈ s.table, x.state = .capturing ∨ (∃ g ∈ q, g.bufferSlot = some x.slot) →
      p x = true) : Stands exempt t q := by
  obtain ⟨dev, number, draining⟩ := (s.epochKey_eq_iff t).1 epoch
  refine ⟨h.table.filter p table, ?_, by rw [dev, number, draining]; exact h.fresh, ?_⟩
  · unfold BlockLaw
    rw [table]
    exact h.blocks.sublist (List.filter_sublist.map _)
  · refine h.holds.of_entries h.table epoch (fun x hx hp => ?_) fun e he => .inl ?_
    · exact ⟨x, table ▸ List.mem_filter.2 ⟨hx, stay x hx hp⟩, rfl⟩
    · exact ⟨e, List.mem_of_mem_filter (table ▸ he), rfl⟩

/-- An entry of the open epoch joins, for a block that has none and no ENTRY waiter (R21, R25). -/
theorem Stands.create {exempt : Block → Prop} {s t : State} {q : List HeldReq}
    (h : Stands exempt s q) (law : TableLaw t) (epoch : t.epochKey = s.epochKey) (e : Entry)
    (table : t.table = s.table ++ [e]) (current : e.epoch = s.epoch.number)
    (state : e.state ≠ .capturing)
    (free : ∀ x ∈ s.table, x.slot ≠ e.slot)
    (block : ∀ x ∈ s.table, x.block = e.block → x.epoch ≠ s.epoch.number)
    (waiters : ∀ g ∈ q, g.isEntry = true → g.block ≠ e.block) : Stands exempt t q := by
  obtain ⟨dev, number, draining⟩ := (s.epochKey_eq_iff t).1 epoch
  refine ⟨law, ?_, by rw [dev, number, draining]; exact h.fresh, ?_⟩
  · unfold BlockLaw
    rw [table, List.map_append, List.map_singleton, List.nodup_append]
    refine ⟨h.blocks, List.nodup_singleton _, fun a ha b hb hab => ?_⟩
    obtain ⟨x, hx, rfl⟩ := List.mem_map.1 ha
    rw [List.mem_singleton.1 hb, Prod.mk.injEq] at hab
    exact block x hx hab.1 (hab.2.trans current)
  · refine h.holds.of_entries h.table epoch (fun x hx _ => ?_) fun y hy => ?_
    · exact ⟨x, table ▸ List.mem_append_left _ hx, rfl⟩
    · rw [table] at hy
      rcases List.mem_append.1 hy with hy | hy
      · exact .inl ⟨y, hy, rfl⟩
      · rw [List.mem_singleton.1 hy]
        exact .inr ⟨state, free, waiters⟩

/-! #### One request that waits for more -/

/-- A request that waits for no capture takes another hold that does not wait for one either; what it
then stands for is there. -/
theorem HoldsStand.setHold {exempt : Block → Prop} {s : State} {ahead behind : List HeldReq}
    {h : HeldReq} (x : Hold) (hs : HoldsStand exempt s (ahead ++ h :: behind))
    (before : h.captureSlot = none) (after : (h.setHold x).captureSlot = none)
    (waiter : (h.setHold x).isWaiter = true → s.epoch.dev = .tracking ∧
      ∀ g ∈ ahead ++ behind, g.block = h.block → ¬s.waitsForOldCapture g)
    (buffer : ∀ n ∈ (h.setHold x).bufferSlot, ∃ e ∈ s.table,
      e.slot = n ∧ e.block = h.block ∧ e.epoch = s.epoch.number ∧ e.state = .pending)
    (entry : (h.setHold x).isEntry = true →
      (∀ e ∈ s.table, e.block = h.block → e.epoch ≠ s.epoch.number) ∧
      ∀ g ∈ ahead ++ behind, g.isEntry = true → g.block ≠ h.block)
    (marked : (h.setHold x).isMarked = true →
      ∃ g ∈ ahead ++ behind, g.block = h.block ∧ s.waitsForOldCapture g) :
    HoldsStand exempt s (ahead ++ h.setHold x :: behind) := by
  have old : ∀ {g}, g ∈ ahead ++ h :: behind ↔ g = h ∨ g ∈ ahead ++ behind := by
    intro g; simp only [List.mem_append, List.mem_cons]; tauto
  have new : ∀ {g}, g ∈ ahead ++ h.setHold x :: behind ↔ g = h.setHold x ∨ g ∈ ahead ++ behind := by
    intro g; simp only [List.mem_append, List.mem_cons]; tauto
  have waits : ∀ g : HeldReq, g.captureSlot = none → ¬s.waitsForOldCapture g := by
    rintro g hn ⟨e, _, hc, _⟩
    rw [hn] at hc
    cases hc
  have others : ∀ {g n}, g.captureSlot = some n → (g ∈ ahead ++ h :: behind ↔
      g ∈ ahead ++ h.setHold x :: behind) := by
    intro g n hg
    rw [old, new]
    refine or_congr_left ⟨?_, ?_⟩ <;> rintro rfl
    · rw [before] at hg; cases hg
    · rw [after] at hg; cases hg
  have other_waits : ∀ {g}, s.waitsForOldCapture g → g ∈ ahead ++ h :: behind →
      g ∈ ahead ++ behind := by
    intro g hg hm
    refine (old.1 hm).resolve_left ?_
    rintro rfl
    exact waits g before hg
  refine ⟨fun hd g hg => ?_, fun g hg n hn => ?_, fun g hg n hn => ?_, fun hr e he hc => ?_,
    fun g hg hk => ?_, fun o ho hw g hg hb => ?_, fun g hg hi => ?_, ?_⟩
  · rcases new.1 hg with rfl | hg
    · exact Bool.eq_false_of_not_eq_true fun hw => hd (waiter hw).1
    · exact hs.tracked hd g (old.2 (.inr hg))
  · rcases new.1 hg with rfl | hg
    · exact buffer n hn
    · exact hs.buffer g (old.2 (.inr hg)) n hn
  · exact hs.capture g ((others hn).2 hg) n hn
  · obtain ⟨g, hg, hn⟩ := hs.captured hr e he hc
    exact ⟨g, (others hn).1 hg, hn⟩
  · rcases new.1 hg with rfl | hg
    · obtain ⟨o, ho, hb, hw⟩ := marked hk
      exact .inr ⟨o, new.2 (.inr ho), hb, hw⟩
    · refine (hs.marked g (old.2 (.inr hg)) hk).imp id ?_
      rintro ⟨o, ho, hb, hw⟩
      exact ⟨o, new.2 (.inr (other_waits hw ho)), hb, hw⟩
  · obtain ⟨e, _, hn, _⟩ := id hw
    have ho := (others hn).2 ho
    rcases new.1 hg with rfl | hg
    · refine ⟨Bool.eq_false_of_not_eq_true fun hx => ?_, .inl after⟩
      exact (waiter hx).2 o (other_waits hw ho) hb.symm hw
    · exact hs.alone o ho hw g (old.2 (.inr hg)) hb
  · rcases new.1 hg with rfl | hg
    · exact (entry hi).1
    · exact hs.entry g (old.2 (.inr hg)) hi
  · have shape : ∀ g : HeldReq, ((ahead ++ g :: behind).filter HeldReq.isEntry).Perm
        ((g :: (ahead ++ behind)).filter HeldReq.isEntry) :=
      fun g => List.perm_middle.filter _
    have single := ((shape h).map HeldReq.block).nodup_iff.1 hs.single
    rw [((shape (h.setHold x)).map HeldReq.block).nodup_iff, List.filter_cons]
    have rest : (((ahead ++ behind).filter HeldReq.isEntry).map HeldReq.block).Nodup :=
      single.sublist (((List.sublist_cons_self _ _).filter _).map _)
    split_ifs with hi
    · refine List.nodup_cons.2 ⟨fun hm => ?_, rest⟩
      obtain ⟨g, hg, hb⟩ := List.mem_map.1 hm
      obtain ⟨hg, he⟩ := List.mem_filter.1 hg
      exact (entry hi).2 g hg he hb
    · exact rest

/-! #### One request is classified in its place (R21 to R24, R27 to R31) -/

theorem State.epochKey_classifyWrite (s : State) (r : Request) (waiting early blocked : Bool) :
    (s.classifyWrite r waiting early blocked).1.epochKey = s.epochKey := by
  rw [State.classifyWrite_eq]
  rfl

theorem State.lookup_eq_none_iff (s : State) (b : Block) :
    s.lookup b = none ↔ ∀ e ∈ s.table, e.block = b → e.epoch ≠ s.epoch.number := by
  simp [State.lookup]

/-- An entry that stands in the current epoch is no draining one. -/
theorem State.not_isDraining_of_current {s : State} {e : Entry}
    (fresh : s.drainingNumber ≠ some s.epoch.number) (he : e.epoch = s.epoch.number) :
    s.isDraining e = false := by
  simpa [State.isDraining, he] using fresh

theorem Eases.at {ahead behind : List HeldReq} {h h' : HeldReq} (he : Eases h h') :
    List.Forall₂ Eases (ahead ++ h :: behind) (ahead ++ h' :: behind) :=
  List.rel_append (List.forall₂_same.2 fun g _ => Eases.refl g)
    (.cons he (List.forall₂_same.2 fun g _ => Eases.refl g))

/-- An entry of the open epoch joins for one request, which may wait for its buffer. -/
theorem Stands.learn {exempt : Block → Prop} {s t : State} {ahead behind : List HeldReq}
    {h : HeldReq}
    (hs : Stands exempt s (ahead ++ h :: behind)) (hc : h.captureSlot = none) (law : TableLaw t)
    (key : t.epochKey = s.epochKey) (ht : s.epoch.dev = .tracking) (e : Entry)
    (table : t.table = s.table ++ [e]) (current : e.epoch = s.epoch.number)
    (block : e.block = h.block) (free : ∀ x ∈ s.table, x.slot ≠ e.slot)
    (state : e.state ≠ .capturing)
    (missing : ∀ x ∈ s.table, x.block = h.block → x.epoch ≠ s.epoch.number)
    (waiters : ∀ g ∈ ahead ++ h :: behind, g.isEntry = true → g.block ≠ h.block)
    (calm : ∀ g ∈ ahead ++ behind, g.block = h.block → ¬s.waitsForOldCapture g)
    {x : Hold} (hx : x.isPlain ∨ e.state = .pending ∧ x = .buffer e.slot) :
    Stands exempt t (ahead ++ h.setHold x :: behind) := by
  have created : Stands exempt t (ahead ++ h :: behind) :=
    hs.create law key e table current state free (block ▸ missing) (block ▸ waiters)
  obtain ⟨dev, number, _⟩ := (s.epochKey_eq_iff t).1 key
  rcases hx with plain | ⟨pending, rfl⟩
  · exact created.eases (Eases.at (Eases.setHold hc plain))
  · refine ⟨law, created.blocks, created.fresh, created.holds.setHold _ hc rfl ?_ ?_
      (fun hi => by cases hi) (fun hk => by cases hk)⟩
    · refine fun _ => ⟨dev.trans ht, fun g hg hb ⟨y, hm, hg', hd⟩ => ?_⟩
      have drains : s.isDraining y = true := (State.isDraining_of_key key rfl).symm.trans hd
      rw [table] at hm
      rcases List.mem_append.1 hm with hm | hm
      · exact calm g hg hb ⟨y, hm, hg', drains⟩
      · rw [List.mem_singleton.1 hm, State.not_isDraining_of_current (hs.fresh ht) current] at drains
        cases drains
    · intro n hn
      obtain rfl : e.slot = n := Option.some.inj hn
      exact ⟨e, table ▸ List.mem_append_right _ (List.mem_singleton_self _), rfl, block,
        current.trans number.symm, pending⟩

/-- A request that waits for no capture is classified in its place, where no request of its block
waits for an old capture. `waiting` and `early` report ENTRY waiters at least where there are some. -/
theorem Stands.classify {exempt : Block → Prop} {s : State} {ahead behind : List HeldReq}
    {h : HeldReq} (hs : Stands exempt s (ahead ++ h :: behind)) (hc : h.captureSlot = none)
    (waiting early blocked : Bool)
    (calm : s.epoch.dev = .tracking → ∀ g ∈ ahead ++ behind, g.block = h.block →
      ¬s.waitsForOldCapture g)
    (hw : waiting = false → ∀ g ∈ ahead ++ h :: behind, g.isEntry = false)
    (he : early = false → ∀ g ∈ ahead ++ behind, g.isEntry = true → g.block ≠ h.block) :
    let t := s.classifyWrite h.req waiting early blocked
    Stands exempt t.1 (ahead ++ h.setHold t.2 :: behind) := by
  intro t
  have law : TableLaw t.1 := hs.table.classifyWrite _ _ _ _
  have key : t.1.epochKey = s.epochKey := s.epochKey_classifyWrite _ _ _ _
  obtain ⟨standing, plain | ⟨ht, hl, ha, c, hx⟩⟩ | ⟨slot, c, ht, hl, hn, hf, learns, hx⟩ :=
    s.classifyWrite_cases h.req waiting early blocked
  · have anchored := hs.of_anchor law key (anchor_of_standing standing)
    exact anchored.eases (Eases.at (Eases.setHold hc plain))
  · rw [State.lookup_eq_none_iff] at hl
    have held : Stands exempt s (ahead ++ h.setHold t.2 :: behind) := by
      have x : t.2 = .entry c := hx
      refine ⟨hs.table, hs.blocks, hs.fresh, hs.holds.setHold t.2 hc ?_ ?_ ?_ ?_ ?_⟩ <;> rw [x]
      · rfl
      · exact fun _ => ⟨ht, calm ht⟩
      · intro n hn; cases hn
      · exact fun _ => ⟨hl, he ha⟩
      · intro hk; cases hk
    exact held.of_anchor law key (anchor_of_standing standing)
  · rw [State.lookup_eq_none_iff] at hl
    obtain ⟨_, free, _⟩ := (s.freeSlot_eq_some slot).1 hf
    have state : (newEntry slot h.block s.epoch.number c).state ≠ .capturing := by
      cases hm : c.mode <;> simp [newEntry, hm]
    refine hs.learn hc law key ht _ learns rfl rfl free state hl (fun g hg hi => ?_) (calm ht) ?_
    · rw [hw hn g hg] at hi
      cases hi
    · refine hx.imp id ?_
      rintro ⟨undo, hx⟩
      exact ⟨by simp [newEntry, undo], hx⟩

/-! #### Requests join and leave (R48 to R50, R53, R58) -/

/-- RELEASED requests stand for nothing. -/
theorem HoldsStand.of_held {exempt : Block → Prop} {s : State} {q q' : List HeldReq}
    (h : HoldsStand exempt s q) (held : q'.filter HeldReq.isHeld = q.filter HeldReq.isHeld) :
    HoldsStand exempt s q' := by
  have same : ∀ g : HeldReq, g.isHeld = true → (g ∈ q' ↔ g ∈ q) := by
    intro g hg
    have := congrArg (g ∈ ·) held
    simpa [List.mem_filter, hg] using this
  have waiter : ∀ g : HeldReq, g.isWaiter = true → g.isHeld = true := by
    intro g; unfold HeldReq.isWaiter HeldReq.isHeld; cases g.hold <;> simp
  have entry : ∀ g : HeldReq, g.isEntry = true → g.isHeld = true := by
    intro g; unfold HeldReq.isEntry HeldReq.isHeld; cases g.hold <;> simp
  have buffer : ∀ (g : HeldReq) n, g.bufferSlot = some n → g.isHeld = true := by
    intro g n; unfold HeldReq.bufferSlot HeldReq.isHeld; cases g.hold <;> simp
  have capture : ∀ (g : HeldReq) n, g.captureSlot = some n → g.isHeld = true := by
    intro g n; unfold HeldReq.captureSlot HeldReq.isHeld; cases g.hold <;> simp
  have mark : ∀ g : HeldReq, g.isMarked = true → g.isHeld = true := by
    intro g; unfold HeldReq.isMarked HeldReq.isHeld; cases g.hold <;> simp
  refine ⟨fun hd g hg => ?_, fun g hg n hn => h.buffer g ((same g (buffer g n hn)).1 hg) n hn,
    fun g hg n hn => h.capture g ((same g (capture g n hn)).1 hg) n hn, fun hr e he hc => ?_,
    fun g hg hk => ?_, fun o ho hw g hg hb => ?_,
    fun g hg hi => h.entry g ((same g (entry g hi)).1 hg) hi, ?_⟩
  · exact Bool.eq_false_of_not_eq_true fun hw => by
      have := h.tracked hd g ((same g (waiter g hw)).1 hg)
      rw [hw] at this
      cases this
  · obtain ⟨g, hg, hn⟩ := h.captured hr e he hc
    exact ⟨g, (same g (capture g _ hn)).2 hg, hn⟩
  · refine (h.marked g ((same g (mark g hk)).1 hg) hk).imp id ?_
    rintro ⟨o, ho, hb, hw⟩
    obtain ⟨e, _, hn, _⟩ := id hw
    exact ⟨o, (same o (capture o _ hn)).2 ho, hb, hw⟩
  · obtain ⟨e, _, hn, _⟩ := id hw
    have ho := (same o (capture o _ hn)).1 ho
    cases hh : g.isHeld with
    | true => exact h.alone o ho hw g ((same g hh).1 hg) hb
    | false =>
      refine ⟨Bool.eq_false_of_not_eq_true fun hx => ?_, .inl ?_⟩
      · rw [waiter g hx] at hh; cases hh
      · cases hx : g.captureSlot with
        | none => rfl
        | some n => rw [capture g n hx] at hh; cases hh
  · have entries : ∀ l : List HeldReq,
        l.filter HeldReq.isEntry = (l.filter HeldReq.isHeld).filter HeldReq.isEntry := by
      intro l
      rw [List.filter_filter]
      refine List.filter_congr fun g _ => ?_
      cases hi : g.isEntry with
      | true => rw [entry g hi]; rfl
      | false => rfl
    rw [entries, held, ← entries]
    exact h.single

theorem Stands.of_held {exempt : Block → Prop} {s : State} {q q' : List HeldReq}
    (h : Stands exempt s q) (held : q'.filter HeldReq.isHeld = q.filter HeldReq.isHeld) :
    Stands exempt s q' :=
  ⟨h.table, h.blocks, h.fresh, h.holds.of_held held⟩

/-- Changes elsewhere. -/
theorem Stands.frame {exempt : Block → Prop} {s t : State} {q : List HeldReq}
    (h : Stands exempt s q) (table : t.table = s.table) (key : t.epochKey = s.epochKey) :
    Stands exempt t q :=
  h.of_anchor (h.table.of_table table) key (by rw [table])

/-- A request is handed on to where its hold says. -/
theorem Stands.route {exempt : Block → Prop} {s : State} {r : Request} {x : Hold}
    (h : Stands exempt s (s.hold ++ [s.newHeld r x])) :
    Stands exempt (s.route r x) (s.route r x).hold := by
  unfold State.route
  split_ifs with hx
  · subst hx
    exact h.frame rfl rfl
  · subst hx
    refine (h.of_held ?_).frame rfl rfl
    show s.hold.filter _ = _
    simp [State.newHeld, HeldReq.isHeld]
  · exact h.frame rfl rfl

theorem Stands.join {exempt : Block → Prop} {s : State} {q : List HeldReq} (h : Stands exempt s q)
    (r : Request) : Stands exempt s (q ++ [s.newHeld r .released]) := by
  refine h.of_held ?_
  simp [State.newHeld, HeldReq.isHeld]

theorem State.waits_iff_behind {s : State} (law : TableLaw s) (b : Block) :
    (∃ g ∈ s.hold, g.block = b ∧ s.waitsForOldCapture g) ↔ s.behindOldCapture b = true := by
  rw [State.behindOldCapture_iff]
  refine exists_congr fun g => and_congr_right fun _ => and_congr_right fun _ => ?_
  unfold State.waitsForOldCapture HeldReq.captureSlot
  cases hh : g.hold with
  | capture slot =>
    constructor
    · rintro ⟨e, he, hn, hd⟩
      obtain rfl : slot = e.slot := Option.some.inj hn
      obtain ⟨draining, m, hm, number⟩ := (s.isDraining_iff e).1 hd
      refine ⟨e.slot, e, m, rfl, ?_, draining, hm, number⟩
      cases hf : s.entryAt e.slot with
      | none =>
        unfold State.entryAt at hf
        rw [List.find?_eq_none] at hf
        simpa using hf e he
      | some x =>
        obtain ⟨hx, hslot⟩ := State.entryAt_mem hf
        rw [law.eq_of_slot hx he hslot]
    · rintro ⟨_, e, m, hn, hf, draining, hm, number⟩
      cases hn
      obtain ⟨he, rfl⟩ := State.entryAt_mem hf
      exact ⟨e, he, rfl, (s.isDraining_iff e).2 ⟨draining, m, hm, number⟩⟩
  | _ => simp

/-- A write that arrives (R5, R50, R58). -/
theorem Stands.arriveWrite {s : State} {exempt : Block → Prop} (h : Stands exempt s s.hold)
    (r : Request) : Stands exempt (s.arriveWrite r) (s.arriveWrite r).hold := by
  have joined := h.join r
  by_cases hb : s.epoch.dev = .tracking ∧ s.behindOldCapture (blockOf r.addr) = true
  · have waits := (State.waits_iff_behind h.table _).2 hb.2
    have marked := joined.holds.setHold (x := .order none true false) rfl rfl
      (fun hw => by cases hw) (fun n hn => by cases hn) (fun hi => by cases hi)
      (fun _ => by rw [List.append_nil]; exact waits)
    unfold State.arriveWrite
    dsimp only
    rw [if_pos hb]
    exact Stands.frame ⟨h.table, h.blocks, h.fresh, marked⟩ rfl rfl
  · have classified := joined.classify rfl (s.hold.any HeldReq.isEntry)
      (entryFor s.hold (blockOf r.addr)) (heldFor s.hold (blockOf r.addr))
      (fun ht g hg hgb hw => hb ⟨ht, (State.waits_iff_behind h.table _).1
        ⟨g, by simpa using hg, hgb, hw⟩⟩)
      (fun hw g hg => ?_) (fun he g hg hi hgb => ?_)
    · have route := s.arriveWrite_classified r
        (by by_cases ht : s.epoch.dev = .tracking
            · exact .inr (Bool.eq_false_of_not_eq_true fun hc => hb ⟨ht, hc⟩)
            · exact .inl ht)
      have frame := s.classifyWrite_eq r (s.hold.any HeldReq.isEntry)
        (entryFor s.hold (blockOf r.addr)) (heldFor s.hold (blockOf r.addr))
      rw [route]
      refine Stands.route ?_
      have hold := congrArg State.hold frame
      have time := congrArg (fun t : State => t.epoch.partTime) frame
      unfold State.newHeld
      rw [hold, time]
      exact classified
    · have none : ∀ g ∈ s.hold, g.isEntry = false := by simpa using hw
      rcases List.mem_append.1 hg with hg | hg
      · exact none g hg
      · rw [List.mem_singleton.1 hg]; rfl
    · have none : ∀ g ∈ s.hold, g.isEntry = true → g.block ≠ blockOf r.addr := by
        simpa [entryFor] using he
      exact none g (by simpa using hg) hi hgb

/-- READ arrivals, and whatever else needs no more than its block's order (R7, R50). -/
theorem Stands.routePlain {exempt : Block → Prop} {s : State} (h : Stands exempt s s.hold)
    (r : Request) {x : Hold} (hx : x.isPlain) : Stands exempt (s.route r x) (s.route r x).hold :=
  Stands.route ((h.join r).eases (Eases.at (Eases.setHold rfl hx)))

/-! #### A buffer is granted (R55, R72) -/

theorem bufferToCapture_eq (slot : Nat) (h : HeldReq) :
    h.bufferSlot = some slot ∧ bufferToCapture slot h = h.setHold (.capture slot) ∨
      h.bufferSlot ≠ some slot ∧ bufferToCapture slot h = h := by
  unfold bufferToCapture HeldReq.bufferSlot
  split_ifs with hh
  · exact .inl ⟨by rw [hh], rfl⟩
  · refine .inr ⟨fun hb => hh ?_, rfl⟩
    cases hx : h.hold <;> rw [hx] at hb <;> cases hb
    rfl

theorem clearTrackingHere_eases (b : Block) (h : HeldReq) : Eases h (clearTrackingHere b h) := by
  unfold clearTrackingHere
  split_ifs
  · cases hh : h.hold with
    | order d mark here => exact Eases.setOrder hh
    | _ => exact Eases.refl h
  · exact Eases.refl h

@[simp] theorem bufferToCapture_block (slot : Nat) (h : HeldReq) :
    (bufferToCapture slot h).block = h.block := by
  obtain ⟨_, e⟩ | ⟨_, e⟩ := bufferToCapture_eq slot h <;> rw [e]
  rfl

theorem HeldReq.hold_of_bufferSlot {h : HeldReq} {n : Nat} (hb : h.bufferSlot = some n) :
    h.hold = .buffer n := by
  unfold HeldReq.bufferSlot at hb
  cases hh : h.hold <;> rw [hh] at hb <;> cases hb
  rfl

@[simp] theorem bufferToCapture_isEntry (slot : Nat) (h : HeldReq) :
    (bufferToCapture slot h).isEntry = h.isEntry := by
  obtain ⟨hb, e⟩ | ⟨_, e⟩ := bufferToCapture_eq slot h <;> rw [e]
  simp [HeldReq.isEntry, HeldReq.setHold, HeldReq.hold_of_bufferSlot hb]

@[simp] theorem bufferToCapture_isMarked (slot : Nat) (h : HeldReq) :
    (bufferToCapture slot h).isMarked = h.isMarked := by
  obtain ⟨hb, e⟩ | ⟨_, e⟩ := bufferToCapture_eq slot h <;> rw [e]
  simp [HeldReq.isMarked, HeldReq.setHold, HeldReq.hold_of_bufferSlot hb]

theorem bufferToCapture_bufferSlot (slot : Nat) (h : HeldReq) (n : Nat) :
    (bufferToCapture slot h).bufferSlot = some n ↔ h.bufferSlot = some n ∧ n ≠ slot := by
  obtain ⟨hb, e⟩ | ⟨hb, e⟩ := bufferToCapture_eq slot h <;> rw [e]
  · rw [hb]
    simp [HeldReq.bufferSlot, HeldReq.setHold, eq_comm]
  · exact ⟨fun hn => ⟨hn, fun hs => hb (hs ▸ hn)⟩, And.left⟩

theorem bufferToCapture_captureSlot (slot : Nat) (h : HeldReq) (n : Nat) :
    (bufferToCapture slot h).captureSlot = some n ↔
      h.captureSlot = some n ∨ h.bufferSlot = some slot ∧ n = slot := by
  obtain ⟨hb, e⟩ | ⟨hb, e⟩ := bufferToCapture_eq slot h <;> rw [e]
  · simp [HeldReq.captureSlot, HeldReq.bufferSlot, HeldReq.setHold, HeldReq.hold_of_bufferSlot hb,
      eq_comm]
  · simp [hb]

theorem bufferToCapture_of_not_waiter (slot : Nat) {h : HeldReq} (hw : h.isWaiter = false) :
    bufferToCapture slot h = h := by
  obtain ⟨hb, _⟩ | ⟨_, e⟩ := bufferToCapture_eq slot h
  · simp [HeldReq.isWaiter, HeldReq.hold_of_bufferSlot hb] at hw
  · exact e

/-- An entry that takes a buffer turns its waiters to its capture. -/
theorem HoldsStand.capture_starts {exempt : Block → Prop} {s t : State} {q : List HeldReq}
    {e : Entry}
    (h : HoldsStand exempt s q) (law : TableLaw s) (key : t.epochKey = s.epochKey)
    (ht : s.epoch.dev = .tracking) (he : e ∈ s.table) (current : s.isDraining e = false)
    (waits : ∃ g ∈ q, g.bufferSlot = some e.slot) (f : Entry → Entry)
    (place : ∀ x, (f x).slot = x.slot ∧ (f x).block = x.block ∧ (f x).epoch = x.epoch)
    (state : ∀ x, (f x).state = .capturing)
    (table : t.table = s.table.map fun x => if x.slot = e.slot then f x else x) :
    HoldsStand exempt t (q.map (bufferToCapture e.slot)) := by
  obtain ⟨dev, number, _⟩ := (s.epochKey_eq_iff t).1 key
  have moved : ∀ y ∈ t.table, ∃ x ∈ s.table, y.slot = x.slot ∧ y.block = x.block ∧
      y.epoch = x.epoch ∧ (y.state = .capturing → x.slot = e.slot ∨ x.state = .capturing) := by
    intro y hy
    rw [table] at hy
    obtain ⟨x, hx, rfl⟩ := List.mem_map.1 hy
    refine ⟨x, hx, ?_⟩
    split_ifs with hs
    · obtain ⟨a, b, c⟩ := place x
      exact ⟨a, b, c, fun _ => .inl hs⟩
    · exact ⟨rfl, rfl, rfl, .inr⟩
  have stays : ∀ x ∈ s.table, ∃ y ∈ t.table, y.slot = x.slot ∧ y.block = x.block ∧
      y.epoch = x.epoch ∧ (x.slot = e.slot ∨ x.state = .capturing → y.state = .capturing) ∧
      (x.slot ≠ e.slot → y.state = x.state) := by
    intro x hx
    refine ⟨_, table ▸ List.mem_map_of_mem hx, ?_⟩
    split_ifs with hs
    · obtain ⟨a, b, c⟩ := place x
      exact ⟨a, b, c, fun _ => state x, fun hn => absurd hs hn⟩
    · exact ⟨rfl, rfl, rfl, fun hc => hc.resolve_left hs, fun _ => rfl⟩
  have drains : ∀ x y : Entry, y.epoch = x.epoch → t.isDraining y = s.isDraining x :=
    fun _ _ hxy => State.isDraining_of_key key hxy
  have old_waits : ∀ g,
      t.waitsForOldCapture (bufferToCapture e.slot g) ↔ s.waitsForOldCapture g := by
    intro g
    constructor
    · rintro ⟨y, hy, hc, hd⟩
      obtain ⟨x, hx, slot, _, epoch, _⟩ := moved y hy
      rw [drains x y epoch] at hd
      rw [bufferToCapture_captureSlot, slot] at hc
      refine ⟨x, hx, hc.resolve_right ?_, hd⟩
      rintro ⟨_, hs⟩
      rw [law.eq_of_slot hx he hs, current] at hd
      cases hd
    · rintro ⟨x, hx, hc, hd⟩
      obtain ⟨y, hy, slot, _, epoch, _⟩ := stays x hx
      exact ⟨y, hy, (bufferToCapture_captureSlot _ _ _).2 (.inl (slot ▸ hc)),
        drains x y epoch ▸ hd⟩
  refine ⟨fun hd => absurd (dev.trans ht) hd, List.forall_mem_map.2 ?_, List.forall_mem_map.2 ?_,
    fun hr y hy hs => ?_, List.forall_mem_map.2 ?_, List.forall_mem_map.2 fun o ho hw =>
    List.forall_mem_map.2 ?_, List.forall_mem_map.2 ?_, ?_⟩
  · intro g hg n hn
    rw [bufferToCapture_block]
    obtain ⟨hn, other⟩ := (bufferToCapture_bufferSlot _ _ _).1 hn
    obtain ⟨x, hx, hslot, hblock, hepoch, hstate⟩ := h.buffer g hg n hn
    obtain ⟨y, hy, slot, block, epoch, _, same⟩ := stays x hx
    exact ⟨y, hy, slot.trans hslot, block.trans hblock, (epoch.trans hepoch).trans number.symm,
      (same (hslot ▸ other)).trans hstate⟩
  · intro g hg n hn
    rw [bufferToCapture_block]
    rcases (bufferToCapture_captureSlot _ _ _).1 hn with hc | ⟨hc, rfl⟩
    · obtain ⟨x, hx, hslot, hblock, hstate⟩ := h.capture g hg n hc
      obtain ⟨y, hy, slot, block, _, capturing, _⟩ := stays x hx
      exact ⟨y, hy, slot.trans hslot, block.trans hblock, capturing (.inr hstate)⟩
    · obtain ⟨x, hx, hslot, hblock, _⟩ := h.buffer g hg _ hc
      obtain ⟨y, hy, slot, block, _, capturing, _⟩ := stays x hx
      exact ⟨y, hy, slot.trans hslot, block.trans hblock, capturing (.inl hslot)⟩
  · obtain ⟨x, hx, slot, _, _, capturing⟩ := moved y hy
    rw [slot]
    rcases capturing hs with hs | hs
    · obtain ⟨g, hg, hb⟩ := waits
      exact ⟨_, List.mem_map_of_mem hg, (bufferToCapture_captureSlot _ _ _).2 (.inr ⟨hb, hs⟩)⟩
    · have running : t.running = s.running := State.running_of_key key
      obtain ⟨g, hg, hc⟩ := h.captured (running ▸ hr) x hx hs
      exact ⟨_, List.mem_map_of_mem hg, (bufferToCapture_captureSlot _ _ _).2 (.inl hc)⟩
  · intro g hg hk
    rw [bufferToCapture_isMarked] at hk
    rw [bufferToCapture_block]
    refine (h.marked g hg hk).imp id ?_
    rintro ⟨o, ho, hb, hw⟩
    exact ⟨_, List.mem_map_of_mem ho, (bufferToCapture_block _ _).trans hb, (old_waits o).2 hw⟩
  · intro g hg hb
    rw [bufferToCapture_block, bufferToCapture_block] at hb
    have apart := h.alone o ho ((old_waits o).1 hw)
    rw [bufferToCapture_of_not_waiter _ (apart o ho rfl).1,
      bufferToCapture_of_not_waiter _ (apart g hg hb).1]
    exact apart g hg hb
  · intro g hg hi y hy hb
    rw [bufferToCapture_isEntry] at hi
    rw [bufferToCapture_block] at hb
    obtain ⟨x, hx, _, block, epoch, _⟩ := moved y hy
    rw [epoch, number]
    exact h.entry g hg hi x hx (block.symm.trans hb)
  · have entries : HeldReq.isEntry ∘ bufferToCapture e.slot = HeldReq.isEntry :=
      funext (bufferToCapture_isEntry _)
    have blocks : HeldReq.block ∘ bufferToCapture e.slot = HeldReq.block :=
      funext (bufferToCapture_block _)
    rw [List.filter_map, List.map_map, entries, blocks]
    exact h.single

theorem Stands.grantBuffer {exempt : Block → Prop} {s : State} (h : Stands exempt s s.hold)
    {g : HeldReq} {e : Entry} {n : Nat} (hd : s.dueGrant = some (g, e, n)) :
    Stands exempt (s.grantBuffer g e n) (s.grantBuffer g e n).hold := by
  obtain ⟨ht, ⟨slot, hg, hh, found⟩, _⟩ := State.dueGrant_spec hd
  obtain ⟨he, rfl⟩ := State.entryAt_mem found
  have waits : g.bufferSlot = some e.slot := by simp [HeldReq.bufferSlot, hh]
  have current : s.isDraining e = false := by
    obtain ⟨x, hx, hs, _, number, _⟩ := h.holds.buffer g hg e.slot waits
    obtain rfl := h.table.eq_of_slot hx he hs
    exact State.not_isDraining_of_current (h.fresh ht) number
  have begun : HoldsStand exempt (s.grantBuffer g e n) (s.hold.map (bufferToCapture e.slot)) :=
    h.holds.capture_starts h.table rfl ht he current ⟨g, hg, waits⟩
      (fun x => { x with state := .capturing, poolBuf := some n, linesIn := 0 })
      (fun x => ⟨rfl, rfl, rfl⟩) (fun _ => rfl) rfl
  refine ⟨h.table.grantBuffer hd, ?_, h.fresh, ?_⟩
  · exact h.blocks.of_map _ (fun x => by split_ifs <;> exact ⟨rfl, rfl⟩) rfl
  · have cleared := begun.eases (Eases.map fun y _ => clearTrackingHere_eases g.block y)
    rw [List.map_map] at cleared
    exact cleared

theorem Stands.grantBuffers {exempt : Block → Prop} {s : State} (h : Stands exempt s s.hold) :
    Stands exempt s.grantBuffers s.grantBuffers.hold :=
  grantLoop_induct (P := fun u => Stands exempt u u.hold)
    (fun _ _ _ _ h hd => h.grantBuffer hd) _ s h

/-! #### A capture completes (R57) -/

/-- What the walk over the block `b` sees of a request yet to come: the capture in `slot` has ended. -/
def freed (b : Block) (slot : Nat) (h : HeldReq) : HeldReq :=
  if h.block = b ∧ h.captureSlot = some slot then h.release else h

theorem freed_eq (b : Block) (slot : Nat) (h : HeldReq) :
    h.block = b ∧ h.captureSlot = some slot ∧ freed b slot h = h.release ∨
      ¬(h.block = b ∧ h.captureSlot = some slot) ∧ freed b slot h = h := by
  unfold freed
  split_ifs with hf
  · exact .inl ⟨hf.1, hf.2, rfl⟩
  · exact .inr ⟨hf, rfl⟩

@[simp] theorem freed_block (b : Block) (slot : Nat) (h : HeldReq) :
    (freed b slot h).block = h.block := by
  obtain ⟨_, _, e⟩ | ⟨_, e⟩ := freed_eq b slot h <;> rw [e]
  rfl

theorem HeldReq.hold_of_captureSlot {h : HeldReq} {n : Nat} (hc : h.captureSlot = some n) :
    h.hold = .capture n := by
  unfold HeldReq.captureSlot at hc
  cases hh : h.hold <;> rw [hh] at hc <;> cases hc
  rfl

/-- A request that waits for a capture has no other part in the law. -/
theorem HeldReq.of_captureSlot {h : HeldReq} {n : Nat} (hc : h.captureSlot = some n) :
    h.isWaiter = false ∧ h.isEntry = false ∧ h.isMarked = false ∧ h.bufferSlot = none := by
  simp [HeldReq.isWaiter, HeldReq.isEntry, HeldReq.isMarked, HeldReq.bufferSlot,
    HeldReq.hold_of_captureSlot hc]

@[simp] theorem freed_isEntry (b : Block) (slot : Nat) (h : HeldReq) :
    (freed b slot h).isEntry = h.isEntry := by
  obtain ⟨_, hc, e⟩ | ⟨_, e⟩ := freed_eq b slot h <;> rw [e]
  obtain ⟨_, entry, _⟩ := HeldReq.of_captureSlot hc
  exact entry.symm

@[simp] theorem freed_isWaiter (b : Block) (slot : Nat) (h : HeldReq) :
    (freed b slot h).isWaiter = h.isWaiter := by
  obtain ⟨_, hc, e⟩ | ⟨_, e⟩ := freed_eq b slot h <;> rw [e]
  obtain ⟨waiter, _⟩ := HeldReq.of_captureSlot hc
  exact waiter.symm

@[simp] theorem freed_isMarked (b : Block) (slot : Nat) (h : HeldReq) :
    (freed b slot h).isMarked = h.isMarked := by
  obtain ⟨_, hc, e⟩ | ⟨_, e⟩ := freed_eq b slot h <;> rw [e]
  obtain ⟨_, _, mark, _⟩ := HeldReq.of_captureSlot hc
  exact mark.symm

@[simp] theorem freed_bufferSlot (b : Block) (slot : Nat) (h : HeldReq) :
    (freed b slot h).bufferSlot = h.bufferSlot := by
  obtain ⟨_, hc, e⟩ | ⟨_, e⟩ := freed_eq b slot h <;> rw [e]
  obtain ⟨_, _, _, buffer⟩ := HeldReq.of_captureSlot hc
  exact buffer.symm

theorem freed_captureSlot (b : Block) (slot : Nat) (h : HeldReq) (n : Nat) :
    (freed b slot h).captureSlot = some n ↔
      h.captureSlot = some n ∧ ¬(h.block = b ∧ n = slot) := by
  obtain ⟨hb, hc, e⟩ | ⟨hn, e⟩ := freed_eq b slot h <;> rw [e]
  · rw [hc]
    simp [HeldReq.captureSlot, HeldReq.release, HeldReq.setHold, hb, eq_comm]
  · refine ⟨fun hc => ⟨hc, ?_⟩, And.left⟩
    rintro ⟨hb, rfl⟩
    exact hn ⟨hb, hc⟩

/-- The capture in a slot ends: its requests wait no more, and a mark of their block stands behind
nothing. -/
theorem HoldsStand.capture_ends {s t : State} {q : List HeldReq} {e : Entry}
    (h : HoldsStand (fun _ => False) s q) (law : TableLaw s) (key : t.epochKey = s.epochKey)
    (he : e ∈ s.table) (hs : e.state = .capturing) (f : Entry → Entry)
    (place : ∀ x, (f x).slot = x.slot ∧ (f x).block = x.block ∧ (f x).epoch = x.epoch)
    (state : ∀ x, (f x).state ≠ .capturing)
    (table : t.table = s.table.map fun x => if x.slot = e.slot then f x else x) :
    HoldsStand (· = e.block) t (q.map (freed e.block e.slot)) := by
  obtain ⟨dev, number, _⟩ := (s.epochKey_eq_iff t).1 key
  have moved : ∀ y ∈ t.table, ∃ x ∈ s.table, y.slot = x.slot ∧ y.block = x.block ∧
      y.epoch = x.epoch ∧ (y.state = .capturing → x.slot ≠ e.slot ∧ x.state = .capturing) := by
    intro y hy
    rw [table] at hy
    obtain ⟨x, hx, rfl⟩ := List.mem_map.1 hy
    refine ⟨x, hx, ?_⟩
    split_ifs with hs
    · obtain ⟨a, b, c⟩ := place x
      exact ⟨a, b, c, fun hc => absurd hc (state x)⟩
    · exact ⟨rfl, rfl, rfl, fun hc => ⟨hs, hc⟩⟩
  have stays : ∀ x ∈ s.table, x.slot ≠ e.slot → x ∈ t.table := by
    intro x hx hn
    rw [table]
    exact List.mem_map.2 ⟨x, hx, by rw [if_neg hn]⟩
  have drains : ∀ x y : Entry, y.epoch = x.epoch → t.isDraining y = s.isDraining x :=
    fun _ _ hxy => State.isDraining_of_key key hxy
  have block_of_slot : ∀ g ∈ q, g.captureSlot = some e.slot → g.block = e.block := by
    intro g hg hc
    obtain ⟨x, hx, hslot, hblock, _⟩ := h.capture g hg _ hc
    rw [← hblock, law.eq_of_slot hx he hslot]
  have still_waits : ∀ g ∈ q, t.waitsForOldCapture (freed e.block e.slot g) ↔
      s.waitsForOldCapture g ∧ g.captureSlot ≠ some e.slot := by
    intro g hg
    constructor
    · rintro ⟨y, hy, hc, hd⟩
      obtain ⟨x, hx, slot, _, epoch, _⟩ := moved y hy
      obtain ⟨hc, other⟩ := (freed_captureSlot _ _ _ _).1 hc
      refine ⟨⟨x, hx, slot ▸ hc, drains x y epoch ▸ hd⟩,
        fun hce => other ⟨block_of_slot g hg hce, ?_⟩⟩
      exact Option.some.inj (hc.symm.trans hce)
    · rintro ⟨⟨x, hx, hc, hd⟩, other⟩
      have hn : x.slot ≠ e.slot := fun hn => other (hn ▸ hc)
      exact ⟨x, stays x hx hn, (freed_captureSlot _ _ _ _).2 ⟨hc, fun hb => hn hb.2⟩,
        drains x x rfl ▸ hd⟩
  refine ⟨fun hd => List.forall_mem_map.2 fun g hg => ?_, List.forall_mem_map.2 fun g hg n hn => ?_,
    List.forall_mem_map.2 fun g hg n hn => ?_, fun hr y hy hc => ?_,
    List.forall_mem_map.2 fun g hg hk => ?_, List.forall_mem_map.2 fun o ho hw =>
    List.forall_mem_map.2 fun g hg hb => ?_, List.forall_mem_map.2 fun g hg hi y hy hb => ?_, ?_⟩
  · rw [freed_isWaiter]
    exact h.tracked (dev ▸ hd) g hg
  · rw [freed_bufferSlot] at hn
    rw [freed_block, number]
    obtain ⟨x, hx, hslot, hblock, hepoch, hstate⟩ := h.buffer g hg n hn
    refine ⟨x, stays x hx fun hn => ?_, hslot, hblock, hepoch, hstate⟩
    rw [law.eq_of_slot hx he hn, hs] at hstate
    cases hstate
  · obtain ⟨hn, other⟩ := (freed_captureSlot _ _ _ _).1 hn
    rw [freed_block]
    obtain ⟨x, hx, hslot, hblock, hstate⟩ := h.capture g hg n hn
    refine ⟨x, stays x hx fun hx' => other ?_, hslot, hblock, hstate⟩
    exact ⟨block_of_slot g hg (by rw [hn, ← hslot, hx']), hslot.symm.trans hx'⟩
  · obtain ⟨x, hx, slot, _, _, capturing⟩ := moved y hy
    obtain ⟨hn, hc⟩ := capturing hc
    have running : t.running = s.running := State.running_of_key key
    obtain ⟨g, hg, hgc⟩ := h.captured (running ▸ hr) x hx hc
    rw [slot]
    exact ⟨_, List.mem_map_of_mem hg, (freed_captureSlot _ _ _ _).2 ⟨hgc, fun hb => hn hb.2⟩⟩
  · rw [freed_isMarked] at hk
    rw [freed_block]
    obtain ⟨o, ho, hb, hw⟩ := (h.marked g hg hk).resolve_left id
    by_cases hc : o.captureSlot = some e.slot
    · exact .inl (hb.symm.trans (block_of_slot o ho hc))
    · exact .inr ⟨_, List.mem_map_of_mem ho, (freed_block _ _ _).trans hb,
        (still_waits o ho).2 ⟨hw, hc⟩⟩
  · rw [freed_block, freed_block] at hb
    obtain ⟨hw, other⟩ := (still_waits o ho).1 hw
    obtain ⟨waiter, captures⟩ := h.alone o ho hw g hg hb
    have ho' : freed e.block e.slot o = o := by
      obtain ⟨_, hc, _⟩ | ⟨_, same⟩ := freed_eq e.block e.slot o
      · exact absurd hc other
      · exact same
    rw [freed_isWaiter, ho']
    refine ⟨waiter, ?_⟩
    obtain ⟨_, _, same⟩ | ⟨_, same⟩ := freed_eq e.block e.slot g <;> rw [same]
    · exact .inl rfl
    · exact captures
  · rw [freed_isEntry] at hi
    rw [freed_block] at hb
    obtain ⟨x, hx, _, block, epoch, _⟩ := moved y hy
    rw [epoch, number]
    exact h.entry g hg hi x hx (block.symm.trans hb)
  · have entries : HeldReq.isEntry ∘ freed e.block e.slot = HeldReq.isEntry :=
      funext (freed_isEntry _ _)
    have blocks : HeldReq.block ∘ freed e.block e.slot = HeldReq.block := funext (freed_block _ _)
    rw [List.filter_map, List.map_map, entries, blocks]
    exact h.single

/-- An exemption that no mark of the queue needs. -/
theorem Stands.unexempt {exempt : Block → Prop} {s : State} {q : List HeldReq}
    (h : Stands exempt s q) (marks : ∀ g ∈ q, g.isMarked = true → ¬exempt g.block) :
    Stands (fun _ => False) s q :=
  ⟨h.table, h.blocks, h.fresh, { h.holds with
    marked := fun g hg hk => (h.holds.marked g hg hk).imp (marks g hg hk) id }⟩

/-- A classified request carries no mark and waits for no capture. -/
theorem State.classifyWrite_fresh (s : State) (h : HeldReq) (waiting early blocked : Bool) :
    let h' := h.setHold (s.classifyWrite h.req waiting early blocked).2
    h'.isMarked = false ∧ h'.captureSlot = none := by
  intro h'
  have plain : ∀ x : Hold, x.isPlain → (h.setHold x).isMarked = false ∧
      (h.setHold x).captureSlot = none := by
    intro x hx
    cases x with
    | released => exact ⟨rfl, rfl⟩
    | order d mark here => exact ⟨hx, rfl⟩
    | entry c => cases hx
    | buffer n => cases hx
    | capture n => cases hx
  obtain ⟨_, hx | ⟨_, _, _, c, hx⟩⟩ | ⟨slot, c, _, _, _, _, _, hx | ⟨_, hx⟩⟩ :=
    s.classifyWrite_cases h.req waiting early blocked
  · exact plain _ hx
  · show (h.setHold _).isMarked = false ∧ (h.setHold _).captureSlot = none
    rw [hx]
    exact ⟨rfl, rfl⟩
  · exact plain _ hx
  · show (h.setHold _).isMarked = false ∧ (h.setHold _).captureSlot = none
    rw [hx]
    exact ⟨rfl, rfl⟩

/-- The walk over the block `b` has passed `done` and comes to `rest`: where a mark of the block is
yet to come, nothing else of the block waits for an entry, a buffer or another capture. -/
structure Walks (b : Block) (slot : Nat) (s : State) (done rest : List HeldReq) : Prop where
  stands : Stands (· = b) s (done ++ rest.map (freed b slot))
  unmarked : ∀ g ∈ done, g.block = b → g.isMarked = false
  calm : ∀ h ∈ rest, h.block = b → h.isMarked = true →
    (∀ g ∈ done, g.block = b → g.captureSlot = none) ∧
    ∀ g ∈ rest, g.block = b → g.isWaiter = false ∧
      (g.captureSlot = none ∨ g.captureSlot = some slot)

/-- A request is passed that waits for no more than before. -/
theorem Walks.pass {b : Block} {slot : Nat} {s : State} {done rest : List HeldReq} {h h' : HeldReq}
    (w : Walks b slot s done (h :: rest)) (he : Eases (freed b slot h) h')
    (unmarked : h'.block = b → h'.isMarked = false) : Walks b slot s (done ++ [h']) rest where
  stands := by
    rw [List.append_assoc]
    exact w.stands.eases (Eases.at he)
  unmarked g hg hb := by
    rcases List.mem_append.1 hg with hg | hg
    · exact w.unmarked g hg hb
    · obtain rfl := List.mem_singleton.1 hg
      exact unmarked hb
  calm m hm hb hk := by
    obtain ⟨passed, coming⟩ := w.calm m (List.mem_cons_of_mem _ hm) hb hk
    refine ⟨fun g hg hgb => ?_, fun g hg => coming g (List.mem_cons_of_mem _ hg)⟩
    rcases List.mem_append.1 hg with hg | hg
    · exact passed g hg hgb
    · obtain rfl := List.mem_singleton.1 hg
      have block : h.block = b := ((he.block.trans (freed_block b slot h)).symm.trans hgb)
      obtain ⟨_, captures⟩ := coming h List.mem_cons_self block
      rw [he.capture, Option.eq_none_iff_forall_ne_some]
      intro n hn
      obtain ⟨hn, other⟩ := (freed_captureSlot b slot h n).1 hn
      rw [hn] at captures
      rcases captures with hc | hc
      · cases hc
      · exact other ⟨block, Option.some.inj hc⟩

/-- A marked request is classified in its place (R57, R58). -/
theorem Walks.classify {b : Block} {slot : Nat} {s : State} {done rest : List HeldReq} {h : HeldReq}
    (w : Walks b slot s done (h :: rest)) (hb : h.block = b) (hk : h.isMarked = true)
    (blocked : Bool) :
    let t := s.classifyWrite h.req ((done ++ rest).any HeldReq.isEntry) (entryFor done b) blocked
    Walks b slot t.1 (done ++ [h.setHold t.2]) rest := by
  intro t
  obtain ⟨passed, coming⟩ := w.calm h List.mem_cons_self hb hk
  have none : h.captureSlot = none := by
    cases hc : h.captureSlot with
    | none => rfl
    | some n =>
      obtain ⟨_, _, mark, _⟩ := HeldReq.of_captureSlot hc
      rw [hk] at mark
      cases mark
  have same : freed b slot h = h := by
    obtain ⟨_, hc, _⟩ | ⟨_, same⟩ := freed_eq b slot h
    · rw [none] at hc; cases hc
    · exact same
  have entry : h.isEntry = false := by
    unfold HeldReq.isEntry
    unfold HeldReq.isMarked at hk
    cases hh : h.hold <;> simp [hh] at hk ⊢
  have stands := w.stands
  rw [List.map_cons, same] at stands
  have quiet : ∀ g ∈ done ++ rest.map (freed b slot), g.block = b → g.captureSlot = .none := by
    intro g hg hgb
    rcases List.mem_append.1 hg with hg | hg
    · exact passed g hg hgb
    · obtain ⟨x, hx, rfl⟩ := List.mem_map.1 hg
      rw [freed_block] at hgb
      obtain ⟨_, captures⟩ := coming x (List.mem_cons_of_mem _ hx) hgb
      rw [Option.eq_none_iff_forall_ne_some]
      intro n hn
      obtain ⟨hn, other⟩ := (freed_captureSlot b slot x n).1 hn
      rw [hn] at captures
      rcases captures with hc | hc
      · cases hc
      · exact other ⟨hgb, Option.some.inj hc⟩
  have classified := stands.classify none ((done ++ rest).any HeldReq.isEntry) (entryFor done b)
    blocked (fun _ g hg hgb ⟨e, _, hc, _⟩ => by
      rw [quiet g hg (hgb.trans hb)] at hc
      cases hc)
    (fun hw g hg => ?_) (fun he g hg hi hgb => ?_)
  · obtain ⟨mark, capture⟩ := s.classifyWrite_fresh h ((done ++ rest).any HeldReq.isEntry)
      (entryFor done b) blocked
    refine ⟨by rw [List.append_assoc]; exact classified, fun g hg hgb => ?_, fun m hm hmb hmk => ?_⟩
    · rcases List.mem_append.1 hg with hg | hg
      · exact w.unmarked g hg hgb
      · obtain rfl := List.mem_singleton.1 hg
        exact mark
    · refine ⟨fun g hg hgb => ?_, fun g hg => coming g (List.mem_cons_of_mem _ hg)⟩
      rcases List.mem_append.1 hg with hg | hg
      · exact passed g hg hgb
      · obtain rfl := List.mem_singleton.1 hg
        exact capture
  · have free : ∀ g ∈ done ++ rest, g.isEntry = false := by
      rw [List.any_eq_false] at hw
      exact fun g hg => Bool.eq_false_of_not_eq_true (hw g hg)
    rcases List.mem_append.1 hg with hg | hg
    · exact free g (List.mem_append_left _ hg)
    · rcases List.mem_cons.1 hg with rfl | hg
      · exact entry
      · obtain ⟨x, hx, rfl⟩ := List.mem_map.1 hg
        rw [freed_isEntry]
        exact free x (List.mem_append_right _ hx)
  · rcases List.mem_append.1 hg with hg | hg
    · unfold entryFor at he
      rw [List.any_eq_false] at he
      exact he g hg (by rw [hi, hgb, hb]; simp)
    · obtain ⟨x, hx, rfl⟩ := List.mem_map.1 hg
      rw [freed_isEntry] at hi
      rw [freed_block] at hgb
      obtain ⟨waiter, _⟩ := coming x (List.mem_cons_of_mem _ hx) (hgb.trans hb)
      unfold HeldReq.isEntry at hi
      unfold HeldReq.isWaiter at waiter
      cases hh : x.hold <;> simp [hh] at hi waiter

/-- The walk to its end. -/
theorem Walks.releaseWalk {b : Block} {slot : Nat} {rest : List HeldReq} :
    ∀ {done : List HeldReq} {blocked : Bool} {s : State}, Walks b slot s done rest →
      let t := Machine.releaseWalk b slot rest done blocked s
      Walks b slot t.1 t.2 [] := by
  induction rest with
  | nil => exact fun w => w
  | cons h rest ih =>
    intro done blocked s w
    by_cases hb : h.block = b
    · have same : h.captureSlot ≠ some slot → freed b slot h = h := fun hc =>
        if_neg fun hf => hc hf.2
      have stays : h.captureSlot ≠ some slot → h.isMarked = false →
          Walks b slot s (done ++ [h]) rest :=
        fun hc hk => w.pass (by rw [same hc]; exact Eases.refl h) fun _ => hk
      cases hh : h.hold with
      | released =>
        rw [releaseWalk_cons_passes b slot h rest done blocked s (.inr hh)]
        exact ih (stays (by simp [HeldReq.captureSlot, hh]) (by simp [HeldReq.isMarked, hh]))
      | entry c =>
        rw [releaseWalk_cons_waits b slot h rest done blocked s hb
          (.inl (by simp [HeldReq.isWaiter, hh]))]
        exact ih (stays (by simp [HeldReq.captureSlot, hh]) (by simp [HeldReq.isMarked, hh]))
      | buffer n =>
        rw [releaseWalk_cons_waits b slot h rest done blocked s hb
          (.inl (by simp [HeldReq.isWaiter, hh]))]
        exact ih (stays (by simp [HeldReq.captureSlot, hh]) (by simp [HeldReq.isMarked, hh]))
      | capture n =>
        by_cases hn : n = slot
        · subst hn
          rw [releaseWalk_cons_protected b n h rest done blocked s hb hh]
          have ends : freed b n h = h.release := if_pos ⟨hb, by simp [HeldReq.captureSlot, hh]⟩
          exact ih (w.pass (by rw [ends]; exact Eases.refl _) fun _ => rfl)
        · rw [releaseWalk_cons_waits b slot h rest done blocked s hb (.inr ⟨n, hn, hh⟩)]
          exact ih (stays (by simpa [HeldReq.captureSlot, hh] using hn)
            (by simp [HeldReq.isMarked, hh]))
      | order d mark here =>
        have free : h.captureSlot = none := by simp [HeldReq.captureSlot, hh]
        cases mark with
        | true =>
          rw [releaseWalk_cons_marked b slot h rest done blocked s d here hb hh]
          exact ih (w.classify hb (by simp [HeldReq.isMarked, hh]) blocked)
        | false =>
          rw [releaseWalk_cons_order b slot h rest done blocked s d here hb hh]
          cases blocked with
          | true => exact ih (stays (by simp [free]) (by simp [HeldReq.isMarked, hh]))
          | false =>
            refine ih (w.pass ?_ fun _ => rfl)
            rw [same (by simp [free])]
            exact Eases.release free
    · rw [releaseWalk_cons_passes b slot h rest done blocked s (.inl hb)]
      have same : freed b slot h = h := if_neg fun hf => hb hf.1
      exact ih (w.pass (by rw [same]; exact Eases.refl h) fun hb' => absurd hb' hb)

theorem Stands.completeCapture {s : State} (h : Stands (fun _ => False) s s.hold)
    (running : ∀ g, s.waitsForOldCapture g → s.running = true) {e : Entry}
    (he : s.entryAt e.slot = some e) (hs : e.state = .capturing) :
    Stands (fun _ => False) (s.completeCapture e) (s.completeCapture e).hold := by
  obtain ⟨hm, _⟩ := State.entryAt_mem he
  have ended : HoldsStand (· = e.block) (s.slotImaged e.slot) (s.hold.map (freed e.block e.slot)) :=
    h.holds.capture_ends h.table rfl hm hs (fun x => { x with state := .imaged, linesIn := 4 })
      (fun x => ⟨rfl, rfl, rfl⟩) (fun _ => by simp) rfl
  have begun : Walks e.block e.slot (s.slotImaged e.slot) [] s.hold := by
    refine ⟨⟨h.table.slotImaged he hs, ?_, h.fresh, ended⟩, fun g hg => (List.not_mem_nil hg).elim,
      fun m hm' hb hk => ⟨fun g hg => (List.not_mem_nil hg).elim, fun g hg hgb => ?_⟩⟩
    · exact h.blocks.of_map _ (fun x => by split_ifs <;> exact ⟨rfl, rfl⟩) rfl
    · obtain ⟨o, ho, hob, hw⟩ := (h.holds.marked m hm' hk).resolve_left id
      have apart := h.holds.alone o ho hw
      obtain ⟨x, hx, hc⟩ := h.holds.captured (running o hw) e hm hs
      have block : x.block = e.block := by
        obtain ⟨y, hy, hslot, hblock, _⟩ := h.holds.capture x hx _ hc
        rw [← hblock, h.table.eq_of_slot hy hm hslot]
      have slot : o.captureSlot = some e.slot := by
        obtain ⟨_, captures⟩ := apart x hx (block.trans (hb.symm.trans hob.symm))
        rw [hc] at captures
        exact (captures.resolve_left (by simp)).symm
      rw [← slot]
      exact apart g hg (hgb.trans (hb.symm.trans hob.symm))
  have walked := begun.releaseWalk (blocked := false)
  have stands := walked.stands
  rw [List.map_nil, List.append_nil] at stands
  have settled := stands.unexempt fun g hg hk hb => by
    rw [walked.unmarked g hg hb] at hk
    cases hk
  exact settled.frame rfl rfl

/-! #### The waiters of a cut (R65, R116, R117) -/

theorem HeldReq.waiter_of_entry {h : HeldReq} (hi : h.isEntry = true) : h.isWaiter = true := by
  unfold HeldReq.isEntry at hi
  unfold HeldReq.isWaiter
  cases hh : h.hold <;> simp [hh] at hi ⊢

/-- A waiter waits for an entry or for a buffer. -/
theorem HeldReq.isWaiter_cases {h : HeldReq} (hw : h.isWaiter = true) :
    h.isEntry = true ∨ ∃ n, h.bufferSlot = some n := by
  unfold HeldReq.isWaiter at hw
  unfold HeldReq.isEntry HeldReq.bufferSlot
  cases hh : h.hold <;> simp [hh] at hw ⊢

theorem HeldReq.captureSlot_of_waiter {h : HeldReq} (hw : h.isWaiter = true) :
    h.captureSlot = none := by
  unfold HeldReq.isWaiter at hw
  unfold HeldReq.captureSlot
  cases hh : h.hold <;> simp [hh] at hw ⊢

theorem dropDeferred_eases (h : HeldReq) : Eases h (dropDeferred h) := by
  unfold dropDeferred
  cases hh : h.hold with
  | order d mark here => exact Eases.setOrder hh
  | _ => exact Eases.refl h

theorem endWaiter_eases (h : HeldReq) : Eases h (endWaiter h) := by
  unfold endWaiter
  split_ifs with hw
  · exact Eases.release (HeldReq.captureSlot_of_waiter hw)
  · exact dropDeferred_eases h

theorem releaseWaiter_eases (h : HeldReq) : Eases h (releaseWaiter h) := by
  unfold releaseWaiter
  split_ifs with hw
  · exact Eases.release (HeldReq.captureSlot_of_waiter hw)
  · exact Eases.refl h

/-- At a cut all entries are of one epoch: a block with a capture has no waiter (R16). -/
theorem Stands.no_capture_beside_waiter {exempt : Block → Prop} {s : State} {q : List HeldReq}
    (h : Stands exempt s q) (current : ∀ e ∈ s.table, e.epoch = s.epoch.number) {w g : HeldReq}
    (hw : w ∈ q) (waits : w.isWaiter = true) (hg : g ∈ q) (hb : g.block = w.block) :
    g.captureSlot = none := by
  rw [Option.eq_none_iff_forall_ne_some]
  intro n hn
  obtain ⟨e, he, _, block, state⟩ := h.holds.capture g hg n hn
  rcases HeldReq.isWaiter_cases waits with entry | ⟨m, hm⟩
  · exact h.holds.entry w hw entry e he (block.trans hb) (current e he)
  · obtain ⟨x, hx, _, hblock, hepoch, pending⟩ := h.holds.buffer w hw m hm
    rw [h.blocks.eq_of_block he hx ((block.trans hb).trans hblock.symm)
      ((current e he).trans hepoch.symm), pending] at state
    cases state

/-- A buffer waiter's entry is PENDING, whoever looks at its slot. -/
theorem Stands.pending_of_buffered {exempt : Block → Prop} {s : State} {q : List HeldReq}
    (h : Stands exempt s q) {e : Entry} (he : e ∈ s.table) {g : HeldReq} (hg : g ∈ q)
    (hb : g.bufferSlot = some e.slot) : e.state = .pending := by
  obtain ⟨x, hx, hslot, _, _, pending⟩ := h.holds.buffer g hg _ hb
  rwa [← h.table.eq_of_slot hx he hslot]

theorem State.anchor_closedTable (s : State) :
    s.closedTable.map Entry.anchor = s.table.map Entry.anchor := by
  unfold State.closedTable
  rw [List.map_map]
  refine List.map_congr_left fun x _ => ?_
  simp only [Function.comp]
  split_ifs <;> rfl

/-- The table behind a cut that closes the epoch: PENDING entries of waiters have left. -/
theorem Stands.mem_cutTable {s : State} (h : Stands (fun _ => False) s s.hold) :
    (∀ y ∈ s.closedTable.filter (fun e => !s.buffered e.slot), ∃ x ∈ s.table, y.anchor = x.anchor) ∧
    ∀ x ∈ s.table, x.state ≠ .pending →
      ∃ y ∈ s.closedTable.filter (fun e => !s.buffered e.slot), y.anchor = x.anchor := by
  constructor
  · intro y hy
    have hm : y.anchor ∈ s.table.map Entry.anchor :=
      s.anchor_closedTable ▸ List.mem_map_of_mem (List.mem_of_mem_filter hy)
    obtain ⟨x, hx, ha⟩ := List.mem_map.1 hm
    exact ⟨x, hx, ha.symm⟩
  · intro x hx hs
    have hm : x.anchor ∈ s.closedTable.map Entry.anchor :=
      s.anchor_closedTable ▸ List.mem_map_of_mem hx
    obtain ⟨y, hy, ha⟩ := List.mem_map.1 hm
    obtain ⟨slot, _⟩ := (y.anchor_eq_iff x).1 ha
    refine ⟨y, List.mem_filter.2 ⟨hy, ?_⟩, ha⟩
    rw [Bool.not_eq_true', slot]
    refine Bool.eq_false_of_not_eq_true fun hb => hs ?_
    obtain ⟨g, hg, hbuf⟩ := List.any_eq_true.1 hb
    exact h.pending_of_buffered hx hg ((bufferSlot_eq_some g x.slot).2 (eq_of_beq hbuf))

/-- The queue behind a cut that closes the epoch, its waiters released: only captures stand for
something. -/
theorem Stands.cut {s t : State} (h : Stands (fun _ => False) s s.hold)
    (running : s.running = true) (calm : s.drainingNumber = none)
    (current : ∀ e ∈ s.table, e.epoch = s.epoch.number) (law : TableLaw t)
    (fresh : t.epoch.dev = .tracking → t.drainingNumber ≠ some t.epoch.number)
    (table : t.table = s.closedTable.filter fun e => !s.buffered e.slot) :
    Stands (fun _ => False) t (s.hold.map endWaiter) := by
  obtain ⟨origin, stay⟩ := h.mem_cutTable
  rw [← table] at origin stay
  have not_waiter := fun g : HeldReq => endWaiter_not_waiter g
  have not_entry : ∀ g : HeldReq, (endWaiter g).isEntry = false := fun g =>
    Bool.eq_false_of_not_eq_true fun hi => by
      have := HeldReq.waiter_of_entry hi
      rw [not_waiter g] at this
      cases this
  have old_waits : ∀ g, ¬s.waitsForOldCapture g := by
    rintro g ⟨e, _, _, hd⟩
    simp [State.isDraining, calm] at hd
  refine ⟨law, ?_, fresh, fun _ => List.forall_mem_map.2 fun g _ => not_waiter g,
    List.forall_mem_map.2 fun g _ n hn => ?_, List.forall_mem_map.2 fun g hg n hn => ?_,
    fun _ y hy hc => ?_, List.forall_mem_map.2 fun g hg hk => ?_,
    List.forall_mem_map.2 fun o ho hw => List.forall_mem_map.2 fun g hg hb => ?_,
    List.forall_mem_map.2 fun g _ hi => ?_, ?_⟩
  · have closed : BlockLaw { s with table := s.closedTable } :=
      h.blocks.of_anchor s.anchor_closedTable
    unfold BlockLaw
    rw [table]
    exact closed.sublist (List.filter_sublist.map _)
  · rw [HeldReq.bufferSlot_of_not_waiter (not_waiter g)] at hn
    cases hn
  · rw [(endWaiter_eases g).capture] at hn
    obtain ⟨x, hx, hslot, hblock, hstate⟩ := h.holds.capture g hg n hn
    obtain ⟨y, hy, ha⟩ := stay x hx (by simp [hstate])
    obtain ⟨slot, block, _, _, capturing⟩ := (y.anchor_eq_iff x).1 ha
    exact ⟨y, hy, slot.trans hslot, (block.trans hblock).trans (endWaiter_eases g).block.symm,
      capturing.2 hstate⟩
  · obtain ⟨x, hx, ha⟩ := origin y hy
    obtain ⟨slot, _, _, _, capturing⟩ := (y.anchor_eq_iff x).1 ha
    obtain ⟨g, hg, hgc⟩ := h.holds.captured running x hx (capturing.1 hc)
    exact ⟨_, List.mem_map_of_mem hg, by rw [(endWaiter_eases g).capture, hgc, slot]⟩
  · obtain ⟨o, _, _, hw⟩ := (h.holds.marked g hg ((endWaiter_eases g).marked hk)).resolve_left id
    exact absurd hw (old_waits o)
  · refine ⟨not_waiter g, ?_⟩
    rw [(endWaiter_eases g).capture, (endWaiter_eases o).capture]
    rw [(endWaiter_eases g).block, (endWaiter_eases o).block] at hb
    obtain ⟨y, _, ho', _⟩ := hw
    rw [(endWaiter_eases o).capture] at ho'
    cases hgc : g.captureSlot with
    | none => exact .inl rfl
    | some n =>
      obtain ⟨a, ha, hn, hba, _⟩ := h.holds.capture g hg n hgc
      obtain ⟨b, hb', hm, hbb, _⟩ := h.holds.capture o ho _ ho'
      have same : a = b := h.blocks.eq_of_block ha hb' (hba.trans (hb.trans hbb.symm))
        ((current a ha).trans (current b hb').symm)
      rw [ho', ← hn, ← hm, same]
      exact .inr rfl
  · rw [not_entry] at hi
    cases hi
  · have none : (s.hold.map endWaiter).filter HeldReq.isEntry = [] := by
      simp [List.filter_eq_nil_iff, not_entry]
    rw [none]
    exact List.nodup_nil

/-- A waiter of the cut is classified in its place, behind a queue in which no waiter is left. -/
theorem Stands.reclassifyWaiter {s : State} {h : HeldReq} {done rest : List HeldReq}
    (stands : Stands (fun _ => False) s (done ++ h.release :: rest.map endWaiter))
    (calm : ∀ g ∈ done ++ rest, g.block = h.block → g.captureSlot = none) :
    let t := s.classifyWrite h.req (done.any HeldReq.isEntry) (entryFor done h.block) false
    Stands (fun _ => False) t.1 (done ++ h.setHold t.2 :: rest.map endWaiter) := by
  have later : ∀ g ∈ rest.map endWaiter, g.isEntry = false := by
    refine List.forall_mem_map.2 fun g _ => Bool.eq_false_of_not_eq_true fun hi => ?_
    have waits := HeldReq.waiter_of_entry hi
    rw [endWaiter_not_waiter] at waits
    cases waits
  refine stands.classify rfl _ _ false (fun _ g hg hb ⟨e, _, hc, _⟩ => ?_) (fun he g hg => ?_)
    (fun he g hg hi hb => ?_)
  · have none : g.captureSlot = none := by
      rcases List.mem_append.1 hg with hg | hg
      · exact calm g (List.mem_append_left _ hg) hb
      · obtain ⟨x, hx, rfl⟩ := List.mem_map.1 hg
        rw [(endWaiter_eases x).capture]
        exact calm x (List.mem_append_right _ hx) ((endWaiter_eases x).block.symm.trans hb)
    rw [none] at hc
    cases hc
  · rw [List.any_eq_false] at he
    rcases List.mem_append.1 hg with hg | hg
    · exact Bool.eq_false_of_not_eq_true (he g hg)
    · rcases List.mem_cons.1 hg with rfl | hg
      · rfl
      · exact later g hg
  · rcases List.mem_append.1 hg with hg | hg
    · unfold entryFor at he
      rw [List.any_eq_false] at he
      refine he g hg ?_
      rw [hi, hb]
      exact beq_self_eq_true _
    · rw [later g hg] at hi
      cases hi

/-- The walk of a cut that opens an epoch: a waiter yet to come has no capture of its block beside
it, so that it is classified in its place (R116). -/
theorem Stands.reclassify {rest : List HeldReq} :
    ∀ {done : List HeldReq} {s : State}, Stands (fun _ => False) s (done ++ rest.map endWaiter) →
      (∀ w ∈ rest, w.isWaiter = true → ∀ g ∈ done ++ rest, g.block = w.block →
        g.captureSlot = none) →
      let t := Machine.reclassify rest done s
      Stands (fun _ => False) t.1 t.2 := by
  induction rest with
  | nil =>
    intro done s h _
    simpa [Machine.reclassify] using h
  | cons h rest ih =>
    intro done s stands calm
    have goOn : ∀ {h' : HeldReq} {t : State}, h'.block = h.block →
        (h.isWaiter = true ∧ h'.captureSlot = none ∨ h'.captureSlot = h.captureSlot) →
        Stands (fun _ => False) t (done ++ h' :: rest.map endWaiter) →
        Stands (fun _ => False) (Machine.reclassify rest (done ++ [h']) t).1
          (Machine.reclassify rest (done ++ [h']) t).2 := by
      intro h' t block capture ht
      refine ih (by rw [List.append_assoc]; exact ht) fun w hw waits g hg hb => ?_
      have old := calm w (List.mem_cons_of_mem _ hw) waits
      rw [List.append_assoc] at hg
      rcases List.mem_append.1 hg with hg | hg
      · exact old g (List.mem_append_left _ hg) hb
      · rcases List.mem_cons.1 hg with rfl | hg
        · rcases capture with ⟨_, none⟩ | same
          · exact none
          · rw [same]
            exact old h (List.mem_append_right _ List.mem_cons_self) (block.symm.trans hb)
        · exact old g (List.mem_append_right _ (List.mem_cons_of_mem _ hg)) hb
    by_cases hw : h.isWaiter = true
    · have released : endWaiter h = h.release := if_pos hw
      rw [List.map_cons, released] at stands
      have classified := stands.reclassifyWaiter fun g hg hb =>
        calm h List.mem_cons_self hw g
          (by simp only [List.mem_append, List.mem_cons] at hg ⊢; tauto) hb
      rw [reclassify_cons_waiter h rest done s hw]
      exact goOn rfl (.inl ⟨hw, (s.classifyWrite_fresh h _ _ _).2⟩) classified
    · have drops : endWaiter h = dropDeferred h := if_neg hw
      have step : Machine.reclassify (h :: rest) done s =
          Machine.reclassify rest (done ++ [dropDeferred h]) s := by
        conv_lhs => unfold Machine.reclassify
        rw [if_neg hw]
      rw [step]
      rw [List.map_cons, drops] at stands
      exact goOn (dropDeferred_eases h).block (.inr (dropDeferred_eases h).capture) stands

/-! #### An overflow and a retirement (R25, R38, R62, R92) -/

/-- Entries that are neither PENDING nor CAPTURING, and PENDING ones without waiters, may leave. -/
theorem Stands.removeEntries {exempt : Block → Prop} {s : State} {q : List HeldReq}
    (h : Stands exempt s q) (slots : List Nat)
    (idle : ∀ x ∈ s.table, x.slot ∈ slots → x.state ≠ .capturing ∧
      ∀ g ∈ q, g.bufferSlot ≠ some x.slot) : Stands exempt (s.removeEntries slots) q := by
  refine h.filter rfl (fun e => !slots.contains e.slot) rfl fun x hx hs => ?_
  rw [Bool.not_eq_true', List.contains_eq_mem, decide_eq_false_iff_not]
  intro hm
  obtain ⟨other, unwaited⟩ := idle x hx hm
  rcases hs with hs | ⟨g, hg, hb⟩
  · exact other hs
  · exact unwaited g hg hb

theorem releaseWaiter_not_waiter (h : HeldReq) : (releaseWaiter h).isWaiter = false := by
  unfold releaseWaiter
  split_ifs with hw
  · rfl
  · exact Bool.eq_false_of_not_eq_true hw

theorem Stands.overflowEpoch {exempt : Block → Prop} {s : State} (h : Stands exempt s s.hold) :
    Stands exempt s.overflowEpoch s.overflowEpoch.hold := by
  have flagged : Stands exempt s.setOverflow s.hold := by
    refine h.frame s.setOverflow_table ?_
    unfold State.setOverflow
    split_ifs <;> rfl
  have eased : Stands exempt s.setOverflow (s.hold.map releaseWaiter) :=
    flagged.eases (Eases.map fun g _ => releaseWaiter_eases g)
  have removed := eased.removeEntries (s.hold.filterMap HeldReq.bufferSlot) fun x hx hs => ?_
  · exact (removed.eases (Eases.releaseOrders [] _)).frame rfl rfl
  · obtain ⟨g, hg, hb⟩ := List.mem_filterMap.1 hs
    refine ⟨?_, List.forall_mem_map.2 fun g _ => ?_⟩
    · rw [flagged.pending_of_buffered hx hg hb]
      simp
    · rw [HeldReq.bufferSlot_of_not_waiter (releaseWaiter_not_waiter g)]
      simp

theorem grantedQueue_append (b : Block) (slot : Nat) (mode : TrackMode) (q q' : List HeldReq) :
    grantedQueue b slot mode (q ++ q') = grantedQueue b slot mode q ++ grantedQueue b slot mode q' :=
  List.map_append

/-- A grant changes no request of the block but the ENTRY waiter in what it waits for. -/
theorem grantedQueue_eases (b : Block) (slot : Nat) (mode : TrackMode) {q : List HeldReq}
    (h : ∀ g ∈ q, g.isEntry = true → g.block ≠ b) :
    List.Forall₂ Eases q (grantedQueue b slot mode q) := by
  refine Eases.map fun g hg => ?_
  split_ifs with hb
  · cases hh : g.hold with
    | entry c => exact absurd hb (h g hg (by simp [HeldReq.isEntry, hh]))
    | order d mark here =>
      cases d with
      | none => exact Eases.refl g
      | some d => exact Eases.setOrder hh
    | _ => exact Eases.refl g
  · exact Eases.refl g

/-- The oldest ENTRY waiter, in its place; no other request waits for its block's entry (R24). -/
theorem HoldsStand.entryWaiter {exempt : Block → Prop} {s : State} (hs : HoldsStand exempt s s.hold)
    {h : HeldReq} {c : Classification} (hw : s.entryWaiter = some (h, c)) :
    h.hold = .entry c ∧ ∃ ahead behind, s.hold = ahead ++ h :: behind ∧
      ∀ g ∈ ahead ++ behind, g.isEntry = true → g.block ≠ h.block := by
  obtain ⟨g, hg, hx⟩ := List.exists_of_findSome?_eq_some hw
  have found : g = h ∧ g.hold = .entry c := by
    cases hh : g.hold <;> rw [hh] at hx <;> cases hx
    exact ⟨rfl, rfl⟩
  obtain ⟨rfl, hh⟩ := found
  obtain ⟨ahead, behind, split⟩ := List.append_of_mem hg
  have single := hs.single
  rw [split] at single
  have moved := ((List.perm_middle (a := g) (l₁ := ahead) (l₂ := behind)).filter
    HeldReq.isEntry).map HeldReq.block |>.nodup_iff.1 single
  rw [List.filter_cons, if_pos (by simp [HeldReq.isEntry, hh]), List.map_cons,
    List.nodup_cons] at moved
  refine ⟨hh, ahead, behind, split, fun x hx hi hb => moved.1 ?_⟩
  exact List.mem_map.2 ⟨x, List.mem_filter.2 ⟨hx, hi⟩, hb⟩

/-- What the granted waiter takes: the release, or the wait for its entry's buffer (R25). -/
def grantedHold (slot : Nat) (mode : TrackMode) : Hold :=
  match mode with
  | .trace => .released
  | .undo => .buffer slot

theorem grantedQueue_around (slot : Nat) (mode : TrackMode) (ahead behind : List HeldReq)
    (h : HeldReq) (hi : h.isEntry = true) :
    grantedQueue h.block slot mode (ahead ++ h :: behind) = grantedQueue h.block slot mode ahead ++
      h.setHold (grantedHold slot mode) :: grantedQueue h.block slot mode behind := by
  unfold grantedQueue
  rw [List.map_append, List.map_cons, if_pos rfl]
  cases hh : h.hold with
  | entry c => rfl
  | _ => simp [HeldReq.isEntry, hh] at hi

theorem HoldsStand.tracking_of_waiter {exempt : Block → Prop} {s : State} {q : List HeldReq}
    (hs : HoldsStand exempt s q) {h : HeldReq} (hm : h ∈ q) (waits : h.isWaiter = true) :
    s.epoch.dev = .tracking := by
  refine Classical.byContradiction fun hd => ?_
  have quiet := hs.tracked hd h hm
  rw [waits] at quiet
  cases quiet

/-- A waiter's block has no old capture (R58). -/
theorem HoldsStand.not_behind_of_waiter {exempt : Block → Prop} {s : State} {q : List HeldReq}
    (hs : HoldsStand exempt s q) {h g : HeldReq} (hm : h ∈ q) (waits : h.isWaiter = true)
    (hg : g ∈ q) (hb : g.block = h.block) : ¬s.waitsForOldCapture g := by
  intro old
  obtain ⟨waiter, _⟩ := hs.alone g hg old h hm hb.symm
  rw [waits] at waiter
  cases waiter

/-- An entry joins for the block of an ENTRY waiter: the queue that is granted it stands. -/
theorem Stands.queueGranted {exempt : Block → Prop} {s : State} {ahead behind : List HeldReq}
    {h : HeldReq} (hs : Stands exempt s (ahead ++ h :: behind)) (entry : h.isEntry = true)
    (others : ∀ g ∈ ahead ++ behind, g.isEntry = true → g.block ≠ h.block) (mode : TrackMode)
    (e : Entry) (law : TableLaw (s.createEntry e)) (free : ∀ x ∈ s.table, x.slot ≠ e.slot)
    (block : e.block = h.block) (current : e.epoch = s.epoch.number)
    (state : e.state = match mode with | .trace => .logged | .undo => .pending) :
    Stands exempt (s.createEntry e)
      (grantedQueue h.block e.slot mode (ahead ++ h :: behind)) := by
  have mem : h ∈ ahead ++ h :: behind := List.mem_append_right _ List.mem_cons_self
  have waits : h.isWaiter = true := HeldReq.waiter_of_entry entry
  have stays : List.Forall₂ Eases (ahead ++ h :: behind)
      (grantedQueue h.block e.slot mode ahead ++ h.release ::
        grantedQueue h.block e.slot mode behind) :=
    List.rel_append (grantedQueue_eases _ _ _ fun g hg => others g (List.mem_append_left _ hg))
      (.cons (Eases.release (HeldReq.captureSlot_of_waiter waits))
        (grantedQueue_eases _ _ _ fun g hg => others g (List.mem_append_right _ hg)))
  have around : ∀ g ∈ grantedQueue h.block e.slot mode ahead ++
      grantedQueue h.block e.slot mode behind, ∃ o ∈ ahead ++ behind, Eases o g := by
    intro g hg
    rw [← grantedQueue_append] at hg
    exact Eases.of_mem_right (grantedQueue_eases _ _ _ others) hg
  rw [grantedQueue_around _ _ _ _ _ entry]
  refine (hs.eases stays).learn (t := s.createEntry e) (x := grantedHold e.slot mode) rfl law rfl
    (hs.holds.tracking_of_waiter mem waits) e rfl current block free
    (by rw [state]; cases mode <;> simp) (fun x hx hb => hs.holds.entry h mem entry x hx hb)
    (fun g hg hi => ?_) (fun g hg hb => ?_) ?_
  · have split : g = h.release ∨ g ∈ grantedQueue h.block e.slot mode ahead ++
        grantedQueue h.block e.slot mode behind := by
      simp only [List.mem_append, List.mem_cons] at hg ⊢
      tauto
    rcases split with rfl | hg
    · cases hi
    · obtain ⟨o, ho, he⟩ := around g hg
      rw [he.block]
      exact others o ho (he.entry hi)
  · obtain ⟨o, ho, he⟩ := around g hg
    rw [State.waitsForOldCapture_congr he.capture]
    have ho : o ∈ ahead ++ h :: behind := by
      simp only [List.mem_append, List.mem_cons] at ho ⊢
      tauto
    exact hs.holds.not_behind_of_waiter mem waits ho (he.block.symm.trans hb)
  · rw [state]
    cases mode with
    | trace => exact .inl trivial
    | undo => exact .inr ⟨rfl, rfl⟩

/-- The freed slot's grant: an entry joins for the oldest ENTRY waiter's block. -/
theorem Stands.grantEntry {exempt : Block → Prop} {s : State} (hs : Stands exempt s s.hold)
    (slot : Nat) (law : TableLaw (s.grantEntry slot)) (free : ∀ x ∈ s.table, x.slot ≠ slot) :
    Stands exempt (s.grantEntry slot) (s.grantEntry slot).hold := by
  cases hw : s.entryWaiter with
  | none =>
    unfold State.grantEntry
    rw [hw]
    exact hs
  | some p =>
    obtain ⟨h, c⟩ := p
    obtain ⟨hh, ahead, behind, split, others⟩ := hs.holds.entryWaiter hw
    have standing := standing_applyDeferred h.block s.hold (newEntry slot h.block s.epoch.number c)
    have step : s.grantEntry slot = (s.createEntry (applyDeferred h.block s.hold
        (newEntry slot h.block s.epoch.number c))).setHold
        (releaseOrders [] (grantedQueue h.block slot c.mode s.hold)) := by
      unfold State.grantEntry
      rw [hw]
    rw [step] at law ⊢
    generalize applyDeferred h.block s.hold (newEntry slot h.block s.epoch.number c) = e
      at law standing ⊢
    simp only [Entry.standing, newEntry, Prod.mk.injEq] at standing
    obtain ⟨rfl, block, current, state⟩ := standing
    have granted := (split ▸ hs).queueGranted (by simp [HeldReq.isEntry, hh]) others c.mode e
      (law.of_table rfl) free block current (state.trans (by cases c.mode <;> rfl))
    rw [← split] at granted
    exact (granted.eases (Eases.releaseOrders [] _)).frame rfl rfl

theorem Stands.retireEntry {exempt : Block → Prop} {s : State} (h : Stands exempt s s.hold)
    {e : Entry} (hd : s.dueRetire = some e) :
    Stands exempt (s.retireEntry e) (s.retireEntry e).hold := by
  obtain ⟨_, _, found, logged⟩ := State.dueRetire_entry hd
  obtain ⟨he, _⟩ := State.entryAt_mem found
  have advanced : ∀ u : State, (u.advanceSeq e).table = u.table ∧
      (u.advanceSeq e).epochKey = u.epochKey ∧ (u.advanceSeq e).hold = u.hold := by
    intro u
    unfold State.advanceSeq
    split_ifs <;> exact ⟨rfl, rfl, rfl⟩
  obtain ⟨table, key, hold⟩ := advanced (s.joinRecords (.block (s.nextSeq e) e))
  have recorded : Stands exempt ((s.joinRecords (.block (s.nextSeq e) e)).advanceSeq e) s.hold :=
    h.frame table key
  have removed := recorded.removeEntries [e.slot] fun x hx hs => ?_
  · refine Stands.grantEntry (hold ▸ removed) e.slot (h.table.retireEntry he) fun x hx => ?_
    simpa using (List.mem_filter.1 hx).2
  · rw [table] at hx
    have same : x = e := h.table.eq_of_slot hx he (List.mem_singleton.1 hs)
    refine ⟨by rw [same, logged]; simp, fun g hg hb => ?_⟩
    have pending := h.pending_of_buffered hx hg hb
    rw [same, logged] at pending
    cases pending

/-! #### Queues that stand for nothing -/

theorem HeldReq.of_isPlain {h : HeldReq} (hp : h.hold.isPlain) :
    h.isWaiter = false ∧ h.isEntry = false ∧ h.isMarked = false ∧ h.bufferSlot = none ∧
      h.captureSlot = none := by
  unfold HeldReq.isWaiter HeldReq.isEntry HeldReq.isMarked HeldReq.bufferSlot HeldReq.captureSlot
  cases hh : h.hold <;> simp [hh, Hold.isPlain] at hp ⊢
  exact hp

theorem HoldsStand.of_plain {s : State} {q : List HeldReq} (plain : ∀ g ∈ q, g.hold.isPlain)
    (idle : s.running = true → ∀ e ∈ s.table, e.state ≠ .capturing) :
    HoldsStand (fun _ => False) s q := by
  have calm : ∀ g ∈ q, _ := fun g hg => HeldReq.of_isPlain (plain g hg)
  refine ⟨fun _ g hg => ?_, fun g hg n hn => ?_, fun g hg n hn => ?_,
    fun hr e he hc => absurd hc (idle hr e he), fun g hg hk => ?_, fun o ho ⟨e, _, hc, _⟩ => ?_,
    fun g hg hi => ?_, ?_⟩
  · obtain ⟨waiter, _⟩ := calm g hg
    exact waiter
  · obtain ⟨_, _, _, buffer, _⟩ := calm g hg
    rw [buffer] at hn
    cases hn
  · obtain ⟨_, _, _, _, capture⟩ := calm g hg
    rw [capture] at hn
    cases hn
  · obtain ⟨_, _, mark, _⟩ := calm g hg
    rw [mark] at hk
    cases hk
  · obtain ⟨_, _, _, _, capture⟩ := calm o ho
    rw [capture] at hc
    cases hc
  · obtain ⟨_, entry, _⟩ := calm g hg
    rw [entry] at hi
    cases hi
  · have none : q.filter HeldReq.isEntry = [] := by
      rw [List.filter_eq_nil_iff]
      intro g hg
      obtain ⟨_, entry, _⟩ := calm g hg
      simp [entry]
    rw [none]
    exact List.nodup_nil

/-- An empty table, no drain, and nothing to stand for. -/
theorem Stands.of_rest {s : State} {q : List HeldReq} (table : s.table = [])
    (draining : s.epoch.draining = false) (plain : ∀ g ∈ q, g.hold.isPlain) :
    Stands (fun _ => False) s q := by
  refine ⟨TableLaw.of_empty table, ?_, fun _ => ?_, HoldsStand.of_plain plain fun _ e he => ?_⟩
  · unfold BlockLaw
    rw [table]
    exact List.nodup_nil
  · simp [State.drainingNumber, draining]
  · rw [table] at he
    cases he

/-- Outside TRACKING and without entries the queue stands for nothing. -/
theorem Stands.plain_of_rest {s : State} {q : List HeldReq} (h : Stands (fun _ => False) s q)
    (dev : s.epoch.dev ≠ .tracking) (table : s.table = []) : ∀ g ∈ q, g.hold.isPlain := by
  have empty : ∀ e : Entry, e ∉ s.table := fun e he => by rw [table] at he; cases he
  intro g hg
  cases hh : g.hold with
  | released => trivial
  | order d mark here =>
    cases mark with
    | false => rfl
    | true =>
      obtain ⟨_, _, _, e, he, _⟩ :=
        (h.holds.marked g hg (by simp [HeldReq.isMarked, hh])).resolve_left id
      exact absurd he (empty e)
  | entry c =>
    have := h.holds.tracked dev g hg
    simp [HeldReq.isWaiter, hh] at this
  | buffer n =>
    have := h.holds.tracked dev g hg
    simp [HeldReq.isWaiter, hh] at this
  | capture n =>
    obtain ⟨e, he, _⟩ := h.holds.capture g hg n (by simp [HeldReq.captureSlot, hh])
    exact absurd he (empty e)

/-! #### The laws of blocks and holds under every thing a step can do -/

/-- The laws of the table, of blocks and of holds in the state itself. -/
def State.Sound (s : State) : Prop := EpochLaw s ∧ Stands (fun _ => False) s s.hold

/-- An open epoch is not the one that drains (R97, R113). -/
theorem EpochLaw.fresh {s : State} (h : EpochLaw s) (dev : s.epoch.dev = .tracking) :
    s.drainingNumber ≠ some s.epoch.number := by
  obtain ⟨_, _, h3, _⟩ := h
  unfold State.drainingNumber
  cases draining : s.epoch.draining with
  | false => simp
  | true =>
    obtain ⟨_, _, m, hm, other, _⟩ := h3 dev draining
    have summary : s.epoch.summary = some m := hm
    simpa [summary] using other

theorem State.sound_iff (s : State) :
    s.Sound ↔ EpochLaw s ∧ TableLaw s ∧ BlockLaw s ∧ HoldLaw s := by
  constructor
  · rintro ⟨epochs, table, blocks, _, holds⟩
    exact ⟨epochs, table, blocks, (holdLaw_iff s).2 holds⟩
  · rintro ⟨epochs, table, blocks, holds⟩
    exact ⟨epochs, table, blocks, epochs.fresh, (holdLaw_iff s).1 holds⟩

theorem Stands.of_tableView {exempt : Block → Prop} {s t : State} (h : Stands exempt s s.hold)
    (view : t.tableView = s.tableView) : Stands exempt t t.hold := by
  have table : t.table = s.table := congrArg TableView.table view
  have epoch : _ = _ := congrArg TableView.epoch view
  have hold : t.hold.map (fun h => (h.req, h.hold)) = s.hold.map fun h => (h.req, h.hold) :=
    congrArg TableView.hold view
  simp only [State.tableView, Prod.mk.injEq] at epoch
  obtain ⟨dev, number, draining, summary⟩ := epoch
  have same : ∀ g g' : HeldReq, (g.req, g.hold) = (g'.req, g'.hold) → Eases g g' := by
    intro g g' e
    obtain ⟨req, hold⟩ := Prod.mk.inj e
    have eq : g' =
        { g with start := g'.start, time := g'.time, reachedAlert := g'.reachedAlert } := by
      rw [req, hold]
    rw [eq]
    exact ⟨rfl, rfl, id, fun _ => id, id, id⟩
  have eased : List.Forall₂ Eases s.hold t.hold := by
    refine List.Forall₂.imp same ?_
    have := List.forall₂_map_left_iff.1 (List.forall₂_map_right_iff.1
      (List.forall₂_eq_eq_eq.symm ▸ hold.symm))
    exact this
  refine (h.eases eased).frame table ?_
  simp [State.epochKey, State.drainingNumber, dev, number, draining, summary]

/-- An entry changes in what nothing stands for. -/
theorem Stands.modify {exempt : Block → Prop} {s : State} (h : Stands exempt s s.hold) {e : Entry}
    (found : s.entryAt e.slot = some e) (f : Entry → Entry) (law : TableLaw (s.modifyEntry e.slot f))
    (anchor : (f e).anchor = e.anchor) : Stands exempt (s.modifyEntry e.slot f) s.hold := by
  refine h.of_anchor law rfl ?_
  show (s.table.map _).map Entry.anchor = _
  rw [List.map_map]
  refine List.map_congr_left fun x hx => ?_
  simp only [Function.comp]
  split_ifs with hs
  · rw [h.table.eq_of_slot hx (State.entryAt_mem found).1 hs, anchor]
  · rfl

/-- A drain that completes leaves no entry of its epoch, and so no mark (R97, R123). -/
theorem State.Sound.drains {s : State} (h : s.Sound) {r : Record} {rest : List Record}
    (hq : s.journal.queue = r :: rest) (hc : r.isClosing = true) (hd : s.epoch.draining = true) :
    Stands (fun _ => False) (State.drained { s with journal.queue := rest }) s.hold := by
  obtain ⟨epochs, stands⟩ := h
  have runs := epochs.running_of_draining hd
  have running : s.running = true := by simpa [State.running] using runs
  obtain ⟨_, _, _, _, _, h6, h7, _⟩ := epochs
  obtain ⟨_, built⟩ := (h7 running).1 (by rw [hq]; simp [hc])
  have gone : ∀ g, ¬s.waitsForOldCapture g := by
    rintro g ⟨e, he, _, old⟩
    obtain ⟨_, m, hm, number⟩ := (s.isDraining_iff e).1 old
    exact h6 hd built m hm e he number.symm
  generalize ht : State.drained { s with journal.queue := rest } = t
  have table : t.table = s.table := by rw [← ht]; rfl
  have number : t.epoch.number = s.epoch.number := by rw [← ht]; rfl
  have calm : t.drainingNumber = none := by rw [← ht]; rfl
  have dev : t.epoch.dev = if s.epoch.dev = .finishing then .ready else s.epoch.dev := by
    rw [← ht]; rfl
  have none : ∀ g, ¬t.waitsForOldCapture g := by
    rintro g ⟨e, _, _, old⟩
    simp [State.isDraining, calm] at old
  obtain ⟨law, blocks, _, h1, h2, h3, h4, h5, _, h7, h8⟩ := stands
  refine ⟨law.of_table table, by unfold BlockLaw; rw [table]; exact blocks, fun _ => by simp [calm],
    fun hn => h1 fun hs => hn (by simp [dev, hs]), ?_, ?_, fun _ => ?_, fun g hg hk => ?_,
    fun g _ hw => absurd hw (none g), ?_, h8⟩
  · rw [table, number]; exact h2
  · rw [table]; exact h3
  · rw [table]; exact h4 running
  · obtain ⟨o, _, _, hw⟩ := (h5 g hg hk).resolve_left id
    exact absurd hw (gone o)
  · rw [table, number]; exact h7

/-- OPEN finds no entry and no waiter (R118). -/
theorem State.Sound.opens {s : State} (h : s.Sound) (dev : s.epoch.dev = .ready) :
    Stands (fun _ => False) s.opened.reclassifyWaiters.grantBuffers
      s.opened.reclassifyWaiters.grantBuffers.hold := by
  obtain ⟨epochs, stands⟩ := h
  obtain ⟨table, _, draining⟩ := epochs.atRest (.inr (.inr dev))
  have plain := stands.plain_of_rest (by rw [dev]; simp) table
  have opened : Stands (fun _ => False) s.opened s.hold := Stands.of_rest table draining plain
  have quiet : ∀ g ∈ s.opened.hold, g.isWaiter = false := fun g hg =>
    (HeldReq.of_isPlain (plain g hg)).1
  have walked := (opened.eases (Eases.map fun g _ => dropDeferred_eases g)).eases
    (Eases.releaseOrders [] _)
  rw [State.reclassifyWaiters_of_no_waiter _ quiet]
  exact Stands.grantBuffers (walked.frame rfl rfl)

theorem State.Sound.atCut {s : State} (h : s.Sound) (dev : s.epoch.dev = .tracking)
    (busy : s.cmd.busy = false) :
    s.running = true ∧ s.drainingNumber = none ∧ ∀ e ∈ s.table, e.epoch = s.epoch.number := by
  obtain ⟨draining, current, _⟩ := h.1.atCut dev busy
  exact ⟨by simp [State.running, dev], by simp [State.drainingNumber, draining], current⟩

theorem State.Sound.switches {s : State} (h : s.Sound) (dev : s.epoch.dev = .tracking)
    (busy : s.cmd.busy = false) :
    Stands (fun _ => False) s.switchWalked.grantBuffers s.switchWalked.grantBuffers.hold := by
  obtain ⟨running, calm, current⟩ := h.atCut dev busy
  obtain ⟨_, stands⟩ := h
  obtain ⟨law, _⟩ := s.switchOpened_table dev stands.table
  have begun : Stands (fun _ => False) s.switchOpened (s.hold.map endWaiter) :=
    stands.cut running calm current law
      (fun _ => by
        show some s.epoch.number ≠ some (s.epoch.number + 1)
        exact fun e => add_one_ne_self _ (Option.some.inj e).symm) rfl
  have walked : Stands (fun _ => False) (reclassify s.hold [] s.switchOpened).1 _ :=
    Stands.reclassify (done := []) begun fun w hw waits g hg hb =>
      stands.no_capture_beside_waiter current hw waits hg hb
  exact Stands.grantBuffers ((walked.eases (Eases.releaseOrders [] _)).frame rfl rfl)

theorem State.Sound.ends {s : State} (h : s.Sound) (dev : s.epoch.dev = .tracking)
    (busy : s.cmd.busy = false) : Stands (fun _ => False) s.ended s.ended.hold := by
  obtain ⟨running, calm, current⟩ := h.atCut dev busy
  obtain ⟨_, stands⟩ := h
  have closed : TableLaw s.closeEntries := stands.table.closeEntries
  rw [State.closeEntries_eq s dev] at closed
  have cut : Stands (fun _ => False) s.ended (s.hold.map endWaiter) :=
    stands.cut running calm current (closed.filter (fun e => !s.buffered e.slot) rfl)
      (fun hd => by cases hd) rfl
  exact cut.eases (Eases.releaseOrders [] _)

/-- A state at rest goes to another state at rest. -/
theorem State.Sound.rests {s : State} (h : s.Sound)
    (dev : s.epoch.dev = .idle ∨ s.epoch.dev = .loading ∨ s.epoch.dev = .ready) {t : State}
    (table : t.table = s.table) (hold : t.hold = s.hold)
    (draining : t.epoch.draining = s.epoch.draining) : Stands (fun _ => False) t t.hold := by
  obtain ⟨epochs, stands⟩ := h
  obtain ⟨empty, _, calm⟩ := epochs.atRest dev
  refine Stands.of_rest (table.trans empty) (draining.trans calm) ?_
  rw [hold]
  exact stands.plain_of_rest (by rcases dev with e | e | e <;> rw [e] <;> simp) empty

theorem released_isPlain {q : List HeldReq} : ∀ g ∈ q.map HeldReq.release, g.hold.isPlain :=
  List.forall_mem_map.2 fun _ _ => trivial

theorem tended_sound : Tended State.Sound where
  same h view := ⟨h.1.of_tableView view, h.2.of_tableView view⟩
  routes s r h := ⟨tended_epochLaw.routes s r h.1, h.2.routePlain r (plainHold_isPlain _)⟩
  arrives s r h := ⟨tended_epochLaw.arrives s r h.1, h.2.arriveWrite r⟩
  leaves s room h :=
    ⟨tended_epochLaw.leaves s room h.1, (h.2.of_held (leaveUpTo_held room s.hold)).frame rfl rfl⟩
  grants s g e n h hd := ⟨tended_epochLaw.grants s g e n h.1 hd, h.2.grantBuffer hd⟩
  counts s e h he hs := ⟨tended_epochLaw.counts s e h.1 he hs,
    h.2.modify he _ (tended_tableLaw.counts s e h.2.table he hs) rfl⟩
  captures s e h he hs := by
    refine ⟨tended_epochLaw.captures s e h.1 he hs, h.2.completeCapture ?_ he hs⟩
    rintro g ⟨x, _, _, hd⟩
    simpa [State.running] using h.1.running_of_draining ((s.isDraining_iff x).1 hd).1
  copies s e h he hs := ⟨tended_epochLaw.copies s e h.1 he hs,
    h.2.modify he _ (tended_tableLaw.copies s e h.2.table he hs) (by simp [Entry.anchor, hs])⟩
  files s e image h he hs := ⟨tended_epochLaw.files s e image h.1 he hs,
    h.2.modify he _ (tended_tableLaw.files s e image h.2.table he hs) (by simp [Entry.anchor, hs])⟩
  logs s e h he hs := ⟨tended_epochLaw.logs s e h.1 he hs,
    h.2.modify he _ (tended_tableLaw.logs s e h.2.table he hs) (by simp [Entry.anchor, hs])⟩
  writes s r rest h hq hc := ⟨tended_epochLaw.writes s r rest h.1 hq hc, h.2.frame rfl rfl⟩
  drains s r rest h hq hc hd := ⟨tended_epochLaw.drains s r rest h.1 hq hc hd, h.drains hq hc hd⟩
  loads s h dev := ⟨tended_epochLaw.loads s h.1 dev, h.rests (dev.imp id .inr) rfl rfl rfl⟩
  loaded s d h dev hd :=
    ⟨tended_epochLaw.loaded s d h.1 dev hd, h.rests (.inr (.inl dev)) rfl rfl rfl⟩
  halts s h running := by
    refine ⟨tended_epochLaw.halts s h.1 running, h.2.table, h.2.blocks, fun hd => ?_,
      HoldsStand.of_plain released_isPlain fun hr => ?_⟩
    · cases hd
    · cases hr
  overflows s h := ⟨tended_epochLaw.overflows s h.1, h.2.overflowEpoch⟩
  ages s e h he hc := by
    refine ⟨tended_epochLaw.ages s e h.1 he hc, ?_⟩
    refine h.2.of_anchor (tended_tableLaw.ages s e h.2.table he hc) rfl ?_
    show (s.table.map _).map Entry.anchor = _
    rw [List.map_map]
    refine List.map_congr_left fun x _ => ?_
    simp only [Function.comp]
    split_ifs <;> rfl
  retires s e h hd := ⟨tended_epochLaw.retires s e h.1 hd, h.2.retireEntry hd⟩
  closes s sum h hd := ⟨tended_epochLaw.closes s sum h.1 hd, h.2.frame rfl rfl⟩
  opens s h dev busy := ⟨tended_epochLaw.opens s h.1 dev busy, h.opens dev⟩
  switches s longest h dev busy := by
    refine ⟨tended_epochLaw.switches s longest h.1 dev busy, ?_⟩
    refine (h.switches dev busy).frame rfl ?_
    rw [State.grantBuffers_eq, State.switchWalked_frame]
    rfl
  ends s h dev busy :=
    ⟨tended_epochLaw.ends s h.1 dev busy, (h.ends dev busy).frame rfl rfl⟩
  stops s h := ⟨tended_epochLaw.stops s h.1, Stands.of_rest rfl rfl released_isPlain⟩
  reset := ⟨tended_epochLaw.reset, Stands.of_rest rfl rfl fun g hg => (List.not_mem_nil hg).elim⟩

/-- Settles O59, by the requests that each thing a step can do leaves standing for an entry. -/
theorem everyStepKeepsTheBlockLawAndTheHoldLaw :
    Obligations.EveryStepKeepsTheBlockLawAndTheHoldLaw := by
  intro s t table epochs blocks holds he
  have sound := tended_sound.kept.step s t (s.sound_iff.2 ⟨epochs, table, blocks, holds⟩) he
  obtain ⟨_, _, blocks', holds'⟩ := t.sound_iff.1 sound
  exact ⟨blocks', holds'⟩

end Sys2Proof.Machine

/-! ### Reset (R44, R69, R89, R108, R130, R145, R151, R152, R155, R172) -/

namespace Sys2Proof.Machine

theorem RetireLaw.reset : RetireLaw State.reset :=
  ⟨List.nodup_nil, fun n => by simp [State.reset, RetireEngine.reset]⟩

theorem CapacityLaw.reset : CapacityLaw State.reset := by
  unfold CapacityLaw; decide

/-- No own request is queued or issued at reset. -/
theorem State.liveCount_reset (p : OwnRole → Bool) : State.reset.liveCount p = 0 := rfl

theorem CacheLaw.reset : CacheLaw State.reset := by
  unfold CacheLaw
  simp only [State.liveCount_reset]
  decide

theorem OwnLaw.reset : OwnLaw State.reset := by
  unfold OwnLaw
  simp only [State.liveCount_reset]
  simp [State.live, State.reset, MemPort.reset, CopyOut.reset, Journal.reset]

/-- Settles O58. -/
theorem resetMeetsEveryLaw : Obligations.ResetMeetsEveryLaw := by
  obtain ⟨_, table, blocks, holds⟩ := State.reset.sound_iff.1 tended_sound.reset
  exact ⟨table, RetireLaw.reset, CapacityLaw.reset, fun h => absurd rfl h, SettingsInOrder.reset.1,
    SettingsInOrder.reset.2, blocks, holds, CacheLaw.reset, tended_epochLaw.reset, OwnLaw.reset⟩

theorem State.snapField_of_none {n : Nat} {s : State} (h : s.port.snapshot = none)
    (f : Entry → BitVec n) : s.snapField f = 0 := by
  unfold State.snapField
  rw [h]

theorem State.snapField_of_some {n : Nat} {s : State} {e : Entry} (h : s.port.snapshot = some e)
    (f : Entry → BitVec n) : s.snapField f = f e := by
  unfold State.snapField
  rw [h]

/-- The registers of the inspect window read 0 while nothing is selected, latched or sampled. -/
theorem State.readReg_inspect_of_clear {s : State} (slot : s.port.inspectSlot = 0)
    (snapshot : s.port.snapshot = none) (latches : ∀ q, s.port.latches.get q = 0) (p : Byte)
    (low : 0x70 ≤ p.toNat) (high : p.toNat ≤ 0x7E) : s.readReg (regAt p) = 0 := by
  obtain ⟨k, rfl⟩ : ∃ k : Fin 15, p = BitVec.ofNat 8 (0x70 + k.val) := by
    refine ⟨⟨p.toNat - 0x70, by omega⟩, ?_⟩
    rw [← BitVec.toNat_inj, BitVec.toNat_ofNat]
    dsimp only
    omega
  fin_cases k <;>
    simp [regAt, State.readReg, State.wideValue, slot, State.snapField_of_none snapshot, latches]

theorem Latches.get_reset (q : Wide) : Latches.reset.get q = 0 := by
  cases q <;> rfl

/-- Settles O6. -/
theorem powerOnResetEmptiesEveryBlock : Obligations.PowerOnResetEmptiesEveryBlock := by
  intro s
  exact ⟨_, rfl, rfl, rfl, rfl, rfl, rfl, rfl, rfl, rfl, rfl, rfl, rfl, rfl, rfl, rfl, rfl, rfl, rfl,
    Latches.get_reset, State.readReg_inspect_of_clear rfl rfl Latches.get_reset, rfl, rfl, rfl, rfl,
    rfl⟩
end Sys2Proof.Machine

/-! ### The inspect window (R41, R42) -/

namespace Sys2Proof.Machine

theorem exec_inspectSlotWrite_of_released (s : State) (v : Half)
    (h : s.port.resetAsserted = false) :
    exec (.inspectSlotWrite v) s = .next ((s.writeInspectSlot v).afterWrite 0x70) :=
  s.onPort_of_released (fun s => (s.writeInspectSlot v).afterWrite 0x70) h

/-- What a data byte of a write transaction makes of the part (R148). -/
def State.heldByte (s : State) (b : Byte) : State :=
  match s.port.phase with
  | .highWrite low => s.highByte low b
  | .low | .highRead _ => State.ack { s with port.phase := .highWrite b }

theorem exec_heldLowByte_of_released (s : State) (b : Byte) (h : s.port.resetAsserted = false) :
    exec (.heldLowByte b) s = .next (s.heldByte b) :=
  s.onPort_of_released (State.heldByte · b) h

theorem exec_busStopCondition_of_released (s : State) (h : s.port.resetAsserted = false) :
    exec .busStopCondition s = .next { s with port.phase := .low } :=
  s.onPort_of_released (fun s => { s with port.phase := .low }) h

theorem extractLsb'_setWidth_self {n m : Nat} (x : BitVec n) (h : n ≤ m) :
    (x.setWidth m).extractLsb' 0 n = x := by
  ext i hi
  have fits : i < m := by omega
  simp [hi, fits]

/-- Settles O11. -/
theorem inspectSlotWriteLatchesASnapshot : Obligations.InspectSlotWriteLatchesASnapshot := by
  refine ⟨fun s v h => ?_, fun s high low h hp he hph => ?_, fun s => ⟨?_, ?_⟩,
    fun s b h hph => ?_⟩
  · refine ⟨_, exec_inspectSlotWrite_of_released s v h, ?_⟩
    have slot : (v.extractLsb' 0 11).toNat = v.toNat % 2048 := by simp
    rw [State.afterWrite_eq, State.writeInspectSlot, slot]
    unfold MgmtPort.written
    rfl
  · rw [exec_heldLowByte_of_released s high h, exec_inspectSlotWrite_of_released s _ h, State.heldByte,
      hph]
    dsimp only
    unfold State.highByte
    rw [if_neg (by simp [he]), hp]
    rfl
  · show (s.port.inspectSlot.setWidth 16).extractLsb' 0 11 = _
    exact extractLsb'_setWidth_self _ (by omega)
  · show (s.port.inspectSlot.setWidth 16).extractLsb' 11 5 = _
    ext i hi
    simp
  · refine ⟨_, exec_heldLowByte_of_released s b h, ?_⟩
    have held : s.heldByte b = State.ack { s with port.phase := .highWrite b } := by
      unfold State.heldByte
      rw [hph]
    have port : { s.port with phase := .low } = s.port := by rw [← hph]
    rw [held, exec_busStopCondition_of_released (State.ack { s with port.phase := .highWrite b }) h]
    show Host.Outcome.next { s with port := { s.port with phase := .low }, out := _ } = _
    rw [port]

/-- The fields of SNAP_INFO (R42, 10.5). -/
theorem snapInfo_fields (e : Entry) :
    (snapInfo e).extractLsb' 0 1 = 1 ∧ (snapInfo e).extractLsb' 1 3 = e.state.code ∧
    (snapInfo e).extractLsb' 4 2 = e.window ∧ (snapInfo e).extractLsb' 6 1 = e.mode.code ∧
    (snapInfo e).extractLsb' 8 2 = causeCode e.cause ∧
    (snapInfo e).extractLsb' 10 1 = BitVec.ofBool e.saturated ∧
    (snapInfo e).extractLsb' 11 1 = BitVec.ofBool e.poolBuf.isSome ∧
    (snapInfo e).extractLsb' 12 1 = BitVec.ofBool e.imageBuf.isSome := by
  unfold snapInfo
  refine ⟨?_, ?_, ?_, ?_, ?_, ?_, ?_, ?_⟩ <;> refine BitVec.eq_of_getLsbD_eq fun i hi => ?_ <;>
    simp only [BitVec.getLsbD_extractLsb', BitVec.getLsbD_append, boolBit] <;>
    interval_cases i <;> simp

theorem snapCounts_fields (e : Entry) :
    (snapCounts e).extractLsb' 0 8 = e.count ∧ (snapCounts e).extractLsb' 8 4 = e.handoffs := by
  unfold snapCounts
  refine ⟨?_, ?_⟩ <;> refine BitVec.eq_of_getLsbD_eq fun i hi => ?_ <;>
    simp only [BitVec.getLsbD_extractLsb', BitVec.getLsbD_append] <;> interval_cases i <;> simp

theorem snapWriters_fields (e : Entry) :
    (snapWriters e).extractLsb' 0 4 = e.firstWriter ∧
    (snapWriters e).extractLsb' 4 4 = e.lastWriter ∧
    (snapWriters e).extractLsb' 8 6 = BitVec.ofNat 6 (e.poolBuf.getD 0) := by
  unfold snapWriters
  refine ⟨?_, ?_, ?_⟩ <;> refine BitVec.eq_of_getLsbD_eq fun i hi => ?_ <;>
    simp only [BitVec.getLsbD_extractLsb', BitVec.getLsbD_append] <;> interval_cases i <;> simp

theorem imageAddrWord_low (b : Option ImageBuf) : (imageAddrWord b).extractLsb' 0 16 =
    match b with | none => 0 | some b => b.addr.extractLsb' 8 16 := by
  cases b with
  | none => rfl
  | some b =>
    ext i hi
    have low : i < 32 := by omega
    simp [imageAddrWord, low]

/-- Settles O12. -/
theorem snapshotRegistersShowTheLatchedEntry :
    Obligations.SnapshotRegistersShowTheLatchedEntry := by
  refine ⟨fun s p h hp => ?_, fun s h => ?_, fun s => ⟨rfl, rfl, rfl, rfl, rfl, rfl, rfl, rfl⟩,
    fun s e h => ?_⟩
  · rcases hp with rfl | rfl | rfl | rfl | rfl | rfl | rfl | rfl | rfl | rfl <;>
      simp [regAt, State.readReg, State.wideValue, State.snapField_of_none h]
  · exact ⟨State.snapField_of_none h _, State.snapField_of_none h _, State.snapField_of_none h _,
      State.snapField_of_none h _⟩
  · have shown : ∀ {n : Nat} (f : Entry → BitVec n), s.snapField f = f e :=
      fun f => State.snapField_of_some h f
    have info : s.readReg (regAt 0x71) = snapInfo e := shown snapInfo
    have counts : s.readReg (regAt 0x75) = snapCounts e := shown snapCounts
    have writers : s.readReg (regAt 0x76) = snapWriters e := shown snapWriters
    have first : s.wideValue .snapFirst = e.firstStamp := shown _
    have last : s.wideValue .snapLast = e.lastStamp := shown _
    have block : s.wideValue .snapBlock = e.block := shown _
    have image : s.wideValue .snapImg = imageAddrWord e.imageBuf := shown _
    have index : s.readReg (regAt 0x7C) = (imageIndex e.imageBuf).setWidth 16 :=
      congrArg (BitVec.setWidth 16) (shown fun e => imageIndex e.imageBuf)
    have low : ∀ {q : Wide} {v : Word}, s.wideValue q = v →
        s.readReg (.wideLow q) = v.extractLsb' 0 16 :=
      fun hq => congrArg (BitVec.extractLsb' 0 16) hq
    obtain ⟨i0, i1, i4, i6, i8, i10, i11, i12⟩ := snapInfo_fields e
    obtain ⟨c0, c8⟩ := snapCounts_fields e
    obtain ⟨w0, w4, w8⟩ := snapWriters_fields e
    rw [info, counts, writers, index, first, last, block, image]
    exact ⟨i0, i1, i4, i6, i8, i10, i11, i12, shown _, low block, c0, c8, w0, w4, w8, shown _,
      low first, low last, extractLsb'_setWidth_self _ (by omega),
      (low image).trans (imageAddrWord_low e.imageBuf), rfl, rfl, rfl, rfl⟩

end Sys2Proof.Machine

/-! ### The end of an event, the write count, and the lowest free slot and buffer (R21, R28, R72,
R140, R165, R166, R169) -/

namespace Sys2Proof.Machine

theorem exec_bufferGrant_of_due (s : State) {h : HeldReq} {e : Entry} {n : Nat}
    (hd : s.dueGrant = some (h, e, n)) :
    exec .bufferGrant s = .next (s.grantBuffer h e n).handOver := by
  simp only [exec, execBufferGrant, hd]

/-- Settles O19. -/
theorem changesOfOccupancyAndPoolUseAreEvaluated :
    Obligations.ChangesOfOccupancyAndPoolUseAreEvaluated := by
  refine fun s => ⟨fun h => ?_, fun h => ?_, s.handOver_dueGrant⟩
  · have changes : s.handOver = s.handChanges := by rw [State.handOver, s.grantBuffers_of_none h]
    rw [changes]
    exact s.handChanges_spec
  · obtain ⟨⟨g, e, n⟩, hd⟩ := Option.ne_none_iff_exists'.1 h
    rw [exec_bufferGrant_of_due s hd, State.handOver, State.handOver, s.grantBuffers_of_due hd]

/-- Settles O36. -/
theorem freeSlotsAndBuffersAreTakenLowestFirst :
    Obligations.FreeSlotsAndBuffersAreTakenLowestFirst :=
  ⟨State.freeSlot_eq_some, State.freeBuffer_eq_some⟩

theorem satInc_toNat {n : Nat} (x : BitVec n) :
    (satInc x).toNat = min (2 ^ n - 1) (x.toNat + 1) := by
  have bound := x.isLt
  unfold satInc
  split_ifs with h
  · rw [h, BitVec.toNat_allOnes]
    omega
  · have below : x.toNat ≠ 2 ^ n - 1 := fun hx =>
      h (BitVec.eq_of_toNat_eq (hx.trans BitVec.toNat_allOnes.symm))
    have fits : x.toNat + 1 < 2 ^ n := by omega
    have sum : (x + 1).toNat = x.toNat + 1 := by
      rw [BitVec.toNat_add]
      show (x.toNat + 1 % 2 ^ n) % 2 ^ n = _
      rw [Nat.add_mod_mod, Nat.mod_eq_of_lt fits]
    omega

/-- The entry has counted `k` writes: up to 255 of them, with the saturation from the next on (R28). -/
def Entry.Counted (e : Entry) (k : Nat) : Prop :=
  e.count.toNat = min 255 k ∧ (e.saturated = true ↔ 256 ≤ k)

theorem Entry.update_saturated (e : Entry) (i : Initiator) (time : Word) :
    (e.update i time).saturated = true ↔ e.saturated = true ∨ e.count.toNat = 255 := by
  have full : e.count = 255 ↔ e.count.toNat = 255 := by rw [← BitVec.toNat_inj]; rfl
  show (e.saturated || e.count == 255) = true ↔ _
  rw [Bool.or_eq_true, beq_iff_eq, full]

theorem Entry.update_count (e : Entry) (i : Initiator) (time : Word) :
    (e.update i time).count.toNat = min 255 (e.count.toNat + 1) :=
  satInc_toNat e.count

theorem Entry.Counted.update {e : Entry} {k : Nat} (h : e.Counted k) (i : Initiator) (time : Word) :
    (e.update i time).Counted (k + 1) := by
  obtain ⟨count, saturated⟩ := h
  refine ⟨?_, ?_⟩
  · rw [Entry.update_count, count]
    omega
  · rw [Entry.update_saturated, saturated, count]
    omega

theorem Entry.Counted.writes {e : Entry} {k : Nat} (h : e.Counted k)
    (writes : List (Initiator × Word)) :
    (writes.foldl (fun e w => e.update w.1 w.2) e).Counted (writes.length + k) := by
  induction writes generalizing e k with
  | nil => rw [List.length_nil, Nat.zero_add]; exact h
  | cons w rest ih =>
    have := ih (h.update w.1 w.2)
    rwa [← Nat.add_assoc, Nat.add_right_comm] at this

/-- Settles O35. -/
theorem theWriteCountCountsWritesTo255 : Obligations.TheWriteCountCountsWritesTo255 := by
  obtain ⟨_, _, alike⟩ := windowClaimsByModeRangeAndMask
  refine ⟨fun e i time => ?_, fun _ _ _ _ => ⟨rfl, rfl⟩, fun slot b epoch c writes => ?_,
    fun s t t' i a m m' d d' g ht ht' => ?_⟩
  · have count := e.update_count i time
    have saturated := e.update_saturated i time
    refine ⟨fun below => ⟨by omega, ?_⟩, fun full => ⟨by omega, saturated.2 (.inr full)⟩,
      fun hs => saturated.2 (.inl hs)⟩
    rw [Bool.eq_iff_iff, saturated]
    exact or_iff_left (by omega)
  · have learned : (newEntry slot b epoch c).Counted 1 := ⟨rfl, by simp [newEntry]⟩
    exact learned.writes writes
  · obtain ⟨table, _⟩ := alike s t t' i a m m' d d' g ht ht'
    exact table

end Sys2Proof.Machine

/-! ### Misses (R21 to R24, R27, R30, R63) -/

namespace Sys2Proof.Machine

/-- A write that is not behind an old capture is classified as a held one is, and routed. -/
theorem exec_writeArrival_retakes (s : State) (i : Initiator) (a : Addr) (m : ByteMask) (d : Line)
    (g : Nat) (hr : s.ready = true) (hb : s.behindOldCapture (blockOf a) = false) : ∃ t x,
    exec (.writeArrival i a m d g) s = .next (t.route (s.writeRequest i a m d g) x).handOver ∧
    s.placeTaken.Retakes (s.writeRequest i a m d g) (s.hold.any HeldReq.isEntry)
      (entryFor s.hold (blockOf a)) (heldFor s.hold (blockOf a)) t x := by
  refine ⟨_, _, ?_, s.placeTaken.classifyWrite_retakes _ _ _ _⟩
  rw [exec_writeArrival_of_ready s i a m d g hr,
    State.arriveWrite_classified s.placeTaken (s.writeRequest i a m d g) (.inr hb)]
  rfl

/-- A request that is not RELEASED joins the Hold Queue. -/
theorem State.route_held (s : State) (r : Request) {x : Hold} (hx : x ≠ .released) :
    s.route r x = { s with hold := s.hold ++ [s.newHeld r x] } := by
  unfold State.route
  rw [if_neg hx]
  rfl

/-- Settles O33. -/
theorem missInAnOverflowedEpochPassesCounted :
    Obligations.MissInAnOverflowedEpochPassesCounted := by
  intro s i a m d g c hr hb hv hl ho
  obtain ⟨t, x, ran, _, _, overflowed, _⟩ := exec_writeArrival_retakes s i a m d g hr hb
  obtain ⟨rfl, rfl⟩ := overflowed c hv hl ho
  rw [ran, ← State.route_orderHold]
  rfl

/-- Settles O30. -/
theorem trackedMissLearnsAnEntry : Obligations.TrackedMissLearnsAnEntry := by
  intro s i a m d g slot c hr hb hv hl ho hn hf
  obtain ⟨_, hi, ht⟩ := State.classify_tracked hv
  obtain ⟨t, x, ran, _, _, _, missed⟩ := exec_writeArrival_retakes s i a m d g hr hb
  obtain ⟨_, learns, _⟩ := missed c hv hl ho
  have none : s.hold.any HeldReq.isEntry = false := by
    rw [List.any_eq_false]
    exact fun h hh => by simp [hn h hh]
  have early : entryFor s.hold (blockOf a) = false := by
    unfold entryFor
    rw [List.any_eq_false]
    exact fun h hh => by simp [hn h hh]
  obtain ⟨hx, hstate⟩ := learns slot early none hf
  intro e s'
  have learned : newEntry slot (blockOf a) s.epoch.number c = e := by
    cases hm : c.mode <;> simp [newEntry, initBit, e, hi, ht, hm]
  have taken : t = s' := hstate.trans
    (congrArg (fun y => { s.placeTaken with table := s.table ++ [y] }) learned)
  refine ⟨fun hm => ?_, fun hm => ?_⟩ <;> rw [hm] at hx <;> rw [ran, hx, taken]
  · rw [← State.route_orderHold]
    rfl
  · rw [State.route_held _ _ (by simp)]
    rfl

theorem entryFor_iff (q : List HeldReq) (b : Block) :
    entryFor q b = true ↔ ∃ h ∈ q, h.isEntry = true ∧ h.block = b := by
  simp [entryFor, List.any_eq_true]

/-- Settles O32. -/
theorem trackedMissWaitsBehindAFullTable : Obligations.TrackedMissWaitsBehindAFullTable := by
  intro s i a m d g c hr hb hv hl ho
  obtain ⟨_, hi, ht⟩ := State.classify_tracked hv
  obtain ⟨t, x, ran, _, _, _, missed⟩ := exec_writeArrival_retakes s i a m d g hr hb
  obtain ⟨defers, _, waits⟩ := missed c hv hl ho
  refine ⟨fun ahead => ?_, fun none full => ?_⟩
  · obtain ⟨rfl, rfl⟩ := defers ((entryFor_iff s.hold (blockOf a)).2 ahead)
    rw [ran, State.route_held _ _ (by simp), hi, ht]
    rfl
  · have early : entryFor s.hold (blockOf a) = false := by
      refine Bool.eq_false_of_not_eq_true fun he => ?_
      obtain ⟨h, hh, hi, hb⟩ := (entryFor_iff s.hold (blockOf a)).1 he
      exact none h hh hi hb
    have full : s.hold.any HeldReq.isEntry = true ∨ s.freeSlot = .none :=
      full.symm.imp List.any_eq_true.2 id
    obtain ⟨rfl, unchosen, chosen⟩ := waits early full
    refine ⟨fun free => ?_, fun older newer v htable hv ho hn => ?_⟩
    · rw [ran, State.route_held _ _ (by simp), unchosen free]
      rfl
    · rw [ran, State.route_held _ _ (by simp), chosen older newer v htable hv ho hn]
      rfl

end Sys2Proof.Machine

/-! ### Grants of buffers (R18, R55, R56, R71, R72) -/

namespace Sys2Proof.Machine

theorem State.mayTake_iff (s : State) (e : Entry) : s.mayTake e = true ↔
    e.state = .pending ∧ (s.active.poolMode = .shared ∨
      (s.table.filter fun y => y.poolBuf.isSome && y.window == e.window).length <
        (s.active.windows.get e.window).quota.toNat) := by
  unfold State.mayTake
  rw [Bool.and_eq_true, Bool.or_eq_true, decide_eq_true_iff, decide_eq_true_iff, decide_eq_true_iff]
  rfl

/-- The oldest BUFFER waiter whose entry is eligible, found behind those whose entries are not. -/
theorem State.bufferWaiter_eq_some {s : State} {older younger : List HeldReq} {h : HeldReq}
    {e : Entry} (hq : s.hold = older ++ h :: younger) (hh : h.hold = .buffer e.slot)
    (found : s.entryAt e.slot = some e) (takes : s.mayTake e = true)
    (first : ∀ g ∈ older, ∀ slot x, g.hold = .buffer slot → s.entryAt slot = some x →
      s.mayTake x = false) : s.bufferWaiter = some (h, e) := by
  unfold State.bufferWaiter
  rw [hq, List.findSome?_append, List.findSome?_eq_none_iff.2, List.findSome?_cons, hh]
  · dsimp only
    rw [found]
    dsimp only
    rw [if_pos takes]
    rfl
  · intro g hg
    cases hx : g.hold with
    | buffer slot =>
      cases hf : s.entryAt slot with
      | none => dsimp only; rw [hf]
      | some x =>
        dsimp only
        rw [hf]
        dsimp only
        rw [if_neg (by rw [first g hg slot x hx hf]; simp)]
    | _ => rfl

theorem clearTrackingHere_bufferToCapture (b : Block) (slot : Nat) (g : HeldReq) :
    clearTrackingHere b (bufferToCapture slot g) =
      let g' := if g.hold = .buffer slot then { g with hold := .capture slot } else g
      if g.block = b then
        match g'.hold with
        | .order d mark _ => { g' with hold := .order d mark false }
        | _ => g'
      else g' := by
  unfold clearTrackingHere
  rw [bufferToCapture_block]
  rfl

/-- Settles O38. -/
theorem aGrantGoesToTheOldestEligibleWaiter : Obligations.AGrantGoesToTheOldestEligibleWaiter := by
  intro s older younger h e n eligible ht hq hh found takes first hf read
  have waiter : s.bufferWaiter = some (h, e) :=
    State.bufferWaiter_eq_some hq hh found ((s.mayTake_iff e).2 takes) fun g hg slot x hx hfx =>
      Bool.eq_false_of_not_eq_true fun hm => first g hg slot x hx hfx ((s.mayTake_iff x).1 hm)
  have due : s.dueGrant = some (h, e, n) := by
    unfold State.dueGrant
    rw [if_pos ht, waiter, hf]
  rw [exec_bufferGrant_of_due s due]
  unfold State.grantBuffer
  simp only [clearTrackingHere_bufferToCapture]
  rfl

end Sys2Proof.Machine

/-! ### RETIREMENT (R24, R25, R52, R54, R91, R92, R94) -/

namespace Sys2Proof.Machine

theorem State.dueRetire_eq_some {s : State} {before after : List Nat} {e : Entry}
    (running : s.epoch.dev = .tracking ∨ s.epoch.dev = .finishing)
    (room : s.journal.queue.length < 31) (hq : s.retire.list = before ++ e.slot :: after)
    (unready : ∀ n ∈ before, ∀ x, s.entryAt n = some x → x.state ≠ .logged)
    (found : s.entryAt e.slot = some e) (logged : e.state = .logged) : s.dueRetire = some e := by
  unfold State.dueRetire
  rw [if_pos ⟨by simpa [State.running] using running, room⟩, hq, List.findSome?_append,
    List.findSome?_eq_none_iff.2, List.findSome?_cons, found]
  · simp [Option.filter, logged]
  · intro n hn
    rw [Option.filter_eq_none_iff]
    exact fun x hx => by simp [unready n hn x hx]

theorem exec_retirement_of_due (s : State) {e : Entry} (hd : s.dueRetire = some e) :
    exec .retirement s = .next (s.retireEntry e).handOver := by
  simp only [exec, execRetirement, hd]

/-- The state with the entry's record joined and its slot freed, before the slot is granted (R92,
R94). -/
def State.recorded (s : State) (e : Entry) : State :=
  { s with
    table := s.table.filter (·.slot != e.slot)
    retire := { s.retire with
      list := s.retire.list.filter (· != e.slot)
      drainingCounter :=
        if s.isDraining e then s.retire.drainingCounter + 1 else s.retire.drainingCounter
      currentCounter :=
        if s.isDraining e then s.retire.currentCounter else s.retire.currentCounter + 1 }
    journal.queue := s.journal.queue ++ [.block (s.nextSeq e) e] }

theorem State.retireEntry_eq (s : State) (e : Entry) :
    s.retireEntry e = (s.recorded e).grantEntry e.slot := by
  have others : ∀ n, (! [e.slot].contains n) = (n != e.slot) := fun n => by
    rw [Bool.eq_iff_iff]; simp
  have advanced : ∀ u : State, u.isDraining e = s.isDraining e → u.advanceSeq e = { u with
      retire := { u.retire with
        drainingCounter :=
          if s.isDraining e then u.retire.drainingCounter + 1 else u.retire.drainingCounter
        currentCounter :=
          if s.isDraining e then u.retire.currentCounter else u.retire.currentCounter + 1 } } := by
    intro u hu
    unfold State.advanceSeq
    rw [hu]
    split_ifs <;> rfl
  unfold State.retireEntry
  rw [advanced (s.joinRecords _) rfl]
  unfold State.removeEntries
  simp only [others]
  rfl

/-- A grant to no waiter changes nothing. -/
theorem State.grantEntry_of_none {s : State} (slot : Nat) (h : ∀ g ∈ s.hold, g.isEntry = false) :
    s.grantEntry slot = s := by
  have none : s.entryWaiter = none := by
    unfold State.entryWaiter
    rw [List.findSome?_eq_none_iff]
    intro g hg
    have free := h g hg
    cases hx : g.hold with
    | entry c => simp [HeldReq.isEntry, hx] at free
    | _ => rfl
  unfold State.grantEntry
  rw [none]

/-- The oldest ENTRY waiter's block gets the entry (R24, R25). -/
theorem State.grantEntry_of_waiter {s : State} (slot : Nat) {older younger : List HeldReq}
    {h : HeldReq} {c : Classification} (hq : s.hold = older ++ h :: younger)
    (first : ∀ g ∈ older, g.isEntry = false) (hh : h.hold = .entry c) :
    s.grantEntry slot =
      (s.createEntry (applyDeferred h.block s.hold (newEntry slot h.block s.epoch.number c))).setHold
        (releaseOrders [] (grantedQueue h.block slot c.mode s.hold)) := by
  have waiter : s.entryWaiter = some (h, c) := by
    unfold State.entryWaiter
    rw [hq, List.findSome?_append, List.findSome?_eq_none_iff.2, List.findSome?_cons, hh]
    · rfl
    · intro g hg
      have free := first g hg
      cases hx : g.hold with
      | entry c => simp [HeldReq.isEntry, hx] at free
      | _ => rfl
  unfold State.grantEntry
  rw [waiter]

theorem endedHolds_self (q : List HeldReq) : endedHolds q q = [] := by
  induction q with
  | nil => rfl
  | cons h rest ih =>
    unfold endedHolds
    cases h.isHeld <;> exact ih

theorem peakWith_self (peak : Word) (q : List HeldReq) : peakWith peak q q = peak := by
  rw [peakWith, endedHolds_self]
  rfl

/-- What a grant leaves, whether a waiter takes it or none. -/
theorem State.grantEntry_eq (s : State) (slot : Nat) : s.grantEntry slot = { s with
    table := (s.grantEntry slot).table
    hold := (s.grantEntry slot).hold
    alert := { s.alert with
      peakHold := peakWith s.alert.peakHold s.hold (s.grantEntry slot).hold
      epochHold := peakWith s.alert.epochHold s.hold (s.grantEntry slot).hold } } := by
  unfold State.grantEntry
  split
  · rw [peakWith_self, peakWith_self]
  · rw [State.setHold_eq]
    rfl

/-- A request that is not in its block's order keeps its hold when orders are released. -/
theorem OrdersFollow.keeps {q t : List HeldReq} (h : OrdersFollow q t) {ahead behind : List HeldReq}
    {g : HeldReq} (hq : q = ahead ++ g :: behind)
    (hg : ∀ deferred mark here, g.hold ≠ .order deferred mark here) :
    t[ahead.length]? = some g := by
  obtain ⟨_, spec⟩ := h
  refine (spec ahead behind g hq).2 ?_
  rintro ⟨⟨deferred, mark, here, hx⟩, _⟩
  exact hg deferred mark here hx

/-- Settles O40. -/
theorem retirementMovesTheFirstReadyEntryToTheRecordQueue :
    Obligations.RetirementMovesTheFirstReadyEntryToTheRecordQueue := by
  intro s before after e running room hq unready found logged drains
  have due := State.dueRetire_eq_some running room hq unready found logged
  have drained : s.isDraining e = true ↔ drains := s.isDraining_iff e
  have frame := (s.recorded e).grantEntry_eq e.slot
  refine ⟨s.retireEntry e, exec_retirement_of_due s due, ?_⟩
  rw [State.retireEntry_eq]
  refine ⟨fun hd => ?_, fun hd => ?_, ?_, fun none => ?_, fun older younger h c hold first hh => ?_,
    ?_, ?_⟩
  · have hd : s.isDraining e = true := drained.2 hd
    rw [frame]
    simp [State.recorded, State.nextSeq, hd]
  · have hd : s.isDraining e = false := Bool.eq_false_of_not_eq_true fun h => hd (drained.1 h)
    rw [frame]
    simp [State.recorded, State.nextSeq, hd]
  · rw [frame]
    rfl
  · rw [State.grantEntry_of_none (s := s.recorded e) e.slot none]
    exact ⟨rfl, rfl, rfl⟩
  · rw [State.grantEntry_of_waiter (s := s.recorded e) e.slot hold first hh]
    have follow := releaseOrders_follow (grantedQueue h.block e.slot c.mode s.hold)
    refine ⟨?_, ?_, ?_, ?_⟩
    · show (s.recorded e).table ++ _ = _
      rw [applyDeferred_eq_foldl]
      rfl
    · show (releaseOrders [] (grantedQueue h.block e.slot c.mode s.hold)).map (·.req) = _
      rw [releaseOrders_req, grantedQueue_req]
    · have entry : h.isEntry = true := by simp [HeldReq.isEntry, hh]
      rw [hold, grantedQueue_around _ _ _ _ _ entry] at follow
      have kept := follow.keeps rfl (by cases c.mode <;> simp [HeldReq.setHold, grantedHold])
      have length : (grantedQueue h.block e.slot c.mode older).length = older.length :=
        List.length_map _
      rw [length] at kept
      show (releaseOrders [] (grantedQueue h.block e.slot c.mode s.hold))[older.length]? = _
      rw [hold, grantedQueue_around _ _ _ _ _ entry, kept]
      cases c.mode <;> rfl
    · refine (congrArg (OrdersFollow · (releaseOrders [] (grantedQueue h.block e.slot c.mode s.hold)))
        (List.map_congr_left fun g _ => ?_)).mp follow
      obtain ⟨r, x, st, tm, ra⟩ := g
      split_ifs
      · cases x with
        | order d mark here => cases d <;> cases c.mode <;> rfl
        | _ => cases c.mode <;> rfl
      · rfl
  · exact (congrArg State.alert frame :)
  · rw [frame]
    rfl

end Sys2Proof.Machine

/-! ### Memory errors (R39, R68, R104, R127, R141 to R144, R169, R170) -/

namespace Sys2Proof.Machine

/-- An error answer or a timeout of an awaited request is reported (R141, R143). -/
theorem exec_memoryError_of_awaits (s : State) (tag : Nat) (r : OwnReq) (h : s.awaits tag r) :
    exec (.errorAnswer tag) s = .next ((s.endOwn tag).memoryError r .error) ∧
      ((∃ i, s.findOwn tag = some i ∧ 64 ≤ i.age) →
        exec (.timeout tag) s = .next ((s.endOwn tag).memoryError r .timeout)) := by
  refine ⟨?_, ?_⟩
  · simp only [exec, execErrorAnswer]
    rw [State.ownAnswer_of_awaits s tag _ _ r h rfl]
  · rintro ⟨i, found, age⟩
    have overdue : s.overdue tag = true := by
      unfold State.overdue
      rw [found]
      exact decide_eq_true age
    simp only [exec, execTimeout]
    rw [if_pos overdue, State.ownAnswer_of_awaits s tag _ _ r h rfl]

/-- The entry to HALTED, field by field (R54, R68, R80, R104, R127). -/
theorem State.halt_eq (s : State) : s.halt = { s with
    hold := s.hold.map HeldReq.release
    alert := { s.alert with
      flags := s.alert.flags ||| 0x010
      peakHold := peakWith s.alert.peakHold s.hold (s.hold.map HeldReq.release) }
    epoch := { s.epoch with dev := .halted, draining := false }
    cmd := { s.cmd with busy := false }
    copyOut := { s.copyOut with wait := false, timer := none }
    journal := { s.journal with wait := false, timer := none } } := by
  unfold State.halt State.releaseAll
  rw [State.setHold_eq]
  rfl

/-- The report of an error, by device state (R127). -/
theorem State.reportError_eq (s : State) :
    (s.epoch.dev = .loading → s.reportError = s.failLoad .memory) ∧
    (s.epoch.dev = .tracking ∨ s.epoch.dev = .finishing → s.reportError = s.halt) ∧
    (s.epoch.dev = .idle ∨ s.epoch.dev = .ready ∨ s.epoch.dev = .halted → s.reportError = s) := by
  unfold State.reportError
  cases s.epoch.dev <;> simp

/-- Settles O48. -/
theorem aMemoryErrorHaltsTheDeviceOrFailsTheLoad :
    Obligations.AMemoryErrorHaltsTheDeviceOrFailsTheLoad := by
  intro s tag key addr op role c cause h hc dropped
  have ran : exec c s = .next ((s.endOwn tag).memoryError ⟨role, addr, op, key⟩ cause) := by
    obtain ⟨answered, timed⟩ := exec_memoryError_of_awaits s tag _ h
    rcases hc with ⟨rfl, rfl⟩ | ⟨rfl, rfl, late⟩
    · exact answered
    · exact timed late
  obtain ⟨loading, running, resting⟩ := State.reportError_eq
    { s.endOwn tag with mem.err := some ⟨role.kind, cause, addr⟩ }
  rw [ran]
  unfold State.memoryError
  refine ⟨fun hd => ?_, ?_, fun hd => ?_⟩
  · rw [loading hd]
    rfl
  · intro hd released halted
    have flags : ∀ f, halted.alert.isSet f = (s.alert.isSet f || decide (f = .memErr)) := fun f =>
      Alert.isSet_raise s.alert f .memErr
    refine ⟨?_, ?_, fun f hf => ?_⟩
    · rw [running hd, State.halt_eq]
      rfl
    · rw [flags]
      simp
    · rw [flags]
      simp [hf]
  · rw [resting hd]
    rfl

end Sys2Proof.Machine

/-! ### HOLD_LIMIT_EXPIRY (R38, R52, R54, R61 to R63) -/

namespace Sys2Proof.Machine

theorem exec_holdLimitExpiry_of_due (s : State) (limit : s.imm.holdLimit ≠ 0)
    (late : ∃ h ∈ s.hold, h.isWaiter = true ∧ s.imm.holdLimit.toNat ≤ h.time.toNat) :
    exec .holdLimitExpiry s = .next s.overflowEpoch.handOver := by
  have due : s.dueHoldLimit = true := by
    unfold State.dueHoldLimit
    rw [Bool.and_eq_true, List.any_eq_true, bne_iff_ne]
    obtain ⟨h, hh, waits, time⟩ := late
    exact ⟨limit, h, hh, by simp [waits, time]⟩
  simp only [exec, execHoldLimitExpiry]
  rw [if_pos due]

/-- What a release of ORDER requests may make of one request. -/
def OrderReleased (h h' : HeldReq) : Prop :=
  h' = h ∨ (∃ deferred mark here, h.hold = .order deferred mark here) ∧ h' = h.release

theorem releaseOrders_released (held : List Block) (q : List HeldReq) :
    List.Forall₂ OrderReleased q (releaseOrders held q) := by
  induction q generalizing held with
  | nil => exact .nil
  | cons h rest ih =>
    unfold releaseOrders
    cases hh : h.hold with
    | order d mark here =>
      dsimp only
      split_ifs
      · exact .cons (.inl rfl) (ih _)
      · exact .cons (.inr ⟨⟨d, mark, here, hh⟩, rfl⟩) (ih _)
    | _ => exact .cons (.inl rfl) (ih _)

/-- The queue behind an overflow: the waiters released, and the ORDER requests with nothing HELD
ahead (R52, R62). -/
def State.overflowedHold (s : State) : List HeldReq := releaseOrders [] (s.hold.map releaseWaiter)

theorem State.overflowedHold_req (s : State) :
    s.overflowedHold.map (·.req) = s.hold.map (·.req) := by
  rw [State.overflowedHold, releaseOrders_req, List.map_map]
  refine List.map_congr_left fun g _ => ?_
  simp only [Function.comp, releaseWaiter]
  split_ifs <;> rfl

/-- What an overflow makes of one request (R62). -/
theorem State.overflowedHold_zip (s : State) : ∀ p ∈ s.hold.zip s.overflowedHold,
    (p.1.isWaiter = true → p.2 = p.1.release) ∧
    ((∃ slot, p.1.hold = .capture slot) → p.2 = p.1) ∧
    (p.1.isHeld = false → p.2 = p.1) ∧ (p.2 = p.1 ∨ p.2 = p.1.release) := by
  have released : List.Forall₂ (fun h h' => OrderReleased (releaseWaiter h) h') s.hold
      s.overflowedHold := List.forall₂_map_left_iff.1 (releaseOrders_released [] _)
  rintro ⟨h, h'⟩ hp
  have step : OrderReleased (releaseWaiter h) h' := List.forall₂_zip released hp
  unfold releaseWaiter at step
  by_cases hw : h.isWaiter = true
  · rw [if_pos hw] at step
    have ended : h' = h.release := by
      obtain rfl | ⟨_, rfl⟩ := step <;> rfl
    refine ⟨fun _ => ended, ?_, fun hn => ?_, .inr ended⟩
    · rintro ⟨slot, hc⟩
      have hc : h.hold = .capture slot := hc
      simp [HeldReq.isWaiter, hc] at hw
    · have hr : h.hold = .released := HeldReq.hold_of_not_held hn
      simp [HeldReq.isWaiter, hr] at hw
  · rw [if_neg hw] at step
    obtain rfl | ⟨⟨d, mark, here, ho⟩, rfl⟩ := step
    · exact ⟨fun h => absurd h hw, fun _ => rfl, fun _ => rfl, .inl rfl⟩
    · refine ⟨fun h => absurd h hw, ?_, fun hn => ?_, .inr rfl⟩
      · rintro ⟨slot, hc⟩
        cases ho.symm.trans hc
      · cases ho.symm.trans (HeldReq.hold_of_not_held hn)

theorem lostWrites_eq (q q' : List HeldReq) : lostWrites q q' = ((q.zip q').filter fun p =>
    p.1.isHeld && !p.2.isHeld && (p.1.isWaiter || p.1.trackingHere)).length := by
  induction q generalizing q' with
  | nil => simp [lostWrites]
  | cons a as ih =>
    cases q' with
    | nil => simp [lostWrites]
    | cons b bs =>
      rw [List.zip_cons_cons, List.filter_cons]
      unfold lostWrites
      rw [ih bs]
      split_ifs
      · rw [List.length_cons, Nat.add_comm]
      · rw [Nat.zero_add]

/-- The overflow flag's event and counter, the first time alone (R62, R170). -/
theorem State.setOverflow_eq (s : State) : s.setOverflow = { s with
    epoch := { s.epoch with overflow := true }
    alert := { s.alert with
      flags := if s.epoch.overflow then s.alert.flags else s.alert.flags ||| 0x008
      overflows :=
        if s.epoch.overflow then s.alert.overflows else satInc s.alert.overflows } } := by
  unfold State.setOverflow
  cases s.epoch.overflow <;> rfl

/-- The overflow of an epoch, field by field. -/
theorem State.overflowEpoch_eq (s : State) : s.overflowEpoch = { s with
    epoch := { s.epoch with
      overflow := true
      untracked := BitVec.ofNat 32
        (min (s.epoch.untracked.toNat + lostWrites s.hold s.overflowedHold) (2 ^ 32 - 1)) }
    hold := s.overflowedHold
    table := s.table.filter fun e => !s.buffered e.slot
    retire := { s.retire with list := s.retire.list.filter fun n => !s.buffered n }
    alert := { s.alert with
      flags := if s.epoch.overflow then s.alert.flags else s.alert.flags ||| 0x008
      overflows := if s.epoch.overflow then s.alert.overflows else satInc s.alert.overflows
      peakHold := peakWith s.alert.peakHold s.hold s.overflowedHold
      epochHold := peakWith s.alert.epochHold s.hold s.overflowedHold } } := by
  unfold State.overflowEpoch
  dsimp only
  rw [State.setHold_eq, State.setOverflow_eq]
  unfold State.removeEntries State.countUntracked
  simp only [State.buffered_eq]
  rfl

/-- Settles O50. -/
theorem aHoldLimitExpiryOverflowsTheEpoch : Obligations.AHoldLimitExpiryOverflowsTheEpoch := by
  intro s limit late
  refine ⟨s.overflowEpoch, exec_holdLimitExpiry_of_due s limit late, ?_⟩
  have follow : OrdersFollow (s.hold.map releaseWaiter) s.overflowedHold := releaseOrders_follow _
  have bound : (BitVec.ofNat 32 (min (s.epoch.untracked.toNat + lostWrites s.hold s.overflowedHold)
      (2 ^ 32 - 1))).toNat = min (2 ^ 32 - 1)
        (s.epoch.untracked.toNat + lostWrites s.hold s.overflowedHold) := by
    rw [BitVec.toNat_ofNat, Nat.mod_eq_of_lt (by omega), Nat.min_comm]
  rw [State.overflowEpoch_eq]
  rw [lostWrites_eq] at bound ⊢
  refine ⟨rfl, fun first => ?_, fun again => ?_, s.overflowedHold_req, s.overflowedHold_zip, follow,
    rfl, rfl, rfl, rfl, bound, rfl⟩
  · dsimp only
    rw [first]
    exact ⟨rfl, rfl⟩
  · dsimp only
    rw [again]
    exact ⟨rfl, rfl⟩

end Sys2Proof.Machine

/-! ### HOLD_ALERT_REACHED, AGE_EXPIRY and the poll expiries (R34, R79, R90, R102, R168) -/

namespace Sys2Proof.Machine

theorem markFirst_append (p : HeldReq → Bool) (before after : List HeldReq) (h : HeldReq)
    (first : ∀ x ∈ before, p x = false) (hp : p h = true) :
    markFirst p (before ++ h :: after) = before ++ { h with reachedAlert := true } :: after := by
  induction before with
  | nil => exact if_pos hp
  | cons x rest ih =>
    rw [List.cons_append, List.cons_append, markFirst, first x List.mem_cons_self,
      ih fun y hy => first y (List.mem_cons_of_mem _ hy)]
    rfl

theorem State.reachesAlert_iff (s : State) (h : HeldReq) : s.reachesAlert h = true ↔
    h.isHeld = true ∧ s.imm.holdAlert.toNat ≤ h.time.toNat ∧ h.reachedAlert = false := by
  simp [State.reachesAlert, State.overAlert, and_assoc]

theorem State.aged_iff {s : State} (hd : s.epoch.dev = .tracking) (e : Entry) : s.aged e = true ↔
    e.epoch = s.epoch.number ∧ e.mode = .trace ∧ e.state = .logged ∧ e.cause = none ∧
      s.active.ageLimit.toNat * 1000 ≤ s.epoch.epochTime.toNat - e.lastStamp.toNat := by
  unfold State.aged
  rw [Bool.and_eq_true, State.victimCandidate_iff hd, decide_eq_true_iff]
  simp only [and_assoc]

theorem pollExpired_iff (poll : Byte) (timer : Option Nat) : pollExpired poll timer = true ↔
    poll ≠ 0 ∧ ∃ t, timer = some t ∧ poll.toNat * 16 ≤ t := by
  simp [pollExpired, Option.any_eq_true]

theorem exec_holdAlertReached_of_due (s : State) (alert : s.imm.holdAlert ≠ 0) {h : HeldReq}
    (hm : h ∈ s.hold) (reaches : s.reachesAlert h = true) :
    exec .holdAlertReached s =
      .next { s.raise .holdLong with hold := markFirst s.reachesAlert s.hold } := by
  have due : s.dueHoldAlert = true := by
    unfold State.dueHoldAlert
    rw [Bool.and_eq_true, List.any_eq_true, bne_iff_ne]
    exact ⟨alert, h, hm, reaches⟩
  simp only [exec, execHoldAlertReached]
  rw [if_pos due]

theorem exec_ageExpiry_of_due (s : State) {e : Entry} (hd : s.dueAge = some e) :
    exec .ageExpiry s = .next (s.giveCause e.slot .age) := by
  simp only [exec, execAgeExpiry, hd]

theorem exec_firPollExpiry_of_due (s : State)
    (running : s.epoch.dev = .tracking ∨ s.epoch.dev = .finishing) (waits : s.copyOut.wait = true)
    (expired : pollExpired s.imm.poll s.copyOut.timer = true) :
    exec .firPollExpiry s = .next s.rereadDesc := by
  have due : s.dueFirPoll = true := by
    simpa [State.dueFirPoll, State.running, waits, expired] using running
  simp only [exec, execFirPollExpiry]
  rw [if_pos due]

theorem exec_ringPollExpiry_of_due (s : State)
    (running : s.epoch.dev = .tracking ∨ s.epoch.dev = .finishing) (waits : s.journal.wait = true)
    (expired : pollExpired s.imm.poll s.journal.timer = true) :
    exec .ringPollExpiry s = .next s.rereadSlot := by
  have due : s.dueRingPoll = true := by
    simpa [State.dueRingPoll, State.running, waits, expired] using running
  simp only [exec, execRingPollExpiry]
  rw [if_pos due]

/-- Settles O51. -/
theorem expiriesTakeTheFirstItemThatIsDue : Obligations.ExpiriesTakeTheFirstItemThatIsDue := by
  refine ⟨?_, ?_, ?_, ?_⟩
  · intro s before after h alert hq early held time unreached
    have reaches : s.reachesAlert h = true := (s.reachesAlert_iff h).2 ⟨held, time, unreached⟩
    have first : ∀ x ∈ before, s.reachesAlert x = false := by
      refine fun x hx => Bool.eq_false_of_not_eq_true fun hr => ?_
      obtain ⟨held, time, unreached⟩ := (s.reachesAlert_iff x).1 hr
      rcases early x hx with e | e | e
      · rw [held] at e; cases e
      · omega
      · rw [unreached] at e; cases e
    have hm : h ∈ s.hold := hq ▸ List.mem_append_right _ List.mem_cons_self
    rw [exec_holdAlertReached_of_due s alert hm reaches, hq,
      markFirst_append s.reachesAlert before after h first reaches]
    rfl
  · intro s older newer e ages ht limit hq first due
    have found : s.dueAge = some e := by
      unfold State.dueAge
      rw [if_neg limit, hq, List.find?_append, List.find?_eq_none.2,
        List.find?_cons_of_pos ((State.aged_iff ht e).2 due)]
      · rfl
      · exact fun x hx ha => first x hx ((State.aged_iff ht x).1 ha)
    rw [exec_ageExpiry_of_due s found]
    rfl
  · intro s ring elapsed running waits poll timer late hring
    have expired := (pollExpired_iff _ _).2 ⟨poll, elapsed, timer, late⟩
    rw [exec_firPollExpiry_of_due s running waits expired]
    unfold State.rereadDesc State.queueDescRead
    rw [hring]
    rfl
  · intro s ring elapsed running waits poll timer late hring
    have expired := (pollExpired_iff _ _).2 ⟨poll, elapsed, timer, late⟩
    rw [exec_ringPollExpiry_of_due s running waits expired]
    unfold State.rereadSlot State.queueSlotRead
    rw [hring]
    rfl

end Sys2Proof.Machine

/-! ### Lines of the Capture Pool (R56, R70) -/

namespace Sys2Proof.Machine

/-- Settles O37. -/
theorem poolLinesReadAsTheyWerePlaced : Obligations.PoolLinesReadAsTheyWerePlaced := by
  intro pool n v form
  refine ⟨poolWf_poolWrite n v pool form, ?_, fun k other => ?_⟩
  · rw [poolRead_poolWrite n n v pool form, if_pos rfl]
  · rw [poolRead_poolWrite n k v pool form, if_neg other]

end Sys2Proof.Machine

/-! ### RELEASED_LEAVE and the answers to passed requests (R46, R53, R131, R132) -/

namespace Sys2Proof.Machine

/-- Where no request leaves, the queue stays as it was. -/
theorem leaveUpTo_of_none_leaves {room : Nat} {q : List HeldReq}
    (h : (leaveUpTo room q).1 = []) : leaveUpTo room q = ([], q) :=
  leaveUpTo_append room [] q (Nat.zero_le _)
    (((leaveUpTo_eq_nil room q).1 h).symm.imp id Eq.symm)

/-- RELEASED_LEAVE in one equation: with nobody to leave it moves nothing (R53). -/
theorem exec_releasedLeave_eq (s : State) : exec .releasedLeave s = .next { s with
    hold := (leaveUpTo (8 - s.mem.passQ.length) s.hold).2
    mem.passQ := s.mem.passQ ++ (leaveUpTo (8 - s.mem.passQ.length) s.hold).1 } := by
  simp only [exec, execReleasedLeave, State.dueLeave, List.isEmpty_iff, Config.passPlaces]
  by_cases none : (leaveUpTo (8 - s.mem.passQ.length) s.hold).1 = []
  · rw [if_pos none, leaveUpTo_of_none_leaves none]
    dsimp only
    rw [List.append_nil]
  · rw [if_neg none]

/-- A fitting answer goes to the fabric and ends its request (R131, R132). -/
theorem exec_passThroughAnswer_of_fits {s : State} {tag : Nat} {answer : Answer} {p : IssuedPass}
    (found : s.mem.issuedPass.find? (·.tag == tag) = some p)
    (fits : p.req.op.answeredBy answer = true) :
    exec (.passThroughAnswer tag answer) s = .next { s with
      mem.issuedPass := s.mem.issuedPass.eraseP (·.tag == tag)
      out.fabric := s.out.fabric ++ [⟨p.req.initiator, p.req.tag, answer⟩] } := by
  simp only [exec, execPassThroughAnswer, found, fits, if_true]

/-- Data answers a read, done a write, and an ERROR either (R132). -/
theorem Op.answeredBy_iff (op : Op) (answer : Answer) : op.answeredBy answer = true ↔
    (op = .read ∧ ∃ d, answer = .data d) ∨ (op ≠ .read ∧ answer = .done) ∨ answer = .error := by
  cases op <;> cases answer <;> simp [Op.answeredBy]

/-- Settles O34. -/
theorem releasedRequestsLeaveInOrderAndAnswersReturn :
    Obligations.ReleasedRequestsLeaveInOrderAndAnswersReturn := by
  refine ⟨?_, ?_, ?_, fun _ _ _ => rfl⟩
  · intro s ahead behind hq leaving room last
    have left : leaveUpTo (8 - s.mem.passQ.length) s.hold =
        (leaving.map (·.req), (ahead.filter fun h => h.isHeld) ++ behind) := by
      rw [hq]
      refine leaveUpTo_append _ ahead behind ?_ (last.imp id fun filled => ?_)
      · show leaving.length ≤ _
        omega
      · show leaving.length = _
        omega
    rw [exec_releasedLeave_eq, left]
  · intro s full
    have none : leaveUpTo (8 - s.mem.passQ.length) s.hold = ([], s.hold) :=
      leaveUpTo_of_none_leaves ((leaveUpTo_eq_nil _ _).2 (.inl (by omega)))
    rw [exec_releasedLeave_eq, none]
    dsimp only
    rw [List.append_nil]
  · intro s tag answer p found fits
    exact exec_passThroughAnswer_of_fits found ((Op.answeredBy_iff _ _).2 fits)

end Sys2Proof.Machine

/-! ### Immediate settings, EVENT, CMD_STATUS and the peaks (R61, R79, R102, R148, R155, R163, R164,
R169) -/

namespace Sys2Proof.Machine

/-- A register write that the port answers: its effect, the pointer moved past the register and one
acknowledge (R148). -/
theorem State.onPort_write {s : State} (h : s.port.resetAsserted = false) (f : State → State)
    (p : Byte) : s.onPort (fun s => (f s).afterWrite p) = .next { f s with
      port := (f s).port.written p, out.bus := (f s).out.bus ++ [.ack] } := by
  rw [State.onPort_of_released s _ h, State.afterWrite_eq]

/-- A value brought to at most 255 (R150). -/
theorem clampTo_byte (v : Half) : clampTo 0 255 v = min 255 v.toNat := by
  unfold clampTo
  omega

/-- Settles O10. -/
theorem immediateWritesAndPeakResetsTakeHoldAtOnce :
    Obligations.ImmediateWritesAndPeakResetsTakeHoldAtOnce := by
  intro s v h
  refine ⟨s.onPort_write h (·.writeHoldLimit v) 0x10, ?_,
    s.onPort_write h (·.writeEventEnable v) 0x06, s.onPort_write h (·.writeEvent v) 0x05,
    s.onPort_write h State.writeCmdStatus 0x01,
    s.onPort_write h (·.resetPeak .occ) 0x50, s.onPort_write h (·.resetPeak .pool) 0x51,
    s.onPort_write h (·.resetPeak .hold) 0x52⟩
  rw [← clampTo_byte]
  exact s.onPort_write h (·.writePoll v) 0x11

end Sys2Proof.Machine

/-! ### The empty queue (R53, R54, R72, R79, R102, R112, R141, R142; log 2, log 3) -/

namespace Sys2Proof.Machine

theorem step_of_empty_queue {s : State} (h : s.pending = []) : step s = idle s := by
  unfold step
  rw [h]

/-- What the part does with no command waiting, by what is due. -/
theorem idle_of_engine {s : State} {c : Instr} {cs : List Instr} (h : s.engineSteps = c :: cs) :
    idle s = s.takeOne c cs := by
  unfold idle
  rw [h]

theorem idle_of_expiry {s : State} {c : Instr} {cs : List Instr} (h : s.engineSteps = [])
    (he : s.expirySteps = c :: cs) : idle s = s.takeOne c cs := by
  unfold idle
  rw [h, he]

theorem idle_of_none {s : State} (h : s.engineSteps = []) (he : s.expirySteps = []) :
    idle s = .next s.tick := by
  unfold idle
  rw [h, he]

/-- Of several steps one is taken, whichever the free choice names (log 3). -/
theorem State.takeOne_of_several (s : State) (c d : Instr) (cs : List Instr) :
    ∃ x ∈ c :: d :: cs, s.takeOne c (d :: cs) = exec x { s with choices := s.choices + 1 } := by
  have inside : Config.freeChoice s.choices % ((d :: cs).length + 1) < (c :: d :: cs).length :=
    Nat.mod_lt _ (Nat.succ_pos _)
  refine ⟨_, ?_, rfl⟩
  rw [List.getD_eq_getElem _ _ inside]
  exact List.getElem_mem inside

/-- A hold time runs up to its greatest value (R54). -/
theorem HeldReq.tick_eq (h : HeldReq) : h.tick =
    if h.isHeld = true ∧ h.time ≠ 0xFFFFFFFF then { h with time := h.time + 1 } else h := by
  have top : BitVec.allOnes 32 = 0xFFFFFFFF := rfl
  unfold HeldReq.tick satInc
  rw [top]
  by_cases held : h.isHeld = true <;> by_cases full : h.time = 0xFFFFFFFF
  · rw [if_pos held, if_pos full, if_neg fun e => e.2 full]
  · rw [if_pos held, if_neg full, if_pos ⟨held, full⟩]
  · rw [if_neg held, if_neg fun e => held e.1]
  · rw [if_neg held, if_neg fun e => held e.1]

/-- Epoch time runs in TRACKING up to its greatest value (R112). -/
theorem epochTime_tick (tracking : Prop) [Decidable tracking] (time : Word) :
    (if tracking then satInc time else time) =
      if tracking ∧ time ≠ 0xFFFFFFFF then time + 1 else time := by
  have top : BitVec.allOnes 32 = 0xFFFFFFFF := rfl
  unfold satInc
  rw [top]
  split_ifs <;> simp_all

/-- One microsecond, field by field (R54, R79, R102, R112, R141). -/
theorem State.tick_eq (s : State) : s.tick = { s with
    epoch.partTime := s.epoch.partTime + 1
    epoch.epochTime :=
      if s.epoch.dev = .tracking ∧ s.epoch.epochTime ≠ 0xFFFFFFFF then s.epoch.epochTime + 1
      else s.epoch.epochTime
    hold := s.hold.map fun h =>
      if h.isHeld = true ∧ h.time ≠ 0xFFFFFFFF then { h with time := h.time + 1 } else h
    copyOut.timer := s.copyOut.timer.map (· + 1)
    journal.timer := s.journal.timer.map (· + 1)
    mem.issuedOwn := s.mem.issuedOwn.map fun i => { i with age := i.age + 1 } } := by
  unfold State.tick
  rw [epochTime_tick, funext HeldReq.tick_eq]

/-- Each step of the engines is listed when it is due (R53, R72, R77, R83, R91, R97, R99). -/
theorem State.mem_engineSteps (s : State) (c : Instr) : c ∈ s.engineSteps ↔
    (c = .releasedLeave ∧ s.dueLeave ≠ none) ∨ (c = .bufferGrant ∧ s.dueGrant ≠ none) ∨
    (c = .prefetch ∧ s.duePrefetch = true) ∨ (c = .copyOutStart ∧ s.dueCopyOut ≠ none) ∨
    (c = .retirement ∧ s.dueRetire ≠ none) ∨ (c = .closeRecordBuild ∧ s.dueClose ≠ none) ∨
    (c = .journalSlotReadStart ∧ s.dueSlotRead = true) := by
  simp only [State.engineSteps, List.mem_append, List.mem_ite_nil_right, List.mem_singleton,
    Option.isSome_iff_ne_none, or_assoc, and_comm]

/-- An own request's limit is an expiry at 64 microseconds from its issue (R141, R142). -/
theorem mem_limitSteps (own : List IssuedOwn) (c : Instr) :
    c ∈ (own.filter fun i => decide (Config.answerLimit ≤ i.age)).map IssuedOwn.limitStep ↔
    ∃ i ∈ own, 64 ≤ i.age ∧
      c = if i.abandoned then .abandonedTimeout i.tag else .timeout i.tag := by
  simp only [List.mem_map, List.mem_filter, decide_eq_true_eq, and_assoc, IssuedOwn.limitStep,
    eq_comm (a := c)]
  rfl

/-- Each expiry is listed when it is due (R34, R61, R79, R102, R141, R142, R168). -/
theorem State.mem_expirySteps (s : State) (c : Instr) : c ∈ s.expirySteps ↔
    (c = .holdLimitExpiry ∧ s.dueHoldLimit = true) ∨
    (c = .holdAlertReached ∧ s.dueHoldAlert = true) ∨ (c = .ageExpiry ∧ s.dueAge ≠ none) ∨
    (c = .firPollExpiry ∧ s.dueFirPoll = true) ∨ (c = .ringPollExpiry ∧ s.dueRingPoll = true) ∨
    ∃ i ∈ s.mem.issuedOwn, 64 ≤ i.age ∧
      c = if i.abandoned then .abandonedTimeout i.tag else .timeout i.tag := by
  rw [← mem_limitSteps]
  simp only [State.expirySteps, List.mem_append, List.mem_ite_nil_right, List.mem_singleton,
    Option.isSome_iff_ne_none, or_assoc, and_comm]

/-- Settles O3. -/
theorem emptyQueueTakesADueStepOrLetsTimePass :
    Obligations.EmptyQueueTakesADueStepOrLetsTimePass := by
  refine ⟨?_, ?_, ?_, ?_, ?_, State.mem_engineSteps, State.mem_expirySteps⟩
  · intro s empty engines expiries
    rw [step_of_empty_queue empty, idle_of_none engines expiries, State.tick_eq]
  · intro s c empty engines
    rw [step_of_empty_queue empty, idle_of_engine engines, State.takeOne]
  · intro s c empty engines expiries
    rw [step_of_empty_queue empty, idle_of_expiry engines expiries, State.takeOne]
  · intro s c d cs empty engines
    rw [step_of_empty_queue empty, idle_of_engine engines]
    exact s.takeOne_of_several c d cs
  · intro s c d cs empty engines expiries
    rw [step_of_empty_queue empty, idle_of_expiry engines expiries]
    exact s.takeOne_of_several c d cs

end Sys2Proof.Machine

/-! ### When nothing is due (R34, R53, R61, R71, R72, R77, R79, R83, R91, R97, R99, R102, R135 to
R137, R141, R168; log 1, log 27) -/

namespace Sys2Proof.Machine

/-! #### Steps that are not due -/

theorem exec_releasedLeave_of_not_due {s : State} (h : s.dueLeave = none) :
    exec .releasedLeave s = .next s := by
  simp only [exec, execReleasedLeave, h]

theorem exec_issue_of_nothing {s : State} (h : s.choose = .nothing) : exec .issue s = .next s := by
  simp only [exec, execIssue, h]

theorem exec_bufferGrant_of_not_due {s : State} (h : s.dueGrant = none) :
    exec .bufferGrant s = .next s := by
  simp only [exec, execBufferGrant, h]

theorem exec_copyOutStart_of_not_due {s : State} (h : s.dueCopyOut = none) :
    exec .copyOutStart s = .next s := by
  simp only [exec, execCopyOutStart, h]

theorem exec_retirement_of_not_due {s : State} (h : s.dueRetire = none) :
    exec .retirement s = .next s := by
  simp only [exec, execRetirement, h]

theorem exec_closeRecordBuild_of_not_due {s : State} (h : s.dueClose = none) :
    exec .closeRecordBuild s = .next s := by
  simp only [exec, execCloseRecordBuild, h]

theorem exec_ageExpiry_of_not_due {s : State} (h : s.dueAge = none) :
    exec .ageExpiry s = .next s := by
  simp only [exec, execAgeExpiry, h]

/-- A row guarded by its condition leaves the state as it was where that does not hold. -/
theorem guarded_of_false {p : Bool} (h : p = false) (s t : State) :
    (if p then .next t else .next s : Host.Outcome State Fault Refusal) = .next s := by
  rw [h]
  rfl

theorem State.overdue_of_young {s : State} {tag : Nat}
    (young : ∀ i, s.findOwn tag = some i → i.age < 64) : s.overdue tag = false := by
  unfold State.overdue
  cases found : s.findOwn tag with
  | none => rfl
  | some i =>
    rw [Option.any_some, decide_eq_false_iff_not]
    exact Nat.not_le.2 (young i found)

/-! #### When each is not due -/

theorem State.running_eq_false_iff (s : State) :
    s.running = false ↔ s.epoch.dev ≠ .tracking ∧ s.epoch.dev ≠ .finishing := by
  simp [State.running]

theorem State.dueLeave_eq_none_iff (s : State) : s.dueLeave = none ↔
    8 ≤ s.mem.passQ.length ∨ ∀ h ∈ s.hold, h.isHeld = true := by
  have none : s.dueLeave = none ↔
      (leaveUpTo (Config.passPlaces - s.mem.passQ.length) s.hold).1 = [] := by
    unfold State.dueLeave
    dsimp only
    split_ifs with h <;> simpa using h
  rw [none, leaveUpTo_eq_nil, Config.passPlaces, Nat.sub_eq_zero_iff_le]

/-- A place in arrival order is eligible where no unissued request of its block stands before it
(R135). -/
theorem State.eligible_iff (s : State) (addr : Addr) (key : Nat) : s.eligible addr key = true ↔
    ∀ u ∈ s.unissued, u.1 = blockOf addr → key ≤ u.2 := by
  simp [State.eligible, imp_iff_not_or]

theorem State.candidateC_eq_none_iff (s : State) : s.candidateC = none ↔
    ∀ r ∈ s.mem.classC, ¬∀ u ∈ s.unissued, u.1 = blockOf r.addr → r.key ≤ u.2 := by
  simp only [State.candidateC, List.find?_eq_none, State.eligible_iff]

theorem State.candidateB_eq_none_iff (s : State) : s.candidateB = none ↔
    ∀ r ∈ s.mem.classB, ¬∀ u ∈ s.unissued, u.1 = blockOf r.addr → r.key ≤ u.2 := by
  simp only [State.candidateB, List.find?_eq_none, State.eligible_iff]

theorem State.candidateP_eq_none_iff (s : State) : s.candidateP = none ↔
    ∀ p ps, s.mem.passQ = p :: ps →
      ¬∀ u ∈ s.unissued, u.1 = blockOf p.addr → p.key ≤ u.2 := by
  unfold State.candidateP
  cases s.mem.passQ with
  | nil => simp
  | cons p ps =>
    have head : (if s.eligible p.addr p.key then some p else none) = none ↔
        ¬s.eligible p.addr p.key = true := by
      by_cases h : s.eligible p.addr p.key = true <;> simp [h]
    rw [head, State.eligible_iff]
    exact ⟨fun h _ _ same => by cases same; exact h, fun h => h p ps rfl⟩

theorem State.choosePB_eq_nothing_iff (s : State) :
    s.choosePB = .nothing ↔ s.candidateP = none ∧ s.issuableB = none := by
  unfold State.choosePB
  cases s.candidateP <;> cases s.issuableB <;> simp
  split_ifs <;> simp

/-- Nothing is issued where class P has no candidate, and neither class C nor class B has one, or
neither has room (R136 to R138). -/
theorem State.choose_eq_nothing_iff (s : State) : s.choose = .nothing ↔
    (16 ≤ s.mem.issuedOwn.length ∨ (s.candidateC = none ∧ s.candidateB = none)) ∧
      s.candidateP = none := by
  have full : s.ownRoom = false ↔ 16 ≤ s.mem.issuedOwn.length := by
    rw [State.ownRoom, decide_eq_false_iff_not]
    exact Nat.not_lt
  unfold State.choose
  rw [← full]
  cases hc : s.candidateC <;> cases hr : s.ownRoom <;>
    simp [State.choosePB_eq_nothing_iff, State.issuableB, hr, and_comm]

theorem State.dueHoldLimit_eq_false_iff (s : State) : s.dueHoldLimit = false ↔
    s.imm.holdLimit = 0 ∨
      ∀ h ∈ s.hold, h.isWaiter = true → h.time.toNat < s.imm.holdLimit.toNat := by
  unfold State.dueHoldLimit
  rw [Bool.and_eq_false_iff, bne_eq_false_iff_eq, List.any_eq_false]
  simp

theorem State.dueHoldAlert_eq_false_iff (s : State) : s.dueHoldAlert = false ↔
    s.imm.holdAlert = 0 ∨ ∀ h ∈ s.hold, h.isHeld = true →
      h.time.toNat < s.imm.holdAlert.toNat ∨ h.reachedAlert = true := by
  unfold State.dueHoldAlert
  rw [Bool.and_eq_false_iff, bne_eq_false_iff_eq, List.any_eq_false]
  simp only [State.reachesAlert_iff, not_and, Bool.not_eq_false, ← Nat.not_lt,
    ← or_iff_not_imp_left]

theorem State.dueAge_eq_none_iff (s : State) : s.dueAge = none ↔
    s.active.ageLimit = 0 ∨ s.epoch.dev ≠ .tracking ∨
      ∀ e ∈ s.table, e.epoch = s.epoch.number → e.mode = .trace → e.state = .logged →
        e.cause = none →
        s.epoch.epochTime.toNat - e.lastStamp.toNat < s.active.ageLimit.toNat * 1000 := by
  unfold State.dueAge
  rw [ite_eq_left_iff, ← or_iff_not_imp_left]
  refine or_congr_right ?_
  by_cases tracking : s.epoch.dev = .tracking
  · simp [tracking, State.aged_iff]
  · simp [tracking, State.aged, State.victimCandidate, State.isCurrent]

theorem pollExpired_eq_false_iff (poll : Byte) (timer : Option Nat) :
    pollExpired poll timer = false ↔
      poll = 0 ∨ ∀ elapsed, timer = some elapsed → elapsed < poll.toNat * 16 := by
  rw [← Bool.not_eq_true, pollExpired_iff, not_and_or, ne_eq, not_not]
  simp

theorem State.dueFirPoll_eq_false_iff (s : State) : s.dueFirPoll = false ↔
    (s.epoch.dev ≠ .tracking ∧ s.epoch.dev ≠ .finishing) ∨ s.copyOut.wait = false ∨
      s.imm.poll = 0 ∨
      ∀ elapsed, s.copyOut.timer = some elapsed → elapsed < s.imm.poll.toNat * 16 := by
  rw [State.dueFirPoll, Bool.and_eq_false_iff, Bool.and_eq_false_iff, State.running_eq_false_iff,
    pollExpired_eq_false_iff, or_assoc]

theorem State.dueRingPoll_eq_false_iff (s : State) : s.dueRingPoll = false ↔
    (s.epoch.dev ≠ .tracking ∧ s.epoch.dev ≠ .finishing) ∨ s.journal.wait = false ∨
      s.imm.poll = 0 ∨
      ∀ elapsed, s.journal.timer = some elapsed → elapsed < s.imm.poll.toNat * 16 := by
  rw [State.dueRingPoll, Bool.and_eq_false_iff, Bool.and_eq_false_iff, State.running_eq_false_iff,
    pollExpired_eq_false_iff, or_assoc]

/-- No buffer is free where each is held (R70, R72). -/
theorem State.freeBuffer_eq_none_iff (s : State) :
    s.freeBuffer = none ↔ ∀ n < 64, ∃ e ∈ s.table, e.poolBuf = some n := by
  constructor
  · intro none n
    -- The least number that is not held, if there were one, would be free.
    induction n using Nat.strong_induction_on with
    | _ n ih =>
      intro bound
      by_contra unheld
      have free := (s.freeBuffer_eq_some n).2
        ⟨bound, fun e he hn => unheld ⟨e, he, hn⟩, fun k hk => ih k hk (by omega)⟩
      rw [none] at free
      cases free
  · intro held
    cases found : s.freeBuffer with
    | none => rfl
    | some n =>
      obtain ⟨bound, free, _⟩ := (s.freeBuffer_eq_some n).1 found
      obtain ⟨e, he, hn⟩ := held n bound
      exact absurd hn (free e he)

theorem State.mayTake_eq_false_iff (s : State) (e : Entry) : s.mayTake e = false ↔
    e.state ≠ .pending ∨
      (s.active.poolMode = .quota ∧ (s.active.windows.get e.window).quota.toNat ≤
        (s.table.filter fun y => y.poolBuf.isSome && y.window == e.window).length) := by
  rw [← Bool.not_eq_true, State.mayTake_iff]
  cases s.active.poolMode <;> simp [imp_iff_not_or]

theorem State.bufferWaiter_eq_none_iff (s : State) : s.bufferWaiter = none ↔
    ∀ h ∈ s.hold, ∀ slot e, h.hold = .buffer slot → s.entryAt slot = some e →
      s.mayTake e = false := by
  unfold State.bufferWaiter
  rw [List.findSome?_eq_none_iff]
  refine forall₂_congr fun h _ => ?_
  cases h.hold with
  | buffer slot =>
    dsimp only
    cases found : s.entryAt slot with
    | none =>
      refine ⟨fun _ _ x same hx => ?_, fun _ => rfl⟩
      cases same
      rw [found] at hx
      cases hx
    | some e =>
      have head : (if s.mayTake e then some (h, e) else none) = none ↔ s.mayTake e = false := by
        cases s.mayTake e <;> simp
      refine head.trans ⟨fun no _ x same hx => ?_, fun no => no slot e rfl found⟩
      cases same
      rw [found] at hx
      cases hx
      exact no
  | _ => simp

theorem State.dueGrant_eq_none_iff (s : State) : s.dueGrant = none ↔
    s.epoch.dev ≠ .tracking ∨ s.freeBuffer = none ∨ s.bufferWaiter = none := by
  unfold State.dueGrant
  by_cases tracking : s.epoch.dev = .tracking
  · cases s.bufferWaiter <;> cases s.freeBuffer <;> simp [tracking]
  · simp [tracking]

/-- A DESC_READ is under way in class B, or issued and not abandoned (R77; log 27). -/
theorem State.ownPending_descRead_iff (s : State) : s.ownPending .descRead = true ↔
    (∃ r ∈ s.mem.classB, r.role = .descRead) ∨
      ∃ i ∈ s.mem.issuedOwn, i.abandoned = false ∧ i.req.role = .descRead := by
  have kind : ∀ role : OwnRole, role.kind = .descRead ↔ role = .descRead := fun role => by
    cases role <;> simp [OwnRole.kind]
  simp [State.ownPending, kind]

theorem CopyOut.holdsIndex_iff (c : CopyOut) (i : Nat) : c.holdsIndex i = true ↔
    (∃ b ∈ c.cache, b.firIndex = i) ∨ ∃ p ∈ c.places, p.image.firIndex = i := by
  simp [CopyOut.holdsIndex]

theorem State.duePrefetch_eq_false_iff (s : State) : s.duePrefetch = false ↔
    (s.epoch.dev ≠ .tracking ∧ s.epoch.dev ≠ .finishing) ∨ 4 ≤ s.copyOut.cache.length ∨
      (∃ r ∈ s.mem.classB, r.role = .descRead) ∨
      (∃ i ∈ s.mem.issuedOwn, i.abandoned = false ∧ i.req.role = .descRead) ∨
      s.copyOut.wait = true ∨
      (∃ b ∈ s.copyOut.cache, b.firIndex = s.copyOut.prefetchIndex) ∨
      (∃ p ∈ s.copyOut.places, p.image.firIndex = s.copyOut.prefetchIndex) ∨
      s.copyOut.fir = none := by
  unfold State.duePrefetch
  simp only [Bool.and_eq_false_iff, Bool.not_eq_false', State.running_eq_false_iff,
    decide_eq_false_iff_not, State.ownPending_descRead_iff, CopyOut.holdsIndex_iff,
    Option.isSome_eq_false_iff, Option.isNone_iff_eq_none, Nat.not_lt, or_assoc]
  rfl

/-- An IMAGED entry with its buffer can begin its copy-out, and no other (R83). -/
theorem State.dueCopyOut_eq_none_iff (s : State) : s.dueCopyOut = none ↔
    (s.epoch.dev ≠ .tracking ∧ s.epoch.dev ≠ .finishing) ∨ 4 ≤ s.copyOut.places.length ∨
      s.copyOut.cache = [] ∨
      ∀ slot rest e, s.copyOut.imaged = slot :: rest → s.entryAt slot = some e →
        e.state ≠ .imaged ∨ e.poolBuf = none := by
  rw [← State.running_eq_false_iff]
  unfold State.dueCopyOut
  by_cases room : s.running = true ∧ s.copyOut.places.length < Config.copyOutPlaces
  · obtain ⟨runs, below⟩ := room
    have places : ¬4 ≤ s.copyOut.places.length := Nat.not_le.2 below
    rw [if_pos ⟨runs, below⟩]
    cases s.copyOut.imaged with
    | nil => simp
    | cons slot rest =>
      have head : (∀ slot' rest' e, slot :: rest = slot' :: rest' → s.entryAt slot' = some e →
          e.state ≠ .imaged ∨ e.poolBuf = none) ↔
          ∀ e, s.entryAt slot = some e → e.state ≠ .imaged ∨ e.poolBuf = none :=
        ⟨fun h e => h slot rest e rfl, fun h _ _ e same => by cases same; exact h e⟩
      rw [head]
      cases s.copyOut.cache with
      | nil => simp
      | cons image images =>
        dsimp only
        cases s.entryAt slot with
        | none => simp
        | some e =>
          dsimp only
          split
          · rename_i hs hb
            simp [runs, places, hs, hb]
          · rename_i other
            refine ⟨fun _ => .inr (.inr (.inr fun x hx => ?_)), fun _ => rfl⟩
            cases hx
            rw [← imp_iff_not_or]
            intro hs
            exact Option.eq_none_iff_forall_ne_some.2 fun buffer hb => other buffer hs hb
  · rw [if_neg room]
    have stands : s.running = false ∨ 4 ≤ s.copyOut.places.length := by
      rw [← Bool.not_eq_true, ← Nat.not_lt]
      exact not_and_or.1 room
    simp only [true_iff]
    exact stands.imp id .inl

theorem State.dueRetire_eq_none_iff (s : State) : s.dueRetire = none ↔
    (s.epoch.dev ≠ .tracking ∧ s.epoch.dev ≠ .finishing) ∨ 31 ≤ s.journal.queue.length ∨
      ∀ n ∈ s.retire.list, ∀ e, s.entryAt n = some e → e.state ≠ .logged := by
  rw [← State.running_eq_false_iff, ← Bool.not_eq_true, ← Nat.not_lt, ← or_assoc, ← not_and_or]
  unfold State.dueRetire
  split_ifs with room
  · have room : s.running = true ∧ s.journal.queue.length < 31 := room
    simp [room, Option.filter_eq_none_iff]
  · have room : ¬(s.running = true ∧ s.journal.queue.length < 31) := room
    simp [room]

/-- The CLOSE record waits for a drain, its own absence, room, and the last entry of its epoch
(R97). -/
theorem State.dueClose_eq_none_iff (s : State) : s.dueClose = none ↔
    (s.epoch.dev ≠ .tracking ∧ s.epoch.dev ≠ .finishing) ∨ s.epoch.draining = false ∨
      s.retire.closeBuilt = true ∨ 31 ≤ s.journal.queue.length ∨
      ∀ m, s.epoch.summary = some m → ∃ e ∈ s.table, e.epoch = m.epoch := by
  rw [← State.running_eq_false_iff]
  unfold State.dueClose
  rw [ite_eq_right_iff, List.all_eq_true]
  constructor
  · intro unbuilt
    by_contra due
    push Not at due
    obtain ⟨runs, drains, built, room, m, hm, gone⟩ := due
    have none : s.epoch.summary = none := by
      refine unbuilt ⟨by simpa using runs, by simpa using drains, by simpa using built, room, ?_⟩
      intro e he
      rw [Bool.not_eq_true', ← Bool.not_eq_true, State.isDraining_iff]
      rintro ⟨_, m', hm', number⟩
      rw [hm] at hm'
      cases hm'
      exact gone e he number.symm
    rw [hm] at none
    cases none
  · rintro stands ⟨runs, drains, built, room, gone⟩
    rcases stands with stands | stands | stands | stands | last
    · rw [runs] at stands; cases stands
    · rw [drains] at stands; cases stands
    · rw [built] at stands; cases stands
    · exact absurd room (Nat.not_lt.2 stands)
    · cases hm : s.epoch.summary with
      | none => rfl
      | some m =>
        obtain ⟨e, he, number⟩ := last m hm
        have old : s.isDraining e = true := (s.isDraining_iff e).2 ⟨drains, m, hm, number.symm⟩
        have := gone e he
        rw [old] at this
        cases this

theorem State.dueSlotRead_eq_false_iff (s : State) : s.dueSlotRead = false ↔
    (s.epoch.dev ≠ .tracking ∧ s.epoch.dev ≠ .finishing) ∨ s.journal.writer ≠ .standby ∨
      s.journal.queue = [] ∨ s.journal.ring = none := by
  unfold State.dueSlotRead
  simp only [Bool.and_eq_false_iff, Bool.not_eq_false', State.running_eq_false_iff,
    decide_eq_false_iff_not, List.isEmpty_iff, Option.isSome_eq_false_iff,
    Option.isNone_iff_eq_none, or_assoc]

/-- Settles O4. -/
theorem stepsThatAreNotDueChangeNothing : Obligations.StepsThatAreNotDueChangeNothing := by
  refine ⟨fun s => exec_releasedLeave_of_not_due, fun s => exec_issue_of_nothing,
    fun s h => guarded_of_false h s _, fun s h => guarded_of_false h s _,
    fun s => exec_ageExpiry_of_not_due, fun s h => guarded_of_false h s _,
    fun s h => guarded_of_false h s _, fun s => exec_bufferGrant_of_not_due,
    fun s h => guarded_of_false h s _, fun s => exec_copyOutStart_of_not_due,
    fun s => exec_retirement_of_not_due, fun s => exec_closeRecordBuild_of_not_due,
    fun s h => guarded_of_false h s _, fun s tag young => ?_, fun s => ?_⟩
  · have early := State.overdue_of_young young
    exact ⟨guarded_of_false early s _, guarded_of_false early s _⟩
  · refine ⟨s.dueLeave_eq_none_iff, ?_, s.dueHoldLimit_eq_false_iff, s.dueHoldAlert_eq_false_iff,
      s.dueAge_eq_none_iff, s.dueFirPoll_eq_false_iff, s.dueRingPoll_eq_false_iff, ?_,
      s.duePrefetch_eq_false_iff, s.dueCopyOut_eq_none_iff, s.dueRetire_eq_none_iff,
      s.dueClose_eq_none_iff, s.dueSlotRead_eq_false_iff⟩
    · rw [State.choose_eq_nothing_iff, State.candidateC_eq_none_iff, State.candidateB_eq_none_iff,
        State.candidateP_eq_none_iff]
    · rw [State.dueGrant_eq_none_iff, State.freeBuffer_eq_none_iff, State.bufferWaiter_eq_none_iff]
      simp only [State.mayTake_eq_false_iff]

end Sys2Proof.Machine

/-! ### The places of the queues and the untracked count (R48, R63, R83, R131, R136, R138) -/

namespace Sys2Proof.Machine

/-- What the laws of places and of the untracked count look at. -/
def State.fill (s : State) : (Nat × Nat × Nat × Nat × Nat) × Word × Bool :=
  ((s.hold.length, s.mem.passQ.length, s.mem.issuedOwn.length, s.copyOut.places.length,
    s.mem.runCount), s.epoch.untracked, s.epoch.overflow)

/-- What leads from `s` to `t` keeps the queues within their places, and the untracked count to
epochs that have overflowed. -/
def State.Fits (s t : State) : Prop :=
  (CapacityLaw s → CapacityLaw t) ∧ (CountLaw s → CountLaw t)

theorem State.Fits.refl (s : State) : s.Fits s := ⟨id, id⟩

theorem State.Fits.trans {s t u : State} (h : s.Fits t) (h' : t.Fits u) : s.Fits u :=
  ⟨h'.1 ∘ h.1, h'.2 ∘ h.2⟩

/-- Nothing joins a queue and nothing is counted. -/
theorem State.Fits.of_le {s t : State} (hold : t.hold.length ≤ s.hold.length)
    (pass : t.mem.passQ.length ≤ s.mem.passQ.length)
    (own : t.mem.issuedOwn.length ≤ s.mem.issuedOwn.length)
    (places : t.copyOut.places.length ≤ s.copyOut.places.length)
    (run : t.mem.runCount ≤ s.mem.runCount)
    (count : (t.epoch.untracked, t.epoch.overflow) = (s.epoch.untracked, s.epoch.overflow)) :
    s.Fits t := by
  obtain ⟨untracked, overflow⟩ := Prod.mk.inj count
  refine ⟨fun ⟨c1, c2, c3, c4, c5⟩ => ⟨hold.trans c1, pass.trans c2, own.trans c3,
    places.trans c4, run.trans c5⟩, fun law => ?_⟩
  unfold CountLaw
  rw [untracked, overflow]
  exact law

theorem State.Fits.of_fill {s t : State} (e : t.fill = s.fill) : s.Fits t := by
  simp only [State.fill, Prod.mk.injEq] at e
  obtain ⟨⟨hold, pass, own, places, run⟩, untracked, overflow⟩ := e
  exact State.Fits.of_le hold.le pass.le own.le places.le run.le (Prod.ext untracked overflow)

/-! #### Operations that neither fill a queue nor count -/

@[simp] theorem State.fill_afterWrite (s : State) (p : Byte) : (s.afterWrite p).fill = s.fill := rfl

@[simp] theorem State.fill_queueB (s : State) (role : OwnRole) (addr : Addr) (op : Op) :
    (s.queueB role addr op).fill = s.fill := rfl

@[simp] theorem State.fill_applyVerdict (s : State) (f : EventFlag) (v : AlertVerdict) :
    (s.applyVerdict f v).fill = s.fill := by
  rw [State.applyVerdict_eq]; rfl

@[simp] theorem State.fill_handChanges (s : State) : s.handChanges.fill = s.fill := by
  rw [State.handChanges_eq]; rfl

@[simp] theorem State.fill_grantBuffers (s : State) : s.grantBuffers.fill = s.fill := by
  have length : s.grantBuffers.hold.length = s.hold.length := by
    simpa using congrArg List.length s.grantBuffers_req
  unfold State.fill
  rw [length, State.grantBuffers_eq]

@[simp] theorem State.fill_handOver (s : State) : s.handOver.fill = s.fill :=
  (State.fill_handChanges _).trans s.fill_grantBuffers

/-- A queue of as many requests takes the Hold Queue's place. -/
theorem State.fill_setHold (s : State) {q : List HeldReq} (h : q.length = s.hold.length) :
    (s.setHold q).fill = s.fill := by
  unfold State.fill
  rw [State.setHold_hold, h]; rfl

@[simp] theorem State.fill_queueDescRead (s : State) : s.queueDescRead.fill = s.fill := by
  unfold State.queueDescRead
  split <;> rfl

@[simp] theorem State.fill_queueSlotRead (s : State) : s.queueSlotRead.fill = s.fill := by
  unfold State.queueSlotRead
  split <;> rfl

@[simp] theorem State.fill_queueSlotWrite (s : State) (op : Addr → Record → Op) :
    (s.queueSlotWrite op).fill = s.fill := by
  unfold State.queueSlotWrite
  split <;> rfl

@[simp] theorem State.fill_rereadDesc (s : State) : s.rereadDesc.fill = s.fill :=
  s.fill_queueDescRead

@[simp] theorem State.fill_rereadSlot (s : State) : s.rereadSlot.fill = s.fill :=
  s.fill_queueSlotRead

@[simp] theorem State.fill_takeKick (s : State) : s.takeKick.fill = s.fill := by
  have fir : ∀ u : State, u.kickFir.fill = u.fill := fun u => by
    unfold State.kickFir
    split_ifs
    · exact u.fill_rereadDesc
    · rfl
  have ring : ∀ u : State, u.kickRing.fill = u.fill := fun u => by
    unfold State.kickRing
    split_ifs
    · exact u.fill_rereadSlot
    · rfl
  unfold State.takeKick
  rw [ring, fir]
  rfl

@[simp] theorem State.fill_imageLine (s : State) (slot : Nat) :
    (s.imageLine slot).fill = s.fill := by
  have filed : ∀ (u : State) e p, (u.completeImage e p).fill = u.fill := fun u e p => by
    unfold State.completeImage
    dsimp only
    split <;> rfl
  unfold State.imageLine
  split
  · dsimp only
    split_ifs
    · rw [filed]
      simp [State.fill]
    · simp [State.fill]
  · rfl

@[simp] theorem State.fill_takeDescriptor (s : State) (data : Line) :
    (s.takeDescriptor data).fill = s.fill := by
  unfold State.takeDescriptor
  split
  · rfl
  · dsimp only
    split_ifs <;> rfl

@[simp] theorem State.fill_takeSlot (s : State) (data : Line) :
    (s.takeSlot data).fill = s.fill := by
  unfold State.takeSlot
  split
  · rfl
  · split_ifs
    · exact s.endRingWait.fill_queueSlotWrite bodyWrite
    · rfl
    · rfl

@[simp] theorem State.fill_completeDrain (s : State) : s.completeDrain.fill = s.fill := by
  unfold State.completeDrain
  dsimp only
  split_ifs
  · simp [State.fill, State.abandonDescRead]
  · rfl

@[simp] theorem State.fill_slotWritten (s : State) : s.slotWritten.fill = s.fill := by
  unfold State.slotWritten
  split
  · exact s.fill_queueSlotWrite headerWrite
  · unfold State.recordWritten
    split
    · dsimp only
      split_ifs
      · exact State.fill_completeDrain _
      · rfl
    · rfl
  all_goals rfl

@[simp] theorem State.fill_checkJcb (s : State) (q : Quad) : (s.checkJcb q).fill = s.fill := by
  unfold State.checkJcb
  split_ifs <;> rfl

@[simp] theorem State.fill_memoryError (s : State) (r : OwnReq) (c : ErrCause) :
    (s.memoryError r c).fill = s.fill := by
  have halted : ∀ u : State, u.halt.fill = u.fill := fun u => by
    rw [State.halt_eq]
    simp [State.fill]
  have reported : ∀ u : State, u.reportError.fill = u.fill := fun u => by
    unfold State.reportError
    split
    · rfl
    · exact halted u
    · exact halted u
    all_goals rfl
  have dropped : ∀ u : State, u.dropOwn.fill = u.fill := fun u => by simp [State.fill]
  unfold State.memoryError
  rw [dropped, reported]
  rfl

@[simp] theorem State.fill_grantEntry (s : State) (slot : Nat) :
    (s.grantEntry slot).fill = s.fill := by
  unfold State.grantEntry
  split
  · rfl
  · refine State.fill_setHold _ ?_
    rw [releaseOrders_length]
    simpa using congrArg List.length (grantedQueue_req _ slot _ s.hold)

@[simp] theorem State.fill_retireEntry (s : State) (e : Entry) :
    (s.retireEntry e).fill = s.fill := by
  unfold State.retireEntry State.advanceSeq
  rw [State.fill_grantEntry]
  split_ifs <;> rfl

@[simp] theorem State.fill_sampleByte (s : State) : s.sampleByte.fill = s.fill := by
  unfold State.sampleByte State.latch
  split_ifs
  · rfl
  · cases regAt s.port.pointer <;> rfl

/-- A register write that is no command. -/
theorem State.fill_writeReg (s : State) (v : Half) {r : Reg} (h : r ≠ .command) :
    (s.writeReg v r).fill = s.fill := by
  have alert : ∀ a, (s.writeAlert a v).fill = s.fill := fun a => by
    cases a <;> simp only [State.writeAlert, State.evalTableHigh, State.evalPoolHigh,
      State.fill_applyVerdict] <;> rfl
  have drain : ∀ d, (s.writeDrain d v).fill = s.fill := fun d => by cases d <;> rfl
  have peak : ∀ p, (s.writePeak p v).fill = s.fill := fun p => by
    unfold State.writePeak
    cases p <;> split_ifs <;> rfl
  cases r with
  | command => exact absurd rfl h
  | alertMode => exact alert .alertMode
  | tableUpper => exact alert .tableUpper
  | tableLower => exact alert .tableLower
  | poolUpper => exact alert .poolUpper
  | poolLower => exact alert .poolLower
  | drainHigh => exact drain .drainHigh
  | drainLow => exact drain .drainLow
  | holdAlert =>
    unfold State.writeReg State.writeHoldAlert
    dsimp only
    split_ifs
    · simp [State.fill]
    · rfl
  | peakOcc => exact peak .occ
  | peakPool => exact peak .pool
  | wideLow q =>
    cases q with
    | peakHold => exact peak .hold
    | _ => rfl
  | _ => rfl

/-! #### Classifications -/

/-- Only an epoch that has overflowed counts a write as untracked (R63). -/
theorem CountLaw.classifyWrite {s : State} (h : CountLaw s) (r : Request)
    (waiting ahead blocked : Bool) : CountLaw (s.classifyWrite r waiting ahead blocked).1 := by
  cases overflow : s.epoch.overflow with
  | false =>
    unfold CountLaw
    rw [State.classifyWrite_epoch s r waiting ahead blocked overflow]
    exact h
  | true =>
    intro _
    rw [State.classifyWrite_eq]
    exact overflow

theorem State.Fits.classifyWrite {s t : State} (h : s.Fits t) (r : Request)
    (waiting ahead blocked : Bool) : s.Fits (t.classifyWrite r waiting ahead blocked).1 := by
  refine h.trans ⟨fun law => ?_, fun law => law.classifyWrite r waiting ahead blocked⟩
  rw [State.classifyWrite_eq]
  exact law

/-- A taken request finds a place in the queue that its route names (R47, R50). -/
theorem State.Fits.route {s : State} (r : Request) (x : Hold)
    (hold : s.hold.length < Config.holdPlaces) (pass : s.mem.passQ.length < Config.passPlaces) :
    s.Fits (s.route r x) := by
  refine ⟨fun ⟨c1, c2, rest⟩ => ?_, fun law => ?_⟩
  · have held : ∀ y, CapacityLaw (s.joinHold r y) := fun y =>
      ⟨by rw [State.joinHold_hold, List.length_append]; exact hold, c2, rest⟩
    have passed : CapacityLaw (s.joinPass r) :=
      ⟨c1, by rw [State.joinPass_mem, List.length_append]; exact pass, rest⟩
    unfold State.route
    split_ifs
    exacts [held _, passed, held _]
  · rw [State.route_eq]
    exact law

theorem State.Fits.arriveWrite {s : State} (r : Request) (ready : s.ready = true) :
    s.Fits (s.arriveWrite r) := by
  have room : s.hold.length < Config.holdPlaces ∧ s.mem.passQ.length < Config.passPlaces := by
    simpa [State.ready] using ready
  unfold State.arriveWrite
  dsimp only
  split_ifs
  · refine ⟨fun ⟨_, rest⟩ => ⟨?_, rest⟩, id⟩
    rw [State.joinHold_hold, List.length_append]
    exact room.1
  · refine ((State.Fits.refl s).classifyWrite r _ _ _).trans (State.Fits.route r _ ?_ ?_) <;>
      rw [State.classifyWrite_eq]
    exacts [room.1, room.2]

theorem State.Fits.completeCapture (s : State) (e : Entry) : s.Fits (s.completeCapture e) := by
  have walked : s.Fits (releaseWalk e.block e.slot s.hold [] false (s.slotImaged e.slot)).1 :=
    releaseWalk_keeps (fun _ r w a b h => h.classifyWrite r w a b) _ _ _ _ _ _
      (State.Fits.of_fill rfl)
  refine walked.trans (State.Fits.of_fill (State.fill_setHold _ ?_))
  have req := congrArg List.length
    (releaseWalk_req e.block e.slot s.hold [] false (s.slotImaged e.slot))
  rw [List.length_map, List.length_map] at req
  rw [releaseWalk_eq]
  exact req

theorem State.Fits.captureLine (s : State) (slot buffer line : Nat) (data : Line) :
    s.Fits (s.captureLine slot buffer line data) := by
  have placed : ∀ p, s.Fits { s with pool := p } := fun p => .of_fill rfl
  unfold State.captureLine
  dsimp only
  split
  · exact placed _
  · split_ifs
    · exact .of_fill rfl
    · exact (placed _).trans (.completeCapture _ _)
    · exact placed _

/-! #### The cuts, STOP and the overflow -/

theorem State.Fits.beginEpoch (s : State) (number : Half) (cause : CutCause) :
    s.Fits (s.beginEpoch number cause) :=
  ⟨id, fun _ none => absurd rfl none⟩

theorem State.Fits.reclassifyWaiters (s : State) : s.Fits s.reclassifyWaiters := by
  have walked : s.Fits (reclassify s.hold [] s.freePending).1 :=
    reclassify_keeps (fun _ r w a b h => h.classifyWrite r w a b) _ _ _ (State.Fits.of_fill rfl)
  refine walked.trans (State.Fits.of_fill (State.fill_setHold _ ?_))
  have req := congrArg List.length (reclassify_req s.hold [] s.freePending)
  rw [List.length_map, List.length_map] at req
  rw [releaseOrders_length, reclassify_eq]
  exact req

theorem State.fill_endCut (s : State) : s.endCut.fill = s.fill :=
  (State.fill_handChanges _).trans s.fill_grantBuffers

theorem State.Fits.cutOpen (s : State) : s.Fits s.cutOpen :=
  .trans (t := s.installStaged) (.of_fill rfl)
    (.trans (.beginEpoch _ _ _) (.trans (.reclassifyWaiters _) (.of_fill (State.fill_endCut _))))

theorem State.Fits.cutSwitch (s : State) : s.Fits s.cutSwitch :=
  .trans (t := s.installStaged.closeEpoch .switch) (.of_fill rfl)
    (.trans (.beginEpoch _ _ _) (.trans (.reclassifyWaiters _) (.of_fill (State.fill_endCut _))))

theorem State.Fits.cutEnd (s : State) : s.Fits s.cutEnd := by
  have released : ∀ u : State, u.releaseWaiters.fill = u.fill := fun u =>
    State.fill_setHold _ (by rw [releaseOrders_length, List.length_map]; rfl)
  exact .of_fill ((State.fill_handOver _).trans (released (s.installStaged.closeEpoch .endEpoch)))

theorem State.Fits.overflowEpoch (s : State) : s.Fits s.overflowEpoch := by
  have length : s.overflowedHold.length = s.hold.length := by
    simpa using congrArg List.length s.overflowedHold_req
  rw [State.overflowEpoch_eq]
  exact ⟨fun ⟨c1, rest⟩ => ⟨length.le.trans c1, rest⟩, fun _ _ => rfl⟩

/-- STOP empties the copy-out places and the run count; the queues keep their requests (R67, R89,
R145). -/
theorem State.Fits.takeStop (s : State) : s.Fits s.takeStop := by
  have stopped : s.Fits s.stopBlocks := by
    rw [State.stopBlocks_eq]
    exact .of_le (List.length_map _).le le_rfl (List.length_map _).le (Nat.zero_le _)
      (Nat.zero_le _) rfl
  have handed := stopped.trans (.of_fill s.stopBlocks.fill_handChanges)
  unfold State.takeStop
  generalize s.stopBlocks.handChanges = u at handed ⊢
  exact handed.trans (.of_fill rfl)

theorem State.Fits.setCmd {s t : State} (h : s.Fits t) (c : CommandUnit) :
    s.Fits { t with cmd := c } :=
  h.trans (.of_fill rfl)

theorem State.Fits.decideExecute (s : State) (legal : Bool) {accept : State → State}
    (accepted : s.Fits (accept s)) : s.Fits (s.decideExecute legal accept) := by
  unfold State.decideExecute
  split_ifs
  exacts [.of_fill rfl, accepted, .of_fill rfl]

theorem State.Fits.takeLoad (s : State) : s.Fits s.takeLoad := .decideExecute s _ (.of_fill rfl)

theorem State.Fits.takeOpen (s : State) : s.Fits s.takeOpen :=
  .decideExecute s _ ((State.Fits.cutOpen s).setCmd _)

theorem State.Fits.takeSwitch (s : State) : s.Fits s.takeSwitch :=
  .decideExecute s _ ((State.Fits.cutSwitch s).setCmd _)

theorem State.Fits.takeEnd (s : State) : s.Fits s.takeEnd :=
  .decideExecute s _ ((State.Fits.cutEnd s).setCmd _)

theorem State.Fits.commandWrite (s : State) (v : Half) : s.Fits (s.commandWrite v) := by
  unfold State.commandWrite
  split_ifs
  exacts [.of_fill s.fill_takeKick, .takeStop s, .takeLoad s, .takeOpen s, .takeSwitch s,
    .takeEnd s, .of_fill rfl]

theorem State.Fits.writeReg (s : State) (v : Half) (r : Reg) : s.Fits (s.writeReg v r) := by
  by_cases command : r = .command
  · rw [command]
    exact .commandWrite s v
  · exact .of_fill (s.fill_writeReg v command)

/-! #### The arbiter, answers and places -/

/-- The choice between class P and class B names no capture read, and of class B what is issuable
(R138). -/
theorem State.choosePB_eq (s : State) : (∀ r, s.choosePB ≠ .capture r) ∧
    ∀ r, s.choosePB = .background r → s.issuableB = some r := by
  unfold State.choosePB
  cases s.candidateP with
  | none => cases s.issuableB <;> simp
  | some p =>
    cases s.issuableB with
    | none => simp
    | some b =>
      dsimp only
      split_ifs <;> simp

/-- A capture read is issued as the candidate of class C, with room for it (R136, R137). -/
theorem State.choose_eq_capture {s : State} {r : OwnReq} (h : s.choose = .capture r) :
    s.candidateC = some r ∧ s.ownRoom = true := by
  unfold State.choose at h
  split at h
  · rename_i c candidate
    split_ifs at h with room
    · cases h
      exact ⟨candidate, room⟩
    · exact absurd h (s.choosePB_eq.1 r)
  · exact absurd h (s.choosePB_eq.1 r)

/-- A request of class B is issued as its issuable candidate (R137, R138). -/
theorem State.choose_eq_background {s : State} {r : OwnReq} (h : s.choose = .background r) :
    s.issuableB = some r := by
  unfold State.choose at h
  split at h
  · split_ifs at h
    exact s.choosePB_eq.2 r h
  · exact s.choosePB_eq.2 r h

/-- An issuable request is class B's candidate, with room for it (R136, R138). -/
theorem State.issuableB_eq_some {s : State} {r : OwnReq} (h : s.issuableB = some r) :
    s.candidateB = some r ∧ s.ownRoom = true := by
  unfold State.issuableB at h
  split_ifs at h with room
  exact ⟨h, room⟩

theorem State.ownRoom_iff (s : State) :
    s.ownRoom = true ↔ s.mem.issuedOwn.length < Config.ownLimit :=
  decide_eq_true_iff

/-- Own outstanding stays at its limit and the run count at 15 (R136, R138). -/
theorem State.Fits.issue {s t : State} (he : execIssue s = .next t) : s.Fits t := by
  have issued : s.ownRoom = true → ∀ i, (s.mem.issuedOwn ++ [i]).length ≤ Config.ownLimit :=
    fun room i => by
      rw [List.length_append]
      exact s.ownRoom_iff.1 room
  unfold execIssue at he
  split at he <;> cases he
  · exact .refl s
  · rename_i r chosen
    obtain ⟨_, room⟩ := State.choose_eq_capture chosen
    exact ⟨fun ⟨c1, c2, _, c4, c5⟩ => ⟨c1, c2, issued room _, c4, c5⟩, id⟩
  · rename_i r chosen
    obtain ⟨_, room⟩ := State.issuableB_eq_some (State.choose_eq_background chosen)
    exact ⟨fun ⟨c1, c2, _, c4, _⟩ => ⟨c1, c2, issued room _, c4, Nat.zero_le _⟩, id⟩
  · refine ⟨fun ⟨c1, c2, c3, c4, _⟩ => ⟨c1, ?_, c3, c4, ?_⟩, id⟩
    · exact s.mem.passQ.length_tail.le.trans ((Nat.sub_le _ _).trans c2)
    · show (if _ then min (s.mem.runCount + 1) 15 else 0) ≤ 15
      split_ifs
      · exact Nat.min_le_right _ _
      · exact Nat.zero_le _

/-- As many leave as the pass-through queue has room for (R53, R131). -/
theorem State.Fits.releasedLeave {s t : State} (he : execReleasedLeave s = .next t) : s.Fits t := by
  unfold execReleasedLeave at he
  split at he <;> cases he
  · exact .refl s
  · rename_i leaving rest due
    have left : leaveUpTo (Config.passPlaces - s.mem.passQ.length) s.hold = (leaving, rest) := by
      unfold State.dueLeave at due
      dsimp only at due
      split_ifs at due
      exact Option.some.inj due
    have room := leaveUpTo_length_le (Config.passPlaces - s.mem.passQ.length) s.hold
    have stays := (leaveUpTo_sublist (Config.passPlaces - s.mem.passQ.length) s.hold).length_le
    rw [left] at room stays
    dsimp only at room stays
    refine ⟨fun ⟨c1, c2, rest⟩ => ⟨stays.trans c1, ?_, rest⟩, id⟩
    show (s.mem.passQ ++ leaving).length ≤ Config.passPlaces
    rw [List.length_append]
    omega

theorem State.Fits.endOwn (s : State) (tag : Nat) : s.Fits (s.endOwn tag) :=
  .of_le le_rfl le_rfl List.length_eraseP_le le_rfl le_rfl rfl

/-- An answer ends a request of the port, or reaches its owner, or changes nothing. -/
theorem State.Fits.ownAnswer (s : State) (tag : Nat) (fits : OwnRole → Bool)
    (owner : OwnReq → State → State) (ho : ∀ r (u : State), u.Fits (owner r u)) :
    s.Fits (s.ownAnswer tag fits owner) := by
  obtain ⟨_, e⟩ | ⟨i, _, ⟨_, e⟩ | ⟨_, _, e⟩ | ⟨_, _, e⟩⟩ := s.ownAnswer_cases tag fits owner <;>
    rw [e]
  exacts [.refl s, .endOwn s tag, (State.Fits.endOwn s tag).trans (ho _ _), .refl s]

theorem State.Fits.endAbandoned (s : State) (tag : Nat) : s.Fits (s.endAbandoned tag) := by
  unfold State.endAbandoned
  split_ifs
  exacts [.endOwn s tag, .refl s]

theorem State.Fits.completeDesc (s : State) (slot : Nat) : s.Fits (s.completeDesc slot) := by
  have left := List.length_filter_le (fun q : CopyOutPlace => q.slot != slot) s.copyOut.places
  unfold State.completeDesc
  split
  · exact .refl s
  · split_ifs
    · unfold State.countImage
      dsimp only
      split_ifs <;> exact .of_le le_rfl le_rfl le_rfl left le_rfl rfl
    · exact .refl s

/-- A copy-out starts where one of the four places is free (R83). -/
theorem State.Fits.startCopyOut {s : State} {e : Entry} {buffer : Nat} {image : ImageBuf}
    (due : s.dueCopyOut = some (e, buffer, image)) : s.Fits (s.startCopyOut e buffer image) := by
  have room : s.copyOut.places.length < Config.copyOutPlaces := by
    unfold State.dueCopyOut at due
    split_ifs at due with h
    exact h.2
  refine ⟨fun ⟨c1, c2, c3, _, c5⟩ => ⟨c1, c2, c3, ?_, c5⟩, id⟩
  show (s.copyOut.places ++ [_]).length ≤ _
  rw [List.length_append]
  exact room

/-! #### Every command -/

theorem State.Fits.onPort {s t : State} {f : State → State} (he : s.onPort f = .next t)
    (hf : s.Fits (f s)) : s.Fits t := by
  unfold State.onPort at he
  split_ifs at he <;> cases he
  exacts [.refl s, hf]

theorem State.Fits.afterWrite {s t : State} (h : s.Fits t) (p : Byte) : s.Fits (t.afterWrite p) :=
  h.trans (.of_fill (t.fill_afterWrite p))

/-- A command that either makes the state another or leaves it as it was. -/
theorem State.Fits.ite {s t u : State} {p : Prop} [Decidable p]
    (he : (if p then .next u else .next s : Host.Outcome State Fault Refusal) = .next t)
    (hu : s.Fits u) : s.Fits t := by
  split_ifs at he <;> cases he
  exacts [hu, .refl s]

theorem State.Fits.powerOnReset {s t : State} (he : execPowerOnReset s = .next t) : s.Fits t := by
  cases he
  exact ⟨fun _ => CapacityLaw.reset, fun _ none => absurd rfl none⟩

theorem exec_fits (c : Instr) (s t : State) (he : exec c s = .next t) : s.Fits t := by
  unfold exec at he
  cases c with
  | writeArrival i a m d g =>
    simp only [execWriteArrival] at he
    split_ifs at he with ready <;> cases he
    · have taken : s.Fits (s.takeRequest i a (.write m d) g).1 := .of_fill rfl
      have arrived := taken.trans
        (.arriveWrite (s.takeRequest i a (.write m d) g).2 ready)
      exact arrived.trans (.of_fill (State.fill_handOver _))
    · exact .refl s
  | readArrival i a g =>
    simp only [execReadArrival] at he
    split_ifs at he with ready <;> cases he
    · have taken : s.Fits (s.takeRequest i a .read g).1 := .of_fill rfl
      have room : s.hold.length < Config.holdPlaces ∧ s.mem.passQ.length < Config.passPlaces := by
        simpa [State.ready] using ready
      exact taken.trans (.route _ _ room.1 room.2)
    · exact .refl s
  | releasedLeave => exact .releasedLeave he
  | issue => exact .issue he
  | passThroughAnswer g a =>
    simp only [execPassThroughAnswer] at he
    split at he
    · cases he; exact .refl s
    · exact .ite he (.of_fill rfl)
  | unmatchedAnswer g a => cases he; exact .refl s
  | captureReadData g d =>
    cases he
    refine .ownAnswer _ _ _ _ fun r u => ?_
    split
    · exact (State.Fits.captureLine u _ _ _ d).trans (.of_fill (State.fill_handOver _))
    · exact .refl u
  | imageWriteDone g =>
    cases he
    refine .ownAnswer _ _ _ _ fun r u => ?_
    split
    · exact .of_fill ((State.fill_handOver _).trans (u.fill_imageLine _))
    · exact .refl u
  | descWriteDone g =>
    cases he
    refine .ownAnswer _ _ _ _ fun r u => ?_
    split
    · exact .completeDesc u _
    · exact .refl u
  | descReadData g d =>
    cases he
    exact .ownAnswer _ _ _ _ fun r u => .of_fill (u.fill_takeDescriptor d)
  | slotReadData g d =>
    cases he
    exact .ownAnswer _ _ _ _ fun r u => .of_fill (u.fill_takeSlot d)
  | slotWriteDone g =>
    cases he
    exact .ownAnswer _ _ _ _ fun r u => .of_fill u.fill_slotWritten
  | jcbReadData g d =>
    cases he
    refine .ownAnswer _ _ _ _ fun r u => ?_
    split
    · split_ifs
      · exact .of_fill (u.fill_checkJcb _)
      · exact .refl u
    · exact .refl u
  | errorAnswer g =>
    cases he
    exact .ownAnswer _ _ _ _ fun r u => .of_fill (u.fill_memoryError r .error)
  | timeout g =>
    exact .ite he (.ownAnswer _ _ _ _ fun r u => .of_fill (u.fill_memoryError r .timeout))
  | abandonedAnswer g a => cases he; exact .endAbandoned s g
  | abandonedTimeout g => exact .ite he (.endAbandoned s g)
  | holdLimitExpiry =>
    exact .ite he ((State.Fits.overflowEpoch s).trans (.of_fill (State.fill_handOver _)))
  | holdAlertReached =>
    have marked : (markFirst s.reachesAlert s.hold).length = s.hold.length := by
      simpa using congrArg List.length (markFirst_view s.reachesAlert s.hold)
    exact .ite he (.of_le marked.le le_rfl le_rfl le_rfl le_rfl rfl)
  | ageExpiry =>
    simp only [execAgeExpiry] at he
    split at he <;> cases he
    exacts [.refl s, .of_fill rfl]
  | firPollExpiry => exact .ite he (.of_fill s.fill_rereadDesc)
  | ringPollExpiry => exact .ite he (.of_fill s.fill_rereadSlot)
  | bufferGrant =>
    simp only [execBufferGrant] at he
    split at he
    · cases he; exact .refl s
    · rename_i due
      cases he
      exact .of_fill ((State.fill_handChanges _).trans
        (s.grantBuffers_of_due due ▸ s.fill_grantBuffers))
  | prefetch => exact .ite he (.of_fill s.fill_queueDescRead)
  | copyOutStart =>
    simp only [execCopyOutStart] at he
    split at he
    · cases he; exact .refl s
    · rename_i due
      cases he
      exact .startCopyOut due
  | retirement =>
    simp only [execRetirement] at he
    split at he <;> cases he
    exacts [.refl s, .of_fill ((State.fill_handOver _).trans (s.fill_retireEntry _))]
  | closeRecordBuild =>
    simp only [execCloseRecordBuild] at he
    split at he <;> cases he
    exacts [.refl s, .of_fill rfl]
  | journalSlotReadStart => exact .ite he (.of_fill s.fill_queueSlotRead)
  | load => exact .onPort he ((State.Fits.takeLoad s).afterWrite _)
  | openEpoch => exact .onPort he ((State.Fits.takeOpen s).afterWrite _)
  | closeSwitch => exact .onPort he ((State.Fits.takeSwitch s).afterWrite _)
  | closeEnd => exact .onPort he ((State.Fits.takeEnd s).afterWrite _)
  | kick => exact .onPort he (.of_fill s.fill_takeKick)
  | stop => exact .onPort he ((State.Fits.takeStop s).afterWrite _)
  | invalidCommandCode v => exact .onPort he ((State.Fits.commandWrite s v).afterWrite _)
  | alertThresholdWrite r v =>
    refine .onPort he (State.Fits.afterWrite ?_ _)
    cases r
    exacts [.writeReg s v .tableUpper, .writeReg s v .tableLower, .writeReg s v .poolUpper,
      .writeReg s v .poolLower, .writeReg s v .alertMode]
  | drainThresholdWrite r v => exact .onPort he (by cases r <;> exact .of_fill rfl)
  | holdAlertWrite v => exact .onPort he ((State.Fits.writeReg s v .holdAlert).afterWrite _)
  | peakReset p => exact .onPort he (by cases p <;> exact .of_fill rfl)
  | registerWrite p v => exact .onPort he ((State.Fits.writeReg s v _).afterWrite _)
  | cmdStatusWrite v => exact .onPort he (.of_fill rfl)
  | eventWrite v => exact .onPort he (.of_fill rfl)
  | eventEnableWrite v => exact .onPort he (.of_fill rfl)
  | holdLimitWrite v => exact .onPort he (.of_fill rfl)
  | pollWrite v => exact .onPort he (.of_fill rfl)
  | inspectSlotWrite v => exact .onPort he (.of_fill rfl)
  | pointerByte b => exact .onPort he (.of_fill rfl)
  | busStopCondition => exact .onPort he (.of_fill rfl)
  | latchedRead =>
    refine .onPort he ?_
    split
    exacts [.of_fill s.fill_sampleByte, .of_fill s.fill_sampleByte, .of_fill rfl]
  | powerOnReset => exact .powerOnReset he
  | resetRelease a b => exact .ite he (.of_fill rfl)
  | heldLowByte b =>
    refine .onPort he ?_
    split
    · unfold State.highByte
      split_ifs
      · exact .of_fill rfl
      · exact (State.Fits.writeReg s _ _).afterWrite _
    · exact .of_fill rfl
    · exact .of_fill rfl

/-- The passing of time moves no request and counts no write. -/
theorem State.Fits.tick (s : State) : s.Fits s.tick :=
  .of_le (List.length_map _).le le_rfl (List.length_map _).le le_rfl le_rfl rfl

theorem step_fits (s t : State) (he : step s = .next t) : s.Fits t :=
  step_induct (Q := s.Fits) (fun c _ _ h he => h.trans (exec_fits c _ _ he))
    (fun _ _ _ h => h.trans (.of_fill rfl)) (fun u h => h.trans (.tick u)) s t (.refl s) he

/-- Settles O56. -/
theorem everyStepKeepsTheUntrackedCountLaw : Obligations.EveryStepKeepsTheUntrackedCountLaw :=
  fun s t law he => (step_fits s t he).2 law

end Sys2Proof.Machine

/-! ### Own requests that are queued or awaited (R134, R136, R142; log 27) -/

namespace Sys2Proof.Machine

theorem State.liveCount_eq (s : State) (p : OwnRole → Bool) : s.liveCount p =
    s.mem.classC.countP (fun r => p r.role) + s.mem.classB.countP (fun r => p r.role) +
      s.mem.issuedOwn.countP fun i => p i.req.role && !i.abandoned := by
  unfold State.liveCount State.live
  rw [List.countP_append, List.countP_append, List.countP_map, List.countP_filter]
  rfl

theorem State.liveCount_queueB (s : State) (p : OwnRole → Bool) (role : OwnRole) (addr : Addr)
    (op : Op) :
    (s.queueB role addr op).liveCount p = s.liveCount p + if p role then 1 else 0 := by
  simp only [State.liveCount_eq, State.queueB_mem, List.countP_append, List.countP_singleton]
  omega

/-- An answer, or the end of an abandoned request, takes the first request of its tag off. -/
theorem State.liveCount_endOwn {s : State} {tag : Nat} {i : IssuedOwn}
    (found : s.findOwn tag = some i) (p : OwnRole → Bool) :
    (s.endOwn tag).liveCount p + (if p i.req.role && !i.abandoned then 1 else 0) =
      s.liveCount p := by
  obtain ⟨tagged, before, after, own, first⟩ := List.find?_eq_some_iff_append.1 found
  have erased : s.mem.issuedOwn.eraseP (·.tag == tag) = before ++ after := by
    rw [own, List.eraseP_append_right,
      List.eraseP_cons_of_pos (p := fun x : IssuedOwn => x.tag == tag) tagged]
    simpa using first
  simp only [State.liveCount_eq, State.endOwn_mem, erased]
  rw [own, List.countP_append, List.countP_append, List.countP_cons]
  omega

theorem State.liveCount_endOwn_le (s : State) (tag : Nat) (p : OwnRole → Bool) :
    (s.endOwn tag).liveCount p ≤ s.liveCount p := by
  simp only [State.liveCount_eq, State.endOwn_mem]
  have := (List.eraseP_sublist (p := fun i : IssuedOwn => i.tag == tag)
    (l := s.mem.issuedOwn)).countP_le (p := fun i => p i.req.role && !i.abandoned)
  omega

theorem State.liveCount_dropOwn (s : State) (p : OwnRole → Bool) : s.dropOwn.liveCount p = 0 := by
  simp [State.liveCount_eq]

/-- A capture read that is issued is awaited instead of queued. -/
theorem State.liveCount_issueC {s : State} {r : OwnReq} (h : r ∈ s.mem.classC)
    (p : OwnRole → Bool) :
    ({ s with mem.classC := s.mem.classC.erase r }.issueOwn r).liveCount p = s.liveCount p := by
  have moved := (List.perm_cons_erase h).countP_eq fun q => p q.role
  rw [List.countP_cons] at moved
  simp only [State.liveCount_eq, State.issueOwn_mem, List.countP_append, List.countP_singleton,
    moved, Bool.not_false, Bool.and_true]
  omega

/-- A request of class B that is issued is awaited instead of queued. -/
theorem State.liveCount_issueB {s : State} {r : OwnReq} (h : r ∈ s.mem.classB)
    (p : OwnRole → Bool) (run : Nat) :
    ({ s with mem.classB := s.mem.classB.erase r, mem.runCount := run }.issueOwn r).liveCount p =
      s.liveCount p := by
  have moved := (List.perm_cons_erase h).countP_eq fun q => p q.role
  rw [List.countP_cons] at moved
  simp only [State.liveCount_eq, State.issueOwn_mem, List.countP_append, List.countP_singleton,
    moved, Bool.not_false, Bool.and_true]
  omega

end Sys2Proof.Machine

/-! ### The descriptor cache and its one DESC_READ (R76 to R80, R134; log 27) -/

namespace Sys2Proof.Machine

/-- The DESC_READs that are queued or awaited. -/
def State.descReads (s : State) : Nat := s.liveCount fun r => decide (r.kind = .descRead)

/-- Class C holds capture reads alone (R134). -/
def State.CapturesOnly (s : State) : Prop := ∀ r ∈ s.mem.classC, r.role.kind = .captureRead

theorem cacheLaw_iff (s : State) : CacheLaw s ↔
    s.descReads ≤ 1 ∧ s.copyOut.cache.length + s.descReads ≤ 4 ∧
    (s.copyOut.wait = true → s.copyOut.cache.length + 1 ≤ 4) ∧
    (s.copyOut.timer.isSome = true → s.copyOut.wait = true ∧ s.descReads = 0) ∧
    s.CapturesOnly :=
  Iff.rfl

/-- What the law of the cache looks at. -/
def State.cacheView (s : State) : List ImageBuf × Bool × Bool × List OwnReq × List OwnReq :=
  (s.copyOut.cache, s.copyOut.wait, s.copyOut.timer.isSome, s.live, s.mem.classC)

theorem State.cacheView_of_lawView {s t : State} (h : t.lawView = s.lawView) :
    t.cacheView = s.cacheView := by
  have live : ∀ u : State, u.live = u.lawView.classC ++ u.lawView.classB ++
      (u.lawView.own.filter fun o => !o.2.2).map fun o => o.2.1 := fun u => by
    show u.mem.classC ++ u.mem.classB ++ _ = u.mem.classC ++ u.mem.classB ++ _
    rw [State.lawView, List.filter_map, List.map_map]
    rfl
  unfold State.cacheView
  rw [live t, live s]
  exact congrArg (fun v : LawView => (v.cache, v.firWait, v.firPoll,
    v.classC ++ v.classB ++ (v.own.filter fun o => !o.2.2).map fun o => o.2.1, v.classC)) h

/-- No descriptor joins and no DESC_READ; a FIR wait and its timer stand as they stood. -/
theorem CacheLaw.of_le {s t : State} (h : CacheLaw s)
    (cache : t.copyOut.cache.length ≤ s.copyOut.cache.length) (reads : t.descReads ≤ s.descReads)
    (wait : (t.copyOut.wait, t.copyOut.timer.isSome) = (s.copyOut.wait, s.copyOut.timer.isSome))
    (captures : t.CapturesOnly) : CacheLaw t := by
  obtain ⟨one, room, left, polls, _⟩ := (cacheLaw_iff s).1 h
  obtain ⟨waits, timer⟩ := Prod.mk.inj wait
  refine (cacheLaw_iff t).2 ⟨by omega, by omega, fun hw => ?_, fun ht => ?_, captures⟩
  · have := left (waits ▸ hw)
    omega
  · obtain ⟨hw, none⟩ := polls (timer ▸ ht)
    exact ⟨waits.trans hw, by omega⟩

/-- Out of a FIR wait the cache and the DESC_READ share the four places. -/
theorem CacheLaw.of_no_wait {t : State} (one : t.descReads ≤ 1)
    (room : t.copyOut.cache.length + t.descReads ≤ 4) (wait : t.copyOut.wait = false)
    (timer : t.copyOut.timer = none) (captures : t.CapturesOnly) : CacheLaw t := by
  refine (cacheLaw_iff t).2 ⟨one, room, fun hw => ?_, fun ht => ?_, captures⟩
  · rw [wait] at hw; cases hw
  · rw [timer] at ht; cases ht

theorem CacheLaw.of_view {s t : State} (h : CacheLaw s) (e : t.cacheView = s.cacheView) :
    CacheLaw t := by
  simp only [State.cacheView, Prod.mk.injEq] at e
  obtain ⟨cache, wait, timer, live, classC⟩ := e
  have reads : t.descReads = s.descReads := by
    unfold State.descReads State.liveCount
    rw [live]
  refine h.of_le (congrArg List.length cache).le reads.le (Prod.ext wait timer) ?_
  unfold State.CapturesOnly
  rw [classC]
  exact h.2.2.2.2

/-! #### Operations that show nothing in the view -/

@[simp] theorem State.cacheView_handChanges (s : State) : s.handChanges.cacheView = s.cacheView :=
  State.cacheView_of_lawView s.lawView_handChanges

@[simp] theorem State.cacheView_setHold (s : State) (q : List HeldReq) :
    (s.setHold q).cacheView = s.cacheView := rfl

@[simp] theorem State.cacheView_classifyWrite (s : State) (r : Request)
    (waiting ahead blocked : Bool) :
    (s.classifyWrite r waiting ahead blocked).1.cacheView = s.cacheView := by
  rw [State.classifyWrite_eq]; rfl

@[simp] theorem State.cacheView_route (s : State) (r : Request) (x : Hold) :
    (s.route r x).cacheView = s.cacheView := by
  rw [State.route_eq]; rfl

@[simp] theorem State.cacheView_arriveWrite (s : State) (r : Request) :
    (s.arriveWrite r).cacheView = s.cacheView := by
  unfold State.arriveWrite
  dsimp only
  split_ifs
  · rfl
  · rw [State.cacheView_route, State.cacheView_classifyWrite]

@[simp] theorem State.cacheView_captureLine (s : State) (slot buffer line : Nat) (data : Line) :
    (s.captureLine slot buffer line data).cacheView = s.cacheView := by
  have completed : ∀ (u : State) e, (u.completeCapture e).cacheView = u.cacheView := fun u e => by
    show (releaseWalk e.block e.slot u.hold [] false (u.slotImaged e.slot)).1.cacheView = _
    rw [releaseWalk_eq]
    rfl
  unfold State.captureLine
  dsimp only
  split
  · rfl
  · split_ifs
    · rfl
    · rw [completed]; rfl
    · rfl

@[simp] theorem State.cacheView_completeDesc (s : State) (slot : Nat) :
    (s.completeDesc slot).cacheView = s.cacheView := by
  unfold State.completeDesc State.countImage
  split
  · rfl
  · dsimp only
    split_ifs <;> rfl

@[simp] theorem State.cacheView_checkJcb (s : State) (q : Quad) :
    (s.checkJcb q).cacheView = s.cacheView := by
  unfold State.checkJcb
  split_ifs <;> rfl

@[simp] theorem State.cacheView_overflowEpoch (s : State) :
    s.overflowEpoch.cacheView = s.cacheView := by
  rw [State.overflowEpoch_eq]; rfl

@[simp] theorem State.cacheView_retireEntry (s : State) (e : Entry) :
    (s.retireEntry e).cacheView = s.cacheView := by
  rw [State.retireEntry_eq, State.grantEntry_eq]; rfl

@[simp] theorem State.cacheView_reclassifyWaiters (s : State) :
    s.reclassifyWaiters.cacheView = s.cacheView := by
  show (reclassify s.hold [] s.freePending).1.cacheView = _
  rw [reclassify_eq]; rfl

/-! #### The law under each operation -/

theorem CacheLaw.capturesOnly {s : State} (h : CacheLaw s) : s.CapturesOnly := by
  obtain ⟨_, _, _, _, captures⟩ := (cacheLaw_iff s).1 h
  exact captures

/-- A request of another kind joins class B. -/
theorem CacheLaw.queueB {s : State} (h : CacheLaw s) {role : OwnRole}
    (other : role.kind ≠ .descRead) (addr : Addr) (op : Op) : CacheLaw (s.queueB role addr op) := by
  refine h.of_le le_rfl ?_ rfl h.capturesOnly
  rw [State.descReads, State.liveCount_queueB, decide_eq_false other]
  exact le_rfl

theorem CacheLaw.queueSlotRead {s : State} (h : CacheLaw s) : CacheLaw s.queueSlotRead := by
  unfold State.queueSlotRead
  split
  · exact h
  · exact h.queueB (by decide) _ _

theorem CacheLaw.queueSlotWrite {s : State} (h : CacheLaw s) (op : Addr → Record → Op) :
    CacheLaw (s.queueSlotWrite op) := by
  unfold State.queueSlotWrite
  split
  · exact h.queueB (by decide) _ _
  · exact h

theorem CacheLaw.endOwn {s : State} (h : CacheLaw s) (tag : Nat) : CacheLaw (s.endOwn tag) :=
  h.of_le le_rfl (s.liveCount_endOwn_le tag _) rfl h.capturesOnly

theorem CacheLaw.ownAnswer {s : State} (h : CacheLaw s) (tag : Nat) (fits : OwnRole → Bool)
    (owner : OwnReq → State → State) (ho : ∀ r u, CacheLaw u → CacheLaw (owner r u)) :
    CacheLaw (s.ownAnswer tag fits owner) := by
  obtain ⟨_, e⟩ | ⟨i, _, ⟨_, e⟩ | ⟨_, _, e⟩ | ⟨_, _, e⟩⟩ := s.ownAnswer_cases tag fits owner <;>
    rw [e]
  exacts [h, h.endOwn tag, ho _ _ (h.endOwn tag), h]

/-- A grant's reads are capture reads (R56). -/
theorem CacheLaw.grantBuffer {s : State} (h : CacheLaw s) (g : HeldReq) (e : Entry) (n : Nat) :
    CacheLaw (s.grantBuffer g e n) := by
  have kinds : ∀ r ∈ captureReads e n g.req, r.role.kind = .captureRead := fun r hr => by
    obtain ⟨_, _, rfl⟩ := List.mem_map.1 hr
    rfl
  refine h.of_le le_rfl (le_of_eq ?_) rfl fun r hr => ?_
  · have none : (captureReads e n g.req).countP (fun r => decide (r.role.kind = .descRead)) = 0 :=
      List.countP_eq_zero.2 fun r hr => by rw [kinds r hr]; decide
    rw [State.descReads, State.descReads, State.liveCount_eq, State.liveCount_eq]
    show (s.mem.classC ++ captureReads e n g.req).countP _ + _ + _ = _
    rw [List.countP_append, none]
    rfl
  · rcases List.mem_append.1 hr with hr | hr
    exacts [h.capturesOnly r hr, kinds r hr]

theorem CacheLaw.grantBuffers {s : State} (h : CacheLaw s) : CacheLaw s.grantBuffers :=
  grantLoop_induct (fun _ _ _ _ h _ => h.grantBuffer _ _ _) _ s h

theorem CacheLaw.handOver {s : State} (h : CacheLaw s) : CacheLaw s.handOver :=
  h.grantBuffers.of_view (State.cacheView_handChanges _)

theorem CacheLaw.endCut {s : State} (h : CacheLaw s) : CacheLaw s.endCut :=
  h.grantBuffers.of_view (State.cacheView_handChanges s.grantBuffers.restartPeaks)

theorem CacheLaw.issue {s t : State} (h : CacheLaw s) (he : execIssue s = .next t) :
    CacheLaw t := by
  unfold execIssue at he
  split at he <;> cases he
  · exact h
  · rename_i r chosen
    have queued := List.mem_of_find?_eq_some (State.choose_eq_capture chosen).1
    exact h.of_le le_rfl (State.liveCount_issueC queued _).le rfl
      fun q hq => h.capturesOnly q (List.mem_of_mem_erase hq)
  · rename_i r chosen
    have queued := List.mem_of_find?_eq_some
      (State.issuableB_eq_some (State.choose_eq_background chosen)).1
    exact h.of_le le_rfl (State.liveCount_issueB queued _ 0).le rfl h.capturesOnly
  · exact h.of_view rfl

theorem CacheLaw.imageLine {s : State} (h : CacheLaw s) (slot : Nat) :
    CacheLaw (s.imageLine slot) := by
  have filed : ∀ (u : State) e p, CacheLaw u → CacheLaw (u.completeImage e p) := fun u e p hu => by
    unfold State.completeImage
    dsimp only
    split
    · exact hu.of_view rfl
    · exact CacheLaw.queueB (hu.of_view rfl) (by simp [OwnRole.kind]) _ _
  unfold State.imageLine
  split
  · dsimp only
    split_ifs
    · exact filed _ _ _ (h.of_view rfl)
    · exact h.of_view rfl
  · exact h

/-- The one DESC_READ has come back: its descriptor takes the place it kept, or that place is left
for its re-read (R77, R78). -/
theorem CacheLaw.takeDescriptor {s : State} (h : CacheLaw s) (none : s.descReads = 0)
    (room : s.copyOut.cache.length + 1 ≤ 4) (data : Line) : CacheLaw (s.takeDescriptor data) := by
  have raised : ∀ u : State, u = s ∨ u = s.raise .iringWait → CacheLaw
      { u with copyOut.wait := true, copyOut.timer := some 0 } := by
    rintro u (rfl | rfl) <;>
      exact (cacheLaw_iff _).2 ⟨none.le.trans (Nat.zero_le 1),
        (Nat.add_le_add_left none.le _).trans (Nat.le_of_succ_le room), fun _ => room,
        fun _ => ⟨rfl, none⟩, h.capturesOnly⟩
  unfold State.takeDescriptor
  split
  · exact h
  · dsimp only
    split_ifs
    · refine CacheLaw.of_no_wait (none.le.trans (by omega)) ?_ rfl rfl h.capturesOnly
      refine le_trans (Nat.add_le_add_left none.le _) ?_
      rw [List.length_append]
      exact room
    · exact raised _ (.inl rfl)
    · exact raised _ (.inr rfl)

theorem CacheLaw.descReadData {s : State} (h : CacheLaw s) (tag : Nat) (data : Line) : CacheLaw
    (s.ownAnswer tag (fun r => decide (r.kind = .descRead)) fun _ s => s.takeDescriptor data) := by
  obtain ⟨_, e⟩ | ⟨i, found, ⟨_, e⟩ | ⟨awaited, kind, e⟩ | ⟨_, _, e⟩⟩ :=
    s.ownAnswer_cases tag (fun r => decide (r.kind = .descRead))
      fun _ s => s.takeDescriptor data <;>
    rw [e]
  · exact h
  · exact h.endOwn tag
  · obtain ⟨one, room, _⟩ := (cacheLaw_iff s).1 h
    have ended := State.liveCount_endOwn found fun r => decide (r.kind = .descRead)
    rw [awaited, kind] at ended
    have ended : (s.endOwn tag).descReads + 1 = s.descReads := ended
    refine (h.endOwn tag).takeDescriptor (by omega) ?_ data
    show s.copyOut.cache.length + 1 ≤ 4
    omega
  · exact h

theorem CacheLaw.endFirWait {s : State} (h : CacheLaw s) : CacheLaw s.endFirWait := by
  obtain ⟨one, room, _⟩ := (cacheLaw_iff s).1 h
  exact .of_no_wait one room rfl rfl h.capturesOnly

theorem CacheLaw.abandonDescRead {s : State} (h : CacheLaw s) : CacheLaw s.abandonDescRead := by
  refine h.of_le le_rfl ?_ rfl h.capturesOnly
  rw [State.descReads, State.descReads, State.liveCount_eq, State.liveCount_eq]
  refine Nat.add_le_add (Nat.add_le_add_left ?_ _) ?_
  · exact List.filter_sublist.countP_le
  · show (s.mem.issuedOwn.map _).countP _ ≤ _
    rw [List.countP_map]
    refine List.countP_mono_left fun i _ hi => ?_
    simp only [Function.comp] at hi
    split_ifs at hi
    · simp at hi
    · exact hi

theorem CacheLaw.slotWritten {s : State} (h : CacheLaw s) : CacheLaw s.slotWritten := by
  have drained : ∀ u, CacheLaw u → CacheLaw u.completeDrain := fun u hu => by
    unfold State.completeDrain
    dsimp only
    split_ifs
    · have calm : CacheLaw { u.raise .epochClosed with
          epoch.draining := false
          epoch.summary := none
          epoch.imagesDraining := 0
          retire.closeBuilt := false
          cmd.busy := false } := hu.of_view rfl
      exact calm.endFirWait.abandonDescRead.of_view rfl
    · exact hu.of_view rfl
  unfold State.slotWritten
  split
  · exact (h.queueSlotWrite headerWrite).of_view rfl
  · unfold State.recordWritten
    split
    · dsimp only
      split_ifs
      · exact drained _ (h.of_view rfl)
      · exact h.of_view rfl
    · exact h
  all_goals exact h

theorem CacheLaw.takeSlot {s : State} (h : CacheLaw s) (data : Line) :
    CacheLaw (s.takeSlot data) := by
  have ended : CacheLaw s.endRingWait := h.of_view rfl
  unfold State.takeSlot
  split
  · exact h
  · split_ifs
    · exact (ended.queueSlotWrite bodyWrite).of_view rfl
    · exact h.of_view rfl
    · exact h.of_view rfl

theorem CacheLaw.dropOwn {s : State} (h : CacheLaw s) : CacheLaw s.dropOwn :=
  h.of_le le_rfl ((s.liveCount_dropOwn _).le.trans (Nat.zero_le _)) rfl
    fun _ hr => absurd hr List.not_mem_nil

theorem CacheLaw.memoryError {s : State} (h : CacheLaw s) (r : OwnReq) (cause : ErrCause) :
    CacheLaw (s.memoryError r cause) := by
  have halted : ∀ u, CacheLaw u → CacheLaw u.halt := fun u hu => by
    rw [State.halt_eq]
    exact hu.endFirWait.of_view rfl
  have reported : ∀ u, CacheLaw u → CacheLaw u.reportError := fun u hu => by
    unfold State.reportError
    split
    · exact hu.of_view rfl
    · exact halted u hu
    · exact halted u hu
    all_goals exact hu
  have recorded : ∀ err, CacheLaw { s with mem.err := err } := fun _ => h.of_view rfl
  exact (reported _ (recorded _)).dropOwn

/-- With no DESC_READ under way one may be queued for a free place; the poll timer stops (R77,
R79). -/
theorem CacheLaw.rereadDesc {s : State} (h : CacheLaw s) (none : s.descReads = 0)
    (room : s.copyOut.cache.length + 1 ≤ 4) : CacheLaw s.rereadDesc := by
  obtain ⟨_, _, left, _⟩ := (cacheLaw_iff s).1 h
  have queued : s.queueDescRead.descReads ≤ 1 := by
    unfold State.queueDescRead
    split
    · omega
    · rw [State.descReads, State.liveCount_queueB]
      have : s.liveCount (fun r => decide (r.kind = .descRead)) = 0 := none
      rw [this]
      decide
  have same : s.queueDescRead.copyOut = s.copyOut ∧ s.queueDescRead.mem.classC = s.mem.classC := by
    unfold State.queueDescRead
    split <;> exact ⟨rfl, rfl⟩
  obtain ⟨copyOut, classC⟩ := same
  refine (cacheLaw_iff _).2 ⟨queued, ?_, fun hw => ?_, fun ht => ?_, ?_⟩
  · show s.queueDescRead.copyOut.cache.length + s.queueDescRead.descReads ≤ 4
    rw [copyOut]
    omega
  · show s.queueDescRead.copyOut.cache.length + 1 ≤ 4
    rw [copyOut]
    exact room
  · cases ht
  · show ∀ r ∈ s.queueDescRead.mem.classC, _
    rw [classC]
    exact h.capturesOnly

/-- No DESC_READ is under way where none is pending (R77). -/
theorem CacheLaw.no_descRead {s : State} (h : CacheLaw s) (free : s.ownPending .descRead = false) :
    s.descReads = 0 := by
  have captures : s.mem.classC.countP (fun r => decide (r.role.kind = .descRead)) = 0 :=
    List.countP_eq_zero.2 fun r hr => by rw [h.capturesOnly r hr]; decide
  unfold State.ownPending at free
  rw [Bool.or_eq_false_iff, List.any_eq_false, List.any_eq_false] at free
  obtain ⟨unqueued, unissued⟩ := free
  rw [State.descReads, State.liveCount_eq, captures, List.countP_eq_zero.2 unqueued,
    List.countP_eq_zero.2 fun i hi => by rw [Bool.and_comm]; exact unissued i hi]

theorem CacheLaw.takeKick {s : State} (h : CacheLaw s) : CacheLaw s.takeKick := by
  have fir : ∀ u, CacheLaw u → CacheLaw u.kickFir := fun u hu => by
    unfold State.kickFir
    split_ifs with due
    · simp only [Bool.and_eq_true, Bool.not_eq_true'] at due
      obtain ⟨_, _, left, _⟩ := (cacheLaw_iff u).1 hu
      exact hu.rereadDesc (hu.no_descRead due.2) (left due.1)
    · exact hu
  have ring : ∀ u, CacheLaw u → CacheLaw u.kickRing := fun u hu => by
    unfold State.kickRing
    split_ifs
    · exact hu.queueSlotRead.of_view rfl
    · exact hu
  exact ring _ (fir _ (h.of_view rfl))

/-- PREFETCH goes out for a free place, out of a FIR wait (R77). -/
theorem CacheLaw.prefetch {s : State} (h : CacheLaw s) (due : s.duePrefetch = true) :
    CacheLaw s.queueDescRead := by
  simp only [State.duePrefetch, Bool.and_eq_true, Bool.not_eq_true', decide_eq_true_eq] at due
  obtain ⟨⟨⟨⟨⟨_, room⟩, free⟩, calm⟩, _⟩, _⟩ := due
  have room : s.copyOut.cache.length + 1 ≤ 4 := room
  obtain ⟨_, _, _, polls, _⟩ := (cacheLaw_iff s).1 h
  have timer : s.copyOut.timer = none := by
    cases ht : s.copyOut.timer with
    | none => rfl
    | some _ =>
      have := (polls (by rw [ht]; rfl)).1
      rw [calm] at this
      cases this
  refine (h.rereadDesc (h.no_descRead free) room).of_view ?_
  have same : s.queueDescRead.copyOut.timer = none := by
    unfold State.queueDescRead
    split <;> exact timer
  unfold State.cacheView
  rw [same]
  rfl

/-- A poll re-reads for the place that its FIR wait left (R79). -/
theorem CacheLaw.firPoll {s : State} (h : CacheLaw s) (due : s.dueFirPoll = true) :
    CacheLaw s.rereadDesc := by
  simp only [State.dueFirPoll, Bool.and_eq_true, pollExpired_iff] at due
  obtain ⟨⟨_, waits⟩, _, elapsed, timer, _⟩ := due
  obtain ⟨_, _, left, polls, _⟩ := (cacheLaw_iff s).1 h
  exact h.rereadDesc (polls (by rw [timer]; rfl)).2 (left waits)

theorem CacheLaw.startCopyOut {s : State} (h : CacheLaw s) (e : Entry) (buffer : Nat)
    (image : ImageBuf) : CacheLaw (s.startCopyOut e buffer image) := by
  have queued : ∀ u line, CacheLaw u → CacheLaw (u.queueImageWrite e.slot buffer image line) :=
    fun u line hu => hu.queueB (by simp [OwnRole.kind]) _ _
  have lent : (s.copyOut.cache.tail).length ≤ s.copyOut.cache.length := by
    rw [List.length_tail]
    exact Nat.sub_le _ _
  simp only [State.startCopyOut, List.foldl]
  exact queued _ _ (queued _ _ (queued _ _ (queued _ _ (h.of_le lent le_rfl rfl h.capturesOnly))))

/-- LOAD empties the cache (R80, R157). -/
theorem CacheLaw.acceptLoad {s : State} (h : CacheLaw s) : CacheLaw s.acceptLoad := by
  obtain ⟨one, _⟩ := (cacheLaw_iff s).1 h
  have emptied : ([] : List ImageBuf).length + s.descReads ≤ 4 := by
    rw [List.length_nil]
    omega
  refine CacheLaw.queueB (role := .jcbRead s.cmd.jcbAddr) ?_ (by simp [OwnRole.kind]) _ _
  exact .of_no_wait one emptied rfl rfl h.capturesOnly

theorem CacheLaw.takeStop (s : State) : CacheLaw s.takeStop := by
  have stopped : CacheLaw s.stopBlocks := by
    have none : s.stopBlocks.descReads = 0 := by
      rw [State.descReads, State.liveCount_eq, State.stopBlocks_eq]
      simp
    refine .of_no_wait (none.le.trans (Nat.zero_le 1)) ?_ rfl rfl
      fun _ hr => absurd hr List.not_mem_nil
    rw [none]
    exact Nat.zero_le _
  have handed := stopped.of_view s.stopBlocks.cacheView_handChanges
  unfold State.takeStop
  generalize s.stopBlocks.handChanges = u at handed ⊢
  exact handed.of_view rfl

theorem CacheLaw.acceptOpen {s : State} (h : CacheLaw s) : CacheLaw s.acceptOpen := by
  have begun : CacheLaw (s.installStaged.beginEpoch s.installStaged.openNumber .command) :=
    h.of_view rfl
  have cut : CacheLaw s.cutOpen := (begun.of_view (State.cacheView_reclassifyWaiters _)).endCut
  unfold State.acceptOpen
  generalize s.cutOpen = u at cut ⊢
  exact cut.of_view rfl

theorem CacheLaw.acceptSwitch {s : State} (h : CacheLaw s) : CacheLaw s.acceptSwitch := by
  have begun : CacheLaw s.switched := h.of_view rfl
  have walked : CacheLaw s.switched.reclassifyWaiters.copyLongestHold :=
    begun.of_view (State.cacheView_reclassifyWaiters _)
  have cut : CacheLaw s.cutSwitch := walked.endCut
  unfold State.acceptSwitch
  generalize s.cutSwitch = u at cut ⊢
  exact cut.of_view rfl

theorem CacheLaw.acceptEnd {s : State} (h : CacheLaw s) : CacheLaw s.acceptEnd := by
  have closed : CacheLaw
      { (s.installStaged.closeEpoch .endEpoch).releaseWaiters.copyLongestHold with
        epoch.dev := .finishing } := h.of_view rfl
  have cut : CacheLaw s.cutEnd := closed.handOver
  unfold State.acceptEnd
  generalize s.cutEnd = u at cut ⊢
  exact cut.of_view rfl

theorem kept_cacheLaw : Kept CacheLaw where
  same s t hv h := h.of_view (State.cacheView_of_lawView hv)
  write s i a m d g t h he := by
    simp only [exec, execWriteArrival] at he
    split_ifs at he <;> cases he
    · have taken : CacheLaw (s.takeRequest i a (.write m d) g).1 := h.of_view rfl
      exact CacheLaw.handOver (taken.of_view (State.cacheView_arriveWrite _ _))
    · exact h
  read s i a g t h he := by
    simp only [exec, execReadArrival] at he
    split_ifs at he <;> cases he
    · exact h.of_view (State.cacheView_route _ _ _)
    · exact h
  leave s t h he := by
    simp only [exec, execReleasedLeave] at he
    split at he <;> cases he
    · exact h
    · exact h.of_view rfl
  issue s t h he := h.issue he
  captureData s g d t h he := by
    cases he
    refine h.ownAnswer _ _ _ fun r u hu => ?_
    split
    · exact CacheLaw.handOver (hu.of_view (u.cacheView_captureLine _ _ _ d))
    · exact hu
  imageDone s g t h he := by
    cases he
    refine h.ownAnswer _ _ _ fun r u hu => ?_
    split
    · exact (hu.imageLine _).handOver
    · exact hu
  descDone s g t h he := by
    cases he
    refine h.ownAnswer _ _ _ fun r u hu => ?_
    split
    · exact hu.of_view (u.cacheView_completeDesc _)
    · exact hu
  descData s g d t h he := by
    cases he
    exact h.descReadData g d
  slotData s g d t h he := by
    cases he
    exact h.ownAnswer _ _ _ fun r u hu => hu.takeSlot d
  slotDone s g t h he := by
    cases he
    exact h.ownAnswer _ _ _ fun r u hu => hu.slotWritten
  jcbData s g d t h he := by
    cases he
    refine h.ownAnswer _ _ _ fun r u hu => ?_
    split
    · split_ifs
      · exact hu.of_view (u.cacheView_checkJcb _)
      · exact hu
    · exact hu
  error s g c h := h.ownAnswer _ _ _ fun r u hu => hu.memoryError r c
  abandoned s g h := by
    unfold State.endAbandoned
    split_ifs
    exacts [h.endOwn g, h]
  limit s t h he := by
    simp only [exec, execHoldLimitExpiry] at he
    split_ifs at he <;> cases he
    · exact CacheLaw.handOver (h.of_view s.cacheView_overflowEpoch)
    · exact h
  age s t h he := by
    simp only [exec, execAgeExpiry] at he
    split at he <;> cases he
    exacts [h, h.of_view rfl]
  firPoll s t h he := by
    simp only [exec, execFirPollExpiry] at he
    split_ifs at he with due <;> cases he
    exacts [h.firPoll due, h]
  ringPoll s t h he := by
    simp only [exec, execRingPollExpiry] at he
    split_ifs at he <;> cases he
    exacts [h.queueSlotRead.of_view rfl, h]
  grant s t h he := by
    simp only [exec, execBufferGrant] at he
    split at he <;> cases he
    exacts [h, (h.grantBuffer _ _ _).handOver]
  prefetch s t h he := by
    simp only [exec, execPrefetch] at he
    split_ifs at he with due <;> cases he
    exacts [h.prefetch due, h]
  copyOut s t h he := by
    simp only [exec, execCopyOutStart] at he
    split at he <;> cases he
    exacts [h, h.startCopyOut _ _ _]
  retire s t h he := by
    simp only [exec, execRetirement] at he
    split at he <;> cases he
    exacts [h, CacheLaw.handOver (h.of_view (s.cacheView_retireEntry _))]
  closeRecord s t h he := by
    simp only [exec, execCloseRecordBuild] at he
    split at he <;> cases he
    exacts [h, h.of_view rfl]
  slotRead s t h he := by
    simp only [exec, execJournalSlotReadStart] at he
    split_ifs at he <;> cases he
    exacts [h.queueSlotRead.of_view rfl, h]
  load s h _ := h.acceptLoad
  opens s h _ _ := h.acceptOpen
  switches s h _ _ := h.acceptSwitch
  ends s h _ _ := h.acceptEnd
  kick s h := h.takeKick
  stop s _ := .takeStop s
  reset := CacheLaw.reset

/-- Settles O55: no command overfills a place, each keeps the cache and its DESC_READ, and none
overfills the Record Queue. -/
theorem everyStepKeepsTheQueuesWithinTheirPlaces :
    Obligations.EveryStepKeepsTheQueuesWithinTheirPlaces :=
  ⟨fun s t law he => (step_fits s t he).1 law, kept_cacheLaw.step, tended_epochLaw.kept.step⟩

end Sys2Proof.Machine

/-! ### PREFETCH and COPY_OUT_START (R75, R77, R83, R133, R135; log 27) -/

namespace Sys2Proof.Machine

theorem State.running_of_engines {s : State}
    (running : s.epoch.dev = .tracking ∨ s.epoch.dev = .finishing) : s.running = true := by
  simpa [State.running] using running

theorem CopyOut.holdsIndex_eq_false {c : CopyOut} {i : Nat} (cache : ∀ b ∈ c.cache, b.firIndex ≠ i)
    (places : ∀ p ∈ c.places, p.image.firIndex ≠ i) : c.holdsIndex i = false := by
  rw [← Bool.not_eq_true, CopyOut.holdsIndex_iff]
  rintro (⟨b, hb, same⟩ | ⟨p, hp, same⟩)
  · exact cache b hb same
  · exact places p hp same

theorem exec_prefetch_of_due (s : State) (hd : s.duePrefetch = true) :
    exec .prefetch s = .next s.queueDescRead := by
  simp only [exec, execPrefetch]
  rw [if_pos hd]

theorem State.queueDescRead_of_ring {s : State} {ring : Ring} (h : s.copyOut.fir = some ring) :
    s.queueDescRead =
      s.queueB .descRead (lineOf (ring.element 16 s.copyOut.prefetchIndex)) .read := by
  unfold State.queueDescRead
  rw [h]

theorem State.dueCopyOut_eq_some {s : State} {e : Entry} {buffer : Nat} {image : ImageBuf}
    {entries : List Nat} {images : List ImageBuf}
    (running : s.epoch.dev = .tracking ∨ s.epoch.dev = .finishing)
    (room : s.copyOut.places.length < 4) (head : s.copyOut.imaged = e.slot :: entries)
    (cached : s.copyOut.cache = image :: images) (found : s.entryAt e.slot = some e)
    (imaged : e.state = .imaged) (held : e.poolBuf = some buffer) :
    s.dueCopyOut = some (e, buffer, image) := by
  unfold State.dueCopyOut
  rw [if_pos ⟨State.running_of_engines running, room⟩, head, cached]
  dsimp only
  rw [found]
  dsimp only
  rw [imaged, held]

theorem exec_copyOutStart_of_due (s : State) {e : Entry} {buffer : Nat} {image : ImageBuf}
    (hd : s.dueCopyOut = some (e, buffer, image)) :
    exec .copyOutStart s = .next (s.startCopyOut e buffer image) := by
  simp only [exec, execCopyOutStart, hd]

/-- The IMAGE_WRITEs of the first `n` lines join class B in line order, each in the next place of
arrival order (R83, R135). -/
theorem State.queueImageWrites_eq (s : State) (slot buffer : Nat) (image : ImageBuf) (n : Nat) :
    (List.range n).foldl (fun s line => s.queueImageWrite slot buffer image line) s = { s with
      mem.classB := s.mem.classB ++ (List.range n).map fun line =>
        { role := .imageWrite slot
          addr := image.addr + BitVec.ofNat 40 (64 * line)
          op := .write (BitVec.allOnes 64) (poolRead s.pool (4 * buffer + line))
          key := 2 * (s.mem.nextPlace + line) + 1 }
      mem.nextPlace := s.mem.nextPlace + n } := by
  induction n with
  | zero => simp
  | succ n ih =>
    rw [List.range_succ, List.foldl_append, ih, List.map_append, ← List.append_assoc]
    rfl

/-- Settles O39: by the step that is due, and the four IMAGE_WRITEs of a copy-out. -/
theorem copyOutReadsDescriptorsAndWritesImages :
    Obligations.CopyOutReadsDescriptorsAndWritesImages := by
  refine ⟨?_, ?_⟩
  · intro s ring running room unasked wait cache places hring
    have free := CopyOut.holdsIndex_eq_false cache places
    have due : s.duePrefetch = true := by
      simp [State.duePrefetch, State.running_of_engines running, room, Config.cachePlaces, unasked,
        wait, free, hring]
    rw [exec_prefetch_of_due s due, State.queueDescRead_of_ring hring]
    rfl
  · intro s e buffer image entries images running room head cached found imaged held write
    rw [exec_copyOutStart_of_due s
      (State.dueCopyOut_eq_some running room head cached found imaged held)]
    unfold State.startCopyOut
    rw [head, cached]
    exact congrArg _ (State.queueImageWrites_eq _ e.slot buffer image 4)

end Sys2Proof.Machine

/-! ### IMAGE_WRITE_DONE and DESC_WRITE_DONE (R84, R85, R125, R170; log 26) -/

namespace Sys2Proof.Machine

theorem exec_imageWriteDone_of_awaits (s : State) (tag slot key : Nat) (addr : Addr) (op : Op)
    (h : s.awaits tag { role := .imageWrite slot, addr, op, key }) :
    exec (.imageWriteDone tag) s = .next ((s.endOwn tag).imageLine slot).handOver := by
  simp only [exec, execImageWriteDone]
  rw [State.ownAnswer_of_awaits s tag _ _ _ h rfl]

theorem exec_descWriteDone_of_awaits (s : State) (tag slot key : Nat) (addr : Addr) (op : Op)
    (h : s.awaits tag { role := .descWrite slot, addr, op, key }) :
    exec (.descWriteDone tag) s = .next ((s.endOwn tag).completeDesc slot) := by
  simp only [exec, execDescWriteDone]
  rw [State.ownAnswer_of_awaits s tag _ _ _ h rfl]

/-- The state with one more line of the slot's image done (R84). -/
def State.lineDone (s : State) (slot : Nat) : State :=
  { s with
    copyOut.places := s.copyOut.places.map fun q =>
      if q.slot = slot then { q with linesDone := q.linesDone + 1 } else q }

/-- A line done is counted, and the fourth of a COPYING entry completes the image (R84). -/
theorem State.imageLine_eq {s : State} {slot : Nat} {p : CopyOutPlace} {e : Entry}
    (place : s.copyOut.places.find? (·.slot == slot) = some p) (found : s.entryAt slot = some e) :
    (p.linesDone + 1 < 4 → s.imageLine slot = s.lineDone slot) ∧
    (p.linesDone = 3 → e.state = .copying →
      s.imageLine slot = (s.lineDone slot).completeImage e p) := by
  unfold State.imageLine
  rw [place, found]
  refine ⟨fun before => ?_, fun last copying => ?_⟩
  · exact if_neg fun h => by omega
  · exact if_pos ⟨by omega, copying⟩

/-- The image's completion frees the buffer and queues the DESC_WRITE (R84). -/
theorem State.completeImage_of_ring {s : State} {ring : Ring} (e : Entry) (p : CopyOutPlace)
    (h : s.copyOut.fir = some ring) :
    s.completeImage e p =
      let desc := ring.element 16 p.image.firIndex
      (s.modifyEntry e.slot fun x =>
        { x with state := .filing, poolBuf := none, imageBuf := some p.image }).queueB
          (.descWrite e.slot) (lineOf desc) (descWrite desc e p.image) := by
  unfold State.completeImage
  rw [h]

/-- An image is counted for its epoch, the draining one or the current one (R85, R125, R170). -/
theorem State.countImage_eq (s : State) (e : Entry) : s.countImage e = { s with
    alert.imagesWritten := s.alert.imagesWritten + 1
    epoch.imagesDraining :=
      if s.isDraining e then s.epoch.imagesDraining + 1 else s.epoch.imagesDraining
    epoch.imagesCurrent :=
      if s.isDraining e then s.epoch.imagesCurrent else s.epoch.imagesCurrent + 1 } := by
  have same : State.isDraining { s with alert.imagesWritten := s.alert.imagesWritten + 1 } e =
    s.isDraining e := rfl
  unfold State.countImage
  dsimp only
  rw [same]
  split_ifs <;> rfl

theorem State.completeDesc_of_filing {s : State} {slot : Nat} {e : Entry}
    (found : s.entryAt slot = some e) (filing : e.state = .filing) :
    s.completeDesc slot =
      { (s.modifyEntry slot fun x => { x with state := .logged }).countImage e with
        copyOut.places := s.copyOut.places.filter (·.slot != slot) } := by
  unfold State.completeDesc
  rw [found]
  exact if_pos filing

/-- Settles O44: by the line count before and at the fourth line, and the epoch of the image. -/
theorem imageAndDescriptorWritesFileTheEntry :
    Obligations.ImageAndDescriptorWritesFileTheEntry := by
  refine ⟨?_, ?_⟩
  · intro s tag slot key addr op p e h place found s'
    obtain ⟨counts, completes⟩ := State.imageLine_eq (s := s.endOwn tag) place found
    rw [exec_imageWriteDone_of_awaits s tag slot key addr op h]
    refine ⟨fun before => ?_, fun ring last copying hring => ?_⟩
    · rw [counts before]
      rfl
    · obtain ⟨_, rfl⟩ := State.entryAt_mem found
      rw [completes last copying,
        State.completeImage_of_ring (s := (s.endOwn tag).lineDone e.slot) e p hring]
      rfl
  · intro s tag slot key addr op e h found filing drains
    have drained : s.isDraining e = true ↔ drains := s.isDraining_iff e
    refine ⟨_, exec_descWriteDone_of_awaits s tag slot key addr op h, ?_⟩
    rw [State.completeDesc_of_filing (s := s.endOwn tag) found filing, State.countImage_eq]
    refine ⟨fun hd => ?_, fun hd => ?_, rfl⟩
    · have hd : s.isDraining e = true := drained.2 hd
      exact ⟨if_pos hd, if_pos hd⟩
    · have hd : ¬s.isDraining e = true := fun h => hd (drained.1 h)
      exact ⟨if_neg hd, if_neg hd⟩

end Sys2Proof.Machine

/-! ### DESC_READ_DATA and SLOT_READ_DATA (R77, R78, R99, R101, R173; log 26) -/

namespace Sys2Proof.Machine

/-- The owner code is the low two bits of word 0, and code 1 alone is the part's (R173). -/
theorem ownedByPart_iff (word0 : Word) : ownedByPart word0 = true ↔ word0.toNat % 4 = 1 := by
  unfold ownedByPart
  rw [beq_iff_eq, ← BitVec.toNat_inj]
  simp

theorem exec_descReadData_of_awaits (s : State) (tag key : Nat) (addr : Addr) (op : Op)
    (data : Line) (h : s.awaits tag { role := .descRead, addr, op, key }) :
    exec (.descReadData tag data) s = .next ((s.endOwn tag).takeDescriptor data) := by
  simp only [exec, execDescReadData]
  rw [State.ownAnswer_of_awaits s tag _ _ _ h rfl]

theorem exec_slotReadData_of_awaits (s : State) (tag key : Nat) (addr : Addr) (op : Op)
    (data : Line) (h : s.awaits tag { role := .slotRead, addr, op, key }) :
    exec (.slotReadData tag data) s = .next ((s.endOwn tag).takeSlot data) := by
  simp only [exec, execSlotReadData]
  rw [State.ownAnswer_of_awaits s tag _ _ _ h rfl]

/-- A flag that is raised only when a wait begins leaves everything else as it was. -/
theorem State.ite_raise_eq (s : State) (waits : Bool) (f : EventFlag) :
    (if waits then s else s.raise f) = { s with
      alert.flags := if waits then s.alert.flags else s.alert.flags ||| f.bit } := by
  cases waits <;> rfl

/-- The part's descriptor joins the cache and ends the wait; another's begins the wait or goes on
with it (R77, R78). -/
theorem State.takeDescriptor_of_ring {s : State} {ring : Ring} (h : s.copyOut.fir = some ring)
    (data : Line) :
    let q := quadAt data (ring.element 16 s.copyOut.prefetchIndex)
    (ownedByPart q.w0 = true → s.takeDescriptor data = { s.endFirWait with
      copyOut.cache := s.copyOut.cache ++ [descImage s.copyOut.prefetchIndex q]
      copyOut.prefetchIndex := ring.next s.copyOut.prefetchIndex }) ∧
    (¬ownedByPart q.w0 = true → s.takeDescriptor data = { s with
      alert.flags :=
        if s.copyOut.wait then s.alert.flags else s.alert.flags ||| EventFlag.bit .iringWait
      copyOut.wait := true
      copyOut.timer := some 0 }) := by
  intro q
  unfold State.takeDescriptor
  rw [h]
  refine ⟨fun owned => if_pos owned, fun other => (if_neg other).trans ?_⟩
  rw [State.ite_raise_eq]

/-- With a ring and a head record, a SLOT_WRITE of it is queued to its slot (R100). -/
theorem State.queueSlotWrite_of_head {s : State} {ring : Ring} {r : Record} {rs : List Record}
    (hring : s.journal.ring = some ring) (head : s.journal.queue = r :: rs)
    (op : Addr → Record → Op) :
    s.queueSlotWrite op =
      let slot := ring.element 32 s.journal.index
      s.queueB .slotWrite (lineOf slot) (op slot r) := by
  unfold State.queueSlotWrite
  rw [hring, head]

/-- The part's slot lets the body go out and ends the wait; another's begins the wait or goes on
with it (R99, R101). -/
theorem State.takeSlot_of_ring {s : State} {ring : Ring} (h : s.journal.ring = some ring)
    (data : Line) :
    let q := quadAt data (ring.element 32 s.journal.index)
    (ownedByPart q.w0 = true → s.takeSlot data =
      { s.endRingWait.queueSlotWrite bodyWrite with journal.writer := .body }) ∧
    (¬ownedByPart q.w0 = true → s.takeSlot data = { s with
      alert.flags :=
        if s.journal.wait then s.alert.flags else s.alert.flags ||| EventFlag.bit .jringWait
      journal.wait := true
      journal.timer := some 0
      journal.writer := .waiting }) := by
  intro q
  unfold State.takeSlot
  rw [h]
  refine ⟨fun owned => if_pos owned, fun other => (if_neg other).trans ?_⟩
  rw [State.ite_raise_eq]

/-- Settles O45: by the owner code that the element at the ring's index carries. -/
theorem ownersReadFromTheRingsDecideTheWaits :
    Obligations.OwnersReadFromTheRingsDecideTheWaits := by
  refine ⟨?_, ?_⟩
  · intro s tag key addr op data ring h hring q
    obtain ⟨joins, waits⟩ := State.takeDescriptor_of_ring (s := s.endOwn tag) hring data
    rw [exec_descReadData_of_awaits s tag key addr op data h, ← ownedByPart_iff]
    refine ⟨fun owned => ?_, fun other => ?_⟩
    · rw [joins owned]
      rfl
    · rw [waits (mt (ownedByPart_iff _).1 other)]
      rfl
  · intro s tag key addr op data ring r rs h hring head slot q
    obtain ⟨writes, waits⟩ := State.takeSlot_of_ring (s := s.endOwn tag) hring data
    rw [exec_slotReadData_of_awaits s tag key addr op data h, ← ownedByPart_iff]
    refine ⟨fun owned => ?_, fun other => ?_⟩
    · rw [writes owned,
        State.queueSlotWrite_of_head (s := (s.endOwn tag).endRingWait) hring head bodyWrite]
      rfl
    · rw [waits (mt (ownedByPart_iff _).1 other)]
      rfl

end Sys2Proof.Machine

/-! ### SLOT_WRITE_DONE (R80, R100, R123, R134, R142, R170; log 16, log 26) -/

namespace Sys2Proof.Machine

theorem exec_slotWriteDone_of_awaits (s : State) (tag key : Nat) (addr : Addr) (op : Op)
    (h : s.awaits tag { role := .slotWrite, addr, op, key }) :
    exec (.slotWriteDone tag) s = .next (s.endOwn tag).slotWritten := by
  simp only [exec, execSlotWriteDone]
  rw [State.ownAnswer_of_awaits s tag _ _ _ h rfl]

/-- What follows a SLOT_WRITE done, by the writer's state (R100). -/
theorem State.slotWritten_eq (s : State) :
    (s.journal.writer = .body →
      s.slotWritten = { s.queueSlotWrite headerWrite with journal.writer := .header }) ∧
    (s.journal.writer = .header → s.slotWritten = s.recordWritten) := by
  unfold State.slotWritten
  cases s.journal.writer <;> simp

theorem Record.isClosing_iff (r : Record) :
    r.isClosing = true ↔ ∃ sum n m, r = .closing sum n m := by
  cases r <;> simp [Record.isClosing]

theorem OwnRole.kind_eq_descRead_iff (role : OwnRole) :
    role.kind = .descRead ↔ role = .descRead := by
  cases role <;> simp [OwnRole.kind]

/-- Only DESC_READs are discarded or abandoned (R80, R134, R142). -/
theorem State.abandonDescRead_eq (s : State) : s.abandonDescRead = { s with
    mem.classB := s.mem.classB.filter fun x => decide (x.role ≠ .descRead)
    mem.issuedOwn := s.mem.issuedOwn.map fun i =>
      if i.req.role = .descRead then { i with abandoned := true } else i } := by
  unfold State.abandonDescRead
  simp only [ne_eq, OwnRole.kind_eq_descRead_iff]

/-- The state with the head record written, before a drain completes with it (R100, R170). -/
def State.headWritten (s : State) (ring : Ring) (rs : List Record) : State :=
  { s with
    journal.queue := rs
    journal.index := ring.next s.journal.index
    journal.writer := .standby
    alert.recordsWritten := s.alert.recordsWritten + 1 }

/-- The draining epoch's CLOSE record ends the drain, and no other record does (R100, R123). -/
theorem State.recordWritten_of_head {s : State} {ring : Ring} {r : Record} {rs : List Record}
    (hring : s.journal.ring = some ring) (head : s.journal.queue = r :: rs) :
    let closes := s.epoch.draining = true ∧ ∃ sum n m, r = .closing sum n m
    (¬closes → s.recordWritten = s.headWritten ring rs) ∧
    (closes → s.recordWritten = (s.headWritten ring rs).completeDrain) := by
  intro closes
  have ends : (r.isClosing = true ∧ s.epoch.draining = true) ↔ closes := by
    rw [Record.isClosing_iff]
    exact and_comm
  unfold State.recordWritten
  rw [hring, head]
  exact ⟨fun other => if_neg (mt ends.1 other), fun done => if_pos (ends.2 done)⟩

/-- The state with the drain ended, before FINISHING gives way to READY (R123). -/
def State.drainEnded (s : State) : State :=
  { s with
    alert.flags := s.alert.flags ||| 0x004
    epoch.draining := false
    epoch.summary := none
    epoch.imagesDraining := 0
    retire.closeBuilt := false
    cmd.busy := false }

/-- A drain's completion, in FINISHING and outside it (R80, R123). -/
theorem State.completeDrain_eq (s : State) :
    (s.epoch.dev ≠ .finishing → s.completeDrain = s.drainEnded) ∧
    (s.epoch.dev = .finishing →
      s.completeDrain = { s.drainEnded.endFirWait.abandonDescRead with epoch.dev := .ready }) :=
  ⟨fun other => if_neg other, fun finishing => if_pos finishing⟩

/-- Settles O46: by the writer's state, the kind of the head record and the device state. -/
theorem theHeaderFollowsTheBodyAndEndsTheRecord :
    Obligations.TheHeaderFollowsTheBodyAndEndsTheRecord := by
  intro s tag key addr op ring r rs h hring head slot written drained closes
  obtain ⟨body, header⟩ := (s.endOwn tag).slotWritten_eq
  obtain ⟨goesOn, ends⟩ := State.recordWritten_of_head (s := s.endOwn tag) hring head
  obtain ⟨tracks, finishes⟩ := ((s.endOwn tag).headWritten ring rs).completeDrain_eq
  rw [exec_slotWriteDone_of_awaits s tag key addr op h]
  refine ⟨fun hw => ?_, fun hw other => ?_, fun hw last dev => ?_, fun hw last dev => ?_⟩
  · rw [body hw, State.queueSlotWrite_of_head (s := s.endOwn tag) hring head headerWrite]
    rfl
  · rw [header hw, goesOn other]
    rfl
  · rw [header hw, ends last, tracks dev]
    rfl
  · rw [header hw, ends last, finishes dev, State.abandonDescRead_eq]
    rfl

end Sys2Proof.Machine

/-! ### The Retire List's law (R32, R90) -/

namespace Sys2Proof.Machine

/-- An entry changes, but neither its slot nor its cause. -/
theorem RetireLaw.modifyEntry {s : State} (h : RetireLaw s) (slot : Nat) (f : Entry → Entry)
    (keepsSlot : ∀ x, (f x).slot = x.slot) (keepsCause : ∀ x, (f x).cause = x.cause) :
    RetireLaw (s.modifyEntry slot f) := by
  refine h.map (fun x => if x.slot = slot then f x else x) rfl rfl (fun x => ?_) fun x _ => ?_
  · split_ifs
    exacts [keepsSlot x, rfl]
  · split_ifs
    exacts [congrArg Option.isSome (keepsCause x), rfl]

theorem RetireLaw.of_empty {s : State} (table : s.table = []) (list : s.retire.list = []) :
    RetireLaw s := by
  unfold RetireLaw
  rw [table, list]
  simp

theorem RetireLaw.route {s : State} (h : RetireLaw s) (r : Request) (x : Hold) :
    RetireLaw (s.route r x) := by
  rw [State.route_eq]
  exact h.of_eq rfl rfl

theorem RetireLaw.arriveWrite {s : State} (h : RetireLaw s) (law : TableLaw s) (r : Request) :
    RetireLaw (s.arriveWrite r) := by
  unfold State.arriveWrite
  dsimp only
  split_ifs
  · exact h
  · exact (h.classifyWrite law _ _ _ _).route _ _

theorem RetireLaw.completeCapture {s : State} (h : RetireLaw s) (law : TableLaw s) {e : Entry}
    (he : s.entryAt e.slot = some e) (hs : e.state = .capturing) :
    RetireLaw (s.completeCapture e) := by
  have imaged : RetireLaw (s.slotImaged e.slot) :=
    (h.modifyEntry e.slot (fun x => { x with state := .imaged, linesIn := 4 })
      (fun _ => rfl) fun _ => rfl).of_eq rfl rfl
  rw [State.completeCapture_eq]
  exact (imaged.releaseWalk _ _ _ _ _ (law.slotImaged he hs)).of_eq rfl rfl

/-- The retired entry leaves the list, and the entry its slot is granted to has no cause (R25,
R92). -/
theorem RetireLaw.retireEntry {s : State} (h : RetireLaw s) (e : Entry) :
    RetireLaw (s.retireEntry e) := by
  have advanced : RetireLaw ((s.joinRecords (.block (s.nextSeq e) e)).advanceSeq e) := by
    unfold State.advanceSeq
    split_ifs <;> exact h
  exact (advanced.removeEntries [e.slot]).grantEntry e.slot

/-- The protected PENDING entries that an overflow frees leave the list with the table (R38,
R62). -/
theorem RetireLaw.overflowEpoch {s : State} (h : RetireLaw s) : RetireLaw s.overflowEpoch :=
  h.filter (fun n => !s.buffered n)
    (by rw [State.overflowEpoch_eq]) (by rw [State.overflowEpoch_eq])

theorem RetireLaw.reclassifyWaiters {s : State} (h : RetireLaw s) (law : TableLaw s) :
    RetireLaw s.reclassifyWaiters :=
  ((h.removeEntries _).reclassify s.hold [] (law.removeEntries _)).of_eq rfl rfl

/-- The cut of either CLOSE gives every current entry cause CLOSE, puts those without a cause on the
list, and takes the freed PENDING entries off both (R36, R38, R90). -/
theorem RetireLaw.of_cut {s t : State} (h : RetireLaw s) (law : TableLaw s)
    (dev : s.epoch.dev = .tracking)
    (table : t.table = s.closedTable.filter fun e => !s.buffered e.slot)
    (list : t.retire.list = s.closedList.filter fun n => !s.buffered n) : RetireLaw t := by
  have closed := h.closeEntries law
  rw [State.closeEntries_eq s dev] at closed
  exact closed.filter (fun n => !s.buffered n) table list

theorem RetireLaw.switchWalked {s : State} (h : RetireLaw s) (law : TableLaw s)
    (dev : s.epoch.dev = .tracking) : RetireLaw s.switchWalked := by
  have opened : RetireLaw s.switchOpened := h.of_cut law dev rfl rfl
  obtain ⟨openedLaw, _⟩ := s.switchOpened_table dev law
  exact (opened.reclassify s.hold [] openedLaw).of_eq rfl rfl

/-- The Retire List holds the entries that carry a cause, over a lawful table. -/
def ListedLaw (s : State) : Prop := TableLaw s ∧ RetireLaw s

theorem tended_listedLaw : Tended ListedLaw where
  same h view :=
    ⟨tended_tableLaw.same h.1 view,
      h.2.of_eq (congrArg TableView.table view) (congrArg TableView.list view)⟩
  routes s r h := ⟨tended_tableLaw.routes s r h.1, h.2.route r _⟩
  arrives s r h := ⟨tended_tableLaw.arrives s r h.1, h.2.arriveWrite h.1 r⟩
  leaves s room h := h
  grants s g e n h due := ⟨tended_tableLaw.grants s g e n h.1 due, h.2.grantBuffer g e n⟩
  counts s e h he hs :=
    ⟨tended_tableLaw.counts s e h.1 he hs, h.2.modifyEntry _ _ (fun _ => rfl) fun _ => rfl⟩
  captures s e h he hs := ⟨tended_tableLaw.captures s e h.1 he hs, h.2.completeCapture h.1 he hs⟩
  copies s e h he hs :=
    ⟨tended_tableLaw.copies s e h.1 he hs, h.2.modifyEntry _ _ (fun _ => rfl) fun _ => rfl⟩
  files s e image h he hs :=
    ⟨tended_tableLaw.files s e image h.1 he hs, h.2.modifyEntry _ _ (fun _ => rfl) fun _ => rfl⟩
  logs s e h he hs :=
    ⟨tended_tableLaw.logs s e h.1 he hs, h.2.modifyEntry _ _ (fun _ => rfl) fun _ => rfl⟩
  writes s r rest h _ _ := h
  drains s r rest h _ _ _ := h
  loads s h _ := h
  loaded s d h _ _ := h
  halts s h _ := h
  overflows s h := ⟨tended_tableLaw.overflows s h.1, h.2.overflowEpoch⟩
  ages s e h he candidate := by
    have uncaused : e.cause = none := by
      simp only [State.victimCandidate, Bool.and_eq_true, Option.isNone_iff_eq_none] at candidate
      obtain ⟨_, uncaused⟩ := candidate
      exact uncaused
    exact ⟨tended_tableLaw.ages s e h.1 he candidate, h.2.giveCause h.1 e .age he uncaused⟩
  retires s e h due := ⟨tended_tableLaw.retires s e h.1 due, h.2.retireEntry e⟩
  closes s sum h _ := h
  opens s h dev busy := by
    obtain ⟨law, listed⟩ := h
    have opened : RetireLaw s.opened := listed.of_eq rfl rfl
    exact ⟨tended_tableLaw.opens s law dev busy,
      (opened.reclassifyWaiters (law.of_table rfl)).grantBuffers⟩
  switches s longest h dev busy :=
    ⟨tended_tableLaw.switches s longest h.1 dev busy,
      (h.2.switchWalked h.1 dev).grantBuffers.of_eq rfl rfl⟩
  ends s h dev busy := ⟨tended_tableLaw.ends s h.1 dev busy, h.2.of_cut h.1 dev rfl rfl⟩
  stops s _ := ⟨TableLaw.of_empty rfl, RetireLaw.of_empty rfl rfl⟩
  reset := ⟨tended_tableLaw.reset, RetireLaw.reset⟩

/-- Settles O54. -/
theorem everyStepKeepsTheRetireListLaw : Obligations.EveryStepKeepsTheRetireListLaw := by
  intro s t law listed stepped
  obtain ⟨_, kept⟩ := tended_listedLaw.kept.step s t ⟨law, listed⟩ stepped
  exact kept

end Sys2Proof.Machine

/-! ### CLOSE_RECORD_BUILD and JOURNAL_SLOT_READ_START (R97, R99, R124, R133, R135) -/

namespace Sys2Proof.Machine

/-- The CLOSE record is due with the closing summary once no entry of its epoch is left (R97,
R124). -/
theorem State.dueClose_of_drained {s : State} {sum : Summary} (running : s.running = true)
    (draining : s.epoch.draining = true) (summary : s.epoch.summary = some sum)
    (unbuilt : s.retire.closeBuilt = false) (room : s.journal.queue.length < Config.recordLimit)
    (gone : ∀ e ∈ s.table, e.epoch ≠ sum.epoch) : s.dueClose = some sum := by
  have last : s.table.all (fun e => !s.isDraining e) = true := by
    refine List.all_eq_true.2 fun e he => ?_
    rw [Bool.not_eq_true', ← Bool.not_eq_true, State.isDraining_iff]
    rintro ⟨_, m, hm, number⟩
    obtain rfl : m = sum := Option.some.inj (hm.symm.trans summary)
    exact gone e he number.symm
  unfold State.dueClose
  rw [if_pos ⟨running, draining, unbuilt, room, last⟩, summary]

theorem exec_closeRecordBuild_of_due {s : State} {sum : Summary} (h : s.dueClose = some sum) :
    exec .closeRecordBuild s = .next
      { s.joinRecords (.closing sum s.retire.drainingCounter s.epoch.imagesDraining) with
        retire.closeBuilt := true } := by
  simp only [exec, execCloseRecordBuild, h]

/-- A writer in STANDBY with a queued record and a ring is due to read a slot (R99). -/
theorem State.dueSlotRead_of_standby {s : State} (running : s.running = true)
    (standby : s.journal.writer = .standby) (queued : s.journal.queue ≠ [])
    {ring : Ring} (hring : s.journal.ring = some ring) : s.dueSlotRead = true := by
  simp [State.dueSlotRead, running, standby, queued, hring]

theorem exec_journalSlotReadStart_of_due {s : State} (h : s.dueSlotRead = true) :
    exec .journalSlotReadStart s =
      .next { s.queueSlotRead with journal.writer := .reading } := by
  simp only [exec, execJournalSlotReadStart]
  rw [if_pos h]

/-- With a ring, a SLOT_READ of the slot at the Journal index joins class B (R99, R133). -/
theorem State.queueSlotRead_of_ring {s : State} {ring : Ring} (h : s.journal.ring = some ring) :
    s.queueSlotRead = s.queueB .slotRead (lineOf (ring.element 32 s.journal.index)) .read := by
  unfold State.queueSlotRead
  rw [h]

/-- Settles O41. -/
theorem theCloseRecordIsBuiltAndTheHeadRecordsSlotIsRead :
    Obligations.TheCloseRecordIsBuiltAndTheHeadRecordsSlotIsRead := by
  constructor
  · intro s sum dev draining summary unbuilt gone room
    have due := State.dueClose_of_drained (State.running_of_engines dev) draining summary unbuilt
      room gone
    exact exec_closeRecordBuild_of_due due
  · intro s ring dev standby queued hring
    have due := State.dueSlotRead_of_standby (State.running_of_engines dev) standby queued hring
    rw [exec_journalSlotReadStart_of_due due, State.queueSlotRead_of_ring hring]
    rfl

end Sys2Proof.Machine

/-! ### The own requests by their roles (R133, R134, R136, R142; log 27) -/

namespace Sys2Proof.Machine

/-- The roles of the own requests that are queued or awaited. -/
def State.roles (s : State) : Multiset OwnRole := ↑(s.live.map (·.role))

theorem State.mem_roles (s : State) (role : OwnRole) :
    role ∈ s.roles ↔ ∃ r ∈ s.live, r.role = role := by
  simp [State.roles]

/-- How many requests have a role of a kind, and how many roles are of that kind. -/
theorem State.liveCount_eq_countP (s : State) (p : OwnRole → Bool) (q : OwnRole → Prop)
    [DecidablePred q] (h : ∀ role, p role = true ↔ q role) : s.liveCount p = s.roles.countP q := by
  rw [State.roles, Multiset.coe_countP, List.countP_map]
  refine List.countP_congr fun r _ => ?_
  simp [h]

theorem State.count_roles (s : State) (role : OwnRole) :
    s.roles.count role = s.liveCount (role == ·) :=
  (s.liveCount_eq_countP _ _ fun _ => beq_iff_eq).symm

/-- A request that joins class B adds its role. -/
theorem State.roles_queueB (s : State) (role : OwnRole) (addr : Addr) (op : Op) :
    (s.queueB role addr op).roles = role ::ₘ s.roles := by
  ext x
  rw [Multiset.count_cons, State.count_roles, State.count_roles, State.liveCount_queueB]
  simp only [beq_iff_eq]

/-- The answer to an awaited request takes its role off. -/
theorem State.roles_of_awaited {s : State} {tag : Nat} {i : IssuedOwn}
    (found : s.findOwn tag = some i) (awaited : i.abandoned = false) :
    s.roles = i.req.role ::ₘ (s.endOwn tag).roles := by
  ext x
  rw [Multiset.count_cons, State.count_roles, State.count_roles, ← State.liveCount_endOwn found]
  simp only [awaited, Bool.not_false, Bool.and_true, beq_iff_eq]

theorem State.roles_endOwn_le (s : State) (tag : Nat) : (s.endOwn tag).roles ≤ s.roles := by
  rw [Multiset.le_iff_count]
  intro x
  rw [State.count_roles, State.count_roles]
  exact s.liveCount_endOwn_le tag _

theorem State.roles_dropOwn (s : State) : s.dropOwn.roles = 0 := by
  ext x
  rw [State.count_roles, State.liveCount_dropOwn, Multiset.count_zero]

/-- A grant adds the roles of the four lines' reads (R56). -/
theorem State.roles_grantBuffer (s : State) (h : HeldReq) (e : Entry) (n : Nat) :
    (s.grantBuffer h e n).roles = .captureRead e.slot n 0 ::ₘ .captureRead e.slot n 1 ::ₘ
      .captureRead e.slot n 2 ::ₘ .captureRead e.slot n 3 ::ₘ s.roles := by
  have live : (s.grantBuffer h e n).live.Perm (captureReads e n h.req ++ s.live) := by
    show (s.mem.classC ++ captureReads e n h.req ++ s.mem.classB ++ _).Perm
      (captureReads e n h.req ++ (s.mem.classC ++ s.mem.classB ++ _))
    simp only [← List.append_assoc]
    exact (List.perm_append_comm.append_right _).append_right _
  exact Multiset.coe_eq_coe.2 (live.map _)

end Sys2Proof.Machine

/-! ### What own requests look at in the table (R17, R18, R134) -/

namespace Sys2Proof.Machine

/-- The states of an entry for which own requests may be under way. -/
def EntryState.atWork : EntryState → Bool
  | .capturing | .copying | .filing => true
  | .pending | .imaged | .logged => false

/-- What the laws of own requests look at in an entry. -/
def Entry.task (e : Entry) : Nat × EntryState × Nat := (e.slot, e.state, e.linesIn)

/-- A BUFFER waiter may stand for the entry: no own request has been made for it yet, or none
will be again. -/
def Entry.unworked (e : Entry) : Prop := e.state = .pending ∨ e.state = .logged

theorem Entry.unworked.not_atWork {e : Entry} (h : e.unworked) : e.state.atWork = false := by
  rcases h with h | h <;> rw [h] <;> rfl

/-- The two tables have the same entries at work. -/
def SameWork (old new : List Entry) : Prop :=
  ∀ k : Nat × EntryState × Nat, k.2.1.atWork = true →
    (k ∈ new.map Entry.task ↔ k ∈ old.map Entry.task)

theorem SameWork.refl (table : List Entry) : SameWork table table := fun _ _ => Iff.rfl

theorem SameWork.trans {a b c : List Entry} (h : SameWork a b) (h' : SameWork b c) : SameWork a c :=
  fun k hk => (h' k hk).trans (h k hk)

theorem SameWork.of_tasks {old new : List Entry}
    (h : new.map Entry.task = old.map Entry.task) : SameWork old new :=
  fun _ _ => by rw [h]

theorem SameWork.map (table : List Entry) {f : Entry → Entry}
    (h : ∀ e ∈ table, (f e).task = e.task) : SameWork table (table.map f) := by
  refine .of_tasks ?_
  rw [List.map_map]
  exact List.map_congr_left h

/-- An entry that is not at work joins. -/
theorem SameWork.append (table : List Entry) {e : Entry} (h : e.state.atWork = false) :
    SameWork table (table ++ [e]) := by
  intro k hk
  rw [List.map_append, List.mem_append, or_iff_left_iff_imp]
  intro hm
  obtain rfl := List.mem_singleton.1 hm
  rw [show e.task.2.1 = e.state from rfl, h] at hk
  cases hk

/-- Entries that are not at work leave. -/
theorem SameWork.filter (table : List Entry) {p : Entry → Bool}
    (h : ∀ e ∈ table, e.state.atWork = true → p e = true) : SameWork table (table.filter p) := by
  intro k hk
  constructor
  · exact fun hm => List.map_subset _ List.filter_sublist.subset hm
  · intro hm
    obtain ⟨e, he, rfl⟩ := List.mem_map.1 hm
    exact List.mem_map_of_mem (List.mem_filter.2 ⟨he, h e he hk⟩)

/-- An entry at work is in the one table with the same task as in the other. -/
theorem SameWork.forth {old new : List Entry} (h : SameWork old new) {e : Entry} (he : e ∈ old)
    (work : e.state.atWork = true) : ∃ x ∈ new, x.task = e.task :=
  List.mem_map.1 ((h e.task work).2 (List.mem_map_of_mem he))

theorem SameWork.back {old new : List Entry} (h : SameWork old new) {e : Entry} (he : e ∈ new)
    (work : e.state.atWork = true) : ∃ x ∈ old, x.task = e.task :=
  List.mem_map.1 ((h e.task work).1 (List.mem_map_of_mem he))

theorem Entry.task_eq_iff (x e : Entry) :
    x.task = e.task ↔ x.slot = e.slot ∧ x.state = e.state ∧ x.linesIn = e.linesIn := by
  simp [Entry.task]

/-- A classification leaves every entry's task as it was, or learns an entry in a free slot, whose
buffer alone its request may wait for. -/
theorem State.classifyWrite_tasks (s : State) (r : Request) (waiting ahead blocked : Bool) :
    let t := s.classifyWrite r waiting ahead blocked
    (t.1.table.map Entry.task = s.table.map Entry.task ∧ ∀ n, t.2 ≠ .buffer n) ∨
    ∃ e, t.1.table = s.table ++ [e] ∧ e.unworked ∧ (∀ x ∈ s.table, x.slot ≠ e.slot) ∧
      ∀ n, t.2 = .buffer n → n = e.slot := by
  intro t
  have tasks : ∀ (slot : Nat) (f : Entry → Entry), (∀ e, (f e).task = e.task) →
      (s.table.map fun e => if e.slot = slot then f e else e).map Entry.task =
        s.table.map Entry.task := fun slot f hf => by
    rw [List.map_map]
    refine List.map_congr_left fun e _ => ?_
    simp only [Function.comp]
    split_ifs
    exacts [hf e, rfl]
  have plain : ∀ n, plainHold blocked ≠ .buffer n := fun n => by
    cases blocked <;> simp [plainHold]
  have follows : ∀ c here n, (Disposition.follow here).hold c blocked ≠ .buffer n :=
    fun c here n => by cases blocked <;> simp [Disposition.hold]
  cases hv : s.classify r.addr r.initiator with
  | untracked =>
    have e : t = _ := s.classifyWrite_not_tracked r waiting ahead blocked (.inl hv)
    rw [e]
    exact .inl ⟨rfl, plain⟩
  | excluded =>
    have e : t = _ := s.classifyWrite_not_tracked r waiting ahead blocked (.inr hv)
    rw [e]
    exact .inl ⟨rfl, plain⟩
  | tracked c =>
    have e : t = _ := s.classifyWrite_tracked r waiting ahead blocked c hv
    rw [e]
    cases hl : s.lookup (blockOf r.addr) with
    | some x =>
      rw [State.tableTake_hit s _ c _ _ x hl]
      exact .inl ⟨tasks x.slot _ fun y => by rw [Entry.hit_eq]; rfl, follows c _⟩
    | none =>
      cases ho : s.epoch.overflow with
      | true =>
        rw [State.tableTake_overflowed s _ c _ _ hl ho]
        exact .inl ⟨rfl, follows c _⟩
      | false =>
        cases ahead with
        | true =>
          rw [State.tableTake_defers s _ c _ hl ho]
          exact .inl ⟨rfl, fun n hn => by cases hn⟩
        | false =>
          by_cases hw : waiting = true ∨ s.freeSlot = none
          · rw [State.tableTake_waits s _ c _ hl ho hw]
            refine .inl ⟨?_, fun n hn => by cases hn⟩
            show s.victimChoice.table.map Entry.task = _
            unfold State.victimChoice
            split
            · rfl
            · exact tasks _ _ fun _ => rfl
          · obtain ⟨hw, hf⟩ := not_or.1 hw
            obtain ⟨slot, hf⟩ := Option.ne_none_iff_exists'.1 hf
            obtain rfl := Bool.eq_false_of_not_eq_true hw
            rw [State.tableTake_learns s _ c slot hl ho hf]
            obtain ⟨_, free, _⟩ := (s.freeSlot_eq_some slot).1 hf
            refine .inr ⟨newEntry slot (blockOf r.addr) s.epoch.number c, rfl, ?_, free, ?_⟩
            · cases hm : c.mode <;> simp [Entry.unworked, newEntry, hm]
            · intro n hn
              cases hm : c.mode <;> rw [hm] at hn
              · exact absurd hn (follows c _ n)
              · cases hn
                rfl

theorem SameWork.classifyWrite {s t : State} (h : SameWork s.table t.table) (r : Request)
    (waiting ahead blocked : Bool) :
    SameWork s.table (t.classifyWrite r waiting ahead blocked).1.table := by
  obtain ⟨tasks, _⟩ | ⟨e, learns, unworked, _⟩ := t.classifyWrite_tasks r waiting ahead blocked
  · exact h.trans (.of_tasks tasks)
  · rw [learns]
    exact h.trans (.append _ unworked.not_atWork)

theorem SameWork.releaseWalk (s : State) (b : Block) (slot : Nat) (q done : List HeldReq)
    (blocked : Bool) : SameWork s.table (releaseWalk b slot q done blocked s).1.table :=
  releaseWalk_keeps (P := fun t => SameWork s.table t.table)
    (fun _ r w a b h => h.classifyWrite r w a b) b slot q done blocked s (.refl _)

theorem SameWork.reclassify (s : State) (q done : List HeldReq) :
    SameWork s.table (reclassify q done s).1.table :=
  reclassify_keeps (P := fun t => SameWork s.table t.table)
    (fun _ r w a b h => h.classifyWrite r w a b) q done s (.refl _)

theorem SameWork.arriveWrite (s : State) (r : Request) :
    SameWork s.table (s.arriveWrite r).table := by
  unfold State.arriveWrite
  dsimp only
  split_ifs
  · exact .refl _
  · rw [State.route_eq]
    exact (SameWork.refl s.table).classifyWrite _ _ _ _

/-- The entry that joins for an ENTRY waiter is not at work (R25). -/
theorem unworked_granted (b b' : Block) (q : List HeldReq) (slot : Nat) (n : Half)
    (c : Classification) : (applyDeferred b q (newEntry slot b' n c)).unworked ∧
      (applyDeferred b q (newEntry slot b' n c)).slot = slot := by
  have standing := standing_applyDeferred b q (newEntry slot b' n c)
  simp only [Entry.standing, Prod.mk.injEq] at standing
  obtain ⟨place, _, _, state⟩ := standing
  refine ⟨?_, place⟩
  unfold Entry.unworked
  rw [state]
  cases hm : c.mode <;> simp [newEntry, hm]

theorem SameWork.grantEntry (s : State) (slot : Nat) :
    SameWork s.table (s.grantEntry slot).table := by
  obtain same | ⟨h, c, _, same⟩ := s.grantEntry_table slot <;> rw [same]
  · exact .refl _
  · exact .append _ (unworked_granted _ _ _ _ _ _).1.not_atWork

theorem SameWork.retireEntry {s : State} (law : TableLaw s) {e : Entry} (he : e ∈ s.table)
    (logged : e.state = .logged) : SameWork s.table (s.retireEntry e).table := by
  rw [State.retireEntry_eq]
  refine SameWork.trans ?_ (SameWork.grantEntry (s.recorded e) e.slot)
  refine SameWork.filter _ fun x hx work => ?_
  rw [bne_iff_ne]
  intro same
  rw [law.eq_of_slot hx he same, logged] at work
  cases work

end Sys2Proof.Machine

/-! ### BUFFER waiters stand for no entry at work (R21, R25, R38, R55) -/

namespace Sys2Proof.Machine

/-- No entry that a BUFFER waiter of the queue stands for has been given own requests that are still
to come or under way. -/
def BuffersWait (table : List Entry) (q : List HeldReq) : Prop :=
  ∀ h ∈ q, ∀ n ∈ h.bufferSlot, ∀ e ∈ table, e.slot = n → e.unworked

/-- Every entry is as some entry was, or stands for nothing; and no request waits for more. -/
theorem BuffersWait.mono {table table' : List Entry} {q q' : List HeldReq}
    (h : BuffersWait table q)
    (entries : ∀ y ∈ table', y.unworked ∨ ∃ x ∈ table, x.task = y.task)
    (waits : ∀ g' ∈ q', ∀ n ∈ g'.bufferSlot, ∃ g ∈ q, n ∈ g.bufferSlot) :
    BuffersWait table' q' := by
  intro g' hg' n hn y hy slot
  obtain unworked | ⟨x, hx, task⟩ := entries y hy
  · exact unworked
  · obtain ⟨g, hg, hn⟩ := waits g' hg' n hn
    obtain ⟨place, state, _⟩ := (x.task_eq_iff y).1 task
    have unworked := h g hg n hn x hx (place.trans slot)
    unfold Entry.unworked at unworked ⊢
    rwa [← state]

theorem BuffersWait.of_entries {table table' : List Entry} {q : List HeldReq}
    (h : BuffersWait table q)
    (entries : ∀ y ∈ table', y.unworked ∨ ∃ x ∈ table, x.task = y.task) : BuffersWait table' q :=
  h.mono entries fun g hg _ hn => ⟨g, hg, hn⟩

theorem BuffersWait.of_tasks {table table' : List Entry} {q : List HeldReq}
    (h : BuffersWait table q) (tasks : table'.map Entry.task = table.map Entry.task) :
    BuffersWait table' q :=
  h.of_entries fun _ hy =>
    .inr (List.mem_map.1 (tasks ▸ List.mem_map_of_mem (f := Entry.task) hy))

theorem BuffersWait.filter {table : List Entry} {q : List HeldReq} (h : BuffersWait table q)
    (p : Entry → Bool) : BuffersWait (table.filter p) q :=
  h.of_entries fun y hy => .inr ⟨y, List.mem_of_mem_filter hy, rfl⟩

/-- Requests that wait for no more than before. -/
theorem BuffersWait.of_queue {table : List Entry} {q q' : List HeldReq} (h : BuffersWait table q)
    (waits : ∀ g' ∈ q', ∀ n ∈ g'.bufferSlot, ∃ g ∈ q, n ∈ g.bufferSlot) : BuffersWait table q' :=
  h.mono (fun y hy => .inr ⟨y, hy, rfl⟩) waits

theorem BuffersWait.eases {table : List Entry} {q q' : List HeldReq} (h : BuffersWait table q)
    (eased : List.Forall₂ Eases q q') : BuffersWait table q' :=
  h.of_queue fun _ hg n hn => by
    obtain ⟨g, hg, e⟩ := Eases.of_mem_right eased hg
    exact ⟨g, hg, e.buffer n hn⟩

theorem BuffersWait.of_no_waiter {table : List Entry} {q : List HeldReq}
    (h : ∀ g ∈ q, g.isWaiter = false) : BuffersWait table q := by
  intro g hg n hn
  rw [HeldReq.bufferSlot_of_not_waiter (h g hg)] at hn
  cases hn

/-- One request takes another hold in its place. -/
theorem BuffersWait.setHold {table : List Entry} {ahead behind : List HeldReq} {g : HeldReq}
    (h : BuffersWait table (ahead ++ g :: behind)) (x : Hold)
    (unworked : ∀ n, x = .buffer n → ∀ e ∈ table, e.slot = n → e.unworked) :
    BuffersWait table (ahead ++ g.setHold x :: behind) := by
  intro g' hg' n hn
  rcases List.mem_append.1 hg' with hm | hm
  · exact h g' (List.mem_append_left _ hm) n hn
  · rcases List.mem_cons.1 hm with rfl | hm
    · exact unworked n ((bufferSlot_eq_some _ n).1 hn)
    · exact h g' (List.mem_append_right _ (List.mem_cons_of_mem _ hm)) n hn

/-- A request is classified in its place. -/
theorem BuffersWait.classify {s : State} {ahead behind : List HeldReq} {g : HeldReq}
    (h : BuffersWait s.table (ahead ++ g :: behind)) (waiting early blocked : Bool) :
    let t := s.classifyWrite g.req waiting early blocked
    BuffersWait t.1.table (ahead ++ g.setHold t.2 :: behind) := by
  intro t
  obtain ⟨tasks, unbuffered⟩ | ⟨e, learns, unworked, free, waits⟩ :=
    s.classifyWrite_tasks g.req waiting early blocked
  · exact (h.of_tasks tasks).setHold _ fun n hn => absurd hn (unbuffered n)
  · have learned : BuffersWait t.1.table (ahead ++ g :: behind) := by
      refine h.of_entries fun y hy => ?_
      rw [learns] at hy
      rcases List.mem_append.1 hy with hy | hy
      · exact .inr ⟨y, hy, rfl⟩
      · rw [List.mem_singleton.1 hy]
        exact .inl unworked
    refine learned.setHold _ fun n hn y hy slot => ?_
    rw [learns] at hy
    rcases List.mem_append.1 hy with hy | hy
    · exact absurd (slot.trans (waits n hn)) (free y hy)
    · rwa [List.mem_singleton.1 hy]

theorem BuffersWait.releaseWalk (b : Block) (slot : Nat) {rest : List HeldReq} :
    ∀ {done : List HeldReq} {blocked : Bool} {s : State}, BuffersWait s.table (done ++ rest) →
      let t := Machine.releaseWalk b slot rest done blocked s
      BuffersWait t.1.table t.2 := by
  induction rest with
  | nil =>
    intro done blocked s h
    rwa [List.append_nil] at h
  | cons g rest ih =>
    intro done blocked s h
    have stays : BuffersWait s.table (done ++ [g] ++ rest) := by
      rwa [List.append_assoc]
    have released : BuffersWait s.table (done ++ [g.release] ++ rest) := by
      rw [List.append_assoc]
      exact h.setHold .released fun n hn => by cases hn
    unfold Machine.releaseWalk
    by_cases hb : g.block = b
    · rw [if_pos hb]
      cases g.hold with
      | capture n =>
        dsimp only
        split_ifs
        exacts [ih released, ih stays]
      | order d mark here =>
        cases mark with
        | false =>
          dsimp only
          cases blocked
          exacts [ih released, ih stays]
        | true =>
          refine ih ?_
          rw [List.append_assoc]
          exact h.classify _ _ _
      | _ => exact ih stays
    · rw [if_neg hb]
      exact ih stays

theorem BuffersWait.reclassify {rest : List HeldReq} :
    ∀ {done : List HeldReq} {s : State}, BuffersWait s.table (done ++ rest) →
      let t := Machine.reclassify rest done s
      BuffersWait t.1.table t.2 := by
  induction rest with
  | nil =>
    intro done s h
    rwa [List.append_nil] at h
  | cons g rest ih =>
    intro done s h
    unfold Machine.reclassify
    split_ifs
    · refine ih ?_
      rw [List.append_assoc]
      exact h.classify _ _ _
    · refine ih ?_
      rw [List.append_assoc]
      exact h.eases (Eases.at (dropDeferred_eases g))

theorem BuffersWait.route {s : State} {r : Request} {x : Hold}
    (h : BuffersWait s.table (s.hold ++ [s.newHeld r x])) :
    BuffersWait (s.route r x).table (s.route r x).hold := by
  have shorter : BuffersWait s.table s.hold :=
    h.of_queue fun g hg n hn => ⟨g, List.mem_append_left _ hg, hn⟩
  unfold State.route
  split_ifs with hx
  · subst hx
    exact h
  · exact shorter
  · exact h

theorem BuffersWait.join {s : State} (h : BuffersWait s.table s.hold) (r : Request) {x : Hold}
    (hx : x.isPlain) : BuffersWait s.table (s.hold ++ [s.newHeld r x]) := by
  intro g hg n hn
  rcases List.mem_append.1 hg with hg | hg
  · exact h g hg n hn
  · obtain rfl := List.mem_singleton.1 hg
    obtain ⟨_, _, _, unbuffered, _⟩ := HeldReq.of_isPlain (h := s.newHeld r x) hx
    rw [unbuffered] at hn
    cases hn

theorem BuffersWait.arriveWrite {s : State} (h : BuffersWait s.table s.hold) (r : Request) :
    BuffersWait (s.arriveWrite r).table (s.arriveWrite r).hold := by
  have joined := h.join r (x := .released) trivial
  by_cases hb : s.epoch.dev = .tracking ∧ s.behindOldCapture (blockOf r.addr) = true
  · unfold State.arriveWrite
    dsimp only
    rw [if_pos hb]
    exact joined.setHold (.order none true false) fun n hn => by cases hn
  · have route := s.arriveWrite_classified r (by
      by_cases ht : s.epoch.dev = .tracking
      · exact .inr (Bool.eq_false_of_not_eq_true fun hc => hb ⟨ht, hc⟩)
      · exact .inl ht)
    have frame := s.classifyWrite_eq r (s.hold.any HeldReq.isEntry)
      (entryFor s.hold (blockOf r.addr)) (heldFor s.hold (blockOf r.addr))
    have classified := joined.classify (s.hold.any HeldReq.isEntry)
      (entryFor s.hold (blockOf r.addr)) (heldFor s.hold (blockOf r.addr))
    rw [route]
    refine BuffersWait.route ?_
    have hold := congrArg State.hold frame
    have time := congrArg (fun t : State => t.epoch.partTime) frame
    unfold State.newHeld
    rw [hold, time]
    exact classified

/-- An entry at work moves on: no BUFFER waiter stands for it. -/
theorem BuffersWait.modify {s : State} {q : List HeldReq}
    (h : BuffersWait s.table q) {e : Entry} (found : s.entryAt e.slot = some e)
    (worked : ¬e.unworked) (f : Entry → Entry) (slot : ∀ x, (f x).slot = x.slot) :
    BuffersWait (s.modifyEntry e.slot f).table q := by
  obtain ⟨he, _⟩ := State.entryAt_mem found
  intro g hg n hn y hy place
  obtain ⟨x, hx, rfl⟩ := List.mem_map.1 hy
  split_ifs at place ⊢ with hs
  · rw [slot, hs] at place
    exact absurd (h g hg n hn e he place) worked
  · exact h g hg n hn x hx place

/-- The entry's waiters turn to its capture (R55). -/
theorem BuffersWait.grantBuffer {s : State} (h : BuffersWait s.table s.hold) (g : HeldReq)
    (e : Entry) (n : Nat) :
    BuffersWait (s.grantBuffer g e n).table (s.grantBuffer g e n).hold := by
  refine List.forall_mem_map.2 fun o ho m hm y hy place => ?_
  obtain ⟨hm, other⟩ := (bufferToCapture_bufferSlot e.slot o m).1
    ((clearTrackingHere_eases g.block _).buffer m hm)
  obtain ⟨x, hx, rfl⟩ := List.mem_map.1 hy
  split_ifs at place ⊢ with hs
  · exact absurd (place.symm.trans hs) other
  · exact h o ho m hm x hx place

theorem BuffersWait.grantBuffers {s : State} (h : BuffersWait s.table s.hold) :
    BuffersWait s.grantBuffers.table s.grantBuffers.hold :=
  grantLoop_induct (P := fun u => BuffersWait u.table u.hold)
    (fun _ g e n h _ => h.grantBuffer g e n) _ s h

/-- What the granted queue waits for: what it waited for, or the granted slot (R25). -/
theorem mem_grantedQueue_bufferSlot {b : Block} {slot : Nat} {mode : TrackMode} {q : List HeldReq}
    {g' : HeldReq} (hm : g' ∈ grantedQueue b slot mode q) {n : Nat} (hn : n ∈ g'.bufferSlot) :
    n = slot ∨ ∃ g ∈ q, n ∈ g.bufferSlot := by
  obtain ⟨g, hg, rfl⟩ := List.mem_map.1 hm
  have kept : n ∈ g.bufferSlot → n = slot ∨ ∃ g ∈ q, n ∈ g.bufferSlot := fun hn => .inr ⟨g, hg, hn⟩
  split_ifs at hn with hb
  · cases hh : g.hold with
    | entry c =>
      rw [hh] at hn
      cases mode with
      | trace => cases hn
      | undo => exact .inl (Option.some.inj hn).symm
    | order d mark here =>
      rw [hh] at hn
      cases d with
      | none => exact kept hn
      | some d => cases hn
    | _ =>
      rw [hh] at hn
      exact kept hn
  · exact kept hn

theorem BuffersWait.grantEntry {s : State} (h : BuffersWait s.table s.hold) {slot : Nat}
    (free : ∀ x ∈ s.table, x.slot ≠ slot) :
    BuffersWait (s.grantEntry slot).table (s.grantEntry slot).hold := by
  unfold State.grantEntry
  split
  · exact h
  · rename_i w c _
    obtain ⟨unworked, place⟩ :=
      unworked_granted w.block w.block s.hold slot s.epoch.number c
    have granted : BuffersWait
        (s.table ++ [applyDeferred w.block s.hold (newEntry slot w.block s.epoch.number c)])
        (grantedQueue w.block slot c.mode s.hold) := by
      intro g hg n hn y hy hy'
      rcases List.mem_append.1 hy with hy | hy
      · obtain same | ⟨o, ho, hn⟩ := mem_grantedQueue_bufferSlot hg hn
        · exact absurd (hy'.trans same) (free y hy)
        · exact h o ho n hn y hy hy'
      · rwa [List.mem_singleton.1 hy]
    exact granted.eases (Eases.releaseOrders [] _)

/-- The table's law, with BUFFER waiters that stand for no entry at work. -/
def State.Guarded (s : State) : Prop := TableLaw s ∧ BuffersWait s.table s.hold

theorem State.Guarded.of_holdLaw {s : State} (law : TableLaw s) (h : HoldLaw s) : s.Guarded := by
  obtain ⟨_, buffer, _⟩ := h
  refine ⟨law, fun g hg n hn e he slot => ?_⟩
  obtain ⟨x, hx, place, _, _, pending⟩ := buffer g hg n hn
  rw [law.eq_of_slot he hx (slot.trans place.symm)]
  exact .inl pending

theorem mem_bufferSlot_of_holds {q q' : List HeldReq}
    (h : q'.map (fun g => (g.req, g.hold)) = q.map fun g => (g.req, g.hold)) {g' : HeldReq}
    (hg : g' ∈ q') {n : Nat} (hn : n ∈ g'.bufferSlot) : ∃ g ∈ q, n ∈ g.bufferSlot := by
  have hm : (g'.req, g'.hold) ∈ q.map fun g => (g.req, g.hold) := h ▸ List.mem_map_of_mem hg
  obtain ⟨g, hg, same⟩ := List.mem_map.1 hm
  obtain ⟨_, hold⟩ := Prod.mk.inj same
  exact ⟨g, hg, (bufferSlot_eq_some g n).2 (hold.trans ((bufferSlot_eq_some g' n).1 hn))⟩

theorem State.tasks_closedTable (s : State) :
    s.closedTable.map Entry.task = s.table.map Entry.task := by
  unfold State.closedTable
  rw [List.map_map]
  refine List.map_congr_left fun x _ => ?_
  simp only [Function.comp]
  split_ifs <;> rfl

theorem tended_guarded : Tended State.Guarded where
  same {s t} h view := by
    refine ⟨tended_tableLaw.same h.1 view, ?_⟩
    rw [show t.table = s.table from congrArg TableView.table view]
    exact h.2.of_queue fun g hg n hn =>
      mem_bufferSlot_of_holds (congrArg TableView.hold view) hg hn
  routes s r h :=
    ⟨tended_tableLaw.routes s r h.1, BuffersWait.route (h.2.join r (plainHold_isPlain _))⟩
  arrives s r h := ⟨tended_tableLaw.arrives s r h.1, h.2.arriveWrite r⟩
  leaves s room h := ⟨h.1, h.2.of_queue fun g hg n hn =>
    ⟨g, (leaveUpTo_sublist room s.hold).subset hg, hn⟩⟩
  grants s g e n h hd := ⟨tended_tableLaw.grants s g e n h.1 hd, h.2.grantBuffer g e n⟩
  counts s e h he hs := ⟨tended_tableLaw.counts s e h.1 he hs,
    h.2.modify he (by simp [Entry.unworked, hs]) _ fun _ => rfl⟩
  captures s e h he hs := by
    refine ⟨tended_tableLaw.captures s e h.1 he hs, ?_⟩
    have imaged : BuffersWait (s.slotImaged e.slot).table s.hold :=
      h.2.modify he (by simp [Entry.unworked, hs])
        (fun x => { x with state := .imaged, linesIn := 4 }) fun _ => rfl
    rw [State.completeCapture_eq]
    exact BuffersWait.releaseWalk e.block e.slot (done := []) imaged
  copies s e h he hs := ⟨tended_tableLaw.copies s e h.1 he hs,
    h.2.modify he (by simp [Entry.unworked, hs]) _ fun _ => rfl⟩
  files s e image h he hs := ⟨tended_tableLaw.files s e image h.1 he hs,
    h.2.modify he (by simp [Entry.unworked, hs]) _ fun _ => rfl⟩
  logs s e h he hs := ⟨tended_tableLaw.logs s e h.1 he hs,
    h.2.modify he (by simp [Entry.unworked, hs]) _ fun _ => rfl⟩
  writes s r rest h _ _ := h
  drains s r rest h _ _ _ := h
  loads s h _ := h
  loaded s d h _ _ := h
  halts s h _ := ⟨h.1, .of_no_waiter (List.forall_mem_map.2 fun _ _ => rfl)⟩
  overflows s h := by
    refine ⟨tended_tableLaw.overflows s h.1, ?_⟩
    rw [State.overflowEpoch_eq]
    exact ((h.2.filter _).eases (Eases.map fun g _ => releaseWaiter_eases g)).eases
      (Eases.releaseOrders [] _)
  ages s e h he hc := ⟨tended_tableLaw.ages s e h.1 he hc, h.2.of_tasks (by
    refine (List.map_map ..).trans (List.map_congr_left fun x _ => ?_)
    simp only [Function.comp]
    split_ifs <;> rfl)⟩
  retires s e h hd := by
    refine ⟨tended_tableLaw.retires s e h.1 hd, ?_⟩
    rw [State.retireEntry_eq]
    refine BuffersWait.grantEntry (s := s.recorded e) (h.2.filter _) fun x hx => ?_
    simpa using (List.mem_filter.1 hx).2
  closes s sum h _ := h
  opens s h dev busy := ⟨tended_tableLaw.opens s h.1 dev busy, by
    have walked := BuffersWait.reclassify (done := []) (s := s.opened.freePending) (h.2.filter _)
    exact BuffersWait.grantBuffers (s := s.opened.reclassifyWaiters)
      (walked.eases (Eases.releaseOrders [] _))⟩
  switches s longest h dev busy := ⟨tended_tableLaw.switches s longest h.1 dev busy, by
    have closed : BuffersWait s.closedTable s.hold := h.2.of_tasks s.tasks_closedTable
    have walked := BuffersWait.reclassify (done := []) (s := s.switchOpened) (closed.filter _)
    exact BuffersWait.grantBuffers (s := s.switchWalked)
      (walked.eases (Eases.releaseOrders [] _))⟩
  ends s h dev busy := ⟨tended_tableLaw.ends s h.1 dev busy,
    .of_no_waiter fun _ hg => s.endedHold_not_waiter hg⟩
  stops s _ := ⟨TableLaw.of_empty rfl, .of_no_waiter (List.forall_mem_map.2 fun _ _ => rfl)⟩
  reset := ⟨TableLaw.of_empty rfl, .of_no_waiter fun _ hg => absurd hg List.not_mem_nil⟩

end Sys2Proof.Machine

/-! ### The law of own requests, engine by engine (R56, R80, R83 to R85, R99 to R104, R134, R157) -/

namespace Sys2Proof.Machine

/-- The engines run in this device state (R110). -/
def DevState.runs : DevState → Bool
  | .tracking | .finishing => true
  | .idle | .loading | .ready | .halted => false

theorem State.running_eq (s : State) : s.running = s.epoch.dev.runs := by
  unfold State.running
  cases s.epoch.dev <;> rfl

/-- The capture reads for a slot. -/
def captureCount (roles : Multiset OwnRole) (n : Nat) : Nat :=
  roles.countP fun role => role.captureSlot = some n

theorem captureCount_cons (role : OwnRole) (roles : Multiset OwnRole) (n : Nat) :
    captureCount (role ::ₘ roles) n =
      captureCount roles n + if role.captureSlot = some n then 1 else 0 :=
  Multiset.countP_cons _ _ _

theorem captureCount_le {roles roles' : Multiset OwnRole} (le : roles' ≤ roles) (n : Nat) :
    captureCount roles' n ≤ captureCount roles n :=
  Multiset.countP_le_of_le _ le

/-- The Journal Writer's requests among the roles. -/
def slotCount (roles : Multiset OwnRole) : Nat := roles.countP fun role => role.isSlot = true

theorem slotCount_cons (role : OwnRole) (roles : Multiset OwnRole) :
    slotCount (role ::ₘ roles) = slotCount roles + if role.isSlot = true then 1 else 0 :=
  Multiset.countP_cons _ _ _

theorem slotCount_le {roles roles' : Multiset OwnRole} (le : roles' ≤ roles) :
    slotCount roles' ≤ slotCount roles :=
  Multiset.countP_le_of_le _ le

/-- Capture reads are for CAPTURING entries, four at most with the lines returned (R56). -/
structure CaptureLaw (table : List Entry) (roles : Multiset OwnRole) : Prop where
  entry : ∀ role ∈ roles, ∀ n ∈ role.captureSlot, ∃ e ∈ table, e.slot = n ∧ e.state = .capturing
  lines : ∀ e ∈ table, e.state = .capturing →
    captureCount roles e.slot + e.linesIn ≤ 4

/-- IMAGE_WRITEs and DESC_WRITEs are for copy-out places: four IMAGE_WRITEs at most with the lines
done while the entry is COPYING, and one DESC_WRITE while it is FILING (R83 to R85). -/
structure CopyLaw (table : List Entry) (places : List CopyOutPlace) (roles : Multiset OwnRole) :
    Prop where
  nodup : (places.map (·.slot)).Nodup
  placed : ∀ role ∈ roles, ∀ n ∈ role.placeSlot, ∃ p ∈ places, p.slot = n
  place : ∀ p ∈ places, ∃ e ∈ table, e.slot = p.slot ∧
    (e.state = .copying ∧ roles.count (.imageWrite p.slot) + p.linesDone ≤ 4 ∧
        roles.count (.descWrite p.slot) = 0 ∨
      e.state = .filing ∧ roles.count (.imageWrite p.slot) = 0 ∧
        roles.count (.descWrite p.slot) ≤ 1)

/-- The Journal Writer has one request at most, and none in STANDBY or while its poll timer runs; it
waits for a ring while the engines run alone (R99 to R104). -/
structure SlotLaw (journal : Journal) (dev : DevState) (roles : Multiset OwnRole) : Prop where
  one : slotCount roles ≤ 1
  standby : journal.writer = .standby → slotCount roles = 0
  polls : journal.timer.isSome = true →
    journal.wait = true ∧ slotCount roles = 0
  waits : journal.wait = true →
    dev.runs = true ∧ journal.writer = .waiting ∧ roles.count .slotWrite = 0

/-- A JCB_READ stands in LOADING alone, the other own requests and a FIR wait only while the engines
run (R80, R110, R157). -/
structure RunLaw (dev : DevState) (firWait : Bool) (roles : Multiset OwnRole) : Prop where
  waits : firWait = true → dev.runs = true
  load : roles.countP (fun role => role.kind = .jcbRead) ≤ 1
  owner : ∀ role ∈ roles,
    role.kind = .jcbRead ∧ dev = .loading ∨ role.kind ≠ .jcbRead ∧ dev.runs = true

/-- Class C holds capture reads and class B the other kinds (R134). -/
def State.Classed (s : State) : Prop :=
  s.CapturesOnly ∧ ∀ r ∈ s.mem.classB, r.role.kind ≠ .captureRead

/-- The engines stand as if requests of these roles were queued or awaited. -/
structure OwnedAs (s : State) (roles : Multiset OwnRole) : Prop where
  classed : s.Classed
  capture : CaptureLaw s.table roles
  copy : CopyLaw s.table s.copyOut.places roles
  slot : SlotLaw s.journal s.epoch.dev roles
  run : RunLaw s.epoch.dev s.copyOut.wait roles

/-- The law of own requests, by the engine that makes them. -/
abbrev Owned (s : State) : Prop := OwnedAs s s.roles

theorem State.forall_roles (s : State) (p : OwnRole → Prop) :
    (∀ role ∈ s.roles, p role) ↔ ∀ r ∈ s.live, p r.role := by
  simp only [State.mem_roles, forall_exists_index, and_imp]
  exact ⟨fun h r hr => h _ r hr rfl, fun h _ r hr e => e ▸ h r hr⟩

theorem State.liveCount_eq_count (s : State) (x : OwnRole) :
    s.liveCount (fun role => role == x) = s.roles.count x :=
  s.liveCount_eq_countP _ _ fun _ => beq_iff_eq.trans eq_comm

theorem ownLaw_iff (s : State) : OwnLaw s ↔ Owned s := by
  have captures : ∀ n, s.liveCount (fun role => role.captureSlot == some n) =
      captureCount s.roles n :=
    fun n => s.liveCount_eq_countP _ _ fun _ => beq_iff_eq
  have slots : s.liveCount OwnRole.isSlot = slotCount s.roles :=
    s.liveCount_eq_countP _ _ fun _ => Iff.rfl
  have jcbs : s.liveCount (fun role => decide (role.kind = .jcbRead)) =
      s.roles.countP fun role => role.kind = .jcbRead :=
    s.liveCount_eq_countP _ _ fun _ => decide_eq_true_iff
  unfold OwnLaw
  simp only [captures, slots, jcbs, s.liveCount_eq_count, s.running_eq,
    ← s.forall_roles (fun role => ∀ n ∈ role.captureSlot,
      ∃ e ∈ s.table, e.slot = n ∧ e.state = .capturing),
    ← s.forall_roles (fun role => ∀ n ∈ role.placeSlot, ∃ p ∈ s.copyOut.places, p.slot = n),
    ← s.forall_roles (fun role => role.kind = .jcbRead ∧ s.epoch.dev = .loading ∨
      role.kind ≠ .jcbRead ∧ s.epoch.dev.runs = true)]
  constructor
  · rintro ⟨classC, classB, entry, lines, nodup, placed, place, one, standby, polls, waits, fir,
      load, owner⟩
    exact ⟨⟨classC, classB⟩, ⟨entry, lines⟩, ⟨nodup, placed, place⟩,
      ⟨one, standby, polls, waits⟩, ⟨fir, load, owner⟩⟩
  · rintro ⟨⟨classC, classB⟩, ⟨entry, lines⟩, ⟨nodup, placed, place⟩,
      ⟨one, standby, polls, waits⟩, ⟨fir, load, owner⟩⟩
    exact ⟨classC, classB, entry, lines, nodup, placed, place, one, standby, polls, waits, fir,
      load, owner⟩

/-! #### Fewer requests, the same entries at work -/

theorem CaptureLaw.mono {old new : List Entry} {roles roles' : Multiset OwnRole}
    (h : CaptureLaw old roles) (work : SameWork old new) (le : roles' ≤ roles) :
    CaptureLaw new roles' where
  entry role hr n hn := by
    obtain ⟨e, he, slot, state⟩ := h.entry role (Multiset.mem_of_le le hr) n hn
    obtain ⟨x, hx, task⟩ := work.forth he (by rw [state]; rfl)
    obtain ⟨place, same, _⟩ := (x.task_eq_iff e).1 task
    exact ⟨x, hx, place.trans slot, same.trans state⟩
  lines e he hs := by
    obtain ⟨x, hx, task⟩ := work.back he (by rw [hs]; rfl)
    obtain ⟨place, same, lines⟩ := (x.task_eq_iff e).1 task
    have := h.lines x hx (same.trans hs)
    rw [place, lines] at this
    have := captureCount_le le e.slot
    omega

theorem CopyLaw.mono {old new : List Entry} {places : List CopyOutPlace}
    {roles roles' : Multiset OwnRole} (h : CopyLaw old places roles) (work : SameWork old new)
    (le : roles' ≤ roles) : CopyLaw new places roles' where
  nodup := h.nodup
  placed role hr := h.placed role (Multiset.mem_of_le le hr)
  place p hp := by
    have images := Multiset.count_le_of_le (.imageWrite p.slot) le
    have descs := Multiset.count_le_of_le (.descWrite p.slot) le
    obtain ⟨e, he, slot, stage⟩ := h.place p hp
    obtain ⟨x, hx, task⟩ := work.forth he (by
      rcases stage with ⟨state, _⟩ | ⟨state, _⟩ <;> rw [state] <;> rfl)
    obtain ⟨place, same, _⟩ := (x.task_eq_iff e).1 task
    refine ⟨x, hx, place.trans slot, ?_⟩
    rw [same]
    rcases stage with ⟨state, image, desc⟩ | ⟨state, image, desc⟩
    · exact .inl ⟨state, by omega, by omega⟩
    · exact .inr ⟨state, by omega, by omega⟩

theorem SlotLaw.mono {journal journal' : Journal} {dev dev' : DevState}
    {roles roles' : Multiset OwnRole} (h : SlotLaw journal dev roles)
    (view : (journal'.writer, journal'.wait, journal'.timer.isSome) =
      (journal.writer, journal.wait, journal.timer.isSome))
    (runs : dev.runs = true → dev'.runs = true) (le : roles' ≤ roles) :
    SlotLaw journal' dev' roles' := by
  simp only [Prod.mk.injEq] at view
  obtain ⟨writer, wait, timer⟩ := view
  have slots := slotCount_le le
  have writes := Multiset.count_le_of_le .slotWrite le
  refine ⟨slots.trans h.one, fun hw => ?_, fun ht => ?_, fun hw => ?_⟩
  · have := h.standby (writer ▸ hw)
    omega
  · obtain ⟨waits, none⟩ := h.polls (timer ▸ ht)
    exact ⟨wait.trans waits, by omega⟩
  · obtain ⟨running, waiting, none⟩ := h.waits (wait ▸ hw)
    exact ⟨runs running, writer.trans waiting, by omega⟩

theorem RunLaw.mono {dev : DevState} {wait : Bool} {roles roles' : Multiset OwnRole}
    (h : RunLaw dev wait roles) (le : roles' ≤ roles) : RunLaw dev wait roles' where
  waits := h.waits
  load := (Multiset.countP_le_of_le _ le).trans h.load
  owner role hr := h.owner role (Multiset.mem_of_le le hr)

/-! #### One request more, of another engine's -/

theorem CaptureLaw.cons {table : List Entry} {roles : Multiset OwnRole} (h : CaptureLaw table roles)
    {role : OwnRole} (other : role.captureSlot = none) : CaptureLaw table (role ::ₘ roles) where
  entry x hx n hn := by
    rcases Multiset.mem_cons.1 hx with rfl | hx
    · rw [other] at hn
      cases hn
    · exact h.entry x hx n hn
  lines e he hs := by
    rw [captureCount_cons, other]
    exact h.lines e he hs

theorem CopyLaw.cons {table : List Entry} {places : List CopyOutPlace} {roles : Multiset OwnRole}
    (h : CopyLaw table places roles) {role : OwnRole} (other : role.placeSlot = none) :
    CopyLaw table places (role ::ₘ roles) where
  nodup := h.nodup
  placed x hx n hn := by
    rcases Multiset.mem_cons.1 hx with rfl | hx
    · rw [other] at hn
      cases hn
    · exact h.placed x hx n hn
  place p hp := by
    have image : OwnRole.imageWrite p.slot ≠ role := by rintro rfl; cases other
    have desc : OwnRole.descWrite p.slot ≠ role := by rintro rfl; cases other
    rw [Multiset.count_cons_of_ne image, Multiset.count_cons_of_ne desc]
    exact h.place p hp

theorem SlotLaw.cons {journal : Journal} {dev : DevState} {roles : Multiset OwnRole}
    (h : SlotLaw journal dev roles) {role : OwnRole} (other : role.isSlot = false) :
    SlotLaw journal dev (role ::ₘ roles) := by
  have slots : slotCount (role ::ₘ roles) = slotCount roles := by
    rw [slotCount_cons, other]
    rfl
  have write : OwnRole.slotWrite ≠ role := by rintro rfl; cases other
  refine ⟨?_, ?_, ?_, ?_⟩
  · rw [slots]
    exact h.one
  · rw [slots]
    exact h.standby
  · rw [slots]
    exact h.polls
  · rw [Multiset.count_cons_of_ne write]
    exact h.waits

theorem RunLaw.cons {dev : DevState} {wait : Bool} {roles : Multiset OwnRole}
    (h : RunLaw dev wait roles) {role : OwnRole} (other : role.kind ≠ .jcbRead)
    (runs : dev.runs = true) : RunLaw dev wait (role ::ₘ roles) where
  waits := h.waits
  load := by
    rw [Multiset.countP_cons_of_neg (p := fun role : OwnRole => role.kind = .jcbRead) _ other]
    exact h.load
  owner x hx := by
    rcases Multiset.mem_cons.1 hx with rfl | hx
    · exact .inr ⟨other, runs⟩
    · exact h.owner x hx

/-! #### Changes that keep the whole law -/

/-- What the law looks at beside the requests and the entries at work. -/
def State.ownView (s : State) : List CopyOutPlace × (WriterState × Bool × Bool) × DevState × Bool :=
  (s.copyOut.places, (s.journal.writer, s.journal.wait, s.journal.timer.isSome), s.epoch.dev,
    s.copyOut.wait)

/-- No request joins, the same entries are at work, and the engines stand as they stood. -/
theorem OwnedAs.of_le {s t : State} {roles : Multiset OwnRole} (h : OwnedAs s roles)
    (classed : t.Classed) (le : t.roles ≤ roles) (work : SameWork s.table t.table)
    (view : t.ownView = s.ownView) : Owned t := by
  simp only [State.ownView, Prod.mk.injEq] at view
  obtain ⟨places, journal, dev, wait⟩ := view
  refine ⟨classed, h.capture.mono work le, ?_, ?_, ?_⟩
  · rw [places]
    exact h.copy.mono work le
  · rw [dev]
    exact h.slot.mono (by simpa using journal) id le
  · rw [dev, wait]
    exact h.run.mono le

/-- What the law looks at beside the entries at work. -/
def State.engines (s : State) : (List OwnReq × List OwnReq × List OwnReq) ×
    List CopyOutPlace × (WriterState × Bool × Bool) × DevState × Bool :=
  ((s.live, s.mem.classC, s.mem.classB), s.ownView)

/-- The same entries are at work, and the requests and the engines stand as they stood. -/
theorem Owned.of_engines {s t : State} (h : Owned s) (engines : t.engines = s.engines)
    (work : SameWork s.table t.table) : Owned t := by
  simp only [State.engines, Prod.mk.injEq] at engines
  obtain ⟨⟨live, classC, classB⟩, view⟩ := engines
  have classed : t.Classed := by
    unfold State.Classed State.CapturesOnly
    rw [classC, classB]
    exact h.classed
  have roles : t.roles = s.roles := by
    unfold State.roles
    rw [live]
  exact h.of_le classed roles.le work view

theorem Owned.of_lawView {s t : State} (h : Owned s) (view : t.lawView = s.lawView) : Owned t := by
  have cache := State.cacheView_of_lawView view
  simp only [State.cacheView, Prod.mk.injEq] at cache
  obtain ⟨_, _, _, live, classC⟩ := cache
  have classB : t.mem.classB = s.mem.classB := congrArg LawView.classB view
  have table : t.table = s.table := congrArg LawView.table view
  refine h.of_engines ?_ (table ▸ .refl _)
  unfold State.engines
  rw [live, classC, classB]
  exact congrArg (fun v : LawView => ((s.live, s.mem.classC, s.mem.classB),
    v.places, (v.writer, v.ringWait, v.ringPoll), v.epoch.1, v.firWait)) view

theorem Owned.handChanges {s : State} (h : Owned s) : Owned s.handChanges :=
  h.of_lawView s.lawView_handChanges

theorem Owned.endOwn {s : State} (h : Owned s) (tag : Nat) : Owned (s.endOwn tag) :=
  h.of_le h.classed (s.roles_endOwn_le tag) (.refl _) rfl

end Sys2Proof.Machine

/-! ### The law of own requests when an entry moves on (R17, R56, R57, R83 to R85) -/

namespace Sys2Proof.Machine

/-- The table with the entry of a slot changed. -/
def alterEntry (table : List Entry) (slot : Nat) (f : Entry → Entry) : List Entry :=
  table.map fun x => if x.slot = slot then f x else x

theorem State.modifyEntry_alters (s : State) (slot : Nat) (f : Entry → Entry) :
    (s.modifyEntry slot f).table = alterEntry s.table slot f := rfl

/-- The entry is the one of its slot. -/
def OneAt (table : List Entry) (e : Entry) : Prop :=
  e ∈ table ∧ ∀ x ∈ table, x.slot = e.slot → x = e

theorem TableLaw.oneAt {s : State} (law : TableLaw s) {slot : Nat} {e : Entry}
    (found : s.entryAt slot = some e) : OneAt s.table e := by
  obtain ⟨he, _⟩ := State.entryAt_mem found
  exact ⟨he, fun x hx same => law.eq_of_slot hx he same⟩

section
variable {table : List Entry} {e : Entry} {f : Entry → Entry}

theorem OneAt.mem_alterEntry (one : OneAt table e) : f e ∈ alterEntry table e.slot f := by
  have changed := List.mem_map_of_mem (f := fun x => if x.slot = e.slot then f x else x) one.1
  rwa [if_pos rfl] at changed

/-- An entry of another slot stays. -/
theorem mem_alterEntry_of_ne {slot : Nat} {x : Entry} (hx : x ∈ table) (apart : x.slot ≠ slot) :
    x ∈ alterEntry table slot f :=
  List.mem_map.2 ⟨x, hx, if_neg apart⟩

/-- An entry of another state stays. -/
theorem OneAt.mem_alterEntry_other (one : OneAt table e) {x : Entry} (hx : x ∈ table)
    (other : x.state ≠ e.state) : x ∈ alterEntry table e.slot f :=
  mem_alterEntry_of_ne hx fun same => other (by rw [one.2 x hx same])

theorem OneAt.of_mem_alterEntry (one : OneAt table e) {y : Entry}
    (hy : y ∈ alterEntry table e.slot f) : y = f e ∨ y ∈ table ∧ y.slot ≠ e.slot := by
  obtain ⟨x, hx, rfl⟩ := List.mem_map.1 hy
  split_ifs with same
  · rw [one.2 x hx same]
    exact .inl rfl
  · exact .inr ⟨hx, same⟩

/-! #### Captures -/

variable {roles : Multiset OwnRole}

/-- No capture is changed. -/
theorem CaptureLaw.alter (h : CaptureLaw table roles) (one : OneAt table e)
    (before : e.state ≠ .capturing) (after : (f e).state ≠ .capturing) :
    CaptureLaw (alterEntry table e.slot f) roles where
  entry role hr n hn := by
    obtain ⟨x, hx, slot, state⟩ := h.entry role hr n hn
    exact ⟨x, one.mem_alterEntry_other hx (state ▸ before.symm), slot, state⟩
  lines y hy hs := by
    obtain rfl | ⟨hy, _⟩ := one.of_mem_alterEntry hy
    · exact absurd hs after
    · exact h.lines y hy hs

/-- An entry that is not CAPTURING has no capture reads. -/
theorem CaptureLaw.count_eq_zero (h : CaptureLaw table roles) (one : OneAt table e)
    (idle : e.state ≠ .capturing) :
    captureCount roles e.slot = 0 := by
  refine Multiset.countP_eq_zero.2 fun role hr slot => idle ?_
  obtain ⟨x, hx, same, state⟩ := h.entry role hr _ slot
  rw [← one.2 x hx same, state]

/-- A buffer is granted and the four lines are read (R55, R56). -/
theorem CaptureLaw.grant (h : CaptureLaw table roles) (one : OneAt table e) (n : Nat)
    (pending : e.state = .pending) :
    CaptureLaw
      (alterEntry table e.slot fun x =>
        { x with state := .capturing, poolBuf := some n, linesIn := 0 })
      (.captureRead e.slot n 0 ::ₘ .captureRead e.slot n 1 ::ₘ .captureRead e.slot n 2 ::ₘ
        .captureRead e.slot n 3 ::ₘ roles) where
  entry role hr slot hs := by
    have own : role.captureSlot = some e.slot ∨ role ∈ roles := by
      simp only [Multiset.mem_cons] at hr
      rcases hr with rfl | rfl | rfl | rfl | hr
      exacts [.inl rfl, .inl rfl, .inl rfl, .inl rfl, .inr hr]
    rcases own with own | hr
    · exact ⟨_, one.mem_alterEntry, Option.some.inj (own.symm.trans hs), rfl⟩
    · obtain ⟨x, hx, place, state⟩ := h.entry role hr slot hs
      exact ⟨x, one.mem_alterEntry_other hx (by rw [state, pending]; decide), place, state⟩
  lines y hy hs := by
    obtain rfl | ⟨hy, apart⟩ := one.of_mem_alterEntry hy
    · have none := h.count_eq_zero one (by rw [pending]; decide)
      simp [captureCount_cons, OwnRole.captureSlot, none]
    · have lines := h.lines y hy hs
      simpa [captureCount_cons, OwnRole.captureSlot, apart.symm] using lines

/-- A line has come back (R56). -/
theorem CaptureLaw.count {role : OwnRole} (h : CaptureLaw table (role ::ₘ roles))
    (one : OneAt table e) (mine : role.captureSlot = some e.slot) :
    CaptureLaw (alterEntry table e.slot fun x => { x with linesIn := x.linesIn + 1 }) roles where
  entry role hr n hn := by
    obtain ⟨x, hx, slot, state⟩ := h.entry role (Multiset.mem_cons_of_mem hr) n hn
    by_cases same : x.slot = e.slot
    · obtain rfl := one.2 x hx same
      exact ⟨_, one.mem_alterEntry, slot, state⟩
    · exact ⟨x, mem_alterEntry_of_ne hx same, slot, state⟩
  lines y hy hs := by
    obtain rfl | ⟨hy, _⟩ := one.of_mem_alterEntry hy
    · have lines := h.lines e one.1 hs
      rw [captureCount_cons, if_pos mine] at lines
      show captureCount roles e.slot + (e.linesIn + 1) ≤ 4
      omega
    · have lines := h.lines y hy hs
      exact le_trans (Nat.add_le_add_right
        (captureCount_le (Multiset.le_cons_self roles role) y.slot) _) lines

/-- The fourth line has come back (R57). -/
theorem CaptureLaw.complete {role : OwnRole} (h : CaptureLaw table (role ::ₘ roles))
    (one : OneAt table e) (mine : role.captureSlot = some e.slot) (capturing : e.state = .capturing)
    (last : ¬e.linesIn + 1 < 4) :
    CaptureLaw (alterEntry table e.slot fun x => { x with state := .imaged, linesIn := 4 })
      roles where
  entry role hr n hn := by
    have lines := h.lines e one.1 capturing
    rw [captureCount_cons, if_pos mine] at lines
    have none := Multiset.countP_eq_zero.1
      (show captureCount roles e.slot = 0 by omega)
    obtain ⟨x, hx, slot, state⟩ := h.entry role (Multiset.mem_cons_of_mem hr) n hn
    refine ⟨x, mem_alterEntry_of_ne hx fun same => none role hr ?_, slot, state⟩
    rw [← same, slot]
    exact hn
  lines y hy hs := by
    obtain rfl | ⟨hy, _⟩ := one.of_mem_alterEntry hy
    · cases hs
    · have lines := h.lines y hy hs
      exact le_trans (Nat.add_le_add_right
        (captureCount_le (Multiset.le_cons_self roles role) y.slot) _) lines

/-! #### Copy-outs -/

variable {places : List CopyOutPlace}

/-- A copy-out place has the slot of an entry that is COPYING or FILING. -/
theorem CopyLaw.copied (h : CopyLaw table places roles) (one : OneAt table e) {p : CopyOutPlace}
    (hp : p ∈ places) (slot : p.slot = e.slot) : e.state = .copying ∨ e.state = .filing := by
  obtain ⟨x, hx, place, stage⟩ := h.place p hp
  rw [← one.2 x hx (place.trans slot)]
  exact stage.imp And.left And.left

/-- No copy-out's entry is changed. -/
theorem CopyLaw.alter (h : CopyLaw table places roles) (one : OneAt table e)
    (before : e.state ≠ .copying ∧ e.state ≠ .filing) :
    CopyLaw (alterEntry table e.slot f) places roles where
  nodup := h.nodup
  placed := h.placed
  place p hp := by
    obtain ⟨x, hx, slot, stage⟩ := h.place p hp
    have other : x.state ≠ e.state := by
      rcases stage with ⟨state, _⟩ | ⟨state, _⟩ <;> rw [state]
      exacts [before.1.symm, before.2.symm]
    exact ⟨x, one.mem_alterEntry_other hx other, slot, stage⟩

/-- A slot without a place has no writes under way. -/
theorem CopyLaw.counts_eq_zero (h : CopyLaw table places roles) {slot : Nat}
    (free : ∀ p ∈ places, p.slot ≠ slot) :
    roles.count (.imageWrite slot) = 0 ∧ roles.count (.descWrite slot) = 0 := by
  refine ⟨Multiset.count_eq_zero.2 fun hr => ?_, Multiset.count_eq_zero.2 fun hr => ?_⟩ <;>
  · obtain ⟨p, hp, same⟩ := h.placed _ hr slot rfl
    exact free p hp same

/-- A copy-out starts: its place and its four IMAGE_WRITEs join (R83). -/
theorem CopyLaw.start (h : CopyLaw table places roles) (one : OneAt table e)
    (imaged : e.state = .imaged) (buffer : Nat) (image : ImageBuf) :
    CopyLaw (alterEntry table e.slot fun x => { x with state := .copying })
      (places ++ [{ slot := e.slot, buffer, image, linesDone := 0 }])
      (.imageWrite e.slot ::ₘ .imageWrite e.slot ::ₘ .imageWrite e.slot ::ₘ
        .imageWrite e.slot ::ₘ roles) := by
  have free : ∀ p ∈ places, p.slot ≠ e.slot := fun p hp slot => by
    have stage := h.copied one hp slot
    rw [imaged] at stage
    simp at stage
  obtain ⟨noImage, noDesc⟩ := h.counts_eq_zero free
  constructor
  · rw [List.map_append, List.map_singleton, ← List.concat_eq_append, List.nodup_concat]
    refine ⟨fun hm => ?_, h.nodup⟩
    obtain ⟨p, hp, slot⟩ := List.mem_map.1 hm
    exact free p hp slot
  · intro role hr n hn
    have own : role = .imageWrite e.slot ∨ role ∈ roles := by
      simp only [Multiset.mem_cons] at hr
      tauto
    rcases own with rfl | hr
    · exact ⟨_, List.mem_append_right _ (List.mem_singleton_self _), Option.some.inj hn⟩
    · obtain ⟨p, hp, slot⟩ := h.placed role hr n hn
      exact ⟨p, List.mem_append_left _ hp, slot⟩
  · intro p hp
    rcases List.mem_append.1 hp with hp | hp
    · obtain ⟨x, hx, slot, stage⟩ := (h.alter one (by simp [imaged])).place p hp
      refine ⟨x, hx, slot, ?_⟩
      simpa [Multiset.count_cons, free p hp] using stage
    · obtain rfl := List.mem_singleton.1 hp
      refine ⟨_, one.mem_alterEntry, rfl, .inl ⟨rfl, ?_, ?_⟩⟩
      · simp [noImage]
      · simpa [Multiset.count_cons] using noDesc

/-- The places with one line more done for a slot (R84). -/
def lineDone (places : List CopyOutPlace) (slot : Nat) : List CopyOutPlace :=
  places.map fun q => if q.slot = slot then { q with linesDone := q.linesDone + 1 } else q

theorem lineDone_slots (places : List CopyOutPlace) (slot : Nat) :
    (lineDone places slot).map (·.slot) = places.map (·.slot) := by
  unfold lineDone
  rw [List.map_map]
  refine List.map_congr_left fun q _ => ?_
  simp only [Function.comp]
  split_ifs <;> rfl

/-- An IMAGE_WRITE has returned done (R84). -/
theorem CopyLaw.lineDone {slot : Nat} (h : CopyLaw table places (.imageWrite slot ::ₘ roles)) :
    CopyLaw table (lineDone places slot) roles := by
  have slots := lineDone_slots places slot
  constructor
  · rw [slots]
    exact h.nodup
  · intro role hr n hn
    obtain ⟨p, hp, same⟩ := h.placed role (Multiset.mem_cons_of_mem hr) n hn
    refine List.mem_map.1 ?_
    rw [slots]
    exact List.mem_map.2 ⟨p, hp, same⟩
  · intro p' hp'
    obtain ⟨p, hp, rfl⟩ := List.mem_map.1 hp'
    obtain ⟨x, hx, place, stage⟩ := h.place p hp
    have descs : roles.count (.descWrite p.slot) ≤
        (OwnRole.imageWrite slot ::ₘ roles).count (.descWrite p.slot) :=
      Multiset.count_le_count_cons _ _ _
    split_ifs with same
    · refine ⟨x, hx, place, ?_⟩
      dsimp only
      rw [same, Multiset.count_cons_self] at stage
      rw [same] at descs ⊢
      rcases stage with ⟨state, images, none⟩ | ⟨_, images, _⟩
      · exact .inl ⟨state, by omega, by omega⟩
      · omega
    · refine ⟨x, hx, place, ?_⟩
      rw [Multiset.count_cons_of_ne (by simpa using same)] at stage
      rcases stage with ⟨state, images, none⟩ | ⟨state, images, one⟩
      · exact .inl ⟨state, images, by omega⟩
      · exact .inr ⟨state, images, by omega⟩

/-- With the four lines done the image is filed (R84). -/
theorem CopyLaw.file (h : CopyLaw table places roles) (one : OneAt table e)
    (copying : e.state = .copying) {p : CopyOutPlace} (hp : p ∈ places) (slot : p.slot = e.slot)
    (done : p.linesDone = 4) (image : ImageBuf) :
    CopyLaw (alterEntry table e.slot fun x =>
      { x with state := .filing, poolBuf := none, imageBuf := some image }) places
      (.descWrite e.slot ::ₘ roles) := by
  have noWrites : roles.count (.imageWrite e.slot) = 0 ∧ roles.count (.descWrite e.slot) = 0 := by
    obtain ⟨x, hx, place, stage⟩ := h.place p hp
    obtain rfl := one.2 x hx (place.trans slot)
    rw [slot] at stage
    rcases stage with ⟨_, images, none⟩ | ⟨filing, _⟩
    · exact ⟨by omega, none⟩
    · rw [copying] at filing
      cases filing
  obtain ⟨noImage, noDesc⟩ := noWrites
  constructor
  · exact h.nodup
  · intro role hr n hn
    rcases Multiset.mem_cons.1 hr with rfl | hr
    · exact ⟨p, hp, slot.trans (Option.some.inj hn)⟩
    · exact h.placed role hr n hn
  · intro q hq
    by_cases same : q.slot = e.slot
    · refine ⟨_, one.mem_alterEntry, same.symm, .inr ⟨rfl, ?_, ?_⟩⟩
      · simpa [Multiset.count_cons, same] using noImage
      · simp [same, noDesc]
    · obtain ⟨x, hx, place, stage⟩ := h.place q hq
      refine ⟨x, mem_alterEntry_of_ne hx (place ▸ same), place, ?_⟩
      simpa [Multiset.count_cons, same] using stage

/-- The DESC_WRITE has returned done: the place is free (R85). -/
theorem CopyLaw.log (h : CopyLaw table places (.descWrite e.slot ::ₘ roles)) (one : OneAt table e)
    (filing : e.state = .filing) :
    CopyLaw (alterEntry table e.slot fun x => { x with state := .logged })
      (places.filter (·.slot != e.slot)) roles := by
  obtain ⟨p, hp, slot⟩ := h.placed _ (Multiset.mem_cons_self _ _) e.slot rfl
  have noWrites : roles.count (.imageWrite e.slot) = 0 ∧ roles.count (.descWrite e.slot) = 0 := by
    obtain ⟨x, hx, place, stage⟩ := h.place p hp
    obtain rfl := one.2 x hx (place.trans slot)
    rw [slot, Multiset.count_cons_self, Multiset.count_cons_of_ne (by simp)] at stage
    rcases stage with ⟨copying, _⟩ | ⟨_, none, desc⟩
    · rw [filing] at copying
      cases copying
    · exact ⟨none, by omega⟩
  obtain ⟨noImage, noDesc⟩ := noWrites
  constructor
  · exact h.nodup.sublist (List.filter_sublist.map _)
  · intro role hr n hn
    obtain ⟨q, hq, same⟩ := h.placed role (Multiset.mem_cons_of_mem hr) n hn
    refine ⟨q, List.mem_filter.2 ⟨hq, bne_iff_ne.2 fun own => ?_⟩, same⟩
    rw [same] at own
    subst own
    cases role with
    | imageWrite m =>
      obtain rfl := Option.some.inj hn
      exact Multiset.count_eq_zero.1 noImage hr
    | descWrite m =>
      obtain rfl := Option.some.inj hn
      exact Multiset.count_eq_zero.1 noDesc hr
    | _ => cases hn
  · intro q hq
    obtain ⟨hq, apart⟩ := List.mem_filter.1 hq
    have apart : q.slot ≠ e.slot := bne_iff_ne.1 apart
    obtain ⟨x, hx, place, stage⟩ := h.place q hq
    refine ⟨x, mem_alterEntry_of_ne hx (place ▸ apart), place, ?_⟩
    simpa [Multiset.count_cons, apart] using stage

end

end Sys2Proof.Machine

/-! ### The law of own requests under each operation (R56, R80, R83 to R85, R99 to R104, R134, R142,
R157) -/

namespace Sys2Proof.Machine

/-! #### Requests that are answered, queued and dropped -/

theorem OwnedAs.le {s : State} {roles roles' : Multiset OwnRole} (h : OwnedAs s roles)
    (le : roles' ≤ roles) : OwnedAs s roles' :=
  ⟨h.classed, h.capture.mono (.refl _) le, h.copy.mono (.refl _) le, h.slot.mono rfl id le,
    h.run.mono le⟩

theorem OwnedAs.settled {s : State} {role : OwnRole} (h : OwnedAs s (role ::ₘ s.roles)) : Owned s :=
  h.le (Multiset.le_cons_self _ _)

/-- An engine whose request is answered runs, unless it is the JCB's reader (R80, R110). -/
theorem OwnedAs.runs {s : State} {role : OwnRole} (h : OwnedAs s (role ::ₘ s.roles))
    (other : role.kind ≠ .jcbRead) : s.epoch.dev.runs = true := by
  obtain ⟨jcb, _⟩ | ⟨_, runs⟩ := h.run.owner role (Multiset.mem_cons_self _ _)
  · exact absurd jcb other
  · exact runs

/-- An answer reaches its owner while its request still counts, or nothing joins. -/
theorem Owned.ownAnswer {s : State} (h : Owned s) (tag : Nat) (fits : OwnRole → Bool)
    (owner : OwnReq → State → State)
    (takes : ∀ r, fits r.role = true → OwnedAs (s.endOwn tag) (r.role ::ₘ (s.endOwn tag).roles) →
      Owned (owner r (s.endOwn tag))) : Owned (s.ownAnswer tag fits owner) := by
  obtain ⟨_, e⟩ | ⟨i, found, ⟨_, e⟩ | ⟨awaited, fit, e⟩ | ⟨_, _, e⟩⟩ :=
    s.ownAnswer_cases tag fits owner <;> rw [e]
  · exact h
  · exact h.endOwn tag
  · refine takes i.req fit ?_
    rw [← State.roles_of_awaited found awaited]
    exact ⟨h.classed, h.capture, h.copy, h.slot, h.run⟩
  · exact h

/-- A request that its engine may have joins class B. -/
theorem OwnedAs.queueB {s : State} {roles : Multiset OwnRole} {role : OwnRole}
    (h : OwnedAs s roles) (kind : role.kind ≠ .captureRead) (addr : Addr) (op : Op) :
    OwnedAs (s.queueB role addr op) roles := by
  refine ⟨⟨h.classed.1, fun r hr => ?_⟩, h.capture, h.copy, h.slot, h.run⟩
  rcases List.mem_append.1 hr with hr | hr
  · exact h.classed.2 r hr
  · rw [List.mem_singleton.1 hr]
    exact kind

theorem OwnedAs.queued {s : State} {role : OwnRole} (h : OwnedAs s (role ::ₘ s.roles))
    (kind : role.kind ≠ .captureRead) (addr : Addr) (op : Op) : Owned (s.queueB role addr op) := by
  unfold Owned
  rw [State.roles_queueB]
  exact h.queueB kind addr op

theorem State.classed_of_no_roles {s : State} (none : s.roles = 0) : s.Classed := by
  have live : s.live = [] := by simpa [State.roles] using none
  simp only [State.live, List.append_eq_nil_iff] at live
  obtain ⟨⟨classC, classB⟩, _⟩ := live
  unfold State.Classed State.CapturesOnly
  rw [classC, classB]
  exact ⟨fun _ hr => absurd hr List.not_mem_nil, fun _ hr => absurd hr List.not_mem_nil⟩

/-- No request is left; the copy-outs stand as they stood. -/
theorem Owned.of_no_roles {s t : State} (h : Owned s) (none : t.roles = 0)
    (same : (t.table, t.copyOut.places) = (s.table, s.copyOut.places))
    (slot : SlotLaw t.journal t.epoch.dev 0)
    (fir : t.copyOut.wait = true → t.epoch.dev.runs = true) : Owned t := by
  obtain ⟨table, places⟩ := Prod.mk.inj same
  refine ⟨State.classed_of_no_roles none, ?_, ?_, ?_, ?_⟩ <;> rw [none]
  · rw [table]
    exact h.capture.mono (.refl _) (Multiset.zero_le _)
  · rw [table, places]
    exact h.copy.mono (.refl _) (Multiset.zero_le _)
  · exact slot
  · exact ⟨fir, Nat.zero_le _, fun _ hr => absurd hr (Multiset.notMem_zero _)⟩

/-- The engines go on, or the device comes from a state with no requests. -/
theorem RunLaw.moves {dev dev' : DevState} {wait : Bool} {roles : Multiset OwnRole}
    (h : RunLaw dev wait roles) (loaded : dev ≠ .loading)
    (runs : dev.runs = true → dev'.runs = true) : RunLaw dev' wait roles where
  waits hw := runs (h.waits hw)
  load := h.load
  owner role hr := by
    obtain ⟨_, loading⟩ | ⟨other, running⟩ := h.owner role hr
    · exact absurd loading loaded
    · exact .inr ⟨other, runs running⟩

/-- A device at rest has no requests (R110). -/
theorem RunLaw.roles_eq_zero {dev : DevState} {wait : Bool} {roles : Multiset OwnRole}
    (h : RunLaw dev wait roles) (loaded : dev ≠ .loading) (rests : dev.runs = false) :
    roles = 0 := by
  refine Multiset.eq_zero_of_forall_notMem fun role hr => ?_
  obtain ⟨_, loading⟩ | ⟨_, runs⟩ := h.owner role hr
  · exact loaded loading
  · rw [rests] at runs
    cases runs

/-- With the JCB_READ answered no request is left in LOADING (R157). -/
theorem RunLaw.roles_eq_zero_of_loading {wait : Bool} {jcb : Addr} {roles : Multiset OwnRole}
    (h : RunLaw .loading wait (.jcbRead jcb ::ₘ roles)) : roles = 0 := by
  have load := h.load
  rw [Multiset.countP_cons_of_pos (p := fun role : OwnRole => role.kind = .jcbRead) _ rfl] at load
  have none := Multiset.countP_eq_zero.1
    (show roles.countP (fun role => role.kind = .jcbRead) = 0 by omega)
  refine Multiset.eq_zero_of_forall_notMem fun role hr => ?_
  obtain ⟨jcb, _⟩ | ⟨_, runs⟩ := h.owner role (Multiset.mem_cons_of_mem hr)
  · exact none role hr jcb
  · cases runs

/-! #### The Journal Writer -/

theorem count_slotWrite_of_no_slot {roles : Multiset OwnRole} (none : slotCount roles = 0) :
    roles.count .slotWrite = 0 :=
  Multiset.count_eq_zero.2 fun hr => Multiset.countP_eq_zero.1 none _ hr rfl

/-- The writer has no request. -/
theorem SlotLaw.of_no_slot {journal : Journal} {dev : DevState} {roles : Multiset OwnRole}
    (none : slotCount roles = 0) (polls : journal.timer.isSome = true → journal.wait = true)
    (waits : journal.wait = true → dev.runs = true ∧ journal.writer = .waiting) :
    SlotLaw journal dev roles where
  one := by omega
  standby _ := none
  polls ht := ⟨polls ht, none⟩
  waits hw := by
    obtain ⟨runs, waiting⟩ := waits hw
    exact ⟨runs, waiting, count_slotWrite_of_no_slot none⟩

/-- The writer's one request joins (R99, R100, R102). -/
theorem SlotLaw.join {journal : Journal} {dev : DevState} {roles : Multiset OwnRole}
    {role : OwnRole} (calm : slotCount roles = 0) (busy : journal.writer ≠ .standby)
    (timer : journal.timer = none)
    (waits : journal.wait = true → dev.runs = true ∧ journal.writer = .waiting ∧ role = .slotRead) :
    SlotLaw journal dev (role ::ₘ roles) where
  one := by
    rw [slotCount_cons, calm]
    split_ifs <;> omega
  standby hw := absurd hw busy
  polls ht := by
    rw [timer] at ht
    cases ht
  waits hw := by
    obtain ⟨runs, waiting, rfl⟩ := waits hw
    refine ⟨runs, waiting, ?_⟩
    rw [Multiset.count_cons_of_ne (by decide)]
    exact count_slotWrite_of_no_slot calm

/-- With its one request answered the writer has none left (R99, R100). -/
theorem SlotLaw.answered {journal : Journal} {dev : DevState} {roles : Multiset OwnRole}
    {role : OwnRole} (h : SlotLaw journal dev (role ::ₘ roles)) (slot : role.isSlot = true) :
    slotCount roles = 0 ∧ journal.timer = none := by
  have one := h.one
  rw [slotCount_cons, if_pos slot] at one
  refine ⟨by omega, Option.not_isSome_iff_eq_none.1 fun ht => ?_⟩
  obtain ⟨_, none⟩ := h.polls ht
  rw [slotCount_cons, if_pos slot] at none
  omega

theorem State.queueSlotRead_journal (s : State) : s.queueSlotRead.journal = s.journal := by
  unfold State.queueSlotRead
  split <;> rfl

theorem State.queueSlotWrite_journal (s : State) (op : Addr → Record → Op) :
    (s.queueSlotWrite op).journal = s.journal := by
  unfold State.queueSlotWrite
  split <;> rfl

/-- A SLOT_READ is queued, and the writer goes on in another state (R99, R102). -/
theorem Owned.queueSlotRead {s : State} {journal : Journal}
    (h : OwnedAs { s with journal } (.slotRead ::ₘ s.roles)) :
    Owned { s.queueSlotRead with journal } := by
  unfold State.queueSlotRead
  split
  · exact h.settled
  · exact h.queued (by decide) _ _

/-- A SLOT_WRITE is queued, and the writer goes on in another state (R100). -/
theorem Owned.queueSlotWrite {s : State} {journal : Journal}
    (h : OwnedAs { s with journal } (.slotWrite ::ₘ s.roles)) (op : Addr → Record → Op) :
    Owned { s.queueSlotWrite op with journal } := by
  unfold State.queueSlotWrite
  split
  · exact h.queued (by decide) _ _
  · exact h.settled

end Sys2Proof.Machine

/-! ### The law of own requests under each event (R56, R77 to R80, R83 to R85, R99 to R104, R123,
R157 to R161) -/

namespace Sys2Proof.Machine

/-! #### Grants and the arbiter -/

theorem Owned.grantBuffer {s : State} (law : TableLaw s) (h : Owned s) {g : HeldReq} {e : Entry}
    {n : Nat} (due : s.dueGrant = some (g, e, n)) : Owned (s.grantBuffer g e n) := by
  obtain ⟨dev, ⟨slot, _, _, found⟩, may, _⟩ := State.dueGrant_spec due
  have pending : e.state = .pending := by
    simp only [State.mayTake, Bool.and_eq_true, decide_eq_true_iff] at may
    exact may.1
  have one := law.oneAt found
  have runs : s.epoch.dev.runs = true := by rw [dev]; rfl
  have kinds : ∀ line, (OwnRole.captureRead e.slot n line).kind ≠ .jcbRead := fun _ => by
    simp [OwnRole.kind]
  have classed : (s.grantBuffer g e n).Classed := by
    refine ⟨fun r hr => ?_, h.classed.2⟩
    rcases List.mem_append.1 hr with hr | hr
    · exact h.classed.1 r hr
    · obtain ⟨_, _, rfl⟩ := List.mem_map.1 hr
      rfl
  unfold Owned
  rw [State.roles_grantBuffer]
  exact ⟨classed, h.capture.grant one n pending,
    ((((h.copy.alter one (by simp [pending])).cons rfl).cons rfl).cons rfl).cons rfl,
    (((h.slot.cons rfl).cons rfl).cons rfl).cons rfl,
    (((h.run.cons (kinds 3) runs).cons (kinds 2) runs).cons (kinds 1) runs).cons (kinds 0) runs⟩

theorem Owned.grantBuffers {s : State} (law : TableLaw s) (h : Owned s) : Owned s.grantBuffers :=
  (grantLoop_induct (P := fun u => TableLaw u ∧ Owned u)
    (fun _ _ _ _ hu due => ⟨hu.1.grantBuffer due, hu.2.grantBuffer hu.1 due⟩) _ s ⟨law, h⟩).2

theorem Owned.handOver {s : State} (law : TableLaw s) (h : Owned s) : Owned s.handOver :=
  (h.grantBuffers law).handChanges

theorem Owned.endCut {s : State} (law : TableLaw s) (h : Owned s) : Owned s.endCut :=
  (h.grantBuffers law).of_lawView (State.lawView_handChanges s.grantBuffers.restartPeaks)

theorem Owned.issue {s t : State} (h : Owned s) (he : execIssue s = .next t) : Owned t := by
  have moved : ∀ {u : State}, u.Classed → (∀ p, u.liveCount p = s.liveCount p) →
      u.table = s.table → u.ownView = s.ownView → Owned u := fun {u} classed counts table view => by
    refine h.of_le classed (le_of_eq ?_) (table ▸ .refl _) view
    ext role
    rw [State.count_roles, State.count_roles, counts]
  unfold execIssue at he
  split at he <;> cases he
  · exact h
  · rename_i r chosen
    have queued := List.mem_of_find?_eq_some (State.choose_eq_capture chosen).1
    exact moved ⟨fun q hq => h.classed.1 q (List.mem_of_mem_erase hq), h.classed.2⟩
      (State.liveCount_issueC queued) rfl rfl
  · rename_i r chosen
    have queued := List.mem_of_find?_eq_some
      (State.issuableB_eq_some (State.choose_eq_background chosen)).1
    exact moved ⟨h.classed.1, fun q hq => h.classed.2 q (List.mem_of_mem_erase hq)⟩
      (fun p => State.liveCount_issueB queued p 0) rfl rfl
  · exact ⟨h.classed, h.capture, h.copy, h.slot, h.run⟩

/-! #### Captures and copy-outs -/

/-- The walk behind a completed capture (R57). -/
theorem Owned.releaseWalk {s : State} (h : Owned s) (b : Block) (slot : Nat) (q : List HeldReq) :
    let t := Machine.releaseWalk b slot q [] false s
    Owned (t.1.setHold t.2) := by
  refine h.of_engines ?_ (SameWork.releaseWalk s b slot q [] false)
  show (Machine.releaseWalk b slot q [] false s).1.engines = _
  rw [releaseWalk_eq]
  rfl

theorem OwnedAs.captureLine {s : State} {slot buffer line : Nat} (law : TableLaw s)
    (h : OwnedAs s (.captureRead slot buffer line ::ₘ s.roles)) (n m : Nat) (data : Line) :
    Owned (s.captureLine slot n m data) := by
  have le := Multiset.le_cons_self s.roles (.captureRead slot buffer line)
  have placed : ∀ pool, Owned { s with pool } := fun _ =>
    ⟨h.classed, h.settled.capture, h.settled.copy, h.settled.slot, h.settled.run⟩
  unfold State.captureLine
  dsimp only
  split
  · exact placed _
  · rename_i e found
    have one := law.oneAt found
    obtain ⟨_, rfl⟩ := State.entryAt_mem found
    split_ifs with capturing more
    · exact ⟨h.classed, h.capture.count one rfl,
        (h.copy.alter one (by simp [capturing])).mono (.refl _) le, h.slot.mono rfl id le,
        h.run.mono le⟩
    · have imaged : ∀ pool, Owned (State.slotImaged { s with pool } e.slot) := fun _ =>
        ⟨h.classed, h.capture.complete one rfl capturing more,
          (h.copy.alter one (by simp [capturing])).mono (.refl _) le, h.slot.mono rfl id le,
          h.run.mono le⟩
      exact (imaged _).releaseWalk e.block e.slot s.hold
    · exact placed _

/-- With the fourth line done the image is filed, and its DESC_WRITE queued (R84). -/
theorem Owned.completeImage {s : State} (h : Owned s) (runs : s.epoch.dev.runs = true) {e : Entry}
    (one : OneAt s.table e) (copying : e.state = .copying) {p : CopyOutPlace}
    (hp : p ∈ s.copyOut.places) (slot : p.slot = e.slot) (done : p.linesDone = 4)
    (q : CopyOutPlace) : Owned (s.completeImage e q) := by
  have filed : OwnedAs
      (s.modifyEntry e.slot fun x =>
        { x with state := .filing, poolBuf := none, imageBuf := some q.image })
      (.descWrite e.slot ::ₘ s.roles) :=
    ⟨h.classed, (h.capture.alter one (by simp [copying]) (by simp)).cons rfl,
      h.copy.file one copying hp slot done q.image, h.slot.cons rfl,
      h.run.cons (by simp [OwnRole.kind]) runs⟩
  unfold State.completeImage
  dsimp only
  split
  · exact filed.settled
  · exact filed.queued (by simp [OwnRole.kind]) _ _

theorem OwnedAs.imageLine {s : State} {slot : Nat} (law : TableLaw s)
    (h : OwnedAs s (.imageWrite slot ::ₘ s.roles)) : Owned (s.imageLine slot) := by
  have settled := h.settled
  unfold State.imageLine
  split
  · rename_i p e place found
    have one := law.oneAt found
    obtain ⟨_, rfl⟩ := State.entryAt_mem found
    have hp := List.mem_of_find?_eq_some place
    have same : p.slot = e.slot := by simpa using List.find?_some place
    have counted : Owned { s with copyOut.places := lineDone s.copyOut.places e.slot } :=
      ⟨h.classed, settled.capture, h.copy.lineDone, settled.slot, settled.run⟩
    dsimp only
    split_ifs with done
    · obtain ⟨last, copying⟩ := done
      have own := List.mem_map_of_mem (f := fun q : CopyOutPlace =>
        if q.slot = e.slot then { q with linesDone := q.linesDone + 1 } else q) hp
      rw [if_pos same] at own
      exact counted.completeImage (h.runs (by simp [OwnRole.kind])) one copying own same last p
    · exact counted
  · exact settled

theorem OwnedAs.completeDesc {s : State} {slot : Nat} (law : TableLaw s)
    (h : OwnedAs s (.descWrite slot ::ₘ s.roles)) : Owned (s.completeDesc slot) := by
  have settled := h.settled
  unfold State.completeDesc
  split
  · exact settled
  · rename_i e found
    have one := law.oneAt found
    obtain ⟨_, rfl⟩ := State.entryAt_mem found
    split_ifs with filing
    · have logged : Owned
          { s.modifyEntry e.slot fun x => { x with state := .logged } with
            copyOut.places := s.copyOut.places.filter (·.slot != e.slot) } :=
        ⟨h.classed, settled.capture.alter one (by simp [filing]) (by simp),
          h.copy.log one filing, settled.slot, settled.run⟩
      unfold State.countImage
      dsimp only
      split_ifs <;> exact logged.of_engines rfl (.refl _)
    · exact settled

theorem Owned.startCopyOut {s : State} (law : TableLaw s) (h : Owned s) {e : Entry} {buffer : Nat}
    {image : ImageBuf} (due : s.dueCopyOut = some (e, buffer, image)) :
    Owned (s.startCopyOut e buffer image) := by
  obtain ⟨found, imaged⟩ := State.dueCopyOut_entryAt due
  have one := law.oneAt found
  have runs : s.epoch.dev.runs = true := by
    unfold State.dueCopyOut at due
    split_ifs at due with running
    rw [← s.running_eq]
    exact running.1
  have kind : (OwnRole.imageWrite e.slot).kind ≠ .captureRead ∧
      (OwnRole.imageWrite e.slot).kind ≠ .jcbRead := by simp [OwnRole.kind]
  obtain ⟨kind, other⟩ := kind
  have started : OwnedAs
      { s.modifyEntry e.slot (fun x => { x with state := .copying }) with
        copyOut.imaged := s.copyOut.imaged.tail
        copyOut.cache := s.copyOut.cache.tail
        copyOut.places := s.copyOut.places ++
          [{ slot := e.slot, buffer, image, linesDone := 0 }] }
      (.imageWrite e.slot ::ₘ .imageWrite e.slot ::ₘ .imageWrite e.slot ::ₘ
        .imageWrite e.slot ::ₘ s.roles) :=
    ⟨h.classed,
      ((((h.capture.alter one (by simp [imaged]) (by simp)).cons rfl).cons rfl).cons rfl).cons rfl,
      h.copy.start one imaged buffer image,
      (((h.slot.cons rfl).cons rfl).cons rfl).cons rfl,
      (((h.run.cons other runs).cons other runs).cons other runs).cons other runs⟩
  simp only [State.startCopyOut, List.foldl, State.queueImageWrite]
  unfold Owned
  simp only [State.roles_queueB]
  exact (((started.queueB kind _ _).queueB kind _ _).queueB kind _ _).queueB kind _ _

end Sys2Proof.Machine

/-! ### The law of own requests in the rings' waits, drains and errors (R77 to R80, R99 to R104,
R123, R127, R142, R157) -/

namespace Sys2Proof.Machine

/-! #### The descriptor's reader -/

theorem Owned.queueDescRead {s : State} (h : Owned s) (runs : s.epoch.dev.runs = true) :
    Owned s.queueDescRead := by
  unfold State.queueDescRead
  split
  · exact h
  · have joined : OwnedAs s (.descRead ::ₘ s.roles) :=
      ⟨h.classed, h.capture.cons rfl, h.copy.cons rfl, h.slot.cons rfl, h.run.cons (by decide) runs⟩
    exact joined.queued (by decide) _ _

theorem Owned.rereadDesc {s : State} (h : Owned s) (runs : s.epoch.dev.runs = true) :
    Owned s.rereadDesc :=
  (h.queueDescRead runs).of_engines rfl (.refl _)

/-- A FIR wait begins or ends while the engines run (R78, R80). -/
theorem Owned.takeDescriptor {s : State} (h : Owned s) (runs : s.epoch.dev.runs = true)
    (data : Line) : Owned (s.takeDescriptor data) := by
  unfold State.takeDescriptor
  split
  · exact h
  · dsimp only
    split_ifs
    all_goals
      exact ⟨h.classed, h.capture, h.copy, h.slot, fun _ => runs, h.run.load, h.run.owner⟩

/-! #### The Journal Writer -/

theorem OwnedAs.takeSlot {s : State} (h : OwnedAs s (.slotRead ::ₘ s.roles)) (data : Line) :
    Owned (s.takeSlot data) := by
  have settled := h.settled
  have runs := h.runs (by decide)
  obtain ⟨calm, _⟩ := h.slot.answered rfl
  unfold State.takeSlot
  split
  · exact settled
  · dsimp only
    split_ifs
    · rw [State.queueSlotWrite_journal]
      refine Owned.queueSlotWrite (s := s.endRingWait) ?_ bodyWrite
      exact ⟨settled.classed, settled.capture.cons rfl, settled.copy.cons rfl,
        SlotLaw.join calm (by simp) rfl (by simp [State.endRingWait]),
        settled.run.cons (by decide) runs⟩
    all_goals
      exact ⟨settled.classed, settled.capture, settled.copy,
        SlotLaw.of_no_slot calm (fun _ => rfl) fun _ => ⟨runs, rfl⟩, settled.run⟩

theorem State.mem_roles_abandonDescRead {s : State} (captures : s.CapturesOnly) {role : OwnRole}
    (h : role ∈ s.abandonDescRead.roles) : role ∈ s.roles ∧ role ≠ .descRead := by
  obtain ⟨r, hr, rfl⟩ := (State.mem_roles _ _).1 h
  simp only [State.mem_roles, State.live, List.mem_append, List.mem_map, List.mem_filter]
  rw [State.abandonDescRead_eq] at hr
  rcases List.mem_append.1 hr with hr | hr
  · rcases List.mem_append.1 hr with hr | hr
    · refine ⟨⟨r, .inl (.inl hr), rfl⟩, fun desc => ?_⟩
      have kind := captures r hr
      rw [desc] at kind
      cases kind
    · obtain ⟨hr, other⟩ := List.mem_filter.1 hr
      exact ⟨⟨r, .inl (.inr hr), rfl⟩, by simpa using other⟩
  · obtain ⟨i, hi, rfl⟩ := List.mem_map.1 hr
    obtain ⟨hi, awaited⟩ := List.mem_filter.1 hi
    obtain ⟨j, hj, rfl⟩ := List.mem_map.1 hi
    split_ifs at awaited ⊢ with desc
    · cases awaited
    · exact ⟨⟨j.req, .inr ⟨j, ⟨hj, awaited⟩, rfl⟩, rfl⟩, desc⟩

theorem CopyLaw.places_eq_nil {places : List CopyOutPlace} {roles : Multiset OwnRole}
    (h : CopyLaw [] places roles) : places = [] := by
  refine List.eq_nil_iff_forall_not_mem.2 fun p hp => ?_
  obtain ⟨x, hx, _⟩ := h.place p hp
  cases hx

/-- Without entries, JCB_READ and Journal Writer's requests only a DESC_READ is left. -/
theorem OwnedAs.eq_descRead {s : State} {roles : Multiset OwnRole} (h : OwnedAs s roles)
    (empty : s.table = []) (calm : slotCount roles = 0) (loaded : s.epoch.dev ≠ .loading)
    {role : OwnRole} (hr : role ∈ roles) : role = .descRead := by
  obtain ⟨_, capture, copy, _, run⟩ := h
  rw [empty] at capture copy
  have noSlot := Multiset.countP_eq_zero.1 calm role hr
  have noPlace : ∀ n, role.placeSlot ≠ some n := fun n hn => by
    obtain ⟨p, hp, _⟩ := copy.placed role hr n hn
    rw [copy.places_eq_nil] at hp
    cases hp
  cases role with
  | captureRead slot buffer line =>
    obtain ⟨x, hx, _⟩ := capture.entry _ hr slot rfl
    cases hx
  | imageWrite slot => exact absurd rfl (noPlace slot)
  | descWrite slot => exact absurd rfl (noPlace slot)
  | descRead => rfl
  | slotRead => exact absurd rfl noSlot
  | slotWrite => exact absurd rfl noSlot
  | jcbRead jcb =>
    obtain ⟨_, loading⟩ | ⟨other, _⟩ := run.owner _ hr
    · exact absurd loading loaded
    · exact absurd rfl other

/-- The last entry has been retired and the last record written: only a DESC_READ can be under
way, and it is abandoned (R80, R123). -/
theorem Owned.completeDrain {s : State} (h : Owned s) (calm : slotCount s.roles = 0)
    (journal : s.journal.wait = false ∧ s.journal.timer = none)
    (empty : s.epoch.dev = .finishing → s.table = []) : Owned s.completeDrain := by
  obtain ⟨tracks, finishes⟩ := s.completeDrain_eq
  obtain ⟨waits, timer⟩ := journal
  have ended : Owned s.drainEnded := ⟨h.classed, h.capture, h.copy, h.slot, h.run⟩
  by_cases dev : s.epoch.dev = .finishing
  · rw [finishes dev]
    refine ended.of_no_roles ?_ rfl (SlotLaw.of_no_slot rfl ?_ ?_) (fun hw => by cases hw)
    · refine Multiset.eq_zero_of_forall_notMem fun role hr => ?_
      obtain ⟨hr, other⟩ := State.mem_roles_abandonDescRead
        (s := s.drainEnded.endFirWait) h.classed.1 hr
      exact other (h.eq_descRead (empty dev) calm (by simp [dev]) hr)
    · show s.journal.timer.isSome = true → _
      simp [timer]
    · show s.journal.wait = true → _
      simp [waits]
  · rw [tracks dev]
    exact ended

theorem OwnedAs.slotWritten {s : State} (law : EpochLaw s)
    (h : OwnedAs s (.slotWrite ::ₘ s.roles)) : Owned s.slotWritten := by
  have settled := h.settled
  have runs := h.runs (by decide)
  obtain ⟨calm, timer⟩ := h.slot.answered rfl
  have waits : s.journal.wait = false := Bool.eq_false_of_not_eq_true fun hw => by
    obtain ⟨_, _, none⟩ := h.slot.waits hw
    rw [Multiset.count_cons_self] at none
    omega
  unfold State.slotWritten
  split
  · dsimp only
    rw [State.queueSlotWrite_journal]
    refine Owned.queueSlotWrite ?_ headerWrite
    exact ⟨settled.classed, settled.capture.cons rfl, settled.copy.cons rfl,
      SlotLaw.join calm (by simp) timer (by simp [waits]), settled.run.cons (by decide) runs⟩
  · cases hring : s.journal.ring with
    | none =>
      unfold State.recordWritten
      rw [hring]
      exact settled
    | some ring =>
      cases hq : s.journal.queue with
      | nil =>
        unfold State.recordWritten
        rw [hring, hq]
        exact settled
      | cons r rest =>
        obtain ⟨goesOn, ends⟩ := State.recordWritten_of_head hring hq
        have written : Owned (s.headWritten ring rest) :=
          ⟨settled.classed, settled.capture, settled.copy,
            SlotLaw.of_no_slot calm (by simp [State.headWritten, timer])
              (by simp [State.headWritten, waits]), settled.run⟩
        by_cases closes : s.epoch.draining = true ∧ ∃ sum n m, r = .closing sum n m
        · rw [ends closes]
          obtain ⟨draining, closing⟩ := closes
          refine written.completeDrain calm ⟨waits, timer⟩ fun dev => ?_
          have dev : s.epoch.dev = .finishing := dev
          have drained := law.drains hq ((Record.isClosing_iff r).2 closing) draining
          exact (drained.atRest (.inr (.inr (by simp [State.drained, dev])))).1
        · rw [goesOn closes]
          exact written
  all_goals exact settled

/-! #### Polls and KICK -/

/-- No request of a kind is under way where none is pending; capture reads stand in class C
(R134). -/
theorem Owned.not_pending {s : State} (h : Owned s) {kind : OwnKind} (other : kind ≠ .captureRead)
    (free : s.ownPending kind = false) : ∀ role ∈ s.roles, role.kind ≠ kind := by
  unfold State.ownPending at free
  rw [Bool.or_eq_false_iff, List.any_eq_false, List.any_eq_false] at free
  obtain ⟨unqueued, unissued⟩ := free
  refine (s.forall_roles _).2 fun r hr same => ?_
  rcases List.mem_append.1 hr with hr | hr
  · rcases List.mem_append.1 hr with hr | hr
    · exact other (same.symm.trans (h.classed.1 r hr))
    · exact unqueued r hr (decide_eq_true same)
  · obtain ⟨i, hi, rfl⟩ := List.mem_map.1 hr
    obtain ⟨hi, awaited⟩ := List.mem_filter.1 hi
    exact unissued i hi (by rw [awaited, decide_eq_true same]; rfl)

/-- The writer has no request where no SLOT_READ is pending in a ring wait (R102). -/
theorem Owned.no_slot {s : State} (h : Owned s) (free : s.ownPending .slotRead = false)
    (waits : s.journal.wait = true) : slotCount s.roles = 0 := by
  obtain ⟨_, _, noWrite⟩ := h.slot.waits waits
  have noRead := h.not_pending (by decide) free
  refine Multiset.countP_eq_zero.2 fun role hr slot => ?_
  cases role with
  | slotRead => exact noRead _ hr rfl
  | slotWrite => exact Multiset.count_eq_zero.1 noWrite hr
  | _ => cases slot

/-- The waiting slot is read again, and its timer stops (R102). -/
theorem Owned.rereadSlot {s : State} (h : Owned s) (calm : slotCount s.roles = 0)
    (waits : s.journal.wait = true) : Owned s.rereadSlot := by
  obtain ⟨runs, waiting, _⟩ := h.slot.waits waits
  unfold State.rereadSlot
  dsimp only
  rw [State.queueSlotRead_journal]
  refine Owned.queueSlotRead ?_
  exact ⟨h.classed, h.capture.cons rfl, h.copy.cons rfl,
    SlotLaw.join calm (by simp [waiting]) rfl fun _ => ⟨runs, waiting, rfl⟩,
    h.run.cons (by decide) runs⟩

theorem Owned.takeKick {s : State} (h : Owned s) : Owned s.takeKick := by
  have fir : ∀ u : State, Owned u → Owned u.kickFir := fun u hu => by
    unfold State.kickFir
    split_ifs with due
    · simp only [Bool.and_eq_true] at due
      exact hu.rereadDesc (hu.run.waits due.1)
    · exact hu
  have ring : ∀ u : State, Owned u → Owned u.kickRing := fun u hu => by
    unfold State.kickRing
    split_ifs with due
    · simp only [Bool.and_eq_true, Bool.not_eq_true'] at due
      exact hu.rereadSlot (hu.no_slot due.2 due.1) due.1
    · exact hu
  exact ring _ (fir _ ⟨h.classed, h.capture, h.copy, h.slot, h.run⟩)

/-! #### Loads, errors and STOP -/

/-- The JCB has been read: LOADING ends with no request left (R158, R159). -/
theorem OwnedAs.checkJcb {s : State} {jcb : Addr} (h : OwnedAs s (.jcbRead jcb ::ₘ s.roles))
    (loading : s.epoch.dev = .loading) (q : Quad) : Owned (s.checkJcb q) := by
  have settled := h.settled
  have none : s.roles = 0 := (loading ▸ h.run).roles_eq_zero_of_loading
  have moves : ∀ d : DevState, s.epoch.dev.runs = true → d.runs = true := fun d runs => by
    rw [loading] at runs
    cases runs
  unfold State.checkJcb
  split_ifs
  all_goals
    exact settled.of_no_roles none rfl (settled.slot.mono rfl (moves _) (Multiset.zero_le _))
      fun hw => moves _ (settled.run.waits hw)

theorem Owned.memoryError {s : State} (h : Owned s) (r : OwnReq) (cause : ErrCause) :
    Owned (s.memoryError r cause) := by
  have none : ∀ u : State, u.dropOwn.roles = 0 := State.roles_dropOwn
  unfold State.memoryError
  generalize hu : ({ s with mem.err := some ⟨r.role.kind, cause, r.addr⟩ } : State) = u
  have recorded : Owned u := by
    rw [← hu]
    exact ⟨h.classed, h.capture, h.copy, h.slot, h.run⟩
  have stays : Owned u.dropOwn :=
    recorded.of_no_roles (none u) rfl (recorded.slot.mono rfl id (Multiset.zero_le _))
      recorded.run.waits
  have halts : Owned u.halt.dropOwn :=
    recorded.of_no_roles (none _) (by rw [State.halt_eq]; rfl)
      (SlotLaw.of_no_slot rfl (by rw [State.halt_eq]; simp) (by rw [State.halt_eq]; simp))
      (by rw [State.halt_eq]; simp)
  unfold State.reportError
  split
  · rename_i dev
    have moves : u.epoch.dev.runs = true → DevState.runs .idle = true := fun runs => by
      rw [dev] at runs
      cases runs
    exact recorded.of_no_roles (none _) rfl (recorded.slot.mono rfl moves (Multiset.zero_le _))
      fun hw => moves (recorded.run.waits hw)
  · exact halts
  · exact halts
  all_goals exact stays

theorem Owned.acceptLoad {s : State} (h : Owned s)
    (dev : s.epoch.dev = .idle ∨ s.epoch.dev = .ready) : Owned s.acceptLoad := by
  have rests : s.epoch.dev ≠ .loading ∧ s.epoch.dev.runs = false := by
    rcases dev with dev | dev <;> rw [dev] <;> exact ⟨by decide, rfl⟩
  obtain ⟨loaded, rests⟩ := rests
  have none := h.run.roles_eq_zero loaded rests
  have waits : s.journal.wait = false := Bool.eq_false_of_not_eq_true fun hw => by
    rw [(h.slot.waits hw).1] at rests
    cases rests
  have calm : slotCount s.roles = 0 := by rw [none]; rfl
  have run : RunLaw .loading false (.jcbRead s.cmd.jcbAddr ::ₘ s.roles) := by
    rw [none]
    refine ⟨Bool.noConfusion, ?_, fun role hr => ?_⟩
    · exact Multiset.countP_le_card _ _
    · rw [Multiset.mem_singleton.1 hr]
      exact .inl ⟨rfl, rfl⟩
  have slot : SlotLaw
      { s.journal with index := 0, ring := Option.none, writer := .standby } .loading s.roles :=
    SlotLaw.of_no_slot calm (fun ht => (h.slot.polls ht).1) (by simp [waits])
  unfold State.acceptLoad
  refine OwnedAs.queued ?_ (by simp [OwnRole.kind]) _ _
  exact ⟨h.classed, h.capture.cons rfl, h.copy.cons rfl,
slot.cons rfl, run⟩

theorem Owned.reset : Owned State.reset := (ownLaw_iff _).1 OwnLaw.reset

/-- STOP leaves no request, no entry and no copy-out (R89, R128, R145). -/
theorem Owned.takeStop (s : State) : Owned s.takeStop := by
  have stopped : Owned s.stopBlocks := by
    refine Owned.reset.of_no_roles ?_ rfl (SlotLaw.of_no_slot rfl ?_ ?_) fun hw => by cases hw
    · ext role
      rw [State.count_roles, State.liveCount_eq, State.stopBlocks_eq]
      simp
    · exact fun ht => by cases ht
    · exact fun hw => by cases hw
  have handed := stopped.handChanges
  unfold State.takeStop
  generalize s.stopBlocks.handChanges = u at handed ⊢
  exact handed.of_engines rfl (.refl _)

end Sys2Proof.Machine

/-! ### Every step keeps the law of own requests (R56, R77 to R85, R99 to R104, R114, R134, R142,
R157) -/

namespace Sys2Proof.Machine

/-! #### Writes, overflows, retirements and cuts: the entries at work stay -/

/-- No entry at work has a BUFFER waiter, so what frees the waiters' entries leaves those at work
(R38). -/
theorem BuffersWait.sameWork {s : State} (h : BuffersWait s.table s.hold) :
    SameWork s.table (s.table.filter fun e => !s.buffered e.slot) := by
  refine SameWork.filter _ fun e he work => ?_
  rw [Bool.not_eq_true', State.buffered, List.any_eq_false]
  intro g hg waits
  have slot : g.bufferSlot = some e.slot := (bufferSlot_eq_some g _).2 (beq_iff_eq.1 waits)
  have idle := (h g hg e.slot slot e he rfl).not_atWork
  rw [work] at idle
  cases idle

theorem Owned.arriveWrite {s : State} (h : Owned s) (r : Request) : Owned (s.arriveWrite r) := by
  refine h.of_engines ?_ (SameWork.arriveWrite s r)
  unfold State.arriveWrite
  dsimp only
  split_ifs
  · rfl
  · rw [State.route_eq, State.classifyWrite_eq]
    rfl

theorem Owned.route {s : State} (h : Owned s) (r : Request) (x : Hold) : Owned (s.route r x) := by
  refine h.of_engines ?_ ?_ <;> rw [State.route_eq]
  · rfl
  · exact .refl _

theorem Owned.overflowEpoch {s : State} (h : Owned s) (waits : BuffersWait s.table s.hold) :
    Owned s.overflowEpoch := by
  refine h.of_engines ?_ ?_ <;> rw [State.overflowEpoch_eq]
  · rfl
  · exact waits.sameWork

theorem Owned.giveCause {s : State} (h : Owned s) (slot : Nat) (cause : Cause) :
    Owned (s.giveCause slot cause) := by
  refine h.of_engines rfl (SameWork.map _ fun x _ => ?_)
  split_ifs <;> rfl

theorem Owned.retireEntry {s : State} (law : TableLaw s) (h : Owned s) {e : Entry}
    (due : s.dueRetire = some e) : Owned (s.retireEntry e) := by
  obtain ⟨_, _, found, logged⟩ := State.dueRetire_entry due
  refine h.of_engines ?_ (SameWork.retireEntry law (State.entryAt_mem found).1 logged)
  rw [State.retireEntry_eq, State.grantEntry_eq]
  rfl

theorem Owned.reclassifyWaiters {s : State} (h : Owned s) (waits : BuffersWait s.table s.hold) :
    Owned s.reclassifyWaiters := by
  have freed : SameWork s.table s.freePending.table := by
    rw [State.freePending_eq]
    exact waits.sameWork
  refine h.of_engines ?_ (freed.trans (SameWork.reclassify s.freePending s.hold []))
  show (reclassify s.hold [] s.freePending).1.engines = _
  rw [reclassify_eq]
  rfl

/-- OPEN's cut begins with a device at rest (R110, R114). -/
theorem Owned.acceptOpen {s : State} (guarded : s.Guarded) (h : Owned s)
    (dev : s.epoch.dev = .ready) : Owned s.acceptOpen := by
  obtain ⟨law, waits⟩ := guarded
  have opened : Owned s.opened :=
    ⟨h.classed, h.capture, h.copy, h.slot.mono rfl (fun _ => rfl) le_rfl,
      h.run.moves (by simp [dev]) fun _ => rfl⟩
  have law' : TableLaw s.opened := law
  have cut : Owned s.cutOpen :=
    (opened.reclassifyWaiters waits).endCut law'.reclassifyWaiters
  unfold State.acceptOpen
  generalize s.cutOpen = u at cut ⊢
  exact cut.of_engines rfl (.refl _)

/-- CLOSE_SWITCH's cut leaves the engines at their work (R114). -/
theorem Owned.acceptSwitch {s : State} (guarded : s.Guarded) (h : Owned s)
    (dev : s.epoch.dev = .tracking) : Owned s.acceptSwitch := by
  obtain ⟨law, waits⟩ := guarded
  have table : s.switched.table = s.closedTable :=
    congrArg State.table (State.closeEntries_eq s.installStaged dev)
  have tasks : s.switched.table.map Entry.task = s.table.map Entry.task := by
    rw [table, State.tasks_closedTable]
  have work : SameWork s.table s.switched.table := .of_tasks tasks
  have switched : Owned s.switched :=
    ⟨h.classed, h.capture.mono work le_rfl, h.copy.mono work le_rfl,
      h.slot.mono rfl (fun _ => rfl) le_rfl, h.run.moves (by simp [dev]) fun _ => rfl⟩
  have law' : TableLaw s.switched := TableLaw.of_table law.closeEntries rfl
  have walked : Owned s.switched.reclassifyWaiters.copyLongestHold :=
    (switched.reclassifyWaiters (waits.of_tasks tasks)).of_engines rfl (.refl _)
  have cut : Owned s.cutSwitch := walked.endCut law'.reclassifyWaiters
  unfold State.acceptSwitch
  generalize s.cutSwitch = u at cut ⊢
  exact cut.of_engines rfl (.refl _)

/-- CLOSE_END's cut leaves the engines at their work (R114, R117). -/
theorem Owned.acceptEnd {s : State} (guarded : s.Guarded) (h : Owned s)
    (dev : s.epoch.dev = .tracking) : Owned s.acceptEnd := by
  obtain ⟨_, waits⟩ := guarded
  have closed : BuffersWait s.closedTable s.hold := waits.of_tasks s.tasks_closedTable
  have work : SameWork s.table (s.closedTable.filter fun e => !s.buffered e.slot) :=
    (SameWork.of_tasks s.tasks_closedTable).trans
      (BuffersWait.sameWork (s := { s with table := s.closedTable }) closed)
  have ended : Owned s.ended :=
    ⟨h.classed, h.capture.mono work le_rfl, h.copy.mono work le_rfl,
      h.slot.mono rfl (fun _ => rfl) le_rfl, h.run.moves (by simp [dev]) fun _ => rfl⟩
  have cut : Owned s.cutEnd := by
    rw [State.cutEnd_eq s dev]
    exact ended.handChanges
  unfold State.acceptEnd
  generalize s.cutEnd = u at cut ⊢
  exact cut.of_engines rfl (.refl _)

/-- A standing writer starts on a record (R99). -/
theorem Owned.startSlotRead {s : State} (h : Owned s) (due : s.dueSlotRead = true) :
    Owned { s.queueSlotRead with journal.writer := .reading } := by
  simp only [State.dueSlotRead, Bool.and_eq_true, decide_eq_true_iff] at due
  obtain ⟨⟨⟨running, standby⟩, _⟩, _⟩ := due
  have runs : s.epoch.dev.runs = true := s.running_eq ▸ running
  have idle : s.journal.wait ≠ true := fun waits => by
    obtain ⟨_, waiting, _⟩ := h.slot.waits waits
    rw [standby] at waiting
    cases waiting
  have timer : s.journal.timer = none :=
    Option.not_isSome_iff_eq_none.1 fun ht => idle (h.slot.polls ht).1
  dsimp only
  rw [State.queueSlotRead_journal]
  refine Owned.queueSlotRead ?_
  exact ⟨h.classed, h.capture.cons rfl, h.copy.cons rfl,
    SlotLaw.join (h.slot.standby standby) (by simp) timer fun waits => absurd waits idle,
    h.run.cons (by decide) runs⟩

theorem OwnRole.kind_eq_slotRead_iff (role : OwnRole) :
    role.kind = .slotRead ↔ role = .slotRead := by
  cases role <;> simp [OwnRole.kind]

theorem OwnRole.kind_eq_slotWrite_iff (role : OwnRole) :
    role.kind = .slotWrite ↔ role = .slotWrite := by
  cases role <;> simp [OwnRole.kind]

/-! #### Every command -/

/-- Two properties that are kept are kept together. -/
theorem Kept.and {P Q : State → Prop} (p : Kept P) (q : Kept Q) : Kept fun s => P s ∧ Q s where
  same _ _ v h := h.imp (p.same _ _ v) (q.same _ _ v)
  write _ _ _ _ _ _ _ h e := ⟨p.write _ _ _ _ _ _ _ h.1 e, q.write _ _ _ _ _ _ _ h.2 e⟩
  read _ _ _ _ _ h e := ⟨p.read _ _ _ _ _ h.1 e, q.read _ _ _ _ _ h.2 e⟩
  leave _ _ h e := ⟨p.leave _ _ h.1 e, q.leave _ _ h.2 e⟩
  issue _ _ h e := ⟨p.issue _ _ h.1 e, q.issue _ _ h.2 e⟩
  captureData _ _ _ _ h e := ⟨p.captureData _ _ _ _ h.1 e, q.captureData _ _ _ _ h.2 e⟩
  imageDone _ _ _ h e := ⟨p.imageDone _ _ _ h.1 e, q.imageDone _ _ _ h.2 e⟩
  descDone _ _ _ h e := ⟨p.descDone _ _ _ h.1 e, q.descDone _ _ _ h.2 e⟩
  descData _ _ _ _ h e := ⟨p.descData _ _ _ _ h.1 e, q.descData _ _ _ _ h.2 e⟩
  slotData _ _ _ _ h e := ⟨p.slotData _ _ _ _ h.1 e, q.slotData _ _ _ _ h.2 e⟩
  slotDone _ _ _ h e := ⟨p.slotDone _ _ _ h.1 e, q.slotDone _ _ _ h.2 e⟩
  jcbData _ _ _ _ h e := ⟨p.jcbData _ _ _ _ h.1 e, q.jcbData _ _ _ _ h.2 e⟩
  error _ _ _ h := h.imp (p.error _ _ _) (q.error _ _ _)
  abandoned _ _ h := h.imp (p.abandoned _ _) (q.abandoned _ _)
  limit _ _ h e := ⟨p.limit _ _ h.1 e, q.limit _ _ h.2 e⟩
  age _ _ h e := ⟨p.age _ _ h.1 e, q.age _ _ h.2 e⟩
  firPoll _ _ h e := ⟨p.firPoll _ _ h.1 e, q.firPoll _ _ h.2 e⟩
  ringPoll _ _ h e := ⟨p.ringPoll _ _ h.1 e, q.ringPoll _ _ h.2 e⟩
  grant _ _ h e := ⟨p.grant _ _ h.1 e, q.grant _ _ h.2 e⟩
  prefetch _ _ h e := ⟨p.prefetch _ _ h.1 e, q.prefetch _ _ h.2 e⟩
  copyOut _ _ h e := ⟨p.copyOut _ _ h.1 e, q.copyOut _ _ h.2 e⟩
  retire _ _ h e := ⟨p.retire _ _ h.1 e, q.retire _ _ h.2 e⟩
  closeRecord _ _ h e := ⟨p.closeRecord _ _ h.1 e, q.closeRecord _ _ h.2 e⟩
  slotRead _ _ h e := ⟨p.slotRead _ _ h.1 e, q.slotRead _ _ h.2 e⟩
  load _ h d := ⟨p.load _ h.1 d, q.load _ h.2 d⟩
  opens _ h d b := ⟨p.opens _ h.1 d b, q.opens _ h.2 d b⟩
  switches _ h d b := ⟨p.switches _ h.1 d b, q.switches _ h.2 d b⟩
  ends _ h d b := ⟨p.ends _ h.1 d b, q.ends _ h.2 d b⟩
  kick _ h := h.imp (p.kick _) (q.kick _)
  stop _ h := h.imp (p.stop _) (q.stop _)
  reset := ⟨p.reset, q.reset⟩

/-- The laws that the law of own requests leans on. -/
def State.Lawful (s : State) : Prop := s.Guarded ∧ EpochLaw s

theorem kept_lawful : Kept State.Lawful := tended_guarded.kept.and tended_epochLaw.kept

theorem kept_owned : Kept fun s => s.Lawful ∧ Owned s where
  same s t hv h := ⟨kept_lawful.same _ _ hv h.1, h.2.of_lawView hv⟩
  write s i a m d g t h he := by
    refine ⟨kept_lawful.write _ _ _ _ _ _ _ h.1 he, ?_⟩
    obtain ⟨⟨⟨law, _⟩, _⟩, own⟩ := h
    simp only [exec, execWriteArrival] at he
    split_ifs at he <;> cases he
    · have taken : Owned (s.takeRequest i a (.write m d) g).1 := own.of_engines rfl (.refl _)
      have law' : TableLaw (s.takeRequest i a (.write m d) g).1 := law
      exact (taken.arriveWrite _).handOver (law'.arriveWrite _)
    · exact own
  read s i a g t h he := by
    refine ⟨kept_lawful.read _ _ _ _ _ h.1 he, ?_⟩
    obtain ⟨_, own⟩ := h
    simp only [exec, execReadArrival] at he
    split_ifs at he <;> cases he
    · have taken : Owned (s.takeRequest i a .read g).1 := own.of_engines rfl (.refl _)
      exact taken.route _ _
    · exact own
  leave s t h he := by
    refine ⟨kept_lawful.leave _ _ h.1 he, ?_⟩
    obtain ⟨_, own⟩ := h
    simp only [exec, execReleasedLeave] at he
    split at he <;> cases he
    · exact own
    · exact own.of_engines rfl (.refl _)
  issue s t h he := ⟨kept_lawful.issue _ _ h.1 he, h.2.issue he⟩
  captureData s g d t h he := by
    refine ⟨kept_lawful.captureData _ _ _ _ h.1 he, ?_⟩
    obtain ⟨⟨⟨law, _⟩, _⟩, own⟩ := h
    cases he
    refine own.ownAnswer _ _ _ fun r _ took => ?_
    have law' : TableLaw (s.endOwn g) := law
    split
    · rename_i slot buffer line role
      rw [role] at took
      exact (took.captureLine law' _ _ _).handOver (tended_tableLaw.captureLine law' _ _ _ _)
    · exact took.settled
  imageDone s g t h he := by
    refine ⟨kept_lawful.imageDone _ _ _ h.1 he, ?_⟩
    obtain ⟨⟨⟨law, _⟩, _⟩, own⟩ := h
    cases he
    refine own.ownAnswer _ _ _ fun r _ took => ?_
    have law' : TableLaw (s.endOwn g) := law
    split
    · rename_i slot role
      rw [role] at took
      exact (took.imageLine law').handOver (tended_tableLaw.imageLine law' _)
    · exact took.settled
  descDone s g t h he := by
    refine ⟨kept_lawful.descDone _ _ _ h.1 he, ?_⟩
    obtain ⟨⟨⟨law, _⟩, _⟩, own⟩ := h
    cases he
    refine own.ownAnswer _ _ _ fun r _ took => ?_
    have law' : TableLaw (s.endOwn g) := law
    split
    · rename_i slot role
      rw [role] at took
      exact took.completeDesc law'
    · exact took.settled
  descData s g d t h he := by
    refine ⟨kept_lawful.descData _ _ _ _ h.1 he, ?_⟩
    obtain ⟨_, own⟩ := h
    cases he
    refine own.ownAnswer _ _ _ fun r fit took => ?_
    have kind : r.role.kind = .descRead := of_decide_eq_true fit
    exact took.settled.takeDescriptor (took.runs (by simp [kind])) d
  slotData s g d t h he := by
    refine ⟨kept_lawful.slotData _ _ _ _ h.1 he, ?_⟩
    obtain ⟨_, own⟩ := h
    cases he
    refine own.ownAnswer _ _ _ fun r fit took => ?_
    rw [(OwnRole.kind_eq_slotRead_iff _).1 (of_decide_eq_true fit)] at took
    exact took.takeSlot d
  slotDone s g t h he := by
    refine ⟨kept_lawful.slotDone _ _ _ h.1 he, ?_⟩
    obtain ⟨⟨_, epochs⟩, own⟩ := h
    cases he
    refine own.ownAnswer _ _ _ fun r fit took => ?_
    have epochs' : EpochLaw (s.endOwn g) := epochs
    rw [(OwnRole.kind_eq_slotWrite_iff _).1 (of_decide_eq_true fit)] at took
    exact took.slotWritten epochs'
  jcbData s g d t h he := by
    refine ⟨kept_lawful.jcbData _ _ _ _ h.1 he, ?_⟩
    obtain ⟨_, own⟩ := h
    cases he
    refine own.ownAnswer _ _ _ fun r _ took => ?_
    split
    · rename_i jcb role
      rw [role] at took
      split_ifs with loading
      · exact took.checkJcb loading _
      · exact took.settled
    · exact took.settled
  error s g c h :=
    ⟨kept_lawful.error _ _ _ h.1, h.2.ownAnswer _ _ _ fun r _ took => took.settled.memoryError r c⟩
  abandoned s g h := by
    refine ⟨kept_lawful.abandoned _ _ h.1, ?_⟩
    obtain ⟨_, own⟩ := h
    unfold State.endAbandoned
    split_ifs
    exacts [own.endOwn g, own]
  limit s t h he := by
    refine ⟨kept_lawful.limit _ _ h.1 he, ?_⟩
    obtain ⟨⟨⟨law, waits⟩, _⟩, own⟩ := h
    simp only [exec, execHoldLimitExpiry] at he
    split_ifs at he <;> cases he
    · exact (own.overflowEpoch waits).handOver (tended_tableLaw.overflows s law)
    · exact own
  age s t h he := by
    refine ⟨kept_lawful.age _ _ h.1 he, ?_⟩
    obtain ⟨_, own⟩ := h
    simp only [exec, execAgeExpiry] at he
    split at he <;> cases he
    exacts [own, own.giveCause _ _]
  firPoll s t h he := by
    refine ⟨kept_lawful.firPoll _ _ h.1 he, ?_⟩
    obtain ⟨_, own⟩ := h
    simp only [exec, execFirPollExpiry] at he
    split_ifs at he with due <;> cases he
    · simp only [State.dueFirPoll, Bool.and_eq_true] at due
      exact own.rereadDesc (own.run.waits due.1.2)
    · exact own
  ringPoll s t h he := by
    refine ⟨kept_lawful.ringPoll _ _ h.1 he, ?_⟩
    obtain ⟨_, own⟩ := h
    simp only [exec, execRingPollExpiry] at he
    split_ifs at he with due <;> cases he
    · simp only [State.dueRingPoll, Bool.and_eq_true, pollExpired_iff] at due
      obtain ⟨⟨_, waits⟩, _, elapsed, timer, _⟩ := due
      obtain ⟨_, calm⟩ := own.slot.polls (by rw [timer]; rfl)
      exact own.rereadSlot calm waits
    · exact own
  grant s t h he := by
    refine ⟨kept_lawful.grant _ _ h.1 he, ?_⟩
    obtain ⟨⟨⟨law, _⟩, _⟩, own⟩ := h
    simp only [exec, execBufferGrant] at he
    split at he <;> cases he
    · exact own
    · rename_i due
      exact (own.grantBuffer law due).handOver (law.grantBuffer due)
  prefetch s t h he := by
    refine ⟨kept_lawful.prefetch _ _ h.1 he, ?_⟩
    obtain ⟨_, own⟩ := h
    simp only [exec, execPrefetch] at he
    split_ifs at he with due <;> cases he
    · simp only [State.duePrefetch, Bool.and_eq_true, s.running_eq] at due
      obtain ⟨⟨⟨⟨⟨runs, _⟩, _⟩, _⟩, _⟩, _⟩ := due
      exact own.queueDescRead runs
    · exact own
  copyOut s t h he := by
    refine ⟨kept_lawful.copyOut _ _ h.1 he, ?_⟩
    obtain ⟨⟨⟨law, _⟩, _⟩, own⟩ := h
    simp only [exec, execCopyOutStart] at he
    split at he <;> cases he
    · exact own
    · rename_i due
      exact own.startCopyOut law due
  retire s t h he := by
    refine ⟨kept_lawful.retire _ _ h.1 he, ?_⟩
    obtain ⟨⟨⟨law, _⟩, _⟩, own⟩ := h
    simp only [exec, execRetirement] at he
    split at he <;> cases he
    · exact own
    · rename_i due
      exact (own.retireEntry law due).handOver (tended_tableLaw.retires s _ law due)
  closeRecord s t h he := by
    refine ⟨kept_lawful.closeRecord _ _ h.1 he, ?_⟩
    obtain ⟨_, own⟩ := h
    simp only [exec, execCloseRecordBuild] at he
    split at he <;> cases he
    exacts [own, own.of_engines rfl (.refl _)]
  slotRead s t h he := by
    refine ⟨kept_lawful.slotRead _ _ h.1 he, ?_⟩
    obtain ⟨_, own⟩ := h
    simp only [exec, execJournalSlotReadStart] at he
    split_ifs at he with due <;> cases he
    exacts [own.startSlotRead due, own]
  load s h dev := ⟨kept_lawful.load _ h.1 dev, h.2.acceptLoad dev⟩
  opens s h dev busy := ⟨kept_lawful.opens _ h.1 dev busy, h.2.acceptOpen h.1.1 dev⟩
  switches s h dev busy := ⟨kept_lawful.switches _ h.1 dev busy, h.2.acceptSwitch h.1.1 dev⟩
  ends s h dev busy := ⟨kept_lawful.ends _ h.1 dev busy, h.2.acceptEnd h.1.1 dev⟩
  kick s h := ⟨kept_lawful.kick _ h.1, h.2.takeKick⟩
  stop s h := ⟨kept_lawful.stop _ h.1, .takeStop s⟩
  reset := ⟨kept_lawful.reset, Owned.reset⟩

/-- Every step keeps the own requests to their engines. -/
theorem OwnLaw.step {s t : State} (law : TableLaw s) (epochs : EpochLaw s) (holds : HoldLaw s)
    (own : OwnLaw s) (he : step s = .next t) : OwnLaw t := by
  obtain ⟨_, kept⟩ := kept_owned.step s t
    ⟨⟨.of_holdLaw law holds, epochs⟩, (ownLaw_iff s).1 own⟩ he
  exact (ownLaw_iff t).2 kept

end Sys2Proof.Machine

/-! ### How many own requests there can be (R134) -/

namespace Sys2Proof.Machine

/-- Elements are counted key by key. -/
theorem countP_isSome_eq_sum {α : Type*} (m : Multiset α) (key : α → Option Nat)
    (keys : Finset Nat) (known : ∀ a ∈ m, ∀ n ∈ key a, n ∈ keys) :
    m.countP (fun a => (key a).isSome = true) = ∑ n ∈ keys, m.countP fun a => key a = some n := by
  induction m using Multiset.induction with
  | empty => simp
  | cons a m ih =>
    have rest := ih fun b hb => known b (Multiset.mem_cons_of_mem hb)
    simp only [Multiset.countP_cons, rest, Finset.sum_add_distrib]
    cases hk : key a with
    | none => simp
    | some n =>
      have hn : n ∈ keys := known a (Multiset.mem_cons_self a m) n hk
      simp [hn]

/-- Elements with keys of a finite set, so many at most for each key. -/
theorem countP_isSome_le {α : Type*} (m : Multiset α) (key : α → Option Nat)
    (keys : Finset Nat) (most : Nat) (known : ∀ a ∈ m, ∀ n ∈ key a, n ∈ keys)
    (few : ∀ n ∈ keys, m.countP (fun a => key a = some n) ≤ most) :
    m.countP (fun a => (key a).isSome = true) ≤ keys.card * most := by
  rw [countP_isSome_eq_sum m key keys known, ← smul_eq_mul]
  exact Finset.sum_le_card_nsmul keys _ most few

/-- Each capture holds a buffer of its own, so there are 64 at most (R70). -/
theorem TableLaw.captures_le {s : State} (law : TableLaw s) :
    (s.table.filter fun e => decide (e.state = .capturing)).length ≤ 64 := by
  obtain ⟨_, entries, nodup, below⟩ := law
  have buffers : (s.table.filterMap (·.poolBuf)).length ≤ 64 := by
    have inside : s.table.filterMap (·.poolBuf) ⊆ List.range 64 := fun n hn => by
      obtain ⟨e, he, buffer⟩ := List.mem_filterMap.1 hn
      exact List.mem_range.2 (below e he n buffer)
    simpa using (nodup.subperm inside).length_le
  refine le_trans ?_ buffers
  rw [List.length_filterMap_eq_countP, ← List.countP_eq_length_filter]
  refine List.countP_mono_left fun e he capturing => ?_
  obtain ⟨_, buffer, _⟩ := entries e he
  rw [buffer, of_decide_eq_true capturing]
  rfl

/-- The kinds of class B, by what bounds their number (R134). -/
theorem length_eq_of_background (l : List OwnRole)
    (kinds : ∀ role ∈ l, role.kind ≠ .captureRead ∧ role.kind ≠ .jcbRead) :
    l.length = l.countP (fun role => role.placeSlot.isSome) + l.countP OwnRole.isSlot +
      l.countP (fun role => decide (role.kind = .descRead)) := by
  induction l with
  | nil => rfl
  | cons role l ih =>
    have rest := ih fun x hx => kinds x (List.mem_cons_of_mem _ hx)
    have kind := kinds role List.mem_cons_self
    simp only [List.length_cons, List.countP_cons, rest]
    cases role <;>
      simp [OwnRole.kind, OwnRole.placeSlot, OwnRole.isSlot] at kind ⊢ <;> omega

/-- Fewer requests stand in a class than are live. -/
theorem State.countP_class_le (s : State) (p : OwnRole → Bool) :
    (s.mem.classC.map (·.role)).countP p ≤ s.liveCount p ∧
      (s.mem.classB.map (·.role)).countP p ≤ s.liveCount p := by
  rw [State.liveCount_eq, List.countP_map, List.countP_map]
  exact ⟨by simp only [Function.comp_def]; omega, by simp only [Function.comp_def]; omega⟩

/-- Four capture reads at most for each capture (R56). -/
theorem CaptureLaw.reads_le {table : List Entry} {roles : Multiset OwnRole}
    (h : CaptureLaw table roles) : roles.countP (fun role => role.captureSlot.isSome = true) ≤
      (table.filter fun e => decide (e.state = .capturing)).length * 4 := by
  have few := countP_isSome_le roles OwnRole.captureSlot
    ((table.filter fun e => decide (e.state = .capturing)).map (·.slot)).toFinset 4
    (fun role hr n hn => by
      obtain ⟨e, he, slot, capturing⟩ := h.entry role hr n hn
      have listed := List.mem_filter (p := fun e : Entry => decide (e.state = .capturing)).2
        ⟨he, decide_eq_true capturing⟩
      exact List.mem_toFinset.2 (List.mem_map.2 ⟨e, listed, slot⟩))
    (fun n hn => by
      obtain ⟨e, listed, rfl⟩ := List.mem_map.1 (List.mem_toFinset.1 hn)
      obtain ⟨he, capturing⟩ := List.mem_filter.1 listed
      exact (Nat.le_add_right _ _).trans (h.lines e he (of_decide_eq_true capturing)))
  refine few.trans (Nat.mul_le_mul_right 4 ((List.toFinset_card_le _).trans ?_))
  rw [List.length_map]

theorem countP_placeSlot (roles : Multiset OwnRole) (n : Nat) :
    roles.countP (fun role => role.placeSlot = some n) =
      roles.count (.imageWrite n) + roles.count (.descWrite n) := by
  induction roles using Multiset.induction with
  | empty => rfl
  | cons role roles ih =>
    rw [Multiset.countP_cons, Multiset.count_cons, Multiset.count_cons, ih]
    cases role <;> simp [OwnRole.placeSlot, eq_comm] <;> omega

/-- Four writes at most for each copy-out place (R83 to R85). -/
theorem CopyLaw.writes_le {table : List Entry} {places : List CopyOutPlace}
    {roles : Multiset OwnRole} (h : CopyLaw table places roles) :
    roles.countP (fun role => role.placeSlot.isSome = true) ≤ places.length * 4 := by
  have few := countP_isSome_le roles OwnRole.placeSlot (places.map (·.slot)).toFinset 4
    (fun role hr n hn => by
      obtain ⟨p, hp, slot⟩ := h.placed role hr n hn
      exact List.mem_toFinset.2 (List.mem_map.2 ⟨p, hp, slot⟩))
    (fun n hn => by
      obtain ⟨p, hp, rfl⟩ := List.mem_map.1 (List.mem_toFinset.1 hn)
      rw [countP_placeSlot]
      obtain ⟨_, _, _, ⟨_, images, none⟩ | ⟨_, none, desc⟩⟩ := h.place p hp <;> omega)
  refine few.trans (Nat.mul_le_mul_right 4 ((List.toFinset_card_le _).trans ?_))
  rw [List.length_map]

/-- Class C holds capture reads alone, four at most for each of 64 buffers (R56, R70, R134). -/
theorem Owned.classC_le {s : State} (law : TableLaw s) (h : Owned s) :
    s.mem.classC.length ≤ 256 := by
  have reads := h.capture.reads_le
  rw [← s.liveCount_eq_countP (fun role => role.captureSlot.isSome) _ fun _ => Iff.rfl] at reads
  have all : (s.mem.classC.map (·.role)).countP (fun role => role.captureSlot.isSome) =
      (s.mem.classC.map (·.role)).length := by
    refine List.countP_eq_length.2 (List.forall_mem_map.2 fun r hr => ?_)
    have kind := h.classed.1 r hr
    cases role : r.role <;> simp [role, OwnRole.kind, OwnRole.captureSlot] at kind ⊢
  rw [List.length_map] at all
  obtain ⟨queued, _⟩ := s.countP_class_le fun role => role.captureSlot.isSome
  have captures := law.captures_le
  omega

/-- Class B holds the one JCB_READ, or the writes of four places, one DESC_READ and one request of
the Journal Writer (R83 to R85, R134). -/
theorem Owned.classB_le {s : State} (room : CapacityLaw s) (cache : CacheLaw s) (h : Owned s) :
    s.mem.classB.length ≤ 18 := by
  have queued : ∀ p, (s.mem.classB.map (·.role)).countP p ≤ s.liveCount p :=
    fun p => (s.countP_class_le p).2
  have owner : ∀ role ∈ s.mem.classB.map (·.role),
      role.kind = .jcbRead ∧ s.epoch.dev = .loading ∨
        role.kind ≠ .jcbRead ∧ s.epoch.dev.runs = true :=
    List.forall_mem_map.2 fun r hr => h.run.owner _
      ((s.mem_roles _).2 ⟨r, List.mem_append_left _ (List.mem_append_right _ hr), rfl⟩)
  rw [← List.length_map (f := fun r : OwnReq => r.role)]
  by_cases loading : s.epoch.dev = .loading
  · have load := h.run.load
    rw [← s.liveCount_eq_countP (fun role => decide (role.kind = .jcbRead)) _
      fun _ => decide_eq_true_iff] at load
    have all := List.countP_eq_length (p := fun role : OwnRole => decide (role.kind = .jcbRead)).2
      fun role hr => decide_eq_true <| (owner role hr).elim And.left fun runs => by
        rw [loading] at runs
        cases runs.2
    have := queued fun role => decide (role.kind = .jcbRead)
    omega
  · have writes := h.copy.writes_le
    rw [← s.liveCount_eq_countP (fun role => role.placeSlot.isSome) _ fun _ => Iff.rfl] at writes
    have slots : s.liveCount OwnRole.isSlot ≤ 1 := by
      rw [s.liveCount_eq_countP OwnRole.isSlot (fun role => role.isSlot = true) fun _ => Iff.rfl]
      exact h.slot.one
    obtain ⟨descs, _⟩ := (cacheLaw_iff s).1 cache
    obtain ⟨_, _, _, places, _⟩ := room
    have others : ∀ role ∈ s.mem.classB.map (·.role), role.kind ≠ .captureRead :=
      List.forall_mem_map.2 h.classed.2
    have kinds := length_eq_of_background (s.mem.classB.map (·.role)) fun role hr =>
      ⟨others role hr, (owner role hr).elim (fun jcb => absurd jcb.2 loading) And.left⟩
    have placed := queued fun role => role.placeSlot.isSome
    have written := queued OwnRole.isSlot
    have read := queued fun role => decide (role.kind = .descRead)
    have places : s.copyOut.places.length ≤ 4 := places
    have descs : s.liveCount (fun role => decide (role.kind = .descRead)) ≤ 1 := descs
    omega

/-- Settles O60: every event leaves each engine with requests it may have, and with these counted
by entry, by place and by engine the two classes stay within their bounds. -/
theorem everyStepKeepsTheClassListsWithinTheirBounds :
    Obligations.EveryStepKeepsTheClassListsWithinTheirBounds := by
  refine ⟨fun s t law epochs holds own he => own.step law epochs holds he,
    fun s law room cache own => ?_⟩
  have owned := (ownLaw_iff s).1 own
  exact ⟨owned.classC_le law, owned.classB_le room cache⟩

end Sys2Proof.Machine

/-! ### DRAIN_HIGH and DRAIN_LOW (R140, R150) -/

namespace Sys2Proof.Machine

/-- The arbiter's mode by the mode it was in and the order of the two settings (R140). -/
theorem drainModeNext_spec (mode : Bool) (use high low : Nat) :
    (mode = false → (drainModeNext mode use high low = true ↔ high ≤ use)) ∧
    (mode = true → low < high → (drainModeNext mode use high low = false ↔ use ≤ low)) ∧
    (mode = true → high ≤ low → (drainModeNext mode use high low = false ↔ use < high)) := by
  refine ⟨?_, ?_, ?_⟩
  · rintro rfl
    simp [drainModeNext]
  · rintro rfl apart
    simp [drainModeNext, apart]
  · rintro rfl crossed
    simp [drainModeNext, Nat.not_lt.2 crossed]

theorem clampTo_low_zero (high : Nat) (v : Half) : clampTo 0 high v = min high v.toNat :=
  Nat.zero_max _

/-- Settles O16: a write of either register stores its value and compares with both. -/
theorem drainThresholdWriteComparesPoolUse : Obligations.DrainThresholdWriteComparesPoolUse := by
  intro s r v high low h written
  obtain ⟨enters, leaves, crosses⟩ :=
    drainModeNext_spec s.mem.drainMode s.poolUse high.toNat low.toNat
  refine ⟨_, s.onPort_write h (·.writeDrain r v) (Machine.DrainReg.pointer r), ?_⟩
  have stored : s.writeDrain r v =
      State.evalDrainMode { s with imm.drainHigh := high, imm.drainLow := low } := by
    obtain ⟨rfl, rfl, rfl⟩ | ⟨rfl, rfl, rfl⟩ := written
    · rfl
    · rw [← clampTo_low_zero]
      rfl
  rw [stored]
  refine ⟨enters, leaves, crosses, ?_⟩
  cases r <;> rfl

end Sys2Proof.Machine

/-! ### The arbiter's choice (R135 to R138; log 1, log 9, log 28) -/

namespace Sys2Proof.Machine

/-- The oldest request of a class that satisfies a condition is found, and leaves from its place. -/
theorem find_and_erase_of_split {p : OwnReq → Bool} {queue older younger : List OwnReq} {r : OwnReq}
    (split : queue = older ++ r :: younger) (others : ∀ x ∈ older, ¬p x = true)
    (first : p r = true) : queue.find? p = some r ∧ queue.erase r = older ++ younger := by
  subst split
  refine ⟨List.find?_eq_some_iff_append.2
    ⟨first, older, younger, rfl, fun x hx => by simpa using others x hx⟩, ?_⟩
  rw [List.erase_append_right _ fun hr => others r hr first, List.erase_cons_head]

theorem State.preferB_iff (s : State) : s.preferB = true ↔ s.mem.drainMode = true ∨
    (s.imm.passWeight ≠ 0 ∧ s.imm.passWeight.toNat ≤ s.mem.runCount) := by
  simp [State.preferB]

/-- Without an issuable request of class C the choice is between class P and class B (R137). -/
theorem State.choose_of_no_capture {s : State} (noC : s.candidateC = none ∨ ¬s.ownRoom = true) :
    s.choose = s.choosePB := by
  unfold State.choose
  cases hc : s.candidateC with
  | none => rfl
  | some r => simp [noC.resolve_left (by simp [hc])]

theorem State.issuableB_eq_none_iff (s : State) :
    s.issuableB = none ↔ s.candidateB = none ∨ ¬s.ownRoom = true := by
  unfold State.issuableB
  split_ifs with room <;> simp [room]

/-- Class B goes first with no class P to issue, or with the lead (R138). -/
theorem State.choosePB_of_background {s : State} {r : OwnReq} (hb : s.issuableB = some r)
    (lead : s.candidateP = none ∨ s.preferB = true) : s.choosePB = .background r := by
  unfold State.choosePB
  rw [hb]
  cases hp : s.candidateP with
  | none => rfl
  | some p => simp [lead.resolve_left (by simp [hp])]

/-- Class P goes first with no class B to issue, or without its lead (R138). -/
theorem State.choosePB_of_pass {s : State} {p : Request} (hp : s.candidateP = some p)
    (lead : s.issuableB = none ∨ ¬s.preferB = true) : s.choosePB = .pass p := by
  unfold State.choosePB
  rw [hp]
  cases hb : s.issuableB with
  | none => rfl
  | some r => simp [lead.resolve_left (by simp [hb])]

theorem exec_issue_of_capture {s : State} {r : OwnReq} (h : s.choose = .capture r) :
    exec .issue s = .next ({ s with mem.classC := s.mem.classC.erase r }.issueOwn r) := by
  simp only [exec, execIssue, h]

theorem exec_issue_of_background {s : State} {r : OwnReq} (h : s.choose = .background r) :
    exec .issue s = .next
      ({ s with mem.classB := s.mem.classB.erase r, mem.runCount := 0 }.issueOwn r) := by
  simp only [exec, execIssue, h]

theorem exec_issue_of_pass {s : State} {p : Request} (h : s.choose = .pass p) :
    exec .issue s = .next { s with
      mem.passQ := s.mem.passQ.tail
      mem.issuedPass := s.mem.issuedPass ++ [⟨s.mem.nextTag, p⟩]
      mem.nextTag := s.mem.nextTag + 1
      mem.runCount := if s.issuableB.isSome then min (s.mem.runCount + 1) 15 else 0 } := by
  simp only [exec, execIssue, h]

/-- Settles O42: class by class, by what each has to issue. -/
theorem issueTakesClassCThenWeighsPAndB : Obligations.IssueTakesClassCThenWeighsPAndB := by
  intro s eligible room noC noP noB lead own
  have eligible_iff : ∀ addr key, s.eligible addr key = true ↔ eligible addr key :=
    s.eligible_iff
  have room_iff : s.ownRoom = true ↔ room := s.ownRoom_iff
  have toPB : noC → s.choose = s.choosePB := fun h => State.choose_of_no_capture
    (h.imp s.candidateC_eq_none_iff.2 (mt room_iff.1))
  have noP_iff : s.candidateP = none ↔ noP := s.candidateP_eq_none_iff
  have noB_iff : s.issuableB = none ↔ noB := by
    rw [State.issuableB_eq_none_iff, State.candidateB_eq_none_iff, room_iff]
  have lead_iff : s.preferB = true ↔ lead := s.preferB_iff
  refine ⟨fun older younger r split others first hroom => ?_,
    fun older younger r hC split others first hroom hlead => ?_,
    fun p ps hC head first hlead => ?_, fun hC hP hB => ?_⟩
  · obtain ⟨found, erased⟩ := find_and_erase_of_split
      (p := fun r => s.eligible r.addr r.key) split
      (fun x hx => mt (eligible_iff _ _).1 (others x hx)) ((eligible_iff _ _).2 first)
    have found : s.candidateC = some r := found
    have chosen : s.choose = .capture r := by simp [State.choose, found, room_iff.2 hroom]
    rw [exec_issue_of_capture chosen, erased]
    rfl
  · obtain ⟨found, erased⟩ := find_and_erase_of_split
      (p := fun r => s.eligible r.addr r.key) split
      (fun x hx => mt (eligible_iff _ _).1 (others x hx)) ((eligible_iff _ _).2 first)
    have found : s.candidateB = some r := found
    have issuable : s.issuableB = some r := by simp [State.issuableB, found, room_iff.2 hroom]
    have chosen : s.choose = .background r := (toPB hC).trans
      (State.choosePB_of_background issuable (hlead.imp noP_iff.2 lead_iff.2))
    rw [exec_issue_of_background chosen, erased]
    rfl
  · have found : s.candidateP = some p := by
      simp [State.candidateP, head, (eligible_iff _ _).2 first]
    have chosen : s.choose = .pass p := (toPB hC).trans
      (State.choosePB_of_pass found (hlead.imp noB_iff.2 (mt lead_iff.1)))
    refine ⟨_, exec_issue_of_pass chosen, fun hB => ?_, fun hB => ?_, ?_⟩
    · simp [noB_iff.2 hB]
    · obtain ⟨r, issuable⟩ := Option.ne_none_iff_exists'.1 (mt noB_iff.1 hB)
      simp [issuable, Nat.min_comm]
    · simp [head]
  · refine exec_issue_of_nothing ((toPB hC).trans ?_)
    exact s.choosePB_eq_nothing_iff.2 ⟨noP_iff.2 hP, noB_iff.2 hB⟩

end Sys2Proof.Machine

/-! ### The end of abandoned requests, and unknown tags (R132, R136, R142; log 13) -/

namespace Sys2Proof.Machine

theorem State.ownAnswer_of_abandoned {s : State} {tag : Nat} {i : IssuedOwn}
    (found : s.findOwn tag = some i) (abandoned : i.abandoned = true) (fits : OwnRole → Bool)
    (owner : OwnReq → State → State) : s.ownAnswer tag fits owner = s.endOwn tag := by
  unfold State.ownAnswer
  rw [found]
  exact if_pos abandoned

theorem State.ownAnswer_of_unknown {s : State} {tag : Nat} (unknown : s.findOwn tag = none)
    (fits : OwnRole → Bool) (owner : OwnReq → State → State) : s.ownAnswer tag fits owner = s := by
  unfold State.ownAnswer
  rw [unknown]

theorem State.endAbandoned_of_abandoned {s : State} {tag : Nat} {i : IssuedOwn}
    (found : s.findOwn tag = some i) (abandoned : i.abandoned = true) :
    s.endAbandoned tag = s.endOwn tag := by
  unfold State.endAbandoned
  rw [found]
  exact if_pos abandoned

theorem State.endAbandoned_of_unknown {s : State} {tag : Nat} (unknown : s.findOwn tag = none) :
    s.endAbandoned tag = s := by
  unfold State.endAbandoned
  rw [unknown]
  rfl

theorem State.overdue_of_age {s : State} {tag : Nat} {i : IssuedOwn}
    (found : s.findOwn tag = some i) (age : 64 ≤ i.age) : s.overdue tag = true := by
  unfold State.overdue
  rw [found]
  exact decide_eq_true age

theorem State.overdue_of_unknown {s : State} {tag : Nat} (unknown : s.findOwn tag = none) :
    s.overdue tag = false := by
  unfold State.overdue
  rw [unknown]
  rfl

/-- Settles O49: every answer and limit goes through `ownAnswer` or `endAbandoned`. -/
theorem abandonedRequestsEndSilently : Obligations.AbandonedRequestsEndSilently := by
  constructor
  · intro s tag answer data i found abandoned t
    have answered : ∀ fits owner, .next (s.ownAnswer tag fits owner) = t := fun fits owner =>
      congrArg _ (State.ownAnswer_of_abandoned found abandoned fits owner)
    have ended : .next (s.endAbandoned tag) = t :=
      congrArg _ (State.endAbandoned_of_abandoned found abandoned)
    refine ⟨ended, answered _ _, answered _ _, answered _ _, answered _ _, answered _ _,
      answered _ _, answered _ _, answered _ _, fun age => ?_⟩
    have late := State.overdue_of_age found age
    exact ⟨(if_pos late).trans ended, (if_pos late).trans (answered _ _)⟩
  · intro s tag answer data unknown
    have answered : ∀ fits owner, Host.Outcome.next (s.ownAnswer tag fits owner) =
        (.next s : Host.Outcome State Fault Refusal) := fun fits owner =>
      congrArg _ (State.ownAnswer_of_unknown unknown fits owner)
    have ended : Host.Outcome.next (s.endAbandoned tag) =
        (.next s : Host.Outcome State Fault Refusal) :=
      congrArg _ (State.endAbandoned_of_unknown unknown)
    have early : ¬s.overdue tag = true := by simp [State.overdue_of_unknown unknown]
    exact ⟨ended, answered _ _, answered _ _, answered _ _, answered _ _, answered _ _,
      answered _ _, answered _ _, answered _ _, if_neg early, if_neg early⟩

end Sys2Proof.Machine

/-! ### What the Command Unit makes of a register write to COMMAND (R148, R153, R154, R157) -/

namespace Sys2Proof.Machine

theorem State.refuse_eq (s : State) (reason : RejectReason) : s.refuse reason = { s with
    cmd.reject := true, cmd.reason := reason, alert.flags := s.alert.flags ||| 0x080 } := rfl

/-- An EXECUTE command is refused while busy, whatever the device state (R153). -/
theorem State.decideExecute_of_busy {s : State} (busy : s.cmd.busy = true) (legal : Bool)
    (accept : State → State) : s.decideExecute legal accept = s.refuse .busy := by
  unfold State.decideExecute
  rw [if_pos busy]

theorem State.decideExecute_of_illegal {s : State} (free : s.cmd.busy = false) {legal : Bool}
    (illegal : legal = false) (accept : State → State) :
    s.decideExecute legal accept = s.refuse .state := by
  simp [State.decideExecute, free, illegal]

theorem State.decideExecute_of_legal {s : State} (free : s.cmd.busy = false) {legal : Bool}
    (allowed : legal = true) (accept : State → State) :
    s.decideExecute legal accept = accept s := by
  simp [State.decideExecute, free, allowed]

theorem State.commandWrite_of_no_code (s : State) {code : Half} (load : code ≠ 0x0011)
    (opens : code ≠ 0x0022) (switch : code ≠ 0x0033) (ends : code ≠ 0x0034) (kick : code ≠ 0x00A5)
    (stop : code ≠ 0x005A) : s.commandWrite code = s.refuse .badCode := by
  unfold State.commandWrite
  rw [if_neg kick, if_neg stop, if_neg load, if_neg opens, if_neg switch, if_neg ends]

/-- A command that the Command Unit refuses, as the port's row (R148, R154). -/
theorem State.onPort_of_refusal {s : State} {reason : RejectReason} {take : State → State}
    (h : s.port.resetAsserted = false) (refused : take s = s.refuse reason) :
    ∃ t, (s.onPort fun s => (take s).afterWrite 0x00) = .next t ∧ t = { s with
      cmd.reject := true
      cmd.reason := reason
      alert.flags := s.alert.flags ||| 0x080
      port := { s.port with
        pointer := t.port.pointer, endMarker := t.port.endMarker, phase := t.port.phase }
      out := t.out } := by
  refine ⟨_, s.onPort_command take h, ?_⟩
  rw [refused, State.refuse_eq]
  rfl

/-- Settles O20: no code, busy, and a device state that does not allow the command. -/
theorem refusedCommandsChangeNothingButTheRefusal :
    Obligations.RefusedCommandsChangeNothingButTheRefusal := by
  rintro s c reason h (⟨code, rfl, rfl, load, opens, switch, ends, kick, stop⟩ |
    ⟨command, busy, rfl⟩ | ⟨free, rfl, refused⟩)
  · exact State.onPort_of_refusal (take := (·.commandWrite code)) h
      (s.commandWrite_of_no_code load opens switch ends kick stop)
  · have refused := State.decideExecute_of_busy busy
    obtain rfl | rfl | rfl | rfl := command
    · exact State.onPort_of_refusal (take := State.takeLoad) h (refused _ _)
    · exact State.onPort_of_refusal (take := State.takeOpen) h (refused _ _)
    · exact State.onPort_of_refusal (take := State.takeSwitch) h (refused _ _)
    · exact State.onPort_of_refusal (take := State.takeEnd) h (refused _ _)
  · have illegal := fun {legal} => State.decideExecute_of_illegal free (legal := legal)
    obtain ⟨rfl, idle, ready⟩ | ⟨rfl, ready⟩ | ⟨rfl | rfl, tracking⟩ := refused
    · exact State.onPort_of_refusal (take := State.takeLoad) h
        (illegal (by simp [idle, ready]) _)
    · exact State.onPort_of_refusal (take := State.takeOpen) h
        (illegal (decide_eq_false ready) _)
    · exact State.onPort_of_refusal (take := State.takeSwitch) h
        (illegal (decide_eq_false tracking) _)
    · exact State.onPort_of_refusal (take := State.takeEnd) h
        (illegal (decide_eq_false tracking) _)

/-- Settles O21: LOAD is legal in IDLE and in READY, and its acceptance queues the JCB_READ. -/
theorem acceptedLoadQueuesTheJcbRead : Obligations.AcceptedLoadQueuesTheJcbRead := by
  intro s h free device
  have taken : s.takeLoad = s.acceptLoad :=
    State.decideExecute_of_legal free (by simpa using device) _
  have ran : exec .load s = _ := s.onPort_command State.takeLoad h
  rw [ran, taken]
  rfl

end Sys2Proof.Machine

/-! ### KICK (R79, R102, R148, R160; log 18, log 27) -/

namespace Sys2Proof.Machine

/-- A request that joins class B is pending for its own kind alone. -/
theorem State.ownPending_queueB (s : State) (role : OwnRole) (addr : Addr) (op : Op)
    (k : OwnKind) :
    (s.queueB role addr op).ownPending k = (s.ownPending k || decide (role.kind = k)) := by
  simp only [State.ownPending, State.queueB_mem, List.any_append, List.any_cons, List.any_nil,
    Bool.or_false]
  ac_rfl

/-- The descriptor that a FIR wait is for is read again, and the poll timer stops (R79). -/
theorem State.rereadDesc_of_ring {s : State} {ring : Ring} (h : s.copyOut.fir = some ring) :
    s.rereadDesc =
      { s.queueB .descRead (lineOf (ring.element 16 s.copyOut.prefetchIndex)) .read with
        copyOut.timer := none } := by
  unfold State.rereadDesc
  rw [State.queueDescRead_of_ring h]

/-- The slot that a ring wait is for is read again, and the poll timer stops (R102). -/
theorem State.rereadSlot_of_ring {s : State} {ring : Ring} (h : s.journal.ring = some ring) :
    s.rereadSlot =
      { s.queueB .slotRead (lineOf (ring.element 32 s.journal.index)) .read with
        journal.timer := none } := by
  unfold State.rereadSlot
  rw [State.queueSlotRead_of_ring h]

theorem State.kickFir_of_wait {s : State}
    (waits : s.copyOut.wait = true ∧ s.ownPending .descRead = false) :
    s.kickFir = s.rereadDesc := by
  unfold State.kickFir
  rw [if_pos (by simpa using waits)]

theorem State.kickFir_of_no_wait {s : State}
    (idle : ¬(s.copyOut.wait = true ∧ s.ownPending .descRead = false)) : s.kickFir = s := by
  unfold State.kickFir
  rw [if_neg (by simpa using idle)]

theorem State.kickRing_of_wait {s : State}
    (waits : s.journal.wait = true ∧ s.ownPending .slotRead = false) :
    s.kickRing = s.rereadSlot := by
  unfold State.kickRing
  rw [if_pos (by simpa using waits)]

theorem State.kickRing_of_no_wait {s : State}
    (idle : ¬(s.journal.wait = true ∧ s.ownPending .slotRead = false)) : s.kickRing = s := by
  unfold State.kickRing
  rw [if_neg (by simpa using idle)]

/-- The re-read of a descriptor leaves the ring wait as it was (R102). -/
theorem State.rereadDesc_ringWait {s : State} {ring : Ring} (h : s.copyOut.fir = some ring) :
    s.rereadDesc.journal = s.journal ∧
      s.rereadDesc.ownPending .slotRead = s.ownPending .slotRead := by
  rw [State.rereadDesc_of_ring h]
  exact ⟨rfl, (s.ownPending_queueB _ _ _ _).trans (Bool.or_false _)⟩

/-- Settles O25: by which of the two engines waits with no re-read pending. -/
theorem kickRereadsWhatEachEngineWaitsFor : Obligations.KickRereadsWhatEachEngineWaitsFor := by
  intro s h descRead slotRead fir jring
  have ran : exec .kick s = _ := s.onPort_command State.takeKick h
  let k : State := { s with cmd.last := .kick }
  have noFir : ¬fir → k.kickFir = k := fun idle => State.kickFir_of_no_wait (s := k) idle
  have isFir : fir → k.kickFir = k.rereadDesc := fun waits => State.kickFir_of_wait (s := k) waits
  have kept : ∀ r, s.copyOut.fir = some r → k.rereadDesc.journal = s.journal ∧
      k.rereadDesc.ownPending .slotRead = s.ownPending .slotRead :=
    fun r ring => State.rereadDesc_ringWait (s := k) ring
  refine ⟨fun idle quiet => ?_, fun r waits quiet ring => ?_, fun r idle waits ring => ?_,
    fun r q firWaits ringWaits firRing slotRing => ?_⟩
  · have taken : s.takeKick = k :=
      (congrArg State.kickRing (noFir idle)).trans (State.kickRing_of_no_wait (s := k) quiet)
    rw [ran, taken]
  · obtain ⟨journal, pending⟩ := kept r ring
    have taken : s.takeKick = k.rereadDesc :=
      (congrArg State.kickRing (isFir waits)).trans
        (State.kickRing_of_no_wait (by rw [journal, pending]; exact quiet))
    rw [ran, taken, State.rereadDesc_of_ring (s := k) ring]
    rfl
  · have taken : s.takeKick = k.rereadSlot :=
      (congrArg State.kickRing (noFir idle)).trans (State.kickRing_of_wait (s := k) waits)
    rw [ran, taken, State.rereadSlot_of_ring (s := k) ring]
    rfl
  · obtain ⟨journal, pending⟩ := kept r firRing
    have taken : s.takeKick = k.rereadDesc.rereadSlot :=
      (congrArg State.kickRing (isFir firWaits)).trans
        (State.kickRing_of_wait (by rw [journal, pending]; exact ringWaits))
    have joined : s.mem.classB ++ [descRead s.mem.nextPlace r, slotRead (s.mem.nextPlace + 1) q] =
        (s.mem.classB ++ [descRead s.mem.nextPlace r]) ++ [slotRead (s.mem.nextPlace + 1) q] :=
      (List.append_assoc _ [_] [_]).symm
    rw [ran, taken, State.rereadSlot_of_ring (by rw [journal]; exact slotRing),
      State.rereadDesc_of_ring (s := k) firRing, joined]
    rfl

end Sys2Proof.Machine

/-! ### RESET_N and the slave address (R147; log 7) -/

namespace Sys2Proof.Machine

/-- A command that comes through the port does what it does only while the port responds (R147). -/
theorem exec_eq_onPort_of_usesPort {c : Instr} (uses : usesPort c = true) :
    ∃ f : State → State, ∀ s : State, exec c s = s.onPort f := by
  cases c <;> cases uses <;> exact ⟨_, fun _ => rfl⟩

/-- The pins stand in the two low bits of the address. -/
theorem slaveAddr_of_pins : ∀ addr1 addr0 : Bool,
    (0x16 : BitVec 5) ++ (boolBit addr1 ++ boolBit addr0) =
      BitVec.ofNat 7 (0x58 + 2 * addr1.toNat + addr0.toNat) := by decide

/-- Settles O7. -/
theorem resetReleaseSamplesTheAddressPins : Obligations.ResetReleaseSamplesTheAddressPins := by
  refine ⟨fun s addr1 addr0 asserted => ?_, fun s addr1 addr0 released => ?_,
    fun s c asserted uses => ?_, fun s a asserted => ?_, fun s a released => ?_⟩
  · simp only [exec, execResetRelease]
    rw [if_pos asserted, slaveAddr_of_pins]
  · simp only [exec, execResetRelease]
    rw [if_neg (by simp [released])]
  · obtain ⟨f, ran⟩ := exec_eq_onPort_of_usesPort uses
    rw [ran, s.onPort_of_asserted f asserted]
  · simp [State.answersAddress, asserted]
  · simp [State.answersAddress, released]

end Sys2Proof.Machine

/-! ### Bus bytes (R147, R148; log 5, log 10) -/

namespace Sys2Proof.Machine

/-- A data byte that is no second byte is held (R148). -/
theorem State.heldByte_of_first {s : State} (first : ∀ low, s.port.phase ≠ .highWrite low)
    (b : Byte) : s.heldByte b = State.ack { s with port.phase := .highWrite b } := by
  unfold State.heldByte
  cases hp : s.port.phase with
  | low => rfl
  | highWrite low => exact absurd hp (first low)
  | highRead high => rfl

/-- The second data byte completes the write. -/
theorem State.heldByte_of_second {s : State} {low : Byte} (second : s.port.phase = .highWrite low)
    (high : Byte) : s.heldByte high = s.highByte low high := by
  unfold State.heldByte
  rw [second]

theorem State.highByte_before_end {s : State} (inside : s.port.endMarker = false)
    (low high : Byte) : s.highByte low high =
      (s.writeReg (high ++ low) (regAt s.port.pointer)).afterWrite s.port.pointer := by
  unfold State.highByte
  rw [if_neg (by simp [inside])]

theorem State.highByte_past_end {s : State} (past : s.port.endMarker = true) (low high : Byte) :
    s.highByte low high = State.ack { s with port.phase := .low } := by
  unfold State.highByte
  rw [if_pos past]

/-- Settles O8: by the phase that a byte finds, and the end marker. -/
theorem busBytesSetThePointerAndCompleteWrites :
    Obligations.BusBytesSetThePointerAndCompleteWrites := by
  refine ⟨fun s b h => ?_, fun s b h first => ?_, fun s high low h second inside => ?_,
    fun s b low h second past => ?_, exec_busStopCondition_of_released⟩
  · exact s.onPort_of_released (fun s => State.ack
      { s with port.pointer := b, port.endMarker := false, port.phase := .low }) h
  · rw [exec_heldLowByte_of_released s b h, State.heldByte_of_first first]
    rfl
  · have written : exec (.registerWrite s.port.pointer (high ++ low)) s = _ :=
      s.onPort_of_released (fun s' => (s'.writeReg (high ++ low)
        (regAt s.port.pointer)).afterWrite s.port.pointer) h
    rw [exec_heldLowByte_of_released s high h, State.heldByte_of_second second,
      State.highByte_before_end inside, written]
  · rw [exec_heldLowByte_of_released s b h, State.heldByte_of_second second,
      State.highByte_past_end past]
    rfl

end Sys2Proof.Machine

/-! ### Register writes without an effect, and those that are rows of their own (R148 to R150, R153,
R169, R171; log 4, log 10) -/

namespace Sys2Proof.Machine

/-- What the row around a register write changes and the register's own effect leaves: the outputs,
and the port but for the inspect window. -/
def State.wires (s : State) : MgmtPort × Out :=
  ({ s.port with inspectSlot := 0, snapshot := none }, s.out)

theorem State.wires_applyVerdict (s : State) (f : EventFlag) (v : AlertVerdict) :
    (s.applyVerdict f v).wires = s.wires := by
  cases v <;> rfl

theorem State.wires_handChanges (s : State) : s.handChanges.wires = s.wires := by
  rw [State.handChanges_eq]
  rfl

theorem State.wires_takeKick (s : State) : s.takeKick.wires = s.wires := by
  have queueDesc : ∀ t : State, t.queueDescRead.wires = t.wires := fun t => by
    unfold State.queueDescRead
    split <;> rfl
  have queueSlot : ∀ t : State, t.queueSlotRead.wires = t.wires := fun t => by
    unfold State.queueSlotRead
    split <;> rfl
  have fir : ∀ t : State, t.kickFir.wires = t.wires := fun t => by
    unfold State.kickFir
    split_ifs
    · exact queueDesc t
    · rfl
  have ring : ∀ t : State, t.kickRing.wires = t.wires := fun t => by
    unfold State.kickRing
    split_ifs
    · exact queueSlot t
    · rfl
  exact (ring _).trans (fir _)

theorem State.wires_takeStop (s : State) : s.takeStop.wires = s.wires := by
  have stopped : s.stopBlocks.wires = s.wires := by
    rw [State.stopBlocks_eq]
    rfl
  have handed := s.stopBlocks.wires_handChanges
  unfold State.takeStop
  generalize s.stopBlocks.handChanges = t at handed ⊢
  exact handed.trans stopped

/-- An EXECUTE command talks through the port no more than its acceptance does (R153, R154). -/
theorem State.wires_decideExecute (s : State) (legal : Bool) (accept : State → State)
    (accepted : legal = true → (accept s).wires = s.wires) :
    (s.decideExecute legal accept).wires = s.wires := by
  unfold State.decideExecute
  split_ifs with busy allowed
  · rfl
  · exact accepted allowed
  · rfl

theorem State.wires_acceptOpen (s : State) : s.acceptOpen.wires = s.wires := by
  obtain ⟨_, _, _, _, _, _, cut, _⟩ := s.cutOpen_spec
  rw [State.acceptOpen, cut]
  rfl

theorem State.wires_acceptSwitch {s : State} (tracking : s.epoch.dev = .tracking) :
    s.acceptSwitch.wires = s.wires := by
  obtain ⟨_, _, cut, _⟩ := s.cutSwitch_spec tracking
  rw [State.acceptSwitch, cut]
  rfl

theorem State.wires_acceptEnd {s : State} (tracking : s.epoch.dev = .tracking) :
    s.acceptEnd.wires = s.wires := by
  rw [State.acceptEnd, State.cutEnd_eq s tracking]
  exact s.ended.wires_handChanges

theorem State.wires_commandWrite (s : State) (v : Half) : (s.commandWrite v).wires = s.wires := by
  unfold State.commandWrite
  split_ifs
  · exact s.wires_takeKick
  · exact s.wires_takeStop
  · exact s.wires_decideExecute _ _ fun _ => rfl
  · exact s.wires_decideExecute _ _ fun _ => s.wires_acceptOpen
  · exact s.wires_decideExecute _ _ fun legal => State.wires_acceptSwitch (of_decide_eq_true legal)
  · exact s.wires_decideExecute _ _ fun legal => State.wires_acceptEnd (of_decide_eq_true legal)
  · rfl

theorem State.wires_writeAlert (s : State) (r : AlertReg) (v : Half) :
    (s.writeAlert r v).wires = s.wires := by
  have evaluated := State.wires_applyVerdict
  cases r with
  | alertMode => exact (evaluated _ _ _).trans (evaluated _ _ _)
  | tableUpper | tableLower | poolUpper | poolLower => exact evaluated _ _ _

theorem State.wires_writeHoldAlert (s : State) (v : Half) :
    (s.writeHoldAlert v).wires = s.wires := by
  unfold State.writeHoldAlert
  dsimp only
  split_ifs <;> rfl

theorem State.wires_writePeak (s : State) (p : Peak) (v : Half) :
    (s.writePeak p v).wires = s.wires := by
  unfold State.writePeak
  split_ifs
  · cases p <;> rfl
  · rfl

/-- No register's write sends anything or moves the pointer: the row around it does. -/
theorem State.wires_writeReg (s : State) (v : Half) (r : Reg) :
    (s.writeReg v r).wires = s.wires := by
  cases r with
  | command => exact s.wires_commandWrite v
  | alertMode | tableUpper | tableLower | poolUpper | poolLower => exact s.wires_writeAlert _ v
  | drainHigh | drainLow => rfl
  | holdAlert => exact s.wires_writeHoldAlert v
  | peakOcc | peakPool => exact s.wires_writePeak _ v
  | wideLow q =>
    cases q with
    | peakHold => exact s.wires_writePeak _ v
    | _ => rfl
  | _ => rfl

/-- The registers that ignore every written value (R150, R171). -/
def Reg.readOnly : Reg → Bool
  | .devStatus | .mportStatus | .occupancy | .poolUse | .rqDepth | .hqDepth | .jringIndex
  | .firIndex | .epochNumber | .wideHigh _ | .overflows | .epochPeakOcc | .epochPeakPool
  | .errInfo | .snapInfo | .snapEpoch | .snapCounts | .snapWriters | .snapWset | .snapFir
  | .undefined => true
  | .wideLow q => q != .peakHold
  | _ => false

theorem State.writeReg_of_readOnly (s : State) (v : Half) {r : Reg} (h : r.readOnly = true) :
    s.writeReg v r = s := by
  cases r with
  | wideLow q =>
    cases q with
    | peakHold => cases h
    | _ => rfl
  | _ => cases h <;> rfl

/-- Where the registers stand that ignore every value (10.5). -/
theorem readOnly_regAt : ∀ p : Byte, p = 0x02 ∨ p = 0x03 ∨ (0x17 ≤ p.toNat ∧ p.toNat ≤ 0x1F) ∨
    (0x38 ≤ p.toNat ∧ p.toNat ≤ 0x4F) ∨ (0x53 ≤ p.toNat ∧ p.toNat ≤ 0x6F) ∨ 0x71 ≤ p.toNat →
    (regAt p).readOnly = true := by
  decide

/-- The lifetime peaks stand at 0x50 to 0x52. -/
theorem regAt_peak : ∀ p : Byte, 0x50 ≤ p.toNat → p.toNat ≤ 0x52 →
    regAt p = .peakOcc ∨ regAt p = .peakPool ∨ regAt p = .wideLow .peakHold := by
  decide

/-- A peak ignores every value but 0 (R169). -/
theorem State.writeReg_peak_of_ne_zero (s : State) {v : Half} (nonzero : v ≠ 0) {r : Reg}
    (peak : r = .peakOcc ∨ r = .peakPool ∨ r = .wideLow .peakHold) : s.writeReg v r = s := by
  obtain rfl | rfl | rfl := peak <;> exact if_neg nonzero

/-- Ports that differ in the inspect window alone do so behind a register write too. -/
theorem MgmtPort.written_of_same {a b : MgmtPort} (p : Byte)
    (same : { a with inspectSlot := 0, snapshot := none } =
      { b with inspectSlot := 0, snapshot := none }) :
    a.written p = { b.written p with inspectSlot := a.inspectSlot, snapshot := a.snapshot } :=
  congrArg (fun q : MgmtPort =>
    { q.written p with inspectSlot := a.inspectSlot, snapshot := a.snapshot }) same

/-- Settles O14: the port by `wires`, the ignored writes by their registers, and each row by the
register at its pointer. -/
theorem registerWriteElsewhereIsIgnoredOrIsItsOwnRow :
    Obligations.RegisterWriteElsewhereIsIgnoredOrIsItsOwnRow := by
  refine ⟨fun s p v h => ?_, fun s p v h elsewhere => ?_, fun s v => ?_⟩
  · obtain ⟨port, out⟩ := Prod.mk.inj (s.wires_writeReg v (regAt p))
    refine ⟨_, exec_registerWrite s p v h, ?_, MgmtPort.written_of_same p port⟩
    dsimp only
    rw [out]
  · have ignored : s.writeReg v (regAt p) = s := by
      simp only [← or_assoc] at elsewhere
      obtain fixed | ⟨low, high, nonzero⟩ := elsewhere
      · exact s.writeReg_of_readOnly v (readOnly_regAt p (by simpa only [or_assoc] using fixed))
      · exact s.writeReg_peak_of_ne_zero nonzero (regAt_peak p low high)
    rw [exec_registerWrite s p v h, ignored]
  · exact ⟨rfl, rfl, rfl, rfl, rfl, rfl, rfl, rfl, rfl, rfl, rfl, rfl, rfl, rfl, rfl, rfl, rfl, rfl,
      rfl, rfl, rfl, rfl, rfl, rfl⟩

end Sys2Proof.Machine

/-! ### The Journal Control Block (R158, R159, R174, 10.1) -/

namespace Sys2Proof.Machine

/-- A field as a number: what stands above its start, below its width. -/
theorem toNat_extractLsb'_of_start {w : Nat} (x : BitVec w) (start n : Nat) :
    (x.extractLsb' start n).toNat = x.toNat / 2 ^ start % 2 ^ n := by
  rw [BitVec.extractLsb'_toNat, Nat.shiftRight_eq_div_pow]

theorem toNat_append_word (high : Byte) (low : Word) :
    (high ++ low).toNat = low.toNat + 2 ^ 32 * high.toNat := by
  rw [BitVec.toNat_append, ← Nat.shiftLeft_add_eq_or_of_lt low.isLt, Nat.shiftLeft_eq]
  omega

theorem jcbJournalRing_base_toNat (q : Quad) :
    (jcbJournalRing q).base.toNat = q.w0.toNat + 2 ^ 32 * (q.w1.toNat % 256) := by
  rw [jcbJournalRing, toNat_append_word, toNat_extractLsb'_of_start]
  simp

theorem jcbFreeImageRing_base_toNat (q : Quad) :
    (jcbFreeImageRing q).base.toNat = q.w2.toNat + 2 ^ 32 * (q.w3.toNat % 256) := by
  rw [jcbFreeImageRing, toNat_append_word, toNat_extractLsb'_of_start]
  simp

theorem jcbJournalRing_code_toNat (q : Quad) :
    (jcbJournalRing q).code.toNat = q.w1.toNat / 256 % 16 :=
  toNat_extractLsb'_of_start q.w1 8 4

theorem jcbFreeImageRing_code_toNat (q : Quad) :
    (jcbFreeImageRing q).code.toNat = q.w1.toNat / 4096 % 16 :=
  toNat_extractLsb'_of_start q.w1 12 4

theorem jcbFirstNumber_eq (q : Quad) :
    jcbFirstNumber q = BitVec.ofNat 16 (q.w1.toNat / 65536) := by
  rw [← BitVec.toNat_inj, jcbFirstNumber, toNat_extractLsb'_of_start, BitVec.toNat_ofNat]
  rfl

/-- A ring by the numbers of its base and its size code. -/
theorem Ring.eq_of_toNat (ring : Ring) :
    ring = { base := BitVec.ofNat 40 ring.base.toNat, code := BitVec.ofNat 4 ring.code.toNat } := by
  simp

theorem jcbFormatOk_iff (q : Quad) : jcbFormatOk q = true ↔
    3 ≤ (jcbJournalRing q).code.toNat ∧ (jcbJournalRing q).code.toNat ≤ 12 ∧
    2 ≤ (jcbFreeImageRing q).code.toNat ∧ (jcbFreeImageRing q).code.toNat ≤ 12 ∧
    q.w0.toNat % 256 = 0 ∧ q.w2.toNat % 256 = 0 ∧ q.w3.toNat / 256 = 0 ∧
    (jcbJournalRing q).limit 32 ≤ 2 ^ 40 ∧ (jcbFreeImageRing q).limit 16 ≤ 2 ^ 40 := by
  have low : ∀ w : Word, (w.extractLsb' 0 8 == 0) = true ↔ w.toNat % 256 = 0 := fun w => by
    rw [beq_iff_eq, ← BitVec.toNat_inj, toNat_extractLsb'_of_start]
    simp
  have high : ∀ w : Word, (w.extractLsb' 8 24 == 0) = true ↔ w.toNat / 256 = 0 := fun w => by
    have := w.isLt
    rw [beq_iff_eq, ← BitVec.toNat_inj, toNat_extractLsb'_of_start]
    show w.toNat / 256 % 16777216 = 0 ↔ _
    omega
  simp only [jcbFormatOk, Bool.and_eq_true, decide_eq_true_eq, low, high, and_assoc]

theorem jcbOverlap_iff (q : Quad) : jcbOverlap q = true ↔
    (jcbJournalRing q).base.toNat < (jcbFreeImageRing q).limit 16 ∧
    (jcbFreeImageRing q).base.toNat < (jcbJournalRing q).limit 32 := by
  simp [jcbOverlap]

/-- The awaited JCB in LOADING is checked; its request has ended (R136, R158). -/
theorem exec_jcbReadData_of_loading {s : State} {tag key : Nat} {addr jcb : Addr} {op : Op}
    (waits : s.awaits tag { role := .jcbRead jcb, addr, op, key })
    (loading : s.epoch.dev = .loading) (data : Line) :
    exec (.jcbReadData tag data) s = .next ((s.endOwn tag).checkJcb (quadAt data jcb)) := by
  simp only [exec, execJcbReadData]
  rw [State.ownAnswer_of_awaits s tag _ _ _ waits rfl]
  exact congrArg _ (if_pos loading)

theorem State.checkJcb_of_bad_format {q : Quad} (bad : ¬jcbFormatOk q = true) (s : State) :
    s.checkJcb q = s.failLoad .format := by
  simp [State.checkJcb, bad]

theorem State.checkJcb_of_overlap {q : Quad} (good : jcbFormatOk q = true)
    (shared : jcbOverlap q = true) (s : State) : s.checkJcb q = s.failLoad .overlap := by
  simp [State.checkJcb, good, shared]

theorem State.checkJcb_of_apart {q : Quad} (good : jcbFormatOk q = true)
    (apart : ¬jcbOverlap q = true) (s : State) : s.checkJcb q = s.passLoad q := by
  simp [State.checkJcb, good, apart]

/-- Settles O47: by the two checks in their order, with the JCB's fields as numbers. -/
theorem theJcbIsCheckedForFormatThenOverlap : Obligations.TheJcbIsCheckedForFormatThenOverlap := by
  intro s tag key addr jcb op data waits loading q jBase fBase jCode fCode jEnd fEnd format overlap
    failed
  have jLimit : (jcbJournalRing q).limit 32 = jEnd := by
    rw [Ring.limit, Ring.length, jcbJournalRing_base_toNat, jcbJournalRing_code_toNat]
  have fLimit : (jcbFreeImageRing q).limit 16 = fEnd := by
    rw [Ring.limit, Ring.length, jcbFreeImageRing_base_toNat, jcbFreeImageRing_code_toNat]
  have format_iff : jcbFormatOk q = true ↔ format := by
    rw [jcbFormatOk_iff, jLimit, fLimit, jcbJournalRing_code_toNat, jcbFreeImageRing_code_toNat]
  have overlap_iff : jcbOverlap q = true ↔ overlap := by
    rw [jcbOverlap_iff, jLimit, fLimit, jcbJournalRing_base_toNat, jcbFreeImageRing_base_toNat]
  rw [exec_jcbReadData_of_loading waits loading]
  refine ⟨fun bad => ?_, fun good shared => ?_, fun good apart => ?_⟩
  · rw [State.checkJcb_of_bad_format (mt format_iff.1 bad)]
    rfl
  · rw [State.checkJcb_of_overlap (format_iff.2 good) (overlap_iff.2 shared)]
    rfl
  · have jRing := (jcbJournalRing q).eq_of_toNat
    have fRing := (jcbFreeImageRing q).eq_of_toNat
    rw [jcbJournalRing_base_toNat, jcbJournalRing_code_toNat] at jRing
    rw [jcbFreeImageRing_base_toNat, jcbFreeImageRing_code_toNat] at fRing
    rw [State.checkJcb_of_apart (format_iff.2 good) (mt overlap_iff.1 apart), State.passLoad, jRing,
      fRing, jcbFirstNumber_eq]
    rfl

end Sys2Proof.Machine

/-! ### One byte of a read (R148, R149, R151; log 6) -/

namespace Sys2Proof.Machine

/-- What the part makes of a byte of a read transaction (R149). -/
def State.nextByte (s : State) : State :=
  match s.port.phase with
  | .low | .highWrite _ => s.sampleByte
  | .highRead high => { s with port := s.port.afterRead }.sendByte high

theorem exec_latchedRead_of_released {s : State} (h : s.port.resetAsserted = false) :
    exec .latchedRead s = .next s.nextByte :=
  s.onPort_of_released State.nextByte h

/-- A byte that is no second byte samples the register. -/
theorem State.nextByte_of_first {s : State} (first : ∀ high, s.port.phase ≠ .highRead high) :
    s.nextByte = s.sampleByte := by
  unfold State.nextByte
  cases hp : s.port.phase with
  | low => rfl
  | highWrite low => rfl
  | highRead high => exact absurd hp (first high)

theorem State.nextByte_of_second {s : State} {high : Byte}
    (second : s.port.phase = .highRead high) :
    s.nextByte = { s with port := s.port.afterRead }.sendByte high := by
  unfold State.nextByte
  rw [second]

theorem State.sampleByte_before_end {s : State} (inside : s.port.endMarker = false) :
    s.sampleByte = State.sendByte
      { s.latch (regAt s.port.pointer) with
        port.phase := .highRead ((s.readReg (regAt s.port.pointer)).extractLsb' 8 8) }
      ((s.readReg (regAt s.port.pointer)).extractLsb' 0 8) := by
  unfold State.sampleByte
  rw [if_neg (by simp [inside])]

theorem State.sampleByte_past_end {s : State} (past : s.port.endMarker = true) :
    s.sampleByte = { s with port.phase := .highRead 0 }.sendByte 0 := by
  unfold State.sampleByte
  rw [if_pos past]

/-- A sample can fill a latch and touches nothing else (R151). -/
theorem State.latch_eq (s : State) (r : Reg) :
    s.latch r = { s with port.latches := (s.latch r).port.latches } := by
  cases r <;> rfl

theorem State.latch_get_of_wideLow (s : State) {r : Reg} {q : Wide} (wide : r = .wideLow q) :
    (s.latch r).port.latches.get q = (s.wideValue q).extractLsb' 16 16 := by
  subst wide
  exact Latches.get_set_self _ q _

theorem State.latch_get_of_other (s : State) {r : Reg} {q : Wide} (other : r ≠ .wideLow q) :
    (s.latch r).port.latches.get q = s.port.latches.get q := by
  cases r with
  | wideLow q' => exact Latches.get_set_other _ q' q _ fun same => other (congrArg _ same)
  | _ => rfl

/-- Behind the high byte of a read the port stands as behind a register write (R148, R149). -/
theorem MgmtPort.afterRead_before_end {p : MgmtPort} (inside : p.endMarker = false) :
    p.afterRead = p.written p.pointer := by
  have same : { p with pointer := p.pointer, endMarker := false } = p := by rw [← inside]
  rw [← MgmtPort.advance_eq_written, same, MgmtPort.afterRead, if_neg (by simp [inside])]

theorem MgmtPort.afterRead_past_end {p : MgmtPort} (past : p.endMarker = true) :
    p.afterRead = { p with phase := .low } := by
  rw [MgmtPort.afterRead, if_pos past]

/-- The low byte of a read: the two halves of one sample, and the latch that it fills (R149,
R151). -/
theorem exec_latchedRead_low {s : State} (h : s.port.resetAsserted = false)
    (first : ∀ high, s.port.phase ≠ .highRead high) (inside : s.port.endMarker = false) :
    exec .latchedRead s = .next { s with
      port.phase := .highRead ((s.readReg (regAt s.port.pointer)).extractLsb' 8 8)
      port.latches := (s.latch (regAt s.port.pointer)).port.latches
      out.bus := s.out.bus ++
        [.byte ((s.readReg (regAt s.port.pointer)).extractLsb' 0 8)] } := by
  rw [exec_latchedRead_of_released h, State.nextByte_of_first first,
    State.sampleByte_before_end inside, State.latch_eq]
  rfl

end Sys2Proof.Machine

/-! ### What the registers read as (R11, R110, R122, R126, R144, R149, R155, R162, R171; 10.5) -/

namespace Sys2Proof.Machine

/-- The fields of CMD_STATUS (R155). -/
theorem CommandUnit.status_fields (c : CommandUnit) :
    c.status.extractLsb' 0 1 = BitVec.ofBool c.busy ∧
    c.status.extractLsb' 1 1 = BitVec.ofBool c.reject ∧
    c.status.extractLsb' 2 2 = c.reason.code ∧
    c.status.extractLsb' 4 4 = (0 : BitVec 1) ++ c.last.code ∧
    c.status.extractLsb' 8 8 = (0 : BitVec 5) ++ c.loadResult.code := by
  unfold CommandUnit.status
  refine ⟨?_, ?_, ?_, ?_, ?_⟩ <;> refine BitVec.eq_of_getLsbD_eq fun i hi => ?_ <;>
    simp only [BitVec.getLsbD_extractLsb', BitVec.getLsbD_append, boolBit] <;>
    interval_cases i <;> simp

/-- The fields of DEV_STATUS (R110, R122, R126). -/
theorem EpochCtl.status_fields (e : EpochCtl) :
    e.status.extractLsb' 0 4 = (0 : BitVec 1) ++ e.dev.code ∧
    e.status.extractLsb' 4 1 = BitVec.ofBool e.draining ∧
    e.status.extractLsb' 5 1 = BitVec.ofBool e.overflow ∧
    e.status.extractLsb' 6 10 = 0 := by
  unfold EpochCtl.status
  refine ⟨?_, ?_, ?_, ?_⟩ <;> refine BitVec.eq_of_getLsbD_eq fun i hi => ?_ <;>
    simp only [BitVec.getLsbD_extractLsb', BitVec.getLsbD_append, boolBit] <;>
    interval_cases i <;> simp

/-- The fields of EVENT (R162). -/
theorem State.eventRegister_fields (s : State) :
    s.eventRegister.extractLsb' 0 11 = s.alert.flags ∧
    s.eventRegister.extractLsb' 11 1 = 0 ∧
    s.eventRegister.extractLsb' 12 4 = (0 : BitVec 1) ++ s.cmd.loadResult.code := by
  unfold State.eventRegister
  refine ⟨?_, ?_, ?_⟩ <;> refine BitVec.eq_of_getLsbD_eq fun i hi => ?_ <;>
    simp only [BitVec.getLsbD_extractLsb', BitVec.getLsbD_append] <;> interval_cases i <;> simp

/-- The fields of MODE_QUOTA (R10). -/
theorem Window.modeQuota_fields (w : Window) :
    w.modeQuota.extractLsb' 0 8 = (0 : BitVec 6) ++ w.mode.code ∧
    w.modeQuota.extractLsb' 8 7 = w.quota ∧ w.modeQuota.extractLsb' 15 1 = 0 := by
  unfold Window.modeQuota
  refine ⟨?_, ?_, ?_⟩ <;> refine BitVec.eq_of_getLsbD_eq fun i hi => ?_ <;>
    simp only [BitVec.getLsbD_extractLsb', BitVec.getLsbD_append] <;> interval_cases i <;> simp

/-- The fields of ERR_INFO behind a memory error (R144). -/
theorem errInfo_fields (r : ErrRecord) :
    (errInfo (some r)).extractLsb' 0 4 = r.kind.code ∧
    (errInfo (some r)).extractLsb' 4 4 = (0 : BitVec 2) ++ r.cause.code ∧
    (errInfo (some r)).extractLsb' 8 2 = r.addr.extractLsb' 6 2 ∧
    (errInfo (some r)).extractLsb' 10 6 = 0 := by
  unfold errInfo
  refine ⟨?_, ?_, ?_, ?_⟩ <;> refine BitVec.eq_of_getLsbD_eq fun i hi => ?_ <;>
    simp only [BitVec.getLsbD_extractLsb', BitVec.getLsbD_append] <;> interval_cases i <;> simp

/-- A narrow value reads as the number it is. -/
theorem State.readReg_toNat {s : State} {r : Reg} {n : Nat} {x : BitVec n}
    (shown : s.readReg r = x.setWidth 16) (fits : n ≤ 16) : (s.readReg r).toNat = x.toNat := by
  rw [shown, BitVec.toNat_setWidth_of_le fits]

theorem setWidth_boolBit (b : Bool) : (boolBit b).setWidth 16 = if b then 1 else 0 := by
  cases b <;> rfl

/-- Six registers to a window, by the window and the register's place in it (10.5). -/
theorem regAt_window_place (n : Fin 4) :
    regAt (BitVec.ofNat 8 (0x20 + 6 * n.val + 0)) = .winBaseL (BitVec.ofFin n) ∧
    regAt (BitVec.ofNat 8 (0x20 + 6 * n.val + 1)) = .winBaseH (BitVec.ofFin n) ∧
    regAt (BitVec.ofNat 8 (0x20 + 6 * n.val + 2)) = .winLimitL (BitVec.ofFin n) ∧
    regAt (BitVec.ofNat 8 (0x20 + 6 * n.val + 3)) = .winLimitH (BitVec.ofFin n) ∧
    regAt (BitVec.ofNat 8 (0x20 + 6 * n.val + 4)) = .winMask (BitVec.ofFin n) ∧
    regAt (BitVec.ofNat 8 (0x20 + 6 * n.val + 5)) = .winModeQuota (BitVec.ofFin n) := by
  simpa only [Nat.add_right_comm _ (6 * n.val)] using regAt_window n

/-- Where no register stands (10.5). -/
theorem regAt_undefined : ∀ p : Byte, (0x17 ≤ p.toNat ∧ p.toNat ≤ 0x1F) ∨
    (0x38 ≤ p.toNat ∧ p.toNat ≤ 0x3F) ∨ p = 0x47 ∨ p = 0x4F ∨
    (0x58 ≤ p.toNat ∧ p.toNat ≤ 0x5F) ∨ (0x63 ≤ p.toNat ∧ p.toNat ≤ 0x6F) ∨ 0x7F ≤ p.toNat →
    regAt p = .undefined := by
  decide

/-- Settles O9: the two bytes of a read before and past the end, and the registers in the order of
the map. -/
theorem readSendsTheLowByteThenTheHighByteOfOneSample :
    Obligations.ReadSendsTheLowByteThenTheHighByteOfOneSample := by
  refine ⟨fun s h first inside => ?_, fun s high h second inside => ?_, fun s h first past => ?_,
    fun s high h second past => ?_, fun s q => ⟨rfl, rfl⟩, ?_⟩
  · exact ⟨_, exec_latchedRead_low h first inside, rfl, rfl,
      fun q wide => s.latch_get_of_wideLow wide, fun q other => s.latch_get_of_other other, rfl⟩
  · rw [exec_latchedRead_of_released h, State.nextByte_of_second second,
      MgmtPort.afterRead_before_end inside]
    rfl
  · rw [exec_latchedRead_of_released h, State.nextByte_of_first first, State.sampleByte_past_end past]
    rfl
  · rw [exec_latchedRead_of_released h, State.nextByte_of_second second,
      MgmtPort.afterRead_past_end past]
    rfl
  · intro s read viewed result pair
    have narrow : ∀ {p : Byte} {n : Nat} {x : BitVec n}, read p = x.setWidth 16 → n ≤ 16 →
        (read p).toNat = x.toNat := State.readReg_toNat
    refine ⟨?_, ?_, fun n => ?_, ?_, ?_, fun noError => ?_, fun err error => ?_,
      narrow rfl (by omega), fun p undefined => congrArg s.readReg (regAt_undefined p undefined)⟩
    · obtain ⟨busy, reject, reason, last, load⟩ := s.cmd.status_fields
      obtain ⟨dev, draining, overflow, high⟩ := s.epoch.status_fields
      obtain ⟨flags, gap, failure⟩ := s.eventRegister_fields
      refine ⟨rfl, busy, reject, reason.trans ?_, last.trans ?_, load.trans ?_, dev.trans ?_,
        draining, overflow, high, setWidth_boolBit _, ?_, flags, gap, failure.trans ?_,
        narrow rfl (by omega), ?_⟩
      · cases s.cmd.reason <;> rfl
      · cases s.cmd.last <;> rfl
      · dsimp only [result]
        cases s.cmd.loadResult <;> rfl
      · cases s.epoch.dev <;> rfl
      · show (viewBit s.imm.view).setWidth 16 = _
        cases s.imm.view <;> rfl
      · dsimp only [result]
        cases s.cmd.loadResult <;> rfl
      · show (alertModeBit s.imm.poolAlertMode ++ alertModeBit s.imm.tableMode).setWidth 16 = _
        cases s.imm.tableMode <;> cases s.imm.poolAlertMode <;> rfl
    · refine ⟨rfl, rfl, narrow rfl (by omega), ?_, narrow rfl (by omega), narrow rfl (by omega),
        narrow rfl (by omega), narrow rfl (by omega), rfl, narrow rfl (by omega), rfl,
        narrow rfl (by omega), narrow rfl (by omega), narrow rfl (by omega),
        narrow rfl (by omega)⟩
      show (PoolMode.code viewed.poolMode).setWidth 16 = _
      cases viewed.poolMode <;> rfl
    · obtain ⟨r0, r1, r2, r3, r4, r5⟩ := regAt_window_place n
      intro w at'
      obtain ⟨mode, quota, top⟩ := w.modeQuota_fields
      have place : ∀ {k : Nat} {r : Reg},
          regAt (BitVec.ofNat 8 (0x20 + 6 * n.val + k)) = r → at' k = s.readReg r :=
        fun named => congrArg s.readReg named
      rw [place r0, place r1, place r2, place r3, place r4, place r5]
      refine ⟨rfl, State.readReg_toNat rfl (by omega), rfl, State.readReg_toNat rfl (by omega), rfl,
        mode.trans ?_, quota, top⟩
      cases w.mode <;> rfl
    · exact ⟨rfl, rfl, rfl, rfl, rfl, rfl, rfl, rfl, rfl, rfl, rfl, rfl⟩
    · exact ⟨⟨rfl, rfl, _, rfl, rfl, rfl⟩, ⟨rfl, rfl, _, rfl, rfl, rfl⟩,
        ⟨rfl, rfl, _, rfl, rfl, rfl⟩, ⟨rfl, rfl, _, rfl, rfl, rfl⟩, ⟨rfl, rfl, _, rfl, rfl, rfl⟩⟩
    · have zero : s.wideValue .errAddr = 0 := by simp [State.wideValue, noError]
      exact ⟨⟨congrArg (BitVec.extractLsb' 0 16) zero, rfl, _, rfl, zero, rfl⟩,
        congrArg errInfo noError⟩
    · have addr : s.wideValue .errAddr = err.addr.extractLsb' 8 32 := by
        simp [State.wideValue, error]
      have info : read 0x62 = errInfo (some err) := congrArg errInfo error
      obtain ⟨kind, cause, line, high⟩ := errInfo_fields err
      rw [info]
      refine ⟨⟨congrArg (BitVec.extractLsb' 0 16) addr, rfl, _, rfl, addr, rfl⟩, kind.trans ?_,
        cause.trans ?_, line, high⟩
      · cases err.kind <;> rfl
      · cases err.cause <;> rfl

end Sys2Proof.Machine

/-! ### TABLE_HIGH and POOL_HIGH at a write of a threshold or a mode (R150, R165 to R167; log 12) -/

namespace Sys2Proof.Machine

/-- An evaluation of TABLE_HIGH gives the flags a value that follows the alert's rule. -/
theorem State.evalTableHigh_flags (s : State) :
    ∃ fl, s.evalTableHigh = { s with alert.flags := fl } ∧
      AlertRule s.occupancy s.imm.tableUpper.toNat s.imm.tableLower.toNat s.imm.tableMode
        (s.alert.isSet .tableHigh) (Alert.isSet { s.alert with flags := fl } .tableHigh) ∧
      ∀ f, f ≠ .tableHigh → Alert.isSet { s.alert with flags := fl } f = s.alert.isSet f :=
  s.applyVerdict_flags _ _ _ _ _

/-- An evaluation of POOL_HIGH gives the flags a value that follows the alert's rule. -/
theorem State.evalPoolHigh_flags (s : State) :
    ∃ fl, s.evalPoolHigh = { s with alert.flags := fl } ∧
      AlertRule s.poolUse s.imm.poolUpper.toNat s.imm.poolLower.toNat s.imm.poolAlertMode
        (s.alert.isSet .poolHigh) (Alert.isSet { s.alert with flags := fl } .poolHigh) ∧
      ∀ f, f ≠ .poolHigh → Alert.isSet { s.alert with flags := fl } f = s.alert.isSet f :=
  s.applyVerdict_flags _ _ _ _ _

/-- A write of TABLE_UPPER or TABLE_LOWER evaluates TABLE_HIGH with the two thresholds as they stand
behind it. -/
theorem State.writeAlert_table {s : State} {r : AlertReg} {v : Half} {upper : BitVec 12}
    {lower : BitVec 11}
    (written : (r = .tableUpper ∧ upper = BitVec.ofNat 12 (max 1 (min 2048 v.toNat)) ∧
        lower = s.imm.tableLower) ∨
      (r = .tableLower ∧ upper = s.imm.tableUpper ∧ lower = BitVec.ofNat 11 (min 2047 v.toNat))) :
    s.writeAlert r v =
        State.evalTableHigh { s with imm.tableUpper := upper, imm.tableLower := lower } ∧
      AlertReg.pointer r = if r = .tableUpper then 0x13 else 0x14 := by
  obtain ⟨rfl, rfl, rfl⟩ | ⟨rfl, rfl, rfl⟩ := written
  · exact ⟨rfl, rfl⟩
  · rw [← clampTo_low_zero]
    exact ⟨rfl, rfl⟩

/-- A write of POOL_UPPER or POOL_LOWER evaluates POOL_HIGH with the two thresholds as they stand
behind it. -/
theorem State.writeAlert_pool {s : State} {r : AlertReg} {v : Half} {upper : BitVec 7}
    {lower : BitVec 6}
    (written : (r = .poolUpper ∧ upper = BitVec.ofNat 7 (max 1 (min 64 v.toNat)) ∧
        lower = s.imm.poolLower) ∨
      (r = .poolLower ∧ upper = s.imm.poolUpper ∧ lower = BitVec.ofNat 6 (min 63 v.toNat))) :
    s.writeAlert r v =
        State.evalPoolHigh { s with imm.poolUpper := upper, imm.poolLower := lower } ∧
      AlertReg.pointer r = if r = .poolUpper then 0x15 else 0x16 := by
  obtain ⟨rfl, rfl, rfl⟩ | ⟨rfl, rfl, rfl⟩ := written
  · exact ⟨rfl, rfl⟩
  · rw [← clampTo_low_zero]
    exact ⟨rfl, rfl⟩

/-- Settles O15: a threshold's write evaluates one alert; ALERT_MODE's evaluates POOL_HIGH behind
TABLE_HIGH, and neither evaluation touches the other's flag. -/
theorem alertThresholdWriteEvaluatesItsAlert :
    Obligations.AlertThresholdWriteEvaluatesItsAlert := by
  intro s v h
  refine ⟨fun r upper lower written => ?_, fun r upper lower written => ?_, ?_⟩
  · obtain ⟨stored, pointer⟩ := State.writeAlert_table written
    obtain ⟨_, evaluated, rule, others⟩ := State.evalTableHigh_flags
      { s with imm.tableUpper := upper, imm.tableLower := lower }
    refine ⟨_, s.onPort_write h (·.writeAlert r v) (Machine.AlertReg.pointer r), ?_⟩
    rw [stored, evaluated, pointer]
    exact ⟨rule, others, rfl⟩
  · obtain ⟨stored, pointer⟩ := State.writeAlert_pool written
    obtain ⟨_, evaluated, rule, others⟩ := State.evalPoolHigh_flags
      { s with imm.poolUpper := upper, imm.poolLower := lower }
    refine ⟨_, s.onPort_write h (·.writeAlert r v) (Machine.AlertReg.pointer r), ?_⟩
    rw [stored, evaluated, pointer]
    exact ⟨rule, others, rfl⟩
  · obtain ⟨fl, evaluated, rule, others⟩ := State.evalTableHigh_flags
      { s with imm.tableMode := alertModeOf (v.getLsbD 0)
               imm.poolAlertMode := alertModeOf (v.getLsbD 1) }
    obtain ⟨fl', evaluated', rule', others'⟩ := State.evalPoolHigh_flags
      { s with imm.tableMode := alertModeOf (v.getLsbD 0)
               imm.poolAlertMode := alertModeOf (v.getLsbD 1)
               alert.flags := fl }
    have table : Alert.isSet { s.alert with flags := fl' } .tableHigh =
        Alert.isSet { s.alert with flags := fl } .tableHigh := others' .tableHigh (by decide)
    have pool : Alert.isSet { s.alert with flags := fl } .poolHigh = s.alert.isSet .poolHigh :=
      others .poolHigh (by decide)
    refine ⟨_, s.onPort_write h (·.writeAlert .alertMode v) 0x07, ?_⟩
    rw [State.writeAlert, evaluated, evaluated']
    exact ⟨table ▸ rule, pool ▸ rule',
      fun f notTable notPool => (others' f notPool).trans (others f notTable), rfl⟩

end Sys2Proof.Machine

/-! ### A write of HOLD_ALERT (R150, R168) -/

namespace Sys2Proof.Machine

theorem State.overAlert_iff (s : State) (h : HeldReq) : s.overAlert h = true ↔
    h.isHeld = true ∧ s.imm.holdAlert.toNat ≤ h.time.toNat := by
  simp [State.overAlert]

/-- A HELD request is overdue for the value written. -/
theorem State.writeHoldAlert_of_overdue {s : State} {v : Half} (nonzero : v ≠ 0)
    (overdue : ∃ h ∈ s.hold, h.isHeld = true ∧ v.toNat ≤ h.time.toNat) :
    s.writeHoldAlert v = { s with
      imm.holdAlert := v
      alert.flags := s.alert.flags ||| 0x400
      hold := s.hold.map fun h =>
        if h.isHeld = true ∧ v.toNat ≤ h.time.toNat then { h with reachedAlert := true }
        else h } := by
  have reaches := State.overAlert_iff { s with imm.holdAlert := v }
  obtain ⟨h, hm, late⟩ := overdue
  have due : (v != 0 && s.hold.any (State.overAlert { s with imm.holdAlert := v })) = true := by
    rw [Bool.and_eq_true, List.any_eq_true, bne_iff_ne]
    exact ⟨nonzero, h, hm, (reaches h).2 late⟩
  unfold State.writeHoldAlert
  rw [if_pos due]
  simp only [reaches]
  rfl

/-- No HELD request is overdue for the value written, or the value is 0. -/
theorem State.writeHoldAlert_of_none {s : State} {v : Half}
    (early : v = 0 ∨ ∀ h ∈ s.hold, h.isHeld = true → h.time.toNat < v.toNat) :
    s.writeHoldAlert v = { s with imm.holdAlert := v } := by
  refine if_neg fun due => ?_
  rw [Bool.and_eq_true, List.any_eq_true, bne_iff_ne] at due
  obtain ⟨nonzero, h, hm, reaches⟩ := due
  obtain ⟨held, late⟩ := (State.overAlert_iff _ h).1 reaches
  exact early.elim nonzero fun below => Nat.not_le.2 (below h hm held) late

/-- Settles O17. -/
theorem holdAlertWriteSetsHoldLongForOverdueHolds :
    Obligations.HoldAlertWriteSetsHoldLongForOverdueHolds := by
  intro s v h
  have ran : exec (.holdAlertWrite v) s = _ := s.onPort_write h (·.writeHoldAlert v) 0x12
  refine ⟨fun nonzero overdue => ?_, fun early => ?_⟩
  · rw [ran, State.writeHoldAlert_of_overdue nonzero overdue]
  · rw [ran, State.writeHoldAlert_of_none early]

end Sys2Proof.Machine

/-! ### ATTN_N (R164) -/

namespace Sys2Proof.Machine

/-- Each flag has a place of its own in EVENT (10.5). -/
theorem EventFlag.bit_eq_twoPow : ∀ f : EventFlag, ∃ i : Fin 11, f.bit = BitVec.twoPow 11 i := by
  intro f
  cases f <;> decide

/-- Each of the eleven places in EVENT is a flag's (10.5). -/
theorem EventFlag.exists_bit_eq_twoPow :
    ∀ i : Fin 11, ∃ f : EventFlag, f.bit = BitVec.twoPow 11 i := by
  intro i
  fin_cases i
  exacts [⟨.loadDone, rfl⟩, ⟨.loadFail, rfl⟩, ⟨.epochClosed, rfl⟩, ⟨.overflow, rfl⟩,
    ⟨.memErr, rfl⟩, ⟨.jringWait, rfl⟩, ⟨.iringWait, rfl⟩, ⟨.cmdRejected, rfl⟩,
    ⟨.tableHigh, rfl⟩, ⟨.poolHigh, rfl⟩, ⟨.holdLong, rfl⟩]

theorem and_twoPow_ne_zero_iff (x : BitVec 11) (i : Fin 11) :
    x &&& BitVec.twoPow 11 i ≠ 0 ↔ x.getLsbD i = true := by
  have place : BitVec.twoPow 11 i ≠ 0 := by
    revert i
    decide
  rw [BitVec.and_twoPow]
  split_ifs with bit
  · exact iff_of_true place bit
  · exact iff_of_false (fun nonzero => nonzero rfl) bit

/-- Flags and enables meet where some flag has its bit in both. -/
theorem and_ne_zero_iff_exists_flag (x y : BitVec 11) :
    x &&& y ≠ 0 ↔ ∃ f : EventFlag, x &&& f.bit ≠ 0 ∧ y &&& f.bit ≠ 0 := by
  constructor
  · intro meets
    by_contra apart
    refine meets (BitVec.eq_of_getLsbD_eq fun i hi => ?_)
    obtain ⟨f, bit⟩ := EventFlag.exists_bit_eq_twoPow ⟨i, hi⟩
    have notBoth := not_exists.1 apart f
    rw [bit, and_twoPow_ne_zero_iff, and_twoPow_ne_zero_iff, ← Bool.and_eq_true] at notBoth
    rw [BitVec.getLsbD_and]
    simpa using notBoth
  · rintro ⟨f, inX, inY⟩ zero
    obtain ⟨i, bit⟩ := f.bit_eq_twoPow
    rw [bit, and_twoPow_ne_zero_iff] at inX inY
    have both : (x &&& y).getLsbD i = true := by rw [BitVec.getLsbD_and, inX, inY]; rfl
    simp [zero] at both

/-- Settles O18. -/
theorem attnIsAssertedWhileAnEnabledFlagIsSet :
    Obligations.AttnIsAssertedWhileAnEnabledFlagIsSet := by
  intro s
  unfold State.attnAsserted Alert.isSet
  simp only [Bool.and_eq_true, Bool.not_eq_true', bne_iff_ne]
  rw [and_ne_zero_iff_exists_flag]

end Sys2Proof.Machine

/-! ### Records and descriptors in memory (R75, R85, R93, R98, R100, R119, R124, R173, R174; 10.2,
10.3) -/

namespace Sys2Proof.Machine

/-! The words of the records, by the places of their fields. -/

/-- The fields of a record's header word; the owner is SOFTWARE (R100). -/
theorem headerWord_fields (epoch : Half) (flags : Byte) (kind : BitVec 2) :
    (headerWord epoch flags kind).extractLsb' 0 2 = 2 ∧
    (headerWord epoch flags kind).extractLsb' 2 2 = kind ∧
    (headerWord epoch flags kind).extractLsb' 4 4 = 0 ∧
    (headerWord epoch flags kind).extractLsb' 8 8 = flags ∧
    (headerWord epoch flags kind).extractLsb' 16 16 = epoch := by
  unfold headerWord
  refine ⟨?_, ?_, ?_, ?_, ?_⟩ <;>
    simp (disch := omega) only [BitVec.extractLsb'_append_eq_of_add_le,
      BitVec.extractLsb'_append_eq_of_le] <;>
    exact BitVec.extractLsb'_eq_self

/-- The flags of a BLOCK record's header: the saturated flag alone (10.2). -/
theorem blockHeader_flags (seq : Word) (e : Entry) :
    (Record.header (.block seq e)).extractLsb' 8 1 = BitVec.ofBool e.saturated ∧
    (Record.header (.block seq e)).extractLsb' 9 7 = 0 := by
  unfold Record.header headerWord boolBit
  refine ⟨?_, ?_⟩ <;>
    simp (disch := omega) only [BitVec.extractLsb'_append_eq_of_add_le,
      BitVec.extractLsb'_append_eq_of_le] <;>
    exact BitVec.extractLsb'_eq_self

/-- The fields of BLOCK word 3 (R93). -/
theorem blockWord3_fields (e : Entry) :
    (blockWord3 e).extractLsb' 0 8 = e.count ∧ (blockWord3 e).extractLsb' 8 4 = e.handoffs ∧
    (blockWord3 e).extractLsb' 12 4 = e.firstWriter ∧
    (blockWord3 e).extractLsb' 16 4 = e.lastWriter ∧ (blockWord3 e).extractLsb' 20 2 = e.window ∧
    (blockWord3 e).extractLsb' 22 1 = e.mode.code ∧ (blockWord3 e).extractLsb' 23 1 = 0 ∧
    (blockWord3 e).extractLsb' 24 2 = causeCode e.cause ∧
    (blockWord3 e).extractLsb' 26 6 = 0 := by
  unfold blockWord3
  refine ⟨?_, ?_, ?_, ?_, ?_, ?_, ?_, ?_, ?_⟩ <;>
    simp (disch := omega) only [BitVec.extractLsb'_append_eq_of_add_le,
      BitVec.extractLsb'_append_eq_of_le] <;>
    exact BitVec.extractLsb'_eq_self

/-- The fields of BLOCK word 4 (R93). -/
theorem blockWord4_fields (e : Entry) :
    (blockWord4 e).extractLsb' 0 16 = e.writers ∧
    (blockWord4 e).extractLsb' 16 12 = imageIndex e.imageBuf ∧
    (blockWord4 e).extractLsb' 28 4 = 0 := by
  unfold blockWord4
  refine ⟨?_, ?_, ?_⟩ <;>
    simp (disch := omega) only [BitVec.extractLsb'_append_eq_of_add_le,
      BitVec.extractLsb'_append_eq_of_le] <;>
    exact BitVec.extractLsb'_eq_self

/-- Two fields side by side, as a number. -/
theorem toNat_append_eq_add {v w : Nat} (high : BitVec v) (low : BitVec w) :
    (high ++ low).toNat = low.toNat + 2 ^ w * high.toNat := by
  rw [BitVec.toNat_append, ← Nat.shiftLeft_add_eq_or_of_lt low.isLt, Nat.shiftLeft_eq,
    Nat.mul_comm, Nat.add_comm]

/-- OPEN word 1 as the sum of its fields (R119). -/
theorem openWord1_toNat (cause : CutCause) (ws : Windows) (pm : PoolMode) :
    (openWord1 cause ws pm).toNat = (match cause with | .command => 1 | .switch => 2) +
      256 * ws.w0.mode.code.toNat + 1024 * ws.w1.mode.code.toNat +
      4096 * ws.w2.mode.code.toNat + 16384 * ws.w3.mode.code.toNat + 65536 * pm.code.toNat := by
  unfold openWord1
  simp only [toNat_append_eq_add]
  cases cause <;> simp <;> omega

/-- CLOSE word 6 as the sum of its fields, for peaks in their ranges (R124). -/
theorem closeWord6_toNat {sum : Summary} (occ : sum.peakOcc ≤ 2048) (pool : sum.peakPool ≤ 64) :
    (closeWord6 sum).toNat = sum.peakOcc + 65536 * sum.peakPool := by
  unfold closeWord6
  simp only [toNat_append_eq_add, BitVec.toNat_ofNat, BitVec.ofNat_eq_ofNat]
  omega

/-- CLOSE word 7 as the sum of its fields (R124). -/
theorem closeWord7_toNat (sum : Summary) :
    (closeWord7 sum).toNat =
      (match sum.cause with | .switch => 1 | .endEpoch => 2) + 256 * sum.overflow.toNat := by
  unfold closeWord7 boolBit
  cases sum.cause <;> cases sum.overflow <;> rfl

/-! Where an address points in its line. -/

theorem lineOf_toNat (a : Addr) : (lineOf a).toNat = 64 * (a.toNat / 64) := by
  have := a.isLt
  rw [lineOf, toNat_append_eq_add, toNat_extractLsb'_of_start]
  simp
  omega

theorem lineOffset_eq (a : Addr) : lineOffset a = a.toNat % 64 := by
  rw [lineOffset, toNat_extractLsb'_of_start]
  simp

/-- The quad of its line that an address points into. -/
theorem toNat_quadIndex (a : Addr) : (a.extractLsb' 4 2).toNat = a.toNat % 64 / 16 := by
  rw [toNat_extractLsb'_of_start]
  omega

theorem quadAt_eq (line : Line) (a : Addr) : quadAt line a = lineQuad line (a.toNat % 64 / 16) := by
  rw [quadAt, toNat_quadIndex]

/-- The quad put into a line at an address is the one that stands there. -/
theorem quadAt_lineWith (a : Addr) (first second : Quad) :
    quadAt (lineWith a first second) a = first := by
  unfold quadAt lineWith
  generalize (a.extractLsb' 4 2).toNat = n
  match n with
  | 0 | 1 | 2 | _ + 3 => rfl

theorem lineWith_of_lower_half {a : Addr} (h : a.toNat % 64 = 0) (first second : Quad) :
    lineWith a first second = ⟨first, second, Quad.zero, Quad.zero⟩ := by
  rw [lineWith, toNat_quadIndex, h]
  rfl

theorem lineWith_of_upper_half {a : Addr} (h : a.toNat % 64 = 32) (first second : Quad) :
    lineWith a first second = ⟨Quad.zero, Quad.zero, first, second⟩ := by
  rw [lineWith, toNat_quadIndex, h]
  rfl

/-- The bytes a mask enables are the `len` bytes from `off` on, as far as the line goes. -/
theorem maskOf_getLsbD_iff (off len : Nat) {k : Nat} (hk : k < 64) :
    (maskOf off len).getLsbD k = true ↔ off ≤ k ∧ k < off + len := by
  simp only [maskOf, BitVec.getLsbD_shiftLeft, BitVec.getLsbD_ofNat, Nat.testBit_two_pow_sub_one,
    Bool.and_eq_true, Bool.not_eq_true', decide_eq_true_eq, decide_eq_false_iff_not]
  omega

/-- The bytes of a write whose mask begins at some byte of what an address points at. -/
theorem maskOf_lineOffset_getLsbD_iff (a : Addr) (skip len : Nat) {k : Nat} (hk : k < 64) :
    (maskOf (lineOffset a + skip) len).getLsbD k = true ↔
      a.toNat % 64 + skip ≤ k ∧ k < a.toNat % 64 + (skip + len) := by
  rw [maskOf_getLsbD_iff _ _ hk, lineOffset_eq, Nat.add_assoc]

/-- Settles O52: the records' words by their fields, then the writes by the half of the line that
their slot is in. -/
theorem recordsAndDescriptorsAreLaidOutAsInChapter10 :
    Obligations.RecordsAndDescriptorsAreLaidOutAsInChapter10 := by
  refine ⟨fun seq e => ?_, fun n cause ws pm time => ?_, fun sum blocks images occ pool => ?_,
    fun e image => rfl, lineOf_toNat, quadAt_eq, fun slot r _ => ?_, fun desc e image _ => ?_⟩
  · obtain ⟨owner, kind, gap, -, epoch⟩ :=
      headerWord_fields e.epoch ((0 : BitVec 7) ++ boolBit e.saturated) 2
    obtain ⟨saturated, flags⟩ := blockHeader_flags seq e
    obtain ⟨count, handoffs, first, last, window, mode, gap3, cause, high3⟩ := blockWord3_fields e
    obtain ⟨writers, index, high4⟩ := blockWord4_fields e
    exact ⟨owner, kind, gap, saturated, flags, epoch, rfl, rfl, count, handoffs, first, last,
      window, mode, gap3, cause, high3, writers, index, high4, rfl, rfl, rfl⟩
  · intro r mode
    have mode_eq (w : Window) : w.mode.code.toNat = mode w := by
      dsimp only [mode]
      cases w.mode <;> rfl
    refine ⟨rfl, (openWord1_toNat cause ws pm).trans ?_, rfl, rfl, rfl⟩
    simp only [mode_eq]
    cases pm <;> rfl
  · exact ⟨rfl, rfl, rfl, rfl, rfl, rfl, closeWord6_toNat occ pool, closeWord7_toNat sum⟩
  · refine ⟨_, _, _, _, rfl, rfl, fun k => maskOf_lineOffset_getLsbD_iff slot 4 28,
      fun k => maskOf_lineOffset_getLsbD_iff slot 0 4, fun lower => ?_, fun upper => ?_⟩
    · rw [lineWith_of_lower_half lower, lineWith_of_lower_half lower]
      exact ⟨rfl, rfl, rfl⟩
    · rw [lineWith_of_upper_half upper, lineWith_of_upper_half upper]
      exact ⟨rfl, rfl, rfl⟩
  · exact ⟨_, _, rfl, fun k => maskOf_lineOffset_getLsbD_iff desc 0 16,
      quadAt_lineWith desc _ Quad.zero⟩

end Sys2Proof.Machine

/-! ### Steps and the queue of commands (log 1, log 2, log 19, log 20) -/

namespace Sys2Proof.Machine

/-- Settles O1: the branch of `step` that finds a command waiting. -/
theorem stepRunsFrontCommand : Obligations.StepRunsFrontCommand :=
  fun _ _ _ => rfl

/-- The outcome is a next state in which the commands wait that wait in `s`. -/
def State.GoesOn (s : State) (o : Host.Outcome State Fault Refusal) : Prop :=
  ∃ t, o = .next t ∧ t.pending = s.pending

theorem State.GoesOn.next {s t : State} (h : t.pending = s.pending) : s.GoesOn (.next t) :=
  ⟨t, rfl, h⟩

/-- A command without effect goes on (log 1). -/
theorem State.GoesOn.same (s : State) : s.GoesOn (.next s) := .next rfl

/-- A command that is due goes on, and so does one that is not (log 1). -/
theorem State.GoesOn.guarded {s t : State} (p : Bool) (h : t.pending = s.pending) :
    s.GoesOn (if p then .next t else .next s) := by
  split_ifs
  · exact .next h
  · exact .same s

/-- Behind the port a command goes on whether or not the port responds (R147). -/
theorem State.GoesOn.onPort {s : State} {f : State → State} (h : (f s).pending = s.pending) :
    s.GoesOn (s.onPort f) := by
  unfold State.onPort
  split_ifs
  · exact .same s
  · exact .next h

@[simp] theorem State.afterWrite_pending (s : State) (p : Byte) :
    (s.afterWrite p).pending = s.pending := rfl

/-- A row that stands for a whole register write leaves the queue as the register's own effect does
(log 4). -/
theorem State.GoesOn.onPortWrite {s : State} {f : State → State} (p : Byte)
    (h : (f s).pending = s.pending) : s.GoesOn (s.onPort fun u => (f u).afterWrite p) :=
  .onPort ((State.afterWrite_pending _ p).trans h)

/-! #### The end of an event, and classifications -/

@[simp] theorem State.applyVerdict_pending (s : State) (f : EventFlag) (v : AlertVerdict) :
    (s.applyVerdict f v).pending = s.pending := by
  rw [State.applyVerdict_eq]

@[simp] theorem State.handChanges_pending (s : State) : s.handChanges.pending = s.pending := by
  rw [State.handChanges_eq]

@[simp] theorem State.grantBuffers_pending (s : State) : s.grantBuffers.pending = s.pending := by
  rw [State.grantBuffers_eq]

@[simp] theorem State.route_pending (s : State) (r : Request) (x : Hold) :
    (s.route r x).pending = s.pending := by
  rw [State.route_eq]

@[simp] theorem State.classifyWrite_pending (s : State) (r : Request)
    (waiting ahead blocked : Bool) :
    (s.classifyWrite r waiting ahead blocked).1.pending = s.pending := by
  rw [State.classifyWrite_eq]

@[simp] theorem State.arriveWrite_pending (s : State) (r : Request) :
    (s.arriveWrite r).pending = s.pending := by
  unfold State.arriveWrite
  dsimp only
  split_ifs
  · rfl
  · rw [State.route_pending, State.classifyWrite_pending]

/-! #### Grants of slots, captures and copy-outs -/

@[simp] theorem State.retireEntry_pending (s : State) (e : Entry) :
    (s.retireEntry e).pending = s.pending := by
  rw [State.retireEntry_eq, State.grantEntry_eq]
  rfl

@[simp] theorem State.completeCapture_pending (s : State) (e : Entry) :
    (s.completeCapture e).pending = s.pending := by
  unfold State.completeCapture
  dsimp only
  rw [State.setHold_pending, releaseWalk_eq]
  rfl

@[simp] theorem State.captureLine_pending (s : State) (slot buffer line : Nat) (data : Line) :
    (s.captureLine slot buffer line data).pending = s.pending := by
  unfold State.captureLine
  dsimp only
  split
  · rfl
  · split_ifs
    · rfl
    · exact State.completeCapture_pending _ _
    · rfl

@[simp] theorem State.completeImage_pending (s : State) (e : Entry) (p : CopyOutPlace) :
    (s.completeImage e p).pending = s.pending := by
  unfold State.completeImage
  dsimp only
  split <;> rfl

@[simp] theorem State.imageLine_pending (s : State) (slot : Nat) :
    (s.imageLine slot).pending = s.pending := by
  unfold State.imageLine
  split
  · dsimp only
    split_ifs
    · exact State.completeImage_pending _ _ _
    · rfl
  · rfl

@[simp] theorem State.completeDesc_pending (s : State) (slot : Nat) :
    (s.completeDesc slot).pending = s.pending := by
  unfold State.completeDesc
  split
  · rfl
  · split_ifs
    · rw [State.countImage_eq]; rfl
    · rfl

/-! #### The rings -/

@[simp] theorem State.queueDescRead_pending (s : State) :
    s.queueDescRead.pending = s.pending := by
  unfold State.queueDescRead
  split <;> rfl

@[simp] theorem State.queueSlotRead_pending (s : State) :
    s.queueSlotRead.pending = s.pending := by
  unfold State.queueSlotRead
  split <;> rfl

@[simp] theorem State.queueSlotWrite_pending (s : State) (op : Addr → Record → Op) :
    (s.queueSlotWrite op).pending = s.pending := by
  unfold State.queueSlotWrite
  split <;> rfl

@[simp] theorem State.takeDescriptor_pending (s : State) (data : Line) :
    (s.takeDescriptor data).pending = s.pending := by
  unfold State.takeDescriptor
  split
  · rfl
  · dsimp only
    split_ifs <;> rfl

@[simp] theorem State.takeSlot_pending (s : State) (data : Line) :
    (s.takeSlot data).pending = s.pending := by
  unfold State.takeSlot
  split
  · rfl
  · split_ifs
    · exact State.queueSlotWrite_pending _ _
    · rfl
    · rfl

@[simp] theorem State.completeDrain_pending (s : State) : s.completeDrain.pending = s.pending := by
  unfold State.completeDrain
  dsimp only
  split_ifs <;> rfl

@[simp] theorem State.slotWritten_pending (s : State) : s.slotWritten.pending = s.pending := by
  unfold State.slotWritten
  split
  · exact s.queueSlotWrite_pending headerWrite
  · unfold State.recordWritten
    split
    · dsimp only
      split_ifs
      · exact State.completeDrain_pending _
      · rfl
    · rfl
  all_goals rfl

/-! #### The Journal Control Block, memory errors, and the overflow -/

@[simp] theorem State.checkJcb_pending (s : State) (q : Quad) :
    (s.checkJcb q).pending = s.pending := by
  unfold State.checkJcb
  split_ifs <;> rfl

@[simp] theorem State.reportError_pending (s : State) : s.reportError.pending = s.pending := by
  unfold State.reportError
  rw [State.halt_eq]
  split <;> rfl

@[simp] theorem State.memoryError_pending (s : State) (r : OwnReq) (c : ErrCause) :
    (s.memoryError r c).pending = s.pending := by
  unfold State.memoryError
  rw [State.dropOwn_pending, State.reportError_pending]

@[simp] theorem State.endAbandoned_pending (s : State) (tag : Nat) :
    (s.endAbandoned tag).pending = s.pending := by
  unfold State.endAbandoned
  split_ifs <;> rfl

@[simp] theorem State.overflowEpoch_pending (s : State) : s.overflowEpoch.pending = s.pending := by
  rw [State.overflowEpoch_eq]

/-- An answer leaves the queue as its owner does (R132, R136). -/
theorem State.GoesOn.ownAnswer (s : State) (tag : Nat) (fits : OwnRole → Bool)
    {owner : OwnReq → State → State} (h : ∀ r u, (owner r u).pending = u.pending) :
    s.GoesOn (.next (s.ownAnswer tag fits owner)) := by
  refine .next ?_
  obtain ⟨_, e⟩ | ⟨i, _, ⟨_, e⟩ | ⟨_, _, e⟩ | ⟨_, _, e⟩⟩ := s.ownAnswer_cases tag fits owner <;>
    rw [e]
  · exact s.endOwn_pending tag
  · rw [h, State.endOwn_pending]

/-! #### The cuts and the commands of the Command Unit -/

@[simp] theorem State.reclassifyWaiters_pending (s : State) :
    s.reclassifyWaiters.pending = s.pending := by
  unfold State.reclassifyWaiters
  dsimp only
  rw [State.setHold_pending, reclassify_eq]
  rfl

@[simp] theorem State.endCut_pending (s : State) : s.endCut.pending = s.pending := by
  unfold State.endCut
  rw [State.handChanges_pending]
  exact s.grantBuffers_pending

@[simp] theorem State.cutOpen_pending (s : State) : s.cutOpen.pending = s.pending := by
  unfold State.cutOpen
  rw [State.endCut_pending, State.reclassifyWaiters_pending]
  rfl

@[simp] theorem State.cutSwitch_pending (s : State) : s.cutSwitch.pending = s.pending := by
  unfold State.cutSwitch
  rw [State.endCut_pending]
  exact State.reclassifyWaiters_pending _

@[simp] theorem State.cutEnd_pending (s : State) : s.cutEnd.pending = s.pending := by
  unfold State.cutEnd
  rw [State.handOver_pending]
  rfl

@[simp] theorem State.takeKick_pending (s : State) : s.takeKick.pending = s.pending := by
  have fir : ∀ u : State, u.kickFir.pending = u.pending := fun u => by
    unfold State.kickFir
    split_ifs
    · exact u.queueDescRead_pending
    · rfl
  have ring : ∀ u : State, u.kickRing.pending = u.pending := fun u => by
    unfold State.kickRing
    split_ifs
    · exact u.queueSlotRead_pending
    · rfl
  exact (ring _).trans (fir _)

@[simp] theorem State.takeStop_pending (s : State) : s.takeStop.pending = s.pending := by
  unfold State.takeStop
  rw [State.evalDrainMode_pending, State.handChanges_pending, State.stopBlocks_eq]

/-- An EXECUTE command leaves the queue as its acceptance does; a refusal leaves it alone (R153,
R154). -/
theorem State.decideExecute_pending {s : State} (legal : Bool) {accept : State → State}
    (accepted : (accept s).pending = s.pending) :
    (s.decideExecute legal accept).pending = s.pending := by
  unfold State.decideExecute
  split_ifs
  · rfl
  · exact accepted
  · rfl

@[simp] theorem State.takeLoad_pending (s : State) : s.takeLoad.pending = s.pending :=
  State.decideExecute_pending _ rfl

@[simp] theorem State.takeOpen_pending (s : State) : s.takeOpen.pending = s.pending :=
  State.decideExecute_pending _ (by rw [State.acceptOpen, State.cutOpen_pending])

@[simp] theorem State.takeSwitch_pending (s : State) : s.takeSwitch.pending = s.pending :=
  State.decideExecute_pending _ (by rw [State.acceptSwitch, State.cutSwitch_pending])

@[simp] theorem State.takeEnd_pending (s : State) : s.takeEnd.pending = s.pending :=
  State.decideExecute_pending _ (by rw [State.acceptEnd, State.cutEnd_pending])

@[simp] theorem State.commandWrite_pending (s : State) (v : Half) :
    (s.commandWrite v).pending = s.pending := by
  unfold State.commandWrite
  split_ifs
  exacts [s.takeKick_pending, s.takeStop_pending, s.takeLoad_pending, s.takeOpen_pending,
    s.takeSwitch_pending, s.takeEnd_pending, rfl]

/-! #### Registers and reads -/
@[simp] theorem State.writeAlert_pending (s : State) (r : AlertReg) (v : Half) :
    (s.writeAlert r v).pending = s.pending := by
  have evaluated := State.applyVerdict_pending
  cases r with
  | alertMode => exact (evaluated _ _ _).trans (evaluated _ _ _)
  | tableUpper | tableLower | poolUpper | poolLower => exact evaluated _ _ _

@[simp] theorem State.writeDrain_pending (s : State) (r : DrainReg) (v : Half) :
    (s.writeDrain r v).pending = s.pending := by
  cases r <;> rfl

@[simp] theorem State.writeHoldAlert_pending (s : State) (v : Half) :
    (s.writeHoldAlert v).pending = s.pending := by
  unfold State.writeHoldAlert
  dsimp only
  split_ifs <;> rfl

@[simp] theorem State.resetPeak_pending (s : State) (p : Peak) :
    (s.resetPeak p).pending = s.pending := by
  cases p <;> rfl

@[simp] theorem State.writePeak_pending (s : State) (p : Peak) (v : Half) :
    (s.writePeak p v).pending = s.pending := by
  unfold State.writePeak
  split_ifs
  · exact s.resetPeak_pending p
  · rfl

@[simp] theorem State.writeReg_pending (s : State) (v : Half) (r : Reg) :
    (s.writeReg v r).pending = s.pending := by
  cases r with
  | command => exact s.commandWrite_pending v
  | alertMode | tableUpper | tableLower | poolUpper | poolLower => exact s.writeAlert_pending _ v
  | drainHigh | drainLow => exact s.writeDrain_pending _ v
  | holdAlert => exact s.writeHoldAlert_pending v
  | peakOcc | peakPool => exact s.writePeak_pending _ v
  | wideLow q =>
    cases q with
    | peakHold => exact s.writePeak_pending _ v
    | _ => rfl
  | _ => rfl

@[simp] theorem State.highByte_pending (s : State) (low high : Byte) :
    (s.highByte low high).pending = s.pending := by
  unfold State.highByte
  split_ifs
  · rfl
  · exact (State.afterWrite_pending _ _).trans (s.writeReg_pending _ _)

@[simp] theorem State.sampleByte_pending (s : State) : s.sampleByte.pending = s.pending := by
  unfold State.sampleByte
  split_ifs
  · rfl
  · rw [State.latch_eq]
    rfl

/-! #### Every command -/

theorem exec_issue_goesOn (s : State) : s.GoesOn (exec .issue s) := by
  cases chosen : s.choose with
  | nothing =>
    rw [exec_issue_of_nothing chosen]
    exact .same s
  | capture r =>
    rw [exec_issue_of_capture chosen]
    exact .next rfl
  | background r =>
    rw [exec_issue_of_background chosen]
    exact .next rfl
  | pass p =>
    rw [exec_issue_of_pass chosen]
    exact .next rfl

/-- Commands name no stop (log 19), and each leaves the queue as the operations it is made of do. -/
theorem exec_goesOn (c : Instr) (s : State) : s.GoesOn (exec c s) := by
  unfold exec
  cases c with
  | writeArrival i a m d g =>
    have arrived := (s.takeRequest i a (.write m d) g).1.arriveWrite_pending
    exact .guarded _ ((State.handOver_pending _).trans (arrived _))
  | readArrival i a g => exact .guarded _ ((s.takeRequest i a .read g).1.route_pending _ _)
  | releasedLeave => exact ⟨_, exec_releasedLeave_eq s, rfl⟩
  | issue => exact exec_issue_goesOn s
  | passThroughAnswer g a =>
    simp only [execPassThroughAnswer]
    split
    · exact .same s
    · exact .guarded _ rfl
  | unmatchedAnswer g a => exact .same s
  | captureReadData g d =>
    refine .ownAnswer s g _ fun r u => ?_
    split
    · exact (State.handOver_pending _).trans (u.captureLine_pending _ _ _ d)
    · rfl
  | imageWriteDone g =>
    refine .ownAnswer s g _ fun r u => ?_
    split
    · exact (State.handOver_pending _).trans (u.imageLine_pending _)
    · rfl
  | descWriteDone g =>
    refine .ownAnswer s g _ fun r u => ?_
    split
    · exact u.completeDesc_pending _
    · rfl
  | descReadData g d => exact .ownAnswer s g _ fun _ u => u.takeDescriptor_pending d
  | slotReadData g d => exact .ownAnswer s g _ fun _ u => u.takeSlot_pending d
  | slotWriteDone g => exact .ownAnswer s g _ fun _ u => u.slotWritten_pending
  | jcbReadData g d =>
    refine .ownAnswer s g _ fun r u => ?_
    split
    · split_ifs
      · exact u.checkJcb_pending _
      · rfl
    · rfl
  | errorAnswer g => exact .ownAnswer s g _ fun r u => u.memoryError_pending r .error
  | timeout g =>
    simp only [execTimeout]
    split_ifs
    · exact .ownAnswer s g _ fun r u => u.memoryError_pending r .timeout
    · exact .same s
  | abandonedAnswer g a => exact .next (s.endAbandoned_pending g)
  | abandonedTimeout g => exact .guarded _ (s.endAbandoned_pending g)
  | holdLimitExpiry => exact .guarded _ ((State.handOver_pending _).trans s.overflowEpoch_pending)
  | holdAlertReached => exact .guarded _ rfl
  | ageExpiry =>
    simp only [execAgeExpiry]
    split
    exacts [.same s, .next (s.giveCause_pending _ _)]
  | firPollExpiry => exact .guarded _ s.queueDescRead_pending
  | ringPollExpiry => exact .guarded _ s.queueSlotRead_pending
  | bufferGrant =>
    simp only [execBufferGrant]
    split
    exacts [.same s, .next (State.handOver_pending _)]
  | prefetch => exact .guarded _ s.queueDescRead_pending
  | copyOutStart =>
    simp only [execCopyOutStart]
    split
    exacts [.same s, .next rfl]
  | retirement =>
    simp only [execRetirement]
    split
    exacts [.same s, .next ((State.handOver_pending _).trans (s.retireEntry_pending _))]
  | closeRecordBuild =>
    simp only [execCloseRecordBuild]
    split
    exacts [.same s, .next rfl]
  | journalSlotReadStart => exact .guarded _ s.queueSlotRead_pending
  | load => exact .onPortWrite _ s.takeLoad_pending
  | openEpoch => exact .onPortWrite _ s.takeOpen_pending
  | closeSwitch => exact .onPortWrite _ s.takeSwitch_pending
  | closeEnd => exact .onPortWrite _ s.takeEnd_pending
  | kick => exact .onPortWrite _ s.takeKick_pending
  | stop => exact .onPortWrite _ s.takeStop_pending
  | invalidCommandCode v => exact .onPortWrite _ (s.commandWrite_pending v)
  | alertThresholdWrite r v => exact .onPortWrite _ (s.writeAlert_pending r v)
  | drainThresholdWrite r v => exact .onPortWrite _ (s.writeDrain_pending r v)
  | holdAlertWrite v => exact .onPortWrite _ (s.writeHoldAlert_pending v)
  | peakReset p => exact .onPortWrite _ (s.resetPeak_pending p)
  | registerWrite p v => exact .onPortWrite _ (s.writeReg_pending v _)
  | cmdStatusWrite v => exact .onPortWrite _ rfl
  | eventWrite v => exact .onPortWrite _ rfl
  | eventEnableWrite v => exact .onPortWrite _ rfl
  | holdLimitWrite v => exact .onPortWrite _ rfl
  | pollWrite v => exact .onPortWrite _ rfl
  | inspectSlotWrite v => exact .onPortWrite _ rfl
  | pointerByte b => exact .onPort rfl
  | busStopCondition => exact .onPort rfl
  | latchedRead =>
    refine .onPort ?_
    split
    exacts [s.sampleByte_pending, s.sampleByte_pending, rfl]
  | powerOnReset => exact .next rfl
  | resetRelease a b => exact .guarded _ rfl
  | heldLowByte b =>
    refine .onPort ?_
    split
    exacts [s.highByte_pending _ b, rfl, rfl]

/-- Settles O2: every command goes on, arm by arm. -/
theorem everyCommandGoesOnAndKeepsTheQueue : Obligations.EveryCommandGoesOnAndKeepsTheQueue :=
  exec_goesOn

end Sys2Proof.Machine
